-- ==== Sys2Proof/Word.lean ====
section
/-! DEFINITION. The words of the JN440: bytes of a management frame, 32-bit management words (spec/00 Conventions),
40-bit byte addresses. -/

namespace Sys2Proof

/-- One byte of a management frame or of a unit's data. -/
abbrev Byte := BitVec 8

/-- One management word (spec/00, Conventions: "Management words are 32 bits wide"). -/
abbrev Word := BitVec 32

/-- A 40-bit byte address (R10). -/
abbrev Address := BitVec 40

end Sys2Proof
end

