-- ==== Sys2Proof/Config.lean ====
section
/-! DEFINITION. What the part fixes once: its capacities (spec/00, Capacities and ranges; R190), and the free values for
the one point at which the rules contradict each other (log 25). -/

namespace Sys2Proof.Config

/-- Entries of the request pool (R89). -/
def poolEntries : Nat := 48

/-- Places of the outstanding table (R129). -/
def tablePlaces : Nat := 64

/-- Places of the response queue (R143). -/
def queuePlaces : Nat := 16

/-- Items of the timeout list (R142). -/
def timeoutItems : Nat := 64

/-- Records of the denial queue (R178). -/
def denialRecords : Nat := 16

/-- The lowest-numbered shaping regulator (R38, R190). -/
def firstShaping : Nat := 12

/-- Largest well-formed request length in bytes (R17). -/
def maxLength : Nat := 256

/-- Bytes of one page, whose boundary a request may not cross (R17). -/
def pageBytes : Nat := 4096

/-- The largest value CONSUMED can hold (R79). -/
def consumedMax : Nat := 4294967295

/-- Where the age of an outstanding entry saturates (R131). -/
def ageMax : Nat := 65535

/-- Width of a marker pulse in REFCLK periods (R163). -/
def pulsePeriods : Nat := 4

/-- PRESCALE after POR or a taken FULL RESET (R86). -/
def resetPrescale : Nat := 100

/-- Whether the discard of an unexpected response of status DENIED sets UNEXPECTED RESPONSE. A free value: R13 and R168 say
that such a response sets no cause, R132, R135 and R169 except no status, and nothing in the spec settles it (log 25). -/
opaque unexpectedDeniedSetsCause : Bool

/-- The same for status TIMEOUT, of which R13 says that it sets no cause (log 25). -/
opaque unexpectedTimeoutSetsCause : Bool

end Sys2Proof.Config
end

