-- ==== Sys2Proof/Syntax.lean ====
section
/-! DEFINITION. The units that pass on the link, the commands of a management frame, and the commands of
spec/opcode_table.json: one constructor of `Instr` per row. -/

namespace Sys2Proof

/-- Number of a regulator, 0 to 15 (R38). -/
abbrev RegNo := Fin 16

/-- Whether memory is read or written (R10). -/
inductive Direction where
  | read
  | write
  deriving DecidableEq, Repr

/-- The pair (initiator, tag) by which the link keeps order (spec/01, Keys and order). -/
structure Key where
  initiator : Fin 16
  tag       : Fin 64
  deriving DecidableEq, Repr

/-- A request unit (R10). `length` is as carried, 0 to 4,095; `data` is the write data, empty for a READ (R11). -/
structure Request where
  key       : Key
  direction : Direction
  address   : Address
  length    : Fin 4096
  data      : List Byte
  deriving DecidableEq, Repr

/-- Outcome of a request as a response unit carries it (R12). -/
inductive ResponseStatus where
  | okay
  | memoryError
  | denied
  | timeout
  deriving DecidableEq, Repr

/-- A response unit (R12). `data` is the read data, present for a READ with OKAY only. -/
structure Response where
  key       : Key
  direction : Direction
  status    : ResponseStatus
  data      : List Byte
  deriving DecidableEq, Repr

/-- Which word of a profile a write names: timing (words 2 and 4) or budget (words 3 and 5) (R38). -/
inductive ProfileWord where
  | timing
  | budget
  deriving DecidableEq, Repr

/-- Which bound of a map entry a write names: word 1 BASE or word 2 LIMIT (R24). -/
inductive BoundWord where
  | base
  | limit
  deriving DecidableEq, Repr

/-- A command part whose CRC has passed: the command its code byte names with its parameters (R183). -/
inductive FrameCommand where
  | identify
  | readField (space index word : Byte)
  | writeField (space index word : Byte) (value : Word)
  | regulatorCommand (kind : Byte) (mask : BitVec 16)
  | clearCauses (target causeSet : Byte)
  | takeDenial
  | summary
  | fullReset
  deriving DecidableEq, Repr

/-- The commands of the block: the rows of spec/opcode_table.json in the table's order. Rows that are frames of the
management port stand for the performance of that frame (R185). -/
inductive Instr where
  | requestOffered (request : Request)
  | forwardTake
  | denyEntryTake
  | directDenial
  | grant
  | memoryTakesRequest
  | responseOffered (response : Response)
  | responseEntersQueue
  | denyEmission
  | timeoutResponse
  | interconnectTakesResponse
  | tick
  | windowEnd (r : RegNo)
  | markerPulseEnd (line : Fin 4)
  | expiry
  | synEdge (line : Fin 4) (level : Bool)
  | prstAsserted
  | prstDeasserted
  | porAsserted
  | porDeasserted
  | identify
  | readField (space index word : Byte)
  | writeField (space index word : Byte) (value : Word)
  | prescale (value : Word)
  | responseTimeout (value : Word)
  | defaultTarget (value : Word)
  | markers (value : Word)
  | deviceMask (value : Word)
  | setup (index : Byte) (value : Word)
  | triggers (index : Byte) (value : Word)
  | activeProfile (index : Byte) (which : ProfileWord) (value : Word)
  | standbyProfile (index : Byte) (which : ProfileWord) (value : Word)
  | causeMask (index : Byte) (value : Word)
  | mapWord0 (index : Byte) (value : Word)
  | baseLimit (index : Byte) (which : BoundWord) (value : Word)
  | enable (mask : BitVec 16)
  | disable (mask : BitVec 16)
  | start (mask : BitVec 16)
  | halt (mask : BitVec 16)
  | restart (mask : BitVec 16)
  | sample (mask : BitVec 16)
  | exchange (mask : BitVec 16)
  | clearCauses (target causeSet : Byte)
  | takeDenial
  | summary
  | fullReset
  | crcMismatch
  | unknownCode (code : Byte)
  | selDeasserted
  | selAsserted
  | byteSlot (sdi : Byte)
  | regulatorCommand (kind : Byte) (mask : BitVec 16)
  deriving DecidableEq, Repr

end Sys2Proof
end

