-- ==== Sys2Proof/Decode.lean ====
section
/-! DEFINITION. What the port reads from bytes: the CRC-8 of R184, the frame layout of R183, the command a checked
command part names and the command part that names a command. The rows of spec/opcode_table.json have no bits, so no
table word spells a command (log 13). -/

namespace Sys2Proof

/-- One shift of the CRC register: shifted left, combined with 0x07 when the outgoing bit is 1 (R184). -/
def crcShift (reg : Byte) : Byte :=
  if reg.msb then (reg <<< 1) ^^^ 0x07#8 else reg <<< 1

/-- The CRC register after one byte, taken most significant bit first (R184). -/
def crcByte (reg byte : Byte) : Byte :=
  crcShift (crcShift (crcShift (crcShift (crcShift (crcShift (crcShift (crcShift (reg ^^^ byte))))))))

/-- The CRC-8 of a list of bytes: polynomial x^8+x^2+x+1, initial value 0x00, not reflected, not inverted (R184). -/
def crc8 (bytes : List Byte) : Byte :=
  bytes.foldl crcByte 0x00#8

/-- Length of the command part that a code byte names, CRC included; none for a code that names no command (R183). -/
def commandPartLength (code : Byte) : Option Nat :=
  match code.toNat with
  | 1 => some 2
  | 2 => some 5
  | 3 => some 9
  | 4 => some 5
  | 5 => some 4
  | 6 => some 2
  | 7 => some 2
  | 15 => some 2
  | _ => none

/-- Four bytes, most significant first, as a word (R183). -/
def wordOfBytes (b3 b2 b1 b0 : Byte) : Word :=
  b3 ++ b2 ++ b1 ++ b0

/-- Two bytes, most significant first, as a regulator mask (R193). -/
def maskOfBytes (hi lo : Byte) : BitVec 16 :=
  hi ++ lo

/-- The `n` low bytes of a number, most significant first (R183: "sent most significant byte first"). -/
def bytesOfNat : Nat → Nat → List Byte
  | 0, _ => []
  | n + 1, v => BitVec.ofNat 8 (v / 256 ^ n) :: bytesOfNat n v

/-- The command that a command part names, given its code byte and its parameter bytes (R183). None when the code
names no command or the parameters are not as many as the code asks for. -/
def parseCommand (code : Byte) (params : List Byte) : Option FrameCommand :=
  match code.toNat, params with
  | 1, [] => some .identify
  | 2, [space, index, word] => some (.readField space index word)
  | 3, [space, index, word, b3, b2, b1, b0] => some (.writeField space index word (wordOfBytes b3 b2 b1 b0))
  | 4, [kind, hi, lo] => some (.regulatorCommand kind (maskOfBytes hi lo))
  | 5, [target, causeSet] => some (.clearCauses target causeSet)
  | 6, [] => some .takeDenial
  | 7, [] => some .summary
  | 15, [] => some .fullReset
  | _, _ => none

/-- The code byte and parameter bytes of a command, before its CRC byte (R183). -/
def commandBody : FrameCommand → List Byte
  | .identify => [0x01#8]
  | .readField space index word => [0x02#8, space, index, word]
  | .writeField space index word value => [0x03#8, space, index, word] ++ bytesOfNat 4 value.toNat
  | .regulatorCommand kind mask => [0x04#8, kind] ++ bytesOfNat 2 mask.toNat
  | .clearCauses target causeSet => [0x05#8, target, causeSet]
  | .takeDenial => [0x06#8]
  | .summary => [0x07#8]
  | .fullReset => [0x0F#8]

/-- The whole command part the host sends for a command: its body and the CRC over it (R183, R184). -/
def encodeCommand (c : FrameCommand) : List Byte :=
  commandBody c ++ [crc8 (commandBody c)]

/-- The command a table word spells. No row of spec/opcode_table.json gives bits, so no word spells one (log 13). -/
def decodeTableWord (_nbits _w : Nat) : Option Instr := none

end Sys2Proof
end

