-- ==== Sys2Proof/WellFormed.lean ====
section
/-! DEFINITION. Which commands the outside can send at all: units the link can carry, and an unknown code that names no
command. The meanings do not depend on these checks: an ill-formed unit is handled as it stands (log 9). -/

namespace Sys2Proof

/-- A WRITE carries exactly length bytes of write data, and a READ carries none (R11). -/
def wellFormedRequest (q : Request) : Bool :=
  match q.direction with
  | .read => q.data.isEmpty
  | .write => q.data.length == q.length.val

/-- A response carries read data only when it answers a READ with OKAY (R12). -/
def wellFormedResponse (r : Response) : Bool :=
  r.data.isEmpty || (r.direction == .read && r.status == .okay)

/-- The row UNKNOWN_CODE is a first byte that names no command (R187). -/
def wellFormedUnknown (code : Byte) : Bool :=
  (commandPartLength code).isNone

/-- The commands that the outside can send. -/
def wellFormed : Instr → Bool
  | .requestOffered q => wellFormedRequest q
  | .responseOffered r => wellFormedResponse r
  | .unknownCode code => wellFormedUnknown code
  | _ => true

end Sys2Proof
end

