-- ==== Sys2Proof/Machine/State.lean ====
section
/-! DEFINITION. The state of the JN440 as plain data, block by block, and its value right after reset. What a rule of the
spec makes a function of other state (lane lengths, gates, ALERT, marker levels, SDO) is computed, not stored (log 15). -/

namespace Sys2Proof.Machine

/-! ## Stream map -/

/-- The result of classification: a regulator or BYPASS (R26). -/
inductive Target where
  | regulator (r : RegNo)
  | bypass
  deriving DecidableEq, Repr

/-- DIRECTION MATCH of a map entry (R24). -/
inductive DirectionMatch where
  | read
  | write
  | both
  deriving DecidableEq, Repr

/-- One entry of the stream map (R24). `initiator` none stands for ANY; `base` and `limit` are page numbers, address
bits 39 to 12. -/
structure MapEntry where
  valid     : Bool
  direction : DirectionMatch
  initiator : Option (Fin 16)
  target    : Target
  base      : Nat
  limit     : Nat
  deriving DecidableEq, Repr

/-! ## Regulator contexts -/

/-- The four states of a regulator (R42). -/
inductive RegState where
  | off
  | armed
  | running
  | halted
  deriving DecidableEq, Repr

/-- MODE of a regulator (R39). -/
inductive Mode where
  | window
  | count
  | shape
  deriving DecidableEq, Repr

/-- OVERFLOW POLICY of a regulator (R39). -/
inductive OverflowPolicy where
  | stall
  | reject
  deriving DecidableEq, Repr

/-- The six fields of setup word 0 (R39, R55). -/
structure Setup where
  mode             : Mode
  priority         : Nat
  policy           : OverflowPolicy
  holdQuota        : Nat
  outstandingLimit : Nat
  autoSample       : Bool
  deriving DecidableEq, Repr

/-- The edge of a trigger selection (R39). -/
inductive EdgeSelect where
  | rising
  | falling
  | both
  deriving DecidableEq, Repr

/-- A trigger selection: a SYN line, or none, and an edge (R39). -/
structure Selection where
  line : Option (Fin 4)
  edge : EdgeSelect
  deriving DecidableEq, Repr

/-- The five trigger selections of triggers word 1 (R39, R56). -/
structure Triggers where
  start    : Selection
  halt     : Selection
  restart  : Selection
  sample   : Selection
  exchange : Selection
  deriving DecidableEq, Repr

/-- A profile: the window parameters (R40). -/
structure Profile where
  period     : Nat
  openLength : Nat
  budget     : Nat
  deriving DecidableEq, Repr

/-- A regulator context (R38 to R41). `causes` and `mask` use the bit positions of words 12 and 13 (R201). LANE LENGTH is
the pool's and is computed from it (R41, log 15). -/
structure Regulator where
  setup            : Setup
  triggers         : Triggers
  active           : Profile
  standby          : Profile
  state            : RegState
  exchangePending  : Bool
  position         : Nat
  consumed         : Nat
  windowsCompleted : BitVec 16
  outstandingCount : Nat
  sample           : Nat
  priorSample      : Nat
  sampleWindow     : BitVec 16
  causes           : BitVec 7
  mask             : BitVec 7
  deriving DecidableEq, Repr

/-- The commands that act on a regulator (R43, R193). -/
inductive CommandKind where
  | enable
  | disable
  | start
  | halt
  | restart
  | sample
  | exchange
  deriving DecidableEq, Repr

/-! ## Causes -/

/-- The seven causes of a regulator (R168). -/
inductive Cause where
  | windowEnd
  | exhausted
  | overBudget
  | quotaHit
  | denied
  | sampled
  | exchanged
  deriving DecidableEq, Repr

/-- The six device causes (R169). -/
inductive DeviceCause where
  | poolFull
  | timeout
  | unexpectedResponse
  | denialQueueFull
  | malformed
  | frameError
  deriving DecidableEq, Repr

/-! ## Request pool and order tracker -/

/-- A lane of the pool: that of a regulator, or the bypass lane 16 (R88). -/
inductive Lane where
  | regulator (r : RegNo)
  | bypass
  deriving DecidableEq, Repr

/-- Why a request is denied (R91, R176). -/
inductive DenyReason where
  | malformed
  | quota
  | poolFull
  deriving DecidableEq, Repr

/-- The kind of a pool entry; a DENY entry has its reason (R87). -/
inductive EntryKind where
  | forward
  | deny (reason : DenyReason)
  deriving DecidableEq, Repr

/-- A pool entry (R87). `place` is its place in arrival order (R6). `request` holds key, direction, address, length and,
for a FORWARD WRITE, the write data. The charged regulator is computed from the lane (R87, log 15). -/
structure PoolEntry where
  kind    : EntryKind
  lane    : Lane
  place   : Nat
  request : Request
  target  : Target
  deriving DecidableEq, Repr

/-- The three counts of a key in the order tracker (R100). -/
structure KeyCounts where
  pooled : Nat
  live   : Nat
  owed   : Nat
  deriving DecidableEq, Repr

/-- A request offered on the upstream request channel, with the runs of considerations that R94 keeps for it: the lane
found at quota by the last consideration, and whether that one found the pool full (log 8). -/
structure Offer where
  request  : Request
  quotaRun : Option RegNo
  poolRun  : Bool
  deriving DecidableEq, Repr

/-! ## Outstanding table, timeout list, denial queue -/

/-- Whether the part still forwards memory's response (R129). -/
inductive EntryState where
  | live
  | abandoned
  deriving DecidableEq, Repr

/-- An outstanding entry in use (R129). -/
structure OutEntry where
  state     : EntryState
  key       : Key
  direction : Direction
  length    : Fin 4096
  charged   : Option RegNo
  age       : Nat
  place     : Nat
  deriving DecidableEq, Repr

/-- An owed TIMEOUT response on the timeout list (R142). -/
structure OwedItem where
  key       : Key
  direction : Direction
  place     : Nat
  deriving DecidableEq, Repr

/-- A denial record (R176). -/
structure DenialRecord where
  key       : Key
  direction : Direction
  address   : Address
  length    : Fin 4096
  reason    : DenyReason
  target    : Target
  time      : BitVec 32
  deriving DecidableEq, Repr

/-! ## Sync and marker unit, management port -/

/-- KIND of a marker line (R160). -/
inductive MarkerKind where
  | none
  | gate
  | windowEnd
  | exhausted
  | sampled
  | exchanged
  | quotaHit
  deriving DecidableEq, Repr

/-- A marker line: its configuration (R160) and the REFCLK periods its pulse has left, 0 when no pulse is in
progress (R163). -/
structure Marker where
  source    : RegNo
  kind      : MarkerKind
  pulseLeft : Nat
  deriving DecidableEq, Repr

/-- A SYN line: the level the outside drives it to, and the level the part last sampled and keeps, true for high (R152).
`kept` is none after POR and a taken FULL RESET until the line's next sample (R152, R197). -/
structure SynLine where
  level : Bool
  kept  : Option Bool
  deriving DecidableEq, Repr

/-- The state of the management port (R182): COMMAND holds the bytes received, REPLY the bytes still to shift out. -/
inductive Port where
  | idle
  | command (received : List Byte)
  | reply (rest : List Byte)
  | after
  | barred
  deriving DecidableEq, Repr

/-- The status byte of a reply part (R189). -/
inductive Status where
  | done
  | noEffect
  | locked
  | range
  | index
  | busy
  | frame
  deriving DecidableEq, Repr

/-! ## What the part decides -/

/-- What a consideration finds for the offered request (R91, R95): it can be taken as a FORWARD entry; it stays offered;
it is a direct denial that claims a response queue place; it can be taken as a DENY entry. -/
inductive Disposition where
  | forward
  | stall
  | directDenial (reason : DenyReason)
  | denyEntry (reason : DenyReason)
  deriving DecidableEq, Repr

/-- A consideration: the target as classified, the effective lane, the disposition, and the situations that set causes:
the lane found at quota (row 2 of R91), and whether the pool was found full for a lane or for a DENY entry (R94). -/
structure Verdict where
  target      : Target
  lane        : Lane
  disposition : Disposition
  atQuota     : Option RegNo
  foundFull   : Bool
  deriving DecidableEq, Repr

/-- The claimants of a response queue place, first to last (R144). -/
inductive Claimant where
  | timeoutList
  | denyHead
  | memory
  | intake
  deriving DecidableEq, Repr

/-! ## The whole part -/

/-- The state of the part. -/
structure State where
  /-- POR is asserted (R23). -/
  por : Bool
  /-- PRST is asserted (R20). -/
  prst : Bool
  /-- SEL is asserted (R181). -/
  sel : Bool
  /-- The SYN lines with their kept levels (R152). -/
  syn : Vector SynLine 4
  /-- The request offered on the upstream request channel and not yet taken (R2, R5). -/
  offer : Option Offer
  /-- The request the downstream grant holds: none is IDLE, some is OFFERING (R114). -/
  held : Option Request
  /-- The response memory offers and the part has not taken (R8). -/
  memoryOffer : Option Response
  /-- The response queue, oldest first (R143). -/
  responses : List Response
  /-- The timeout list, in arrival order (R142). -/
  owed : List OwedItem
  /-- The request pool: every entry of every lane, in arrival order (R88, R89). -/
  pool : List PoolEntry
  /-- The order tracker: the counts of the 1,024 keys (R100), at `keyIndex`. -/
  tracker : Vector KeyCounts 1024
  /-- The place in arrival order that the next take gives (R6, log 12). -/
  nextPlace : Nat
  /-- The outstanding table: none is a FREE place (R129). -/
  outstanding : Vector (Option OutEntry) 64
  /-- RESPONSE TIMEOUT in ticks, 0 for off (R137). -/
  responseTimeout : Nat
  /-- The stream map (R24). -/
  map : Vector MapEntry 32
  /-- DEFAULT TARGET (R26). -/
  defaultTarget : Target
  /-- BYPASS PRIORITY (R35). -/
  bypassPriority : Nat
  /-- The sixteen regulator contexts (R38). -/
  regs : Vector Regulator 16
  /-- PRESCALE: REFCLK periods of the intervals that begin from the next tick (R63, R65). -/
  prescale : Nat
  /-- REFCLK periods of the interval the tick divider is running (R65). -/
  interval : Nat
  /-- REFCLK periods the tick divider has counted in that interval (R63). -/
  divider : Nat
  /-- The timebase count (R64). -/
  timebase : BitVec 32
  /-- The model's own: regulators that the tick in progress has still to reach with a window end (R66, log 5). -/
  windowEndDue : List RegNo
  /-- The model's own: the tick in progress has still to judge expiry (R138, log 5). -/
  expiryDue : Bool
  /-- The marker lines MK0 to MK3 (R160). -/
  markers : Vector Marker 4
  /-- The device causes, in the bit positions of DEVICE word 4 (R169, R200). -/
  deviceCauses : BitVec 6
  /-- The device mask, set bits mask (R170). -/
  deviceMask : BitVec 6
  /-- The denial queue, oldest first (R178). -/
  denials : List DenialRecord
  /-- The management port (R182). -/
  port : Port
  /-- The model's own: the commands that wait, first in first out. -/
  pending : List Instr
  deriving DecidableEq, Repr

/-- Reasons to stop with a fault: there is none, because the part answers every event it can meet (INVENTORY.md,
Faults). -/
inductive Fault where
  deriving DecidableEq, Repr

/-- Reasons to refuse a command. -/
inductive Refusal where
  /-- Raised by an arm of `exec` that has no meaning yet; no arm raises it. Safe: the model stops. -/
  | notModelled (mnemonic : String)
  deriving DecidableEq, Repr

/-! ## Reset values -/

/-- A map entry after reset (R36). -/
def resetMapEntry : MapEntry :=
  { valid := false, direction := .read, initiator := some 0, target := .regulator 0, base := 0, limit := 0 }

/-- A trigger selection after reset: line none, edge RISING (R61). -/
def resetSelection : Selection := { line := none, edge := .rising }

/-- A profile after reset: PERIOD 1, OPEN LENGTH 1, BUDGET 0 (R61). -/
def resetProfile : Profile := { period := 1, openLength := 1, budget := 0 }

/-- A regulator context after reset (R61). -/
def resetRegulator : Regulator :=
  { setup :=
      { mode := .window, priority := 0, policy := .stall, holdQuota := 8, outstandingLimit := 0, autoSample := false }
    triggers :=
      { start := resetSelection, halt := resetSelection, restart := resetSelection, sample := resetSelection,
        exchange := resetSelection }
    active := resetProfile
    standby := resetProfile
    state := .off
    exchangePending := false
    position := 0
    consumed := 0
    windowsCompleted := 0#16
    outstandingCount := 0
    sample := 0
    priorSample := 0
    sampleWindow := 0#16
    causes := 0#7
    mask := 0x7F#7 }

/-- A marker line after reset: KIND NONE, SOURCE 0, low (R166). -/
def resetMarker : Marker := { source := 0, kind := .none, pulseLeft := 0 }

/-- A SYN line right after reset: low, with its first sample taken (log 10). -/
def resetSynLine : SynLine := { level := false, kept := some false }

/-- A key with no work in the part (R112, R150). -/
def freeKey : KeyCounts := { pooled := 0, live := 0, owed := 0 }

/-- The part right after POR is deasserted, with the lines quiet: SEL and PRST deasserted, SYN low, nothing offered by
the partners (log 10). Every other value is one the spec gives (R36, R61, R86, R112, R126, R150, R166, R175, R180,
R204). -/
def State.reset : State :=
  { por := false
    prst := false
    sel := false
    syn := Vector.replicate 4 resetSynLine
    offer := none
    held := none
    memoryOffer := none
    responses := []
    owed := []
    pool := []
    tracker := Vector.replicate 1024 freeKey
    nextPlace := 0
    outstanding := Vector.replicate 64 none
    responseTimeout := 0
    map := Vector.replicate 32 resetMapEntry
    defaultTarget := .bypass
    bypassPriority := 3
    regs := Vector.replicate 16 resetRegulator
    prescale := Config.resetPrescale
    interval := Config.resetPrescale
    divider := 0
    timebase := 0#32
    windowEndDue := []
    expiryDue := false
    markers := Vector.replicate 4 resetMarker
    deviceCauses := 0#6
    deviceMask := 0x3F#6
    denials := []
    port := .idle
    pending := [] }

end Sys2Proof.Machine
end

