-- ==== Sys2Proof/Machine/Slots.lean ====
section
/-! DEFINITION. Reading and writing the part's fixed arrays: a function over every slot, the slots with their numbers,
and the regulator context and key counts at their index. -/

namespace Sys2Proof.Machine

/-- Every slot of an array passed through a function. -/
def mapSlots {α β : Type} {n : Nat} (f : α → β) (v : Vector α n) : Vector β n :=
  ⟨⟨v.toList.map f⟩, by simp⟩

/-- The slots of an array with their numbers, lowest first. -/
def indexed {α : Type} {n : Nat} (v : Vector α n) : List (Fin n × α) :=
  (List.finRange n).map fun i => (i, v[i])

/-- The context of regulator r. -/
def reg (s : State) (r : RegNo) : Regulator := s.regs[r]

/-- The state with the context of regulator r replaced. -/
def setReg (s : State) (r : RegNo) (g : Regulator) : State :=
  { s with regs := s.regs.set r g }

/-- Where a key's counts stand in the order tracker: initiator times 64 plus tag. -/
def keyIndex (k : Key) : Fin 1024 :=
  ⟨k.initiator.val * 64 + k.tag.val, by omega⟩

/-- The three counts of a key (R100). -/
def counts (s : State) (k : Key) : KeyCounts := s.tracker[keyIndex k]

/-- The state with the counts of a key replaced. -/
def setCounts (s : State) (k : Key) (c : KeyCounts) : State :=
  { s with tracker := s.tracker.set (keyIndex k) c }

/-- A key is free when its three counts are all 0 (R100). -/
def keyFree (s : State) (k : Key) : Bool :=
  counts s k == freeKey

end Sys2Proof.Machine
end

