-- ==== Sys2Proof/Machine/Flags.lean ====
section
/-! DEFINITION. Flags and lines: setting a cause (R167 to R169), the gate (R74), ALERT (R171), the attention mask (R172),
marker pulses and levels (R161 to R163). -/

namespace Sys2Proof.Machine

/-- The bit of a regulator cause in words 12 and 13 (R201). -/
def causeBit : Cause → BitVec 7
  | .windowEnd => 0x01#7
  | .exhausted => 0x02#7
  | .overBudget => 0x04#7
  | .quotaHit => 0x08#7
  | .denied => 0x10#7
  | .sampled => 0x20#7
  | .exchanged => 0x40#7

/-- The bit of a device cause in DEVICE words 4 and 5 (R200). -/
def deviceBit : DeviceCause → BitVec 6
  | .poolFull => 0x01#6
  | .timeout => 0x02#6
  | .unexpectedResponse => 0x04#6
  | .denialQueueFull => 0x08#6
  | .malformed => 0x10#6
  | .frameError => 0x20#6

/-- The marker kind whose lines pulse at an event that sets a cause; OVER BUDGET and DENIED have none (R161). -/
def pulseKind : Cause → Option MarkerKind
  | .windowEnd => some .windowEnd
  | .exhausted => some .exhausted
  | .overBudget => none
  | .quotaHit => some .quotaHit
  | .denied => none
  | .sampled => some .sampled
  | .exchanged => some .exchanged

/-- A marker line at an event of regulator r that sets cause c: a line of that source and kind is high for four REFCLK
periods from this event (R163). -/
def pulseLine (r : RegNo) (c : Cause) (m : Marker) : Marker :=
  if m.source = r ∧ some m.kind = pulseKind c then { m with pulseLeft := Config.pulsePeriods } else m

/-- The marker lines at such an event. A source that is OFF makes no pulse (R164). -/
def pulseLines (r : RegNo) (c : Cause) (state : RegState) (lines : Vector Marker 4) : Vector Marker 4 :=
  if state = .off then lines else mapSlots (pulseLine r c) lines

/-- An event sets cause c of regulator r: the cause is set, masked or not, and the marker lines of its kind pulse
(R167). -/
def raiseCause (r : RegNo) (c : Cause) (s : State) : State :=
  let g := reg s r
  { s with
    regs := s.regs.set r { g with causes := g.causes ||| causeBit c }
    markers := pulseLines r c g.state s.markers }

/-- An event sets several causes of regulator r. -/
def raiseCauses (r : RegNo) (cs : List Cause) (s : State) : State :=
  cs.foldl (fun t c => raiseCause r c t) s

/-- An event sets a device cause (R169). -/
def raiseDevice (c : DeviceCause) (s : State) : State :=
  { s with deviceCauses := s.deviceCauses ||| deviceBit c }

/-- The gate of a regulator is open (R74). -/
def gateOpen (g : Regulator) : Bool :=
  g.state == .running &&
    match g.setup.mode with
    | .window => decide (g.consumed < g.active.budget)
    | .shape => decide (g.position < g.active.openLength) && decide (g.consumed < g.active.budget)
    | .count => true

/-- A regulator has a set cause whose mask bit is clear (R172). -/
def attention (g : Regulator) : Bool :=
  g.causes &&& ~~~ g.mask != 0#7

/-- ALERT is driven low: POR is not asserted, and some cause of a regulator or of the device is set with its mask bit
clear (R171). -/
def alertLow (s : State) : Bool :=
  !s.por && (s.regs.toList.any attention || s.deviceCauses &&& ~~~ s.deviceMask != 0#6)

/-- The regulator attention mask of SUMMARY as a number: bit r for regulator r (R172, R196). -/
def attentionMask (s : State) : Nat :=
  (indexed s.regs).foldl (fun n p => if attention p.2 then n + 2 ^ p.1.val else n) 0

/-- A marker line is high: a GATE line while its source's gate is open (R162), a line of a pulse kind while its pulse
lasts (R163). While POR is asserted the lines are held low (R166). -/
def markerHigh (s : State) (line : Fin 4) : Bool :=
  let m := s.markers[line]
  !s.por &&
    match m.kind with
    | .none => false
    | .gate => gateOpen (reg s m.source)
    | _ => decide (0 < m.pulseLeft)

/-- n REFCLK periods of a marker pulse (R163). -/
def runPulse (n : Nat) (m : Marker) : Marker := { m with pulseLeft := m.pulseLeft - n }

/-- A marker line whose source takes DISABLE: it goes low, whatever its kind, and keeps its configuration (R164). -/
def quietLine (r : RegNo) (m : Marker) : Marker :=
  if m.source = r then { m with pulseLeft := 0 } else m

end Sys2Proof.Machine
end

