-- ==== Sys2Proof/Machine/Operands.lean ====
section
/-! DEFINITION. The management words (R199 to R203): each word as software reads it, and each writable word's fields with
their range checks. A decoder answers none where a field is out of range (R199), and ignores bits of no field. -/

namespace Sys2Proof.Machine

/-- The field of n bits whose lowest bit is lo (R199: a field is a range of bit numbers). -/
def field (v lo n : Nat) : Nat := v / 2 ^ lo % 2 ^ n

/-- One bit of a word. -/
def flag (v bit : Nat) : Bool := field v bit 1 == 1

/-- A flag as a number of one bit. -/
def flagBit (b : Bool) : Nat := if b then 1 else 0

/-! ## Codes -/

/-- DEFAULT TARGET and TARGET: 0 to 15 regulator, 16 BYPASS (R200, R202). -/
def targetCode : Target → Nat
  | .regulator r => r.val
  | .bypass => 16

/-- The target a code names. -/
def decodeTarget (v : Nat) : Option Target :=
  if h : v < 16 then some (.regulator ⟨v, h⟩) else if v = 16 then some .bypass else none

/-- DIRECTION MATCH (R202). -/
def directionMatchCode : DirectionMatch → Nat
  | .read => 0
  | .write => 1
  | .both => 2

/-- The direction match a code names. -/
def decodeDirectionMatch : Nat → Option DirectionMatch
  | 0 => some .read
  | 1 => some .write
  | 2 => some .both
  | _ => none

/-- INITIATOR MATCH: 0 to 15, 16 ANY (R202). -/
def initiatorCode : Option (Fin 16) → Nat
  | some i => i.val
  | none => 16

/-- The initiator match a code names. -/
def decodeInitiator (v : Nat) : Option (Option (Fin 16)) :=
  if h : v < 16 then some (some ⟨v, h⟩) else if v = 16 then some none else none

/-- MODE (R201). -/
def modeCode : Mode → Nat
  | .window => 0
  | .count => 1
  | .shape => 2

/-- The mode a code names. -/
def decodeMode : Nat → Option Mode
  | 0 => some .window
  | 1 => some .count
  | 2 => some .shape
  | _ => none

/-- OVERFLOW POLICY (R201). -/
def policyCode : OverflowPolicy → Nat
  | .stall => 0
  | .reject => 1

/-- The overflow policy a code names. -/
def decodePolicy : Nat → Option OverflowPolicy
  | 0 => some .stall
  | 1 => some .reject
  | _ => none

/-- AUTO SAMPLE: 0 off, 1 on; other codes name nothing (R201). -/
def decodeSwitch : Nat → Option Bool
  | 0 => some false
  | 1 => some true
  | _ => none

/-- STATE (R201). -/
def stateCode : RegState → Nat
  | .off => 0
  | .armed => 1
  | .running => 2
  | .halted => 3

/-- The line of a trigger selection: 0 none, 1 to 4 SYN0 to SYN3 (R201). -/
def lineCode : Option (Fin 4) → Nat
  | none => 0
  | some l => l.val + 1

/-- The trigger line a code names. -/
def decodeLine : Nat → Option (Option (Fin 4))
  | 0 => some none
  | 1 => some (some 0)
  | 2 => some (some 1)
  | 3 => some (some 2)
  | 4 => some (some 3)
  | _ => none

/-- The edge of a trigger selection (R201). -/
def edgeCode : EdgeSelect → Nat
  | .rising => 0
  | .falling => 1
  | .both => 2

/-- The edge a code names. -/
def decodeEdge : Nat → Option EdgeSelect
  | 0 => some .rising
  | 1 => some .falling
  | 2 => some .both
  | _ => none

/-- KIND of a marker line (R200). -/
def markerKindCode : MarkerKind → Nat
  | .none => 0
  | .gate => 1
  | .windowEnd => 2
  | .exhausted => 3
  | .sampled => 4
  | .exchanged => 5
  | .quotaHit => 6

/-- The marker kind a code names. -/
def decodeMarkerKind : Nat → Option MarkerKind
  | 0 => some .none
  | 1 => some .gate
  | 2 => some .windowEnd
  | 3 => some .exhausted
  | 4 => some .sampled
  | 5 => some .exchanged
  | 6 => some .quotaHit
  | _ => none

/-- Direction in the OUTSTANDING word and in a denial record: 0 READ, 1 WRITE (R195, R203). -/
def directionCode : Direction → Nat
  | .read => 0
  | .write => 1

/-- Deny reason in a denial record (R195). -/
def reasonCode : DenyReason → Nat
  | .malformed => 1
  | .quota => 2
  | .poolFull => 3

/-- The regulator command a kind byte names (R193). -/
def decodeKind (kind : Byte) : Option CommandKind :=
  match kind.toNat with
  | 1 => some .enable
  | 2 => some .disable
  | 3 => some .start
  | 4 => some .halt
  | 5 => some .restart
  | 6 => some .sample
  | 7 => some .exchange
  | _ => none

/-- The code of a regulator command (R193). -/
def kindCode : CommandKind → Byte
  | .enable => 0x01#8
  | .disable => 0x02#8
  | .start => 0x03#8
  | .halt => 0x04#8
  | .restart => 0x05#8
  | .sample => 0x06#8
  | .exchange => 0x07#8

/-! ## DEVICE words (R200) -/

/-- DEVICE word 0: PRESCALE, 1 to 65,536. -/
def decodePrescale (v : Nat) : Option Nat :=
  if 1 ≤ v ∧ v ≤ 65536 then some v else none

/-- DEVICE word 1: RESPONSE TIMEOUT, 0 to 65,535. -/
def decodeTimeout (v : Nat) : Option Nat :=
  if v ≤ 65535 then some v else none

/-- DEVICE word 2 as read: DEFAULT TARGET and BYPASS PRIORITY. -/
def defaultTargetWord (t : Target) (priority : Nat) : Nat :=
  targetCode t + priority * 2 ^ 8

/-- DEVICE word 2 as written (R35). -/
def decodeDefaultTarget (v : Nat) : Option (Target × Nat) :=
  match decodeTarget (field v 0 5) with
  | some t => if field v 8 3 ≤ 3 then some (t, field v 8 3) else none
  | none => none

/-- The eight bits of one line in DEVICE word 3: SOURCE and KIND. -/
def markerByte (m : Marker) : Nat :=
  m.source.val + markerKindCode m.kind * 2 ^ 4

/-- DEVICE word 3 as read (R160). -/
def markersWord (lines : Vector Marker 4) : Nat :=
  markerByte lines[0] + markerByte lines[1] * 2 ^ 8 + markerByte lines[2] * 2 ^ 16 + markerByte lines[3] * 2 ^ 24

/-- The configuration written for one line: bits lo+3:lo SOURCE, bits lo+6:lo+4 KIND. -/
def decodeMarker (v lo : Nat) : Option (RegNo × MarkerKind) :=
  match decodeMarkerKind (field v (lo + 4) 3) with
  | some k => some (⟨field v lo 4 % 16, by omega⟩, k)
  | none => none

/-- A line under a written configuration: one that changes goes low, one that does not is not disturbed (R160). -/
def configureLine (m : Marker) (c : RegNo × MarkerKind) : Marker :=
  if m.source = c.1 ∧ m.kind = c.2 then m else { source := c.1, kind := c.2, pulseLeft := 0 }

/-- DEVICE word 3 as written: the four lines under their written configurations, or none when a KIND names no kind
(R160). -/
def writeMarkers (v : Nat) (lines : Vector Marker 4) : Option (Vector Marker 4) :=
  match decodeMarker v 0, decodeMarker v 8, decodeMarker v 16, decodeMarker v 24 with
  | some c0, some c1, some c2, some c3 =>
    some #v[configureLine lines[0] c0, configureLine lines[1] c1, configureLine lines[2] c2, configureLine lines[3] c3]
  | _, _, _, _ => none

/-! ## REGULATOR words (R201) -/

/-- REGULATOR word 0 as read. -/
def setupWord (u : Setup) : Nat :=
  modeCode u.mode + u.priority * 2 ^ 4 + policyCode u.policy * 2 ^ 8 + flagBit u.autoSample * 2 ^ 12
    + u.holdQuota * 2 ^ 16 + u.outstandingLimit * 2 ^ 24

/-- REGULATOR word 0 as written to regulator r, with the range checks of R55. -/
def decodeSetup (r : RegNo) (v : Nat) : Option Setup :=
  match decodeMode (field v 0 2), decodePolicy (field v 8 2), decodeSwitch (field v 12 2) with
  | some mode, some policy, some auto =>
    if (mode = .shape → Config.firstShaping ≤ r.val) ∧ field v 4 3 ≤ 3 ∧ 1 ≤ field v 16 6 ∧ field v 16 6 ≤ 48
        ∧ field v 24 7 ≤ 64 then
      some { mode := mode, priority := field v 4 3, policy := policy, holdQuota := field v 16 6,
             outstandingLimit := field v 24 7, autoSample := auto }
    else none
  | _, _, _ => none

/-- One trigger selection as read: line in the low three bits, edge above. -/
def selectionBits (t : Selection) : Nat :=
  lineCode t.line + edgeCode t.edge * 2 ^ 3

/-- One trigger selection as written, its bits starting at lo. -/
def decodeSelection (v lo : Nat) : Option Selection :=
  match decodeLine (field v lo 3), decodeEdge (field v (lo + 3) 2) with
  | some l, some e => some { line := l, edge := e }
  | _, _ => none

/-- REGULATOR word 1 as read: function k at bits 6k+4 to 6k. -/
def triggersWord (t : Triggers) : Nat :=
  selectionBits t.start + selectionBits t.halt * 2 ^ 6 + selectionBits t.restart * 2 ^ 12
    + selectionBits t.sample * 2 ^ 18 + selectionBits t.exchange * 2 ^ 24

/-- REGULATOR word 1 as written (R56). -/
def decodeTriggers (v : Nat) : Option Triggers :=
  match decodeSelection v 0, decodeSelection v 6, decodeSelection v 12, decodeSelection v 18, decodeSelection v 24 with
  | some a, some b, some c, some d, some e =>
    some { start := a, halt := b, restart := c, sample := d, exchange := e }
  | _, _, _, _, _ => none

/-- REGULATOR words 2 and 4 as read. -/
def timingWord (p : Profile) : Nat :=
  p.period + p.openLength * 2 ^ 16

/-- A profile under a write of its timing word or its budget word, with the range checks of R57; none when a field is
out of range. -/
def writeProfile (p : Profile) (which : ProfileWord) (v : Nat) : Option Profile :=
  match which with
  | .timing =>
    if 1 ≤ field v 0 16 ∧ 1 ≤ field v 16 16 ∧ field v 16 16 ≤ field v 0 16 then
      some { p with period := field v 0 16, openLength := field v 16 16 }
    else none
  | .budget => if v ≤ 16777215 then some { p with budget := v } else none

/-- REGULATOR word 6 as read, given the lane's length. -/
def statusWord (g : Regulator) (laneLength : Nat) : Nat :=
  stateCode g.state + flagBit g.exchangePending * 2 ^ 4 + g.outstandingCount * 2 ^ 8 + laneLength * 2 ^ 16

/-- REGULATOR word 7 as read. -/
def windowWord (g : Regulator) : Nat :=
  g.position + g.windowsCompleted.toNat * 2 ^ 16

/-! ## MAP words (R202) -/

/-- MAP word 0 as read. -/
def mapWord (e : MapEntry) : Nat :=
  flagBit e.valid + directionMatchCode e.direction * 2 ^ 4 + initiatorCode e.initiator * 2 ^ 8
    + targetCode e.target * 2 ^ 16

/-- MAP word 0 as written: the entry with the written fields, BASE and LIMIT kept; none when a field is out of range
(R33, R34). -/
def decodeMapWord (e : MapEntry) (v : Nat) : Option MapEntry :=
  match decodeDirectionMatch (field v 4 2), decodeInitiator (field v 8 5), decodeTarget (field v 16 5) with
  | some d, some i, some t => some { e with valid := flag v 0, direction := d, initiator := i, target := t }
  | _, _, _ => none

/-- MAP words 1 and 2 as written: the entry with BASE or LIMIT replaced, none above 268,435,455 (R32). -/
def writeBound (e : MapEntry) (which : BoundWord) (v : Nat) : Option MapEntry :=
  if v ≤ 268435455 then
    match which with
    | .base => some { e with base := v }
    | .limit => some { e with limit := v }
  else none

/-! ## LANE and OUTSTANDING words (R203) -/

/-- Head kind, initiator and tag bits of the LANE word. -/
def headBits : Option PoolEntry → Nat
  | none => 0
  | some e =>
    (match e.kind with
      | .forward => 1
      | .deny _ => 2) * 2 ^ 8 + e.request.key.initiator.val * 2 ^ 16 + e.request.key.tag.val * 2 ^ 24

/-- LANE word 0 as read. -/
def laneWord (length : Nat) (head : Option PoolEntry) : Nat :=
  length + headBits head

/-- The state and charge code of an outstanding entry: 1 to 16 LIVE charged to a regulator, 17 LIVE charged to none,
18 ABANDONED. -/
def chargeCode (e : OutEntry) : Nat :=
  match e.state, e.charged with
  | .live, some r => r.val + 1
  | .live, none => 17
  | .abandoned, _ => 18

/-- OUTSTANDING word 0 as read; a FREE place reads 0. -/
def outstandingWord : Option OutEntry → Nat
  | none => 0
  | some e =>
    chargeCode e + directionCode e.direction * 2 ^ 5 + e.key.initiator.val * 2 ^ 6 + e.key.tag.val * 2 ^ 10
      + (e.length.val - 1) * 2 ^ 16 + e.age / 256 * 2 ^ 24

end Sys2Proof.Machine
end

