-- ==== Sys2Proof/Machine/Ops.lean ====
section
/-! DEFINITION. The named operations the commands share: classification, the pool, the take decision, the regulator
events, the outstanding table, the arbiter of the response queue, the tick, and the resets. -/

namespace Sys2Proof.Machine

/-- Traffic may pass on the link: neither POR nor PRST is asserted (R21, R23). -/
def flowing (s : State) : Bool := !s.por && !s.prst

/-! ## Classification -/

/-- A request is malformed (R17). -/
def malformed (q : Request) : Bool :=
  q.length.val == 0 || decide (Config.maxLength < q.length.val)
    || decide (Config.pageBytes < q.address.toNat % Config.pageBytes + q.length.val)

/-- The page of a request: address bits 39 to 12 of its first byte (R25). -/
def page (q : Request) : Nat := q.address.toNat / Config.pageBytes

/-- DIRECTION MATCH admits a direction (R25). -/
def directionAdmits : DirectionMatch → Direction → Bool
  | .both, _ => true
  | .read, d => d == .read
  | .write, d => d == .write

/-- INITIATOR MATCH admits an initiator; none is ANY (R25). -/
def initiatorAdmits : Option (Fin 16) → Fin 16 → Bool
  | none, _ => true
  | some i, j => i == j

/-- A map entry matches a request (R25). -/
def entryMatches (e : MapEntry) (q : Request) : Bool :=
  e.valid && directionAdmits e.direction q.direction && initiatorAdmits e.initiator q.key.initiator
    && decide (e.base ≤ page q) && decide (page q ≤ e.limit)

/-- The target as classified: the TARGET of the lowest-indexed matching entry, or DEFAULT TARGET (R26). -/
def classify (s : State) (q : Request) : Target :=
  match s.map.toList.find? (fun e => entryMatches e q) with
  | some e => e.target
  | none => s.defaultTarget

/-- The regulator's lane is in use: RUNNING or HALTED (R42). -/
def laneInUse : RegState → Bool
  | .running => true
  | .halted => true
  | .off => false
  | .armed => false

/-- The effective lane of a target (R28). -/
def effectiveLane (s : State) : Target → Lane
  | .regulator r => if laneInUse (reg s r).state then .regulator r else .bypass
  | .bypass => .bypass

/-! ## The pool -/

/-- The number of entries in a lane (R88). -/
def laneLength (s : State) (l : Lane) : Nat := s.pool.countP fun e => e.lane == l

/-- The head of a lane: its oldest entry (R88). -/
def laneHead (s : State) (l : Lane) : Option PoolEntry := s.pool.find? fun e => e.lane == l

/-- The pool is full (R89). -/
def poolFull (s : State) : Bool := !decide (s.pool.length < Config.poolEntries)

/-- The oldest pooled entry of a key (R101). -/
def oldestPooled (s : State) (k : Key) : Option PoolEntry := s.pool.find? fun e => e.request.key == k

/-- The regulator a grant from a lane charges (R28, R87). -/
def chargedRegulator : Lane → Option RegNo
  | .regulator r => some r
  | .bypass => none

/-- A FORWARD head is order-eligible: the oldest pooled entry of its key, whose owed count is 0 (R102). -/
def orderEligible (s : State) (e : PoolEntry) : Bool :=
  oldestPooled s e.request.key == some e && (counts s e.request.key).owed == 0

/-- A DENY head is eligible: the oldest pooled entry of its key, whose live and owed counts are 0 (R104). -/
def denyEligible (s : State) (e : PoolEntry) : Bool :=
  oldestPooled s e.request.key == some e && (counts s e.request.key).live == 0
    && (counts s e.request.key).owed == 0

/-! ## The take decision -/

/-- Deny disposal by the state of the request's key (R95): a direct denial when it is free, a DENY entry when it is not
and the pool has room, and otherwise the request stays offered. -/
def denyDisposal (s : State) (k : Key) (reason : DenyReason) : Disposition :=
  if keyFree s k then .directDenial reason
  else if poolFull s then .stall
  else .denyEntry reason

/-- A deny disposal needs a DENY entry and finds the pool full (R94). -/
def denyFoundFull (s : State) (k : Key) : Bool := !keyFree s k && poolFull s

/-- A consideration of a request: classification, effective lane and the first row of the table of R91 that fits. -/
def judge (s : State) (q : Request) : Verdict :=
  let t := classify s q
  let l := effectiveLane s t
  if malformed q then
    { target := t, lane := l, disposition := denyDisposal s q.key .malformed, atQuota := none,
      foundFull := denyFoundFull s q.key }
  else
    match l with
    | .regulator r =>
      let u := (reg s r).setup
      if laneLength s l < u.holdQuota then
        if poolFull s then
          { target := t, lane := l, atQuota := none, foundFull := true,
            disposition :=
              match u.policy with
              | .stall => .stall
              | .reject => denyDisposal s q.key .poolFull }
        else { target := t, lane := l, disposition := .forward, atQuota := none, foundFull := false }
      else
        match u.policy with
        | .stall => { target := t, lane := l, disposition := .stall, atQuota := some r, foundFull := false }
        | .reject =>
          { target := t, lane := l, disposition := denyDisposal s q.key .quota, atQuota := some r,
            foundFull := denyFoundFull s q.key }
    | .bypass =>
      if poolFull s then { target := t, lane := l, disposition := .stall, atQuota := none, foundFull := true }
      else { target := t, lane := l, disposition := .forward, atQuota := none, foundFull := false }

/-- QUOTA HIT at a consideration that begins a run of considerations finding that lane at quota (R94). -/
def quotaCause (v : Verdict) (o : Offer) (s : State) : State :=
  match v.atQuota with
  | some r => if o.quotaRun = some r then s else raiseCause r .quotaHit s
  | none => s

/-- POOL FULL at a consideration that begins a run of considerations finding the pool full (R94, R169, log 8). -/
def fullCause (v : Verdict) (o : Offer) (s : State) : State :=
  if v.foundFull && !o.poolRun then raiseDevice .poolFull s else s

/-- The intake considers the offered request: causes are set at the start of a run and the run is kept (R94). A
disposition that can be carried out is carried out by the take itself, a command of its own (log 4). While POR or PRST
is asserted nothing is considered (R21). -/
def consider (s : State) : State :=
  match s.offer with
  | none => s
  | some o =>
    if flowing s then
      let v := judge s o.request
      { fullCause v o (quotaCause v o s) with
        offer := some { o with quotaRun := v.atQuota, poolRun := v.foundFull } }
    else s

/-- The offered request and what a consideration now finds for it; none while nothing is offered or the link is held. -/
def considered (s : State) : Option (Request × Verdict) :=
  match s.offer with
  | some o => if flowing s then some (o.request, judge s o.request) else none
  | none => none

/-- A new offer: no run has begun (R94, R113). -/
def freshOffer (o : Offer) : Offer := { o with quotaRun := none, poolRun := false }

/-- The request as a DENY entry keeps it: its write data is discarded (R11, R87). -/
def withoutData (q : Request) : Request := { q with data := [] }

/-- The offered request joins the tail of a lane: it takes its place in arrival order and its key's pooled count rises
(R6, R97, R98). -/
def joinPool (kind : EntryKind) (l : Lane) (q : Request) (t : Target) (s : State) : State :=
  { s with
    offer := none
    pool := s.pool ++ [{ kind := kind, lane := l, place := s.nextPlace, request := q, target := t }]
    nextPlace := s.nextPlace + 1
    tracker := s.tracker.set (keyIndex q.key)
      { counts s q.key with pooled := (counts s q.key).pooled + 1 } }

/-- An entry leaves the pool: its key's pooled count falls (R90). -/
def leavePool (e : PoolEntry) (s : State) : State :=
  { s with
    pool := s.pool.erase e
    tracker := s.tracker.set (keyIndex e.request.key)
      { counts s e.request.key with pooled := (counts s e.request.key).pooled - 1 } }

/-- Taking a malformed request sets device cause MALFORMED (R18). -/
def malformedCause (reason : DenyReason) (s : State) : State :=
  if reason = .malformed then raiseDevice .malformed s else s

/-! ## Denials -/

/-- A denial record is offered to the denial queue: appended, or lost with DENIAL QUEUE FULL (R178). -/
def offerRecord (d : DenialRecord) (s : State) : State :=
  if s.denials.length < Config.denialRecords then { s with denials := s.denials ++ [d] }
  else raiseDevice .denialQueueFull s

/-- DENIED of the target as classified, when it is a regulator RUNNING or HALTED (R96, R104, R168). -/
def attributeDenial (t : Target) (s : State) : State :=
  match t with
  | .regulator r => if laneInUse (reg s r).state then raiseCause r .denied s else s
  | .bypass => s

/-- The response the part makes for a request it denies (R14). -/
def deniedResponse (q : Request) : Response :=
  { key := q.key, direction := q.direction, status := .denied, data := [] }

/-- The record of a denial at this moment (R176). -/
def denialRecord (q : Request) (reason : DenyReason) (t : Target) (s : State) : DenialRecord :=
  { key := q.key, direction := q.direction, address := q.address, length := q.length, reason := reason, target := t,
    time := s.timebase }

/-- A unit enters the response queue at the tail (R143). -/
def enterQueue (u : Response) (s : State) : State := { s with responses := s.responses ++ [u] }

/-- A DENIED response of the part enters the response queue: its record is made and offered to the denial queue, and
DENIED of its target is set (R177). -/
def deny (q : Request) (reason : DenyReason) (t : Target) (s : State) : State :=
  attributeDenial t (offerRecord (denialRecord q reason t s) (enterQueue (deniedResponse q) s))

/-! ## Regulator events -/

/-- A sample: PRIOR SAMPLE, SAMPLE and SAMPLE WINDOW, in that order (R48). -/
def sampled (g : Regulator) : Regulator :=
  { g with priorSample := g.sample, sample := g.consumed, sampleWindow := g.windowsCompleted }

/-- An exchange: the profiles are swapped whole and EXCHANGE PENDING is clear (R40). -/
def exchanged (g : Regulator) : Regulator :=
  { g with active := g.standby, standby := g.active, exchangePending := false }

/-- The context with a pending exchange applied (R47, R68). -/
def pendingApplied (g : Regulator) : Regulator :=
  if g.exchangePending then exchanged g else g

/-- EXCHANGED is set where a pending exchange is applied. -/
def exchangeCause (g : Regulator) : List Cause :=
  if g.exchangePending then [.exchanged] else []

/-- An event at regulator r: its context becomes g and the event's causes are set. -/
def regulatorEvent (r : RegNo) (g : Regulator) (causes : List Cause) (s : State) : State :=
  raiseCauses r causes (setReg s r g)

/-- A new window (R45, R47): POSITION, CONSUMED and WINDOWS COMPLETED become 0. -/
def newWindow (g : Regulator) : Regulator :=
  { g with position := 0, consumed := 0, windowsCompleted := 0#16 }

/-- ENABLE at regulator r (R44). -/
def enableReg (r : RegNo) (s : State) : State :=
  match (reg s r).state with
  | .off => setReg s r { reg s r with state := .armed }
  | _ => s

/-- START at regulator r (R45). -/
def startReg (r : RegNo) (s : State) : State :=
  match (reg s r).state with
  | .armed => setReg s r { newWindow (reg s r) with state := .running }
  | .halted => setReg s r { reg s r with state := .running }
  | _ => s

/-- HALT at regulator r (R46). -/
def haltReg (r : RegNo) (s : State) : State :=
  match (reg s r).state with
  | .running => setReg s r { reg s r with state := .halted }
  | _ => s

/-- RESTART at regulator r (R47). -/
def restartReg (r : RegNo) (s : State) : State :=
  if laneInUse (reg s r).state then
    regulatorEvent r (newWindow (pendingApplied (reg s r))) (exchangeCause (reg s r)) s
  else s

/-- SAMPLE at regulator r (R49). -/
def sampleReg (r : RegNo) (s : State) : State :=
  match (reg s r).state with
  | .off => s
  | _ => regulatorEvent r (sampled (reg s r)) [.sampled] s

/-- EXCHANGE at regulator r (R50). -/
def exchangeReg (r : RegNo) (s : State) : State :=
  if laneInUse (reg s r).state then setReg s r { reg s r with exchangePending := true }
  else regulatorEvent r (exchanged (reg s r)) [.exchanged] s

/-- An entry of lane r under the merge of DISABLE: it is in the bypass lane (R107). -/
def mergeEntry (r : RegNo) (e : PoolEntry) : PoolEntry :=
  if e.lane = .regulator r then { e with lane := .bypass } else e

/-- A LIVE entry charged to r becomes charged to none (R51). -/
def unchargeEntry (r : RegNo) (e : OutEntry) : OutEntry :=
  if e.state = .live ∧ e.charged = some r then { e with charged := none } else e

/-- The context of a regulator that takes DISABLE (R51). -/
def disabled (g : Regulator) : Regulator :=
  { g with
    state := .off
    outstandingCount := 0
    consumed := 0
    position := 0
    exchangePending := false
    causes := 0#7 }

/-- DISABLE at regulator r (R51): its lane is merged into the bypass lane by arrival order, its LIVE entries are
uncharged, its counts and causes are cleared, its marker lines go low. -/
def disableReg (r : RegNo) (s : State) : State :=
  match (reg s r).state with
  | .off => s
  | _ =>
    { s with
      pool := s.pool.map (mergeEntry r)
      outstanding := mapSlots (Option.map (unchargeEntry r)) s.outstanding
      regs := s.regs.set r (disabled (reg s r))
      markers := mapSlots (quietLine r) s.markers }

/-- A command at one regulator, according to its state (R43). -/
def act (k : CommandKind) (r : RegNo) (s : State) : State :=
  match k with
  | .enable => enableReg r s
  | .disable => disableReg r s
  | .start => startReg r s
  | .halt => haltReg r s
  | .restart => restartReg r s
  | .sample => sampleReg r s
  | .exchange => exchangeReg r s

/-- A command takes effect on a regulator in its present state (R43, the table of commands and states; R50). -/
def takesEffect (k : CommandKind) (g : Regulator) : Bool :=
  match k with
  | .enable => g.state == .off
  | .disable => g.state != .off
  | .start => g.state == .armed || g.state == .halted
  | .halt => g.state == .running
  | .restart => laneInUse g.state
  | .sample => g.state != .off
  | .exchange => !(laneInUse g.state && g.exchangePending)

/-- A command at every regulator named in a mask, at one event (R43). -/
def actAll (k : CommandKind) (mask : BitVec 16) (s : State) : State :=
  (List.finRange 16).foldl (fun t (r : RegNo) => if mask.getLsbD r.val then act k r t else t) s

/-- The took-effect mask of a command as a number (R43, R193). -/
def tookMask (k : CommandKind) (mask : BitVec 16) (s : State) : Nat :=
  (List.finRange 16).foldl
    (fun n (r : RegNo) => if mask.getLsbD r.val && takesEffect k (reg s r) then n + 2 ^ r.val else n) 0

/-- The states of the regulators. -/
def regStates (s : State) : List RegState := s.regs.toList.map (·.state)

/-- A change of some regulator's STATE makes the intake reconsider the offered request (R43). -/
def reconsiderStates (before after : State) : State :=
  if regStates before = regStates after then after else consider after

/-! ## Sync edges -/

/-- A trigger selection names an edge of a line (R153). -/
def selects (t : Selection) (line : Fin 4) (rising : Bool) : Bool :=
  t.line == some line &&
    match t.edge with
    | .rising => rising
    | .falling => !rising
    | .both => true

/-- The toggle of an edge that delivers both START and HALT (R156). -/
def toggleReg (r : RegNo) (s : State) : State :=
  match (reg s r).state with
  | .running => haltReg r s
  | _ => startReg r s

/-- Step 2 of R155: START and HALT, or the toggle when both are delivered. -/
def startHaltStep (startSel haltSel : Bool) (r : RegNo) (s : State) : State :=
  match startSel, haltSel with
  | true, true => toggleReg r s
  | true, false => startReg r s
  | false, true => haltReg r s
  | false, false => s

/-- The functions one edge delivers to regulator r, in the order SAMPLE, START and HALT, RESTART, EXCHANGE (R155). -/
def edgeAtReg (line : Fin 4) (rising : Bool) (r : RegNo) (s : State) : State :=
  let t := (reg s r).triggers
  let s1 := if selects t.sample line rising then sampleReg r s else s
  let s2 := startHaltStep (selects t.start line rising) (selects t.halt line rising) r s1
  let s3 := if selects t.restart line rising then restartReg r s2 else s2
  if selects t.exchange line rising then exchangeReg r s3 else s3

/-- An edge reaches every regulator at one event (R154). -/
def edgeAll (line : Fin 4) (rising : Bool) (s : State) : State :=
  (List.finRange 16).foldl (fun t r => edgeAtReg line rising r t) s

/-! ## Charge and release -/

/-- The context of a regulator charged n bytes (R79). -/
def chargedContext (g : Regulator) (n : Nat) : Regulator :=
  { g with
    consumed :=
      match g.setup.mode with
      | .count => min (g.consumed + n) Config.consumedMax
      | _ => g.consumed + n
    outstandingCount := g.outstandingCount + 1 }

/-- The causes a charge of n bytes sets: EXHAUSTED in WINDOW and SHAPE mode (R80), OVER BUDGET in COUNT mode (R81). -/
def chargeCauses (g : Regulator) (n : Nat) : List Cause :=
  match g.setup.mode with
  | .count =>
    if g.consumed ≤ g.active.budget ∧ g.active.budget < (chargedContext g n).consumed then [.overBudget] else []
  | _ => if g.consumed < g.active.budget ∧ g.active.budget ≤ (chargedContext g n).consumed then [.exhausted] else []

/-- A grant from a lane charges its regulator, and a grant from the bypass lane charges none (R79). -/
def chargeLane (l : Lane) (n : Nat) (s : State) : State :=
  match l with
  | .regulator r => regulatorEvent r (chargedContext (reg s r) n) (chargeCauses (reg s r) n) s
  | .bypass => s

/-- The release of a charge lowers OUTSTANDING COUNT of the charged regulator by 1 (R83). -/
def release (c : Option RegNo) (s : State) : State :=
  match c with
  | some r => setReg s r { reg s r with outstandingCount := (reg s r).outstandingCount - 1 }
  | none => s

/-! ## The outstanding table -/

/-- The entries in use, by place number (R130). -/
def inUse (s : State) : List (Fin 64 × OutEntry) :=
  (indexed s.outstanding).filterMap fun p => p.2.map fun e => (p.1, e)

/-- The number of places in use, LIVE and ABANDONED together (R130). -/
def tableCount (s : State) : Nat := s.outstanding.toList.countP (·.isSome)

/-- The lowest-indexed free place (R129). -/
def freePlace (s : State) : Option (Fin 64) :=
  (List.finRange 64).find? fun i => (s.outstanding[i]).isNone

/-- The older of an entry and the oldest so far, by place in arrival order. -/
def olderEntry (best : Option (Fin 64 × OutEntry)) (p : Fin 64 × OutEntry) : Option (Fin 64 × OutEntry) :=
  match best with
  | none => some p
  | some b => if p.2.place < b.2.place then some p else some b

/-- The in-use entry of a key with the earliest place in arrival order: the one a response of the key is matched to
(R132). -/
def oldestEntry (s : State) (k : Key) : Option (Fin 64 × OutEntry) :=
  ((inUse s).filter fun p => p.2.key == k).foldl olderEntry none

/-- The discard of an unexpected response of this status sets UNEXPECTED RESPONSE (R135, R169). For DENIED and TIMEOUT,
where R13 says that no cause is set, it is a free value (log 25). -/
def unexpectedSetsCause : ResponseStatus → Bool
  | .okay => true
  | .memoryError => true
  | .denied => Config.unexpectedDeniedSetsCause
  | .timeout => Config.unexpectedTimeoutSetsCause

/-- The cause that the discard of an unexpected response sets (R13, R135). -/
def unexpectedCause (status : ResponseStatus) (s : State) : State :=
  if unexpectedSetsCause status then raiseDevice .unexpectedResponse s else s

/-- A response that memory offers is taken at once and discarded when it is late (R134) or unexpected (R135). A response
matched to a LIVE entry stays offered (R133). Its status plays no part in the match (R132). -/
def matchOffered (s : State) : State :=
  match s.memoryOffer with
  | none => s
  | some u =>
    if flowing s then
      match oldestEntry s u.key with
      | none => unexpectedCause u.status { s with memoryOffer := none }
      | some p =>
        match p.2.state with
        | .abandoned => { s with memoryOffer := none, outstanding := s.outstanding.set p.1 none }
        | .live => s
    else s

/-- Memory's offered response and the LIVE entry it is matched to (R133). -/
def liveMatch (s : State) : Option (Response × (Fin 64 × OutEntry)) :=
  match s.memoryOffer with
  | none => none
  | some u =>
    match oldestEntry s u.key with
    | none => none
    | some p => if p.2.state = .live then some (u, p) else none

/-- The part takes up its work after a reset: memory's offered response is matched and the offered request is considered
(R22, R23). -/
def resume (s : State) : State := consider (matchOffered s)

/-! ## The arbiter of the response queue -/

/-- The bypass lane's head when it is an eligible DENY entry, with its reason (R104). -/
def denyClaim (s : State) : Option (PoolEntry × DenyReason) :=
  match laneHead s .bypass with
  | some e =>
    match e.kind with
    | .deny reason => if denyEligible s e then some (e, reason) else none
    | .forward => none
  | none => none

/-- The intake's direct denial, when the consideration finds one: request, reason, target (R96). -/
def intakeClaim (s : State) : Option (Request × DenyReason × Target) :=
  match considered s with
  | some (q, v) =>
    match v.disposition with
    | .directDenial reason => some (q, reason, v.target)
    | _ => none
  | none => none

/-- The claimant that the next award goes to: while a place is free, the first standing claim in the order of R144. -/
def award (s : State) : Option Claimant :=
  if flowing s && decide (s.responses.length < Config.queuePlaces) then
    if s.owed ≠ [] then some .timeoutList
    else if (denyClaim s).isSome then some .denyHead
    else if (liveMatch s).isSome then some .memory
    else if (intakeClaim s).isSome then some .intake
    else none
  else none

/-! ## The downstream grant -/

/-- The lanes of the pool (R88). -/
def lanes : List Lane := (List.finRange 16).map Lane.regulator ++ [Lane.bypass]

/-- The lane admits its head (R116). -/
def admitted (s : State) : Lane → Bool
  | .regulator r =>
    gateOpen (reg s r) &&
      ((reg s r).setup.outstandingLimit == 0
        || decide ((reg s r).outstandingCount < (reg s r).setup.outstandingLimit))
  | .bypass => true

/-- An entry is a candidate as the head of its lane (R115); the free outstanding entry is asked for by `choice`. -/
def candidate (s : State) (e : PoolEntry) : Bool :=
  e.kind == .forward && orderEligible s e && admitted s e.lane

/-- The priority of a lane's head (R118). -/
def lanePriority (s : State) : Lane → Nat
  | .regulator r => (reg s r).setup.priority
  | .bypass => s.bypassPriority

/-- The better of a candidate and the best so far: higher priority, then earlier place (R118). -/
def betterHead (s : State) (best : Option PoolEntry) (e : PoolEntry) : Option PoolEntry :=
  match best with
  | none => some e
  | some b =>
    if lanePriority s b.lane < lanePriority s e.lane
        ∨ lanePriority s b.lane = lanePriority s e.lane ∧ e.place < b.place then some e
    else some b

/-- The heads that are candidates (R115). -/
def candidates (s : State) : List PoolEntry :=
  (lanes.filterMap (laneHead s)).filter (candidate s)

/-- The downstream grant's choice, made while the grant is IDLE and a place of the table is free: the candidate and the
place its entry takes (R117 to R119, R129). -/
def choice (s : State) : Option (PoolEntry × Fin 64) :=
  match s.held, freePlace s, (candidates s).foldl (betterHead s) none with
  | none, some i, some e => if flowing s then some (e, i) else none
  | _, _, _ => none

/-- The outstanding entry a grant makes (R120, R129). -/
def grantedEntry (e : PoolEntry) : OutEntry :=
  { state := .live, key := e.request.key, direction := e.request.direction, length := e.request.length,
    charged := chargedRegulator e.lane, age := 0, place := e.place }

/-- A LIVE entry is made: its key's live count rises (R120). -/
def openEntry (i : Fin 64) (e : OutEntry) (s : State) : State :=
  { s with
    outstanding := s.outstanding.set i (some e)
    tracker := s.tracker.set (keyIndex e.key) { counts s e.key with live := (counts s e.key).live + 1 } }

/-- A LIVE entry is freed by its response: its key's live count falls and its charge is released (R133). -/
def closeEntry (i : Fin 64) (e : OutEntry) (s : State) : State :=
  release e.charged
    { s with
      outstanding := s.outstanding.set i none
      tracker := s.tracker.set (keyIndex e.key) { counts s e.key with live := (counts s e.key).live - 1 } }

/-! ## The tick -/

/-- The context of a regulator that takes a tick short of its last position (R67). -/
def tickReg (g : Regulator) : Regulator :=
  if g.state = .running ∧ g.position + 1 < g.active.period then { g with position := g.position + 1 } else g

/-- A RUNNING regulator is at POSITION PERIOD-1: its tick is a window end (R67). -/
def atLastPosition (g : Regulator) : Bool :=
  g.state == .running && !decide (g.position + 1 < g.active.period)

/-- An entry one tick older, saturating (R131). -/
def ageEntry (e : OutEntry) : OutEntry :=
  { e with age := if e.age < Config.ageMax then e.age + 1 else e.age }

/-- An entry is expiring at a RESPONSE TIMEOUT (R138). -/
def expiring (timeout : Nat) (e : OutEntry) : Bool :=
  e.state == .live && timeout != 0 && decide (timeout ≤ e.age)

/-- Whether some entry of the table is expiring (R138). -/
def anyExpiring (s : State) : Bool := (inUse s).any fun p => expiring s.responseTimeout p.2

/-- A SYN line is sampled with no change on it: a line that has no kept level takes the one found, without an edge
(R152). -/
def firstSample (x : SynLine) : SynLine := { x with kept := some (x.kept.getD x.level) }

/-- A SYN line whose kept level is to be taken afresh from its next sample (R152, R197). -/
def unsampled (x : SynLine) : SynLine := { x with kept := none }

/-- n REFCLK periods pass without a tick: the divider counts them (R63), pulses run on (R163), the SYN lines are sampled
(R152). -/
def passPeriods (n : Nat) (s : State) : State :=
  { s with
    divider := s.divider + n
    markers := mapSlots (runPulse n) s.markers
    syn := mapSlots firstSample s.syn }

/-- The tick, at the end of the interval the divider is running: what is left of the interval passes (R63, log 6), the
divider begins an interval of the stored PRESCALE (R65), the timebase count rises (R64), every RUNNING regulator below its
last position moves on (R67), every entry in use ages (R131). The window ends and the expiry of this tick are then due (R66,
log 5). -/
def takeTick (s : State) : State :=
  let t : State :=
    { passPeriods (s.interval - s.divider) s with
      divider := 0
      interval := s.prescale
      timebase := s.timebase + 1
      regs := mapSlots tickReg s.regs
      outstanding := mapSlots (Option.map ageEntry) s.outstanding
      windowEndDue := (List.finRange 16).filter fun r => atLastPosition (reg s r) }
  { t with expiryDue := anyExpiring t }

/-- The CONSUMED with which the next window begins (R68 step 2, R69). -/
def carry (g : Regulator) : Nat :=
  match g.setup.mode with
  | .count => 0
  | _ => g.consumed - g.active.budget

/-- The context after a window end (R68 steps 1 to 5). -/
def windowClosed (g : Regulator) : Regulator :=
  let g1 := if g.setup.autoSample then sampled g else g
  let g2 := { g1 with consumed := carry g, windowsCompleted := g.windowsCompleted + 1 }
  { pendingApplied g2 with position := 0 }

/-- The causes a window end sets: SAMPLED, EXCHANGED, WINDOW END (R68 steps 1, 4, 6). -/
def windowEndCauses (g : Regulator) : List Cause :=
  (if g.setup.autoSample then [.sampled] else []) ++ exchangeCause g ++ [.windowEnd]

/-- The window end of regulator r (R68). -/
def windowEndReg (r : RegNo) (s : State) : State :=
  regulatorEvent r (windowClosed (reg s r)) (windowEndCauses (reg s r)) s

/-- The window end that the tick in progress owes regulator r, if it does. -/
def finishWindowEnd (r : RegNo) (s : State) : State :=
  if r ∈ s.windowEndDue then
    { windowEndReg r s with windowEndDue := s.windowEndDue.filter (· ≠ r) }
  else s

/-- An entry put into a list in arrival order. -/
def insertByPlace (p : Fin 64 × OutEntry) : List (Fin 64 × OutEntry) → List (Fin 64 × OutEntry)
  | [] => [p]
  | x :: xs => if p.2.place < x.2.place then p :: x :: xs else x :: insertByPlace p xs

/-- The LIVE entries in arrival order. -/
def liveByPlace (s : State) : List (Fin 64 × OutEntry) :=
  ((inUse s).filter fun p => p.2.state == .live).foldr insertByPlace []

/-- Of a list in arrival order, the first entry of each key. -/
def firstOfKeys (l : List (Fin 64 × OutEntry)) : List OutEntry :=
  l.foldl (fun acc p => if acc.any fun e => e.key == p.2.key then acc else acc ++ [p.2]) []

/-- The oldest expiring entry of each key that has one, in arrival order (R140). -/
def leaders (s : State) : List OutEntry :=
  firstOfKeys ((liveByPlace s).filter fun p => expiring s.responseTimeout p.2)

/-- The run of a key: its oldest expiring entry with every younger LIVE entry of the key, in arrival order (R139). -/
def runOf (lead : OutEntry) (s : State) : List (Fin 64 × OutEntry) :=
  (liveByPlace s).filter fun p => p.2.key == lead.key && decide (lead.place ≤ p.2.place)

/-- An owed item put at its place in the timeout list (R142). -/
def insertOwed (x : OwedItem) : List OwedItem → List OwedItem
  | [] => [x]
  | y :: ys => if x.place < y.place then x :: y :: ys else y :: insertOwed x ys

/-- The abandonment of one LIVE entry: ABANDONED and charged to none, its charge released, its key's live count lower
and owed count higher, its owed TIMEOUT response on the list (R139). -/
def abandonEntry (p : Fin 64 × OutEntry) (s : State) : State :=
  release p.2.charged
    { s with
      outstanding := s.outstanding.set p.1 (some { p.2 with state := .abandoned, charged := none })
      tracker := s.tracker.set (keyIndex p.2.key)
        { counts s p.2.key with live := (counts s p.2.key).live - 1, owed := (counts s p.2.key).owed + 1 }
      owed := insertOwed { key := p.2.key, direction := p.2.direction, place := p.2.place } s.owed }

/-- The run of a key is abandoned when it fits in the room of the timeout list, and passed over otherwise (R140). -/
def abandonRun (lead : OutEntry) (s : State) : State :=
  if (runOf lead s).length + s.owed.length ≤ Config.timeoutItems then
    (runOf lead s).foldl (fun t p => abandonEntry p t) s
  else s

/-- The runs of all keys with an expiring entry, in arrival order of their oldest expiring entries (R140). -/
def abandonRuns (s : State) : State :=
  (leaders s).foldl (fun t lead => abandonRun lead t) s

/-- TIMEOUT is set when the tick abandons at least one entry (R139). -/
def timeoutCause (before after : State) : State :=
  if before.owed.length < after.owed.length then raiseDevice .timeout after else after

/-- Expiry is judged: runs are abandoned, TIMEOUT is set, memory's offered response is matched again (R132), and the
offered request is reconsidered (R91). -/
def expire (s : State) : State := resume (timeoutCause s (abandonRuns s))

/-- The expiry that the tick in progress has still to judge, if it has. -/
def finishExpiry (s : State) : State :=
  if s.expiryDue then { expire s with expiryDue := false } else s

/-- The tick in progress is completed: a tick is one event, and no other command falls between its parts (R85, R138,
log 5). -/
def settleTick (s : State) : State :=
  s.windowEndDue.foldl (fun t r => finishWindowEnd r t) (finishExpiry s)

/-- One REFCLK period: the tick comes when it ends the divider's interval (R63). Nothing moves while POR is asserted. -/
def refclkPeriod (s : State) : State :=
  let t := settleTick s
  if t.por then t
  else if t.divider + 1 < t.interval then passPeriods 1 t
  else settleTick (takeTick t)

/-! ## Resets -/

/-- A regulator at the assertion of PRST: RUNNING and HALTED fall to ARMED (R62). -/
def fallToArmed (g : Regulator) : Regulator :=
  if laneInUse g.state then
    { g with state := .armed, position := 0, consumed := 0, outstandingCount := 0, exchangePending := false }
  else g

/-- PRST is asserted: the part's offers are withdrawn, the pool, the order tracker, the outstanding table, the response
queue and the timeout list are emptied, the regulators fall to ARMED (R20, R62, R113, R125, R151). -/
def pathReset (s : State) : State :=
  { s with
    prst := true
    held := none
    responses := []
    owed := []
    pool := []
    tracker := Vector.replicate 1024 freeKey
    outstanding := Vector.replicate 64 none
    regs := mapSlots fallToArmed s.regs }

/-- Every block at the values of POR. What stands outside the part stays: the levels of PRST, SEL and the SYN lines, and
the units the partners offer (R20, R23); the offered request is a new offer. The kept SYN levels are to be taken afresh from
the next sample (R152, R197). The queue of commands is kept. -/
def blocksReset (s : State) : State :=
  { State.reset with
    prst := s.prst
    sel := s.sel
    syn := mapSlots unsampled s.syn
    offer := s.offer.map freshOffer
    memoryOffer := s.memoryOffer
    pending := s.pending }

end Sys2Proof.Machine
end

