-- ==== Sys2Proof/Machine/Frames.lean ====
section
/-! DEFINITION. The management commands as they are performed (R185 to R198): reading and writing a word of the five
spaces, the commands that act on regulators, causes, denial records and the whole part, and the reply part. -/

namespace Sys2Proof.Machine

/-- The code of a status (R189). -/
def statusCode : Status → Byte
  | .done => 0x00#8
  | .noEffect => 0x01#8
  | .locked => 0x02#8
  | .range => 0x03#8
  | .index => 0x04#8
  | .busy => 0x05#8
  | .frame => 0x06#8

/-- A reply part: status, reply bytes, and the CRC over both (R184, R189). -/
def replyPart (st : Status) (bytes : List Byte) : List Byte :=
  let body := statusCode st :: bytes
  body ++ [crc8 body]

/-- The port enters REPLY with a reply part, inside a frame (R182). -/
def enterReply (st : Status) (bytes : List Byte) (s : State) : State :=
  { s with sel := true, port := .reply (replyPart st bytes) }

/-! ## Reading (R191, R200 to R203) -/

/-- The occupancy counts, DEVICE word 7 (R200). -/
def occupancyWord (s : State) : Nat :=
  s.pool.length + tableCount s * 2 ^ 7 + s.owed.length * 2 ^ 14 + s.responses.length * 2 ^ 21
    + s.denials.length * 2 ^ 26

/-- A DEVICE word (R200). -/
def deviceWord (s : State) : Nat → Option Nat
  | 0 => some s.prescale
  | 1 => some s.responseTimeout
  | 2 => some (defaultTargetWord s.defaultTarget s.bypassPriority)
  | 3 => some (markersWord s.markers)
  | 4 => some s.deviceCauses.toNat
  | 5 => some s.deviceMask.toNat
  | 6 => some s.timebase.toNat
  | 7 => some (occupancyWord s)
  | _ => none

/-- A REGULATOR word of a context, given the length of its lane (R201). -/
def regulatorWord (g : Regulator) (laneLength : Nat) : Nat → Option Nat
  | 0 => some (setupWord g.setup)
  | 1 => some (triggersWord g.triggers)
  | 2 => some (timingWord g.active)
  | 3 => some g.active.budget
  | 4 => some (timingWord g.standby)
  | 5 => some g.standby.budget
  | 6 => some (statusWord g laneLength)
  | 7 => some (windowWord g)
  | 8 => some g.consumed
  | 9 => some g.sample
  | 10 => some g.priorSample
  | 11 => some g.sampleWindow.toNat
  | 12 => some g.causes.toNat
  | 13 => some g.mask.toNat
  | _ => none

/-- A MAP word of an entry (R202). -/
def mapEntryWord (e : MapEntry) : Nat → Option Nat
  | 0 => some (mapWord e)
  | 1 => some e.base
  | 2 => some e.limit
  | _ => none

/-- The lane of an index of the LANE space, 0 to 16 (R191). -/
def laneOfIndex (index : Nat) : Option Lane :=
  if h : index < 16 then some (.regulator ⟨index, h⟩) else if index = 16 then some .bypass else none

/-- The word at a space, index and word number as it stands; none where it does not exist (R191). -/
def readWord (s : State) (space index word : Nat) : Option Nat :=
  match space with
  | 0 => if index = 0 then deviceWord s word else none
  | 1 => if h : index < 16 then regulatorWord s.regs[index] (laneLength s (.regulator ⟨index, h⟩)) word else none
  | 2 => if h : index < 32 then mapEntryWord s.map[index] word else none
  | 3 =>
    match laneOfIndex index with
    | some l => if word = 0 then some (laneWord (laneLength s l) (laneHead s l)) else none
    | none => none
  | 4 => if h : index < 64 then if word = 0 then some (outstandingWord s.outstanding[index]) else none else none
  | _ => none

/-- READ FIELD: the word with DONE, or INDEX with a value of 0 (R191). -/
def readField (s : State) (space index word : Nat) : Status × List Byte :=
  match readWord s space index word with
  | some v => (.done, bytesOfNat 4 v)
  | none => (.index, bytesOfNat 4 0)

/-! ## Writing (R192) -/

/-- The answer to a write that decodes to a stored state or is out of range. -/
def storeOrRange (s : State) : Option State → Status × State
  | some t => (.done, t)
  | none => (.range, s)

/-- Some regulator is RUNNING or HALTED (R65). -/
def anyInUse (s : State) : Bool := s.regs.toList.any fun g => laneInUse g.state

/-- A write of PRESCALE (R65). The running interval keeps its length. -/
def writePrescale (s : State) (v : Nat) : Status × State :=
  if anyInUse s then (.locked, s)
  else storeOrRange s ((decodePrescale v).map fun p => { s with prescale := p })

/-- A write of a DEVICE word (R200). -/
def writeDevice (s : State) (word v : Nat) : Status × State :=
  match word with
  | 0 => writePrescale s v
  | 1 => storeOrRange s ((decodeTimeout v).map fun t => { s with responseTimeout := t })
  | 2 =>
    storeOrRange s
      ((decodeDefaultTarget v).map fun p => consider { s with defaultTarget := p.1, bypassPriority := p.2 })
  | 3 => storeOrRange s ((writeMarkers v s.markers).map fun m => { s with markers := m })
  | 5 => (.done, { s with deviceMask := BitVec.ofNat 6 v })
  | _ => (.index, s)

/-- The active profile may be written: OFF or ARMED (R57). -/
def activeWritable (g : Regulator) : Bool := !laneInUse g.state

/-- A write of an active profile word of regulator r (R57). -/
def writeActive (s : State) (r : RegNo) (which : ProfileWord) (v : Nat) : Status × State :=
  if activeWritable (reg s r) then
    storeOrRange s ((writeProfile (reg s r).active which v).map fun p => setReg s r { reg s r with active := p })
  else (.locked, s)

/-- A write of a standby profile word of regulator r, in any state (R58). -/
def writeStandby (s : State) (r : RegNo) (which : ProfileWord) (v : Nat) : Status × State :=
  storeOrRange s ((writeProfile (reg s r).standby which v).map fun p => setReg s r { reg s r with standby := p })

/-- A write of a REGULATOR word (R54, R201). -/
def writeRegulator (s : State) (r : RegNo) (word v : Nat) : Status × State :=
  match word with
  | 0 =>
    if (reg s r).state = .off then
      storeOrRange s ((decodeSetup r v).map fun u => consider (setReg s r { reg s r with setup := u }))
    else (.locked, s)
  | 1 =>
    if (reg s r).state = .off then
      storeOrRange s ((decodeTriggers v).map fun t => setReg s r { reg s r with triggers := t })
    else (.locked, s)
  | 2 => writeActive s r .timing v
  | 3 => writeActive s r .budget v
  | 4 => writeStandby s r .timing v
  | 5 => writeStandby s r .budget v
  | 13 => (.done, setReg s r { reg s r with mask := BitVec.ofNat 7 v })
  | _ => (.index, s)

/-- The state with a map entry replaced, and the offered request reconsidered (R27). -/
def storeEntry (s : State) (i : Fin 32) (e : MapEntry) : State :=
  consider { s with map := s.map.set i e }

/-- MAP word 0 (R33, R34): a valid entry can only be made invalid; an invalid entry becomes valid only with BASE no
greater than LIMIT. -/
def writeMapWord0 (s : State) (i : Fin 32) (v : Nat) : Status × State :=
  if (s.map[i]).valid && flag v 0 then (.locked, s)
  else
    match decodeMapWord s.map[i] v with
    | some e => if e.valid && decide (e.limit < e.base) then (.range, s) else (.done, storeEntry s i e)
    | none => (.range, s)

/-- MAP words 1 and 2 (R32): stored only while the entry is invalid. -/
def writeMapBound (s : State) (i : Fin 32) (which : BoundWord) (v : Nat) : Status × State :=
  if (s.map[i]).valid then (.locked, s)
  else storeOrRange s ((writeBound s.map[i] which v).map fun e => storeEntry s i e)

/-- A write of a MAP word (R202). -/
def writeMap (s : State) (i : Fin 32) (word v : Nat) : Status × State :=
  match word with
  | 0 => writeMapWord0 s i v
  | 1 => writeMapBound s i .base v
  | 2 => writeMapBound s i .limit v
  | _ => (.index, s)

/-- WRITE FIELD: INDEX, LOCKED and RANGE in that order, else the word is stored whole (R192). -/
def writeWord (s : State) (space index word v : Nat) : Status × State :=
  match space with
  | 0 => if index = 0 then writeDevice s word v else (.index, s)
  | 1 => if h : index < 16 then writeRegulator s ⟨index, h⟩ word v else (.index, s)
  | 2 => if h : index < 32 then writeMap s ⟨index, h⟩ word v else (.index, s)
  | _ => (.index, s)

/-! ## Commands -/

/-- REGULATOR COMMAND with a known kind (R43, R193): the state after it, and status and took-effect mask. -/
def commandRegulators (k : CommandKind) (mask : BitVec 16) (s : State) : State × Status × List Byte :=
  (reconsiderStates s (actAll k mask s),
   if tookMask k mask s = mask.toNat then .done else .noEffect,
   bytesOfNat 2 (tookMask k mask s))

/-- CLEAR CAUSES (R173, R194). -/
def clearCauses (target causeSet : Byte) (s : State) : State × Status × List Byte :=
  if h : target.toNat < 16 then
    if causeSet.toNat < 128 then
      let left := s.regs[target.toNat].causes &&& ~~~ BitVec.ofNat 7 causeSet.toNat
      (setReg s ⟨target.toNat, h⟩ { s.regs[target.toNat] with causes := left }, .done, bytesOfNat 1 left.toNat)
    else (s, .range, [0x00#8])
  else if target = 0xFF#8 then
    if causeSet.toNat < 64 then
      let left := s.deviceCauses &&& ~~~ BitVec.ofNat 6 causeSet.toNat
      ({ s with deviceCauses := left }, .done, bytesOfNat 1 left.toNat)
    else (s, .range, [0x00#8])
  else (s, .index, [0x00#8])

/-- The 17 reply bytes of TAKE DENIAL for a record (R195). -/
def recordBytes (d : DenialRecord) : List Byte :=
  [0x01#8, BitVec.ofNat 8 d.key.initiator.val, BitVec.ofNat 8 d.key.tag.val, BitVec.ofNat 8 (directionCode d.direction)]
    ++ bytesOfNat 5 d.address.toNat ++ bytesOfNat 2 d.length.val
    ++ [BitVec.ofNat 8 (reasonCode d.reason), BitVec.ofNat 8 (targetCode d.target)] ++ bytesOfNat 4 d.time.toNat

/-- TAKE DENIAL (R179, R195): the oldest record leaves the queue in the reply; present is clear when there is none. -/
def takeDenial (s : State) : State × Status × List Byte :=
  match s.denials with
  | d :: rest => ({ s with denials := rest }, .done, recordBytes d)
  | [] => (s, .done, List.replicate 17 0x00#8)

/-- The reply bytes of IDENTIFY (R190). -/
def identifyBytes : List Byte :=
  [0x01#8, 0xB8#8, 0x01#8, 16#8, 12#8, 17#8, 48#8, 64#8, 16#8, 16#8, 32#8, 4#8, 4#8]

/-- The reply bytes of SUMMARY (R196). -/
def summaryBytes (s : State) : List Byte :=
  bytesOfNat 2 (attentionMask s) ++ [s.deviceCauses.setWidth 8] ++ bytesOfNat 4 (occupancyWord s)

/-- The path is empty: a FULL RESET is taken (R197). -/
def pathEmpty (s : State) : Bool :=
  s.pool.isEmpty && tableCount s == 0 && s.responses.isEmpty && s.owed.isEmpty && s.held.isNone

/-- FULL RESET (R197, R198): BUSY while the path is not empty; otherwise every block takes its POR values and the
offered request is considered afresh (R23). -/
def fullReset (s : State) : State × Status × List Byte :=
  if pathEmpty s then (resume (blocksReset s), .done, []) else (s, .busy, [])

/-- A command is performed (R185): the state it leaves and the reply fixed at this event. The port is the caller's. -/
def perform (c : FrameCommand) (s : State) : State × Status × List Byte :=
  match c with
  | .identify => (s, .done, identifyBytes)
  | .readField space index word => (s, readField s space.toNat index.toNat word.toNat)
  | .writeField space index word value =>
    let w := writeWord s space.toNat index.toNat word.toNat value.toNat
    (w.2, w.1, [])
  | .regulatorCommand kind mask =>
    match decodeKind kind with
    | some k => commandRegulators k mask s
    | none => (s, .range, bytesOfNat 2 0)
  | .clearCauses target causeSet => clearCauses target causeSet s
  | .takeDenial => takeDenial s
  | .summary => (s, .done, summaryBytes s)
  | .fullReset => fullReset s

/-- A command is performed and the port enters REPLY with its reply (R185). -/
def performReply (c : FrameCommand) (s : State) : State :=
  let p := perform c s
  enterReply p.2.1 p.2.2 p.1

/-- The port can receive a frame: POR is not asserted and the port is not BARRED (R182, R204). -/
def portOpen (s : State) : Bool := !s.por && s.port != .barred

/-- A command row of the table: the frame of the command is received up to its CRC byte, which passes, and the command
is performed (R185, log 7). The tick in progress is completed first (log 5). -/
def receive (c : FrameCommand) (s : State) : State :=
  let t := settleTick s
  if portOpen t then performReply c t else t

/-- A command part fails its CRC (R186): FRAME ERROR is set, the reply is FRAME. -/
def badFrame (s : State) : State := enterReply .frame [] (raiseDevice .frameError s)

/-- A first byte names no command (R187): the reply is FRAME, no cause is set. -/
def unknownFrame (s : State) : State := enterReply .frame [] s

/-- A completed byte slot in COMMAND, with the bytes received before it (R182): the byte is stored, an unknown first byte
is answered, and a command part that is complete is checked and performed or refused. -/
def receiveByte (received : List Byte) (b : Byte) (s : State) : State :=
  let code := received.headD b
  match commandPartLength code with
  | none => unknownFrame s
  | some n =>
    if received.length + 1 < n then { s with port := .command (received ++ [b]) }
    else if crc8 received = b then
      match parseCommand code received.tail with
      | some c => performReply c s
      | none => badFrame s
    else badFrame s

/-- A completed byte slot (R182). -/
def slotDone (b : Byte) (s : State) : State :=
  match s.port with
  | .idle => s
  | .command received => receiveByte received b s
  | .reply (_ :: x :: rest) => { s with port := .reply (x :: rest) }
  | .reply _ => { s with port := .after }
  | .after => s
  | .barred => s

/-- The byte the part shifts out in the next byte slot; none while it does not drive SDO (R181, R182). -/
def sdoByte (s : State) : Option Byte :=
  if s.por then none
  else
    match s.port with
    | .idle => none
    | .command _ => some 0xFF#8
    | .reply (x :: _) => some x
    | .reply [] => some 0xFF#8
    | .after => some 0xFF#8
    | .barred => some 0xFF#8

end Sys2Proof.Machine
end

