-- ==== Sys2Proof/Machine/Forwarding.lean ====
section
/-! DEFINITION. The downstream grant and the taking of its offer (R114 to R126). -/

namespace Sys2Proof.Machine

/-- The grant (R119, R120): the chosen head leaves the pool, an outstanding entry is made for it, its regulator is charged,
and the request is offered downstream. An entry has left the pool, so the intake reconsiders (R90). -/
def grant (s : State) : State :=
  match choice s with
  | some (e, i) =>
    consider
      (chargeLane e.lane e.request.length.val
        (openEntry i (grantedEntry e) (leavePool e { s with held := some e.request })))
  | none => s

/-- GRANT (R120). -/
def execGrant (s : State) : Host.Outcome State Fault Refusal :=
  .next (grant (settleTick s))

/-- Memory takes the offered request: the grant is IDLE and holds nothing (R121). -/
def memoryTakes (s : State) : State :=
  if flowing s then { s with held := none } else s

/-- MEMORY_TAKES_REQUEST (R121). -/
def execMemoryTakesRequest (s : State) : Host.Outcome State Fault Refusal :=
  .next (memoryTakes (settleTick s))


end Sys2Proof.Machine
end

