-- ==== Sys2Proof/Machine/Intake.lean ====
section
/-! DEFINITION. The intake: offers, takes and direct denials (R5, R91 to R98). -/

namespace Sys2Proof.Machine

/-- REQUEST_OFFERED (R4, R5): the interconnect offers a request, or replaces the offered one, and the intake considers it. A
new offer begins new runs (R94). -/
def execRequestOffered (request : Request) (s : State) : Host.Outcome State Fault Refusal :=
  let t := settleTick s
  .next (consider { t with offer := some { request := request, quotaRun := none, poolRun := false } })

/-- The offered request is taken as a FORWARD entry at the tail of its effective lane, when the consideration finds that
disposition (rows 4 and 5 of R91, R98). -/
def forwardTake (s : State) : State :=
  match considered s with
  | some (q, v) =>
    match v.disposition with
    | .forward => joinPool .forward v.lane q v.target s
    | _ => s
  | none => s

/-- FORWARD_TAKE (R98). -/
def execForwardTake (s : State) : Host.Outcome State Fault Refusal :=
  .next (forwardTake (settleTick s))

/-- The offered request is taken as a DENY entry at the tail of the bypass lane, when the consideration finds deny disposal
with the key busy and room in the pool (R95, R97). Its write data is discarded (R11). -/
def denyEntryTake (s : State) : State :=
  match considered s with
  | some (q, v) =>
    match v.disposition with
    | .denyEntry reason => malformedCause reason (joinPool (.deny reason) .bypass (withoutData q) v.target s)
    | _ => s
  | none => s

/-- DENY_ENTRY_TAKE (R97). -/
def execDenyEntryTake (s : State) : Host.Outcome State Fault Refusal :=
  .next (denyEntryTake (settleTick s))

/-- The intake's claim wins a response queue place: the request is taken, has its place in arrival order, and its DENIED
response enters the queue (R96). -/
def directDenial (s : State) : State :=
  if award s = some .intake then
    match intakeClaim s with
    | some (q, reason, t) =>
      deny q reason t (malformedCause reason { s with offer := none, nextPlace := s.nextPlace + 1 })
    | none => s
  else s

/-- DIRECT_DENIAL (R96). -/
def execDirectDenial (s : State) : Host.Outcome State Fault Refusal :=
  .next (directDenial (settleTick s))


end Sys2Proof.Machine
end

