-- ==== Sys2Proof/Machine/Management.lean ====
section
/-! DEFINITION. The frames of the management port as commands: each row is the performance of its frame (R185, log 7). -/

namespace Sys2Proof.Machine

/-! ## Frames that read -/

/-- IDENTIFY (R190). -/
def execIdentify (s : State) : Host.Outcome State Fault Refusal :=
  .next (receive .identify s)

/-- READ_FIELD (R191). -/
def execReadField (space index word : Byte) (s : State) : Host.Outcome State Fault Refusal :=
  .next (receive (.readField space index word) s)

/-- SUMMARY (R196). -/
def execSummary (s : State) : Host.Outcome State Fault Refusal :=
  .next (receive .summary s)

/-! ## Frames that write: WRITE FIELD at the word the row names -/

/-- WRITE_FIELD (R192): any space, index and word. -/
def execWriteField (space index word : Byte) (value : Word) (s : State) : Host.Outcome State Fault Refusal :=
  .next (receive (.writeField space index word value) s)

/-- PRESCALE: DEVICE word 0 (R65). -/
def execPrescale (value : Word) (s : State) : Host.Outcome State Fault Refusal :=
  .next (receive (.writeField 0x00#8 0x00#8 0x00#8 value) s)

/-- RESPONSE_TIMEOUT: DEVICE word 1 (R137). -/
def execResponseTimeout (value : Word) (s : State) : Host.Outcome State Fault Refusal :=
  .next (receive (.writeField 0x00#8 0x00#8 0x01#8 value) s)

/-- DEFAULT_TARGET: DEVICE word 2 (R35). -/
def execDefaultTarget (value : Word) (s : State) : Host.Outcome State Fault Refusal :=
  .next (receive (.writeField 0x00#8 0x00#8 0x02#8 value) s)

/-- MARKERS: DEVICE word 3 (R160). -/
def execMarkers (value : Word) (s : State) : Host.Outcome State Fault Refusal :=
  .next (receive (.writeField 0x00#8 0x00#8 0x03#8 value) s)

/-- DEVICE_MASK: DEVICE word 5 (R170). -/
def execDeviceMask (value : Word) (s : State) : Host.Outcome State Fault Refusal :=
  .next (receive (.writeField 0x00#8 0x00#8 0x05#8 value) s)

/-- SETUP: REGULATOR word 0 (R55). -/
def execSetup (index : Byte) (value : Word) (s : State) : Host.Outcome State Fault Refusal :=
  .next (receive (.writeField 0x01#8 index 0x00#8 value) s)

/-- TRIGGERS: REGULATOR word 1 (R56). -/
def execTriggers (index : Byte) (value : Word) (s : State) : Host.Outcome State Fault Refusal :=
  .next (receive (.writeField 0x01#8 index 0x01#8 value) s)

/-- The word number of an active profile word (R38). -/
def activeWord : ProfileWord → Byte
  | .timing => 0x02#8
  | .budget => 0x03#8

/-- ACTIVE_PROFILE: REGULATOR words 2 and 3 (R57). -/
def execActiveProfile (index : Byte) (which : ProfileWord) (value : Word) (s : State) : Host.Outcome State Fault Refusal :=
  .next (receive (.writeField 0x01#8 index (activeWord which) value) s)

/-- The word number of a standby profile word (R38). -/
def standbyWord : ProfileWord → Byte
  | .timing => 0x04#8
  | .budget => 0x05#8

/-- STANDBY_PROFILE: REGULATOR words 4 and 5 (R58). -/
def execStandbyProfile (index : Byte) (which : ProfileWord) (value : Word) (s : State) : Host.Outcome State Fault Refusal :=
  .next (receive (.writeField 0x01#8 index (standbyWord which) value) s)

/-- CAUSE_MASK: REGULATOR word 13 (R59). -/
def execCauseMask (index : Byte) (value : Word) (s : State) : Host.Outcome State Fault Refusal :=
  .next (receive (.writeField 0x01#8 index 0x0D#8 value) s)

/-- MAP_WORD_0: MAP word 0 (R33, R34). -/
def execMapWord0 (index : Byte) (value : Word) (s : State) : Host.Outcome State Fault Refusal :=
  .next (receive (.writeField 0x02#8 index 0x00#8 value) s)

/-- The word number of a bound of a map entry (R24). -/
def boundWord : BoundWord → Byte
  | .base => 0x01#8
  | .limit => 0x02#8

/-- BASE_LIMIT: MAP words 1 and 2 (R32). -/
def execBaseLimit (index : Byte) (which : BoundWord) (value : Word) (s : State) : Host.Outcome State Fault Refusal :=
  .next (receive (.writeField 0x02#8 index (boundWord which) value) s)

/-! ## Frames that command -/

/-- ENABLE at the regulators of a mask (R44, R193). -/
def execEnable (mask : BitVec 16) (s : State) : Host.Outcome State Fault Refusal :=
  .next (receive (.regulatorCommand (kindCode .enable) mask) s)

/-- DISABLE at the regulators of a mask (R51, R193). -/
def execDisable (mask : BitVec 16) (s : State) : Host.Outcome State Fault Refusal :=
  .next (receive (.regulatorCommand (kindCode .disable) mask) s)

/-- START at the regulators of a mask (R45, R193). -/
def execStart (mask : BitVec 16) (s : State) : Host.Outcome State Fault Refusal :=
  .next (receive (.regulatorCommand (kindCode .start) mask) s)

/-- HALT at the regulators of a mask (R46, R193). -/
def execHalt (mask : BitVec 16) (s : State) : Host.Outcome State Fault Refusal :=
  .next (receive (.regulatorCommand (kindCode .halt) mask) s)

/-- RESTART at the regulators of a mask (R47, R193). -/
def execRestart (mask : BitVec 16) (s : State) : Host.Outcome State Fault Refusal :=
  .next (receive (.regulatorCommand (kindCode .restart) mask) s)

/-- SAMPLE at the regulators of a mask (R49, R193). -/
def execSample (mask : BitVec 16) (s : State) : Host.Outcome State Fault Refusal :=
  .next (receive (.regulatorCommand (kindCode .sample) mask) s)

/-- EXCHANGE at the regulators of a mask (R50, R193). -/
def execExchange (mask : BitVec 16) (s : State) : Host.Outcome State Fault Refusal :=
  .next (receive (.regulatorCommand (kindCode .exchange) mask) s)

/-- REGULATOR_COMMAND with any kind byte: one that names no command gives RANGE (R193). -/
def execRegulatorCommand (kind : Byte) (mask : BitVec 16) (s : State) : Host.Outcome State Fault Refusal :=
  .next (receive (.regulatorCommand kind mask) s)

/-- CLEAR_CAUSES (R173, R194). -/
def execClearCauses (target causeSet : Byte) (s : State) : Host.Outcome State Fault Refusal :=
  .next (receive (.clearCauses target causeSet) s)

/-- TAKE_DENIAL (R179, R195). -/
def execTakeDenial (s : State) : Host.Outcome State Fault Refusal :=
  .next (receive .takeDenial s)

/-- FULL_RESET (R197, R198). -/
def execFullReset (s : State) : Host.Outcome State Fault Refusal :=
  .next (receive .fullReset s)


end Sys2Proof.Machine
end

