-- ==== Sys2Proof/Machine/PortEvents.lean ====
section
/-! DEFINITION. The events of the management port below a frame (R181, R182, R186 to R188). -/

namespace Sys2Proof.Machine

/-- CRC_MISMATCH (R186): a command part ends with a CRC byte that does not match. -/
def execCrcMismatch (s : State) : Host.Outcome State Fault Refusal :=
  let t := settleTick s
  .next (if portOpen t then badFrame t else t)

/-- UNKNOWN_CODE (R187): the first byte of a frame names no command. A byte that does name one is stored as the first byte of
its command part (R182, log 16). -/
def execUnknownCode (code : Byte) (s : State) : Host.Outcome State Fault Refusal :=
  let t := settleTick s
  .next (if portOpen t then receiveByte [] code { t with sel := true } else t)

/-- SEL is asserted (R182): in IDLE a frame begins. While POR is asserted only the line's level is kept. -/
def selAssert (s : State) : State :=
  if s.por then { s with sel := true }
  else
    match s.port with
    | .idle => { s with sel := true, port := .command [] }
    | _ => { s with sel := true }

/-- SEL_ASSERTED (R182). -/
def execSelAsserted (s : State) : Host.Outcome State Fault Refusal :=
  .next (selAssert (settleTick s))

/-- BYTE_SLOT (R182): a byte slot is completed with a byte on SDI. While POR is asserted the port receives no byte (R204). -/
def execByteSlot (sdi : Byte) (s : State) : Host.Outcome State Fault Refusal :=
  let t := settleTick s
  .next (if t.por then t else slotDone sdi t)

/-- SEL_DEASSERTED (R182, R188): the port enters IDLE from any state; received bytes are discarded, the rest of a reply is
lost, BARRED ends. -/
def execSelDeasserted (s : State) : Host.Outcome State Fault Refusal :=
  .next { settleTick s with sel := false, port := .idle }


end Sys2Proof.Machine
end

