-- ==== Sys2Proof/Machine/Resets.lean ====
section
/-! DEFINITION. Path reset and power-on reset (R20 to R23, R62, R113, R125, R151, R204). -/

namespace Sys2Proof.Machine

/-- PRST is asserted (R20). While POR is asserted the part holds nothing that it could reset, and the line's level is kept. -/
def prstAssert (s : State) : State :=
  if s.prst then s else pathReset s

/-- PRST_ASSERTED (R20). -/
def execPrstAsserted (s : State) : Host.Outcome State Fault Refusal :=
  .next (prstAssert (settleTick s))

/-- PRST is deasserted (R22): the link resumes from empty, and the offered request is considered as a new offer. -/
def prstDeassert (s : State) : State :=
  if s.prst then resume { s with prst := false, offer := s.offer.map freshOffer } else s

/-- PRST_DEASSERTED (R22). -/
def execPrstDeasserted (s : State) : Host.Outcome State Fault Refusal :=
  .next (prstDeassert (settleTick s))

/-- POR_ASSERTED (R23, R204): the whole part is held in reset: no ticks, no edges, no link traffic, ALERT released, marker
lines low, the port held. -/
def execPorAsserted (s : State) : Host.Outcome State Fault Refusal :=
  .next { blocksReset (settleTick s) with por := true }

/-- POR is deasserted (R23, R63, R204): every block has its reset values, the divider starts, the SYN levels are
to be taken from the first sample without an edge, the port is IDLE, or BARRED if SEL is asserted, and the link resumes. -/
def porDeassert (s : State) : State :=
  if s.por then
    resume { blocksReset s with port := if s.sel then .barred else .idle }
  else s

/-- POR_DEASSERTED (R63, R204). -/
def execPorDeasserted (s : State) : Host.Outcome State Fault Refusal :=
  .next (porDeassert (settleTick s))


end Sys2Proof.Machine
end

