-- ==== Sys2Proof/Machine/Responses.lean ====
section
/-! DEFINITION. The response path: matching, the four awards and the interconnect's take (R129 to R148). -/

namespace Sys2Proof.Machine

/-- RESPONSE_OFFERED (R132): memory offers a response, or replaces the offered one (R4). It is matched: late and unexpected
responses are discarded at once (R134, R135), one matched to a LIVE entry stays offered (R133). -/
def execResponseOffered (response : Response) (s : State) : Host.Outcome State Fault Refusal :=
  .next (matchOffered { settleTick s with memoryOffer := some response })

/-- Memory's response for a LIVE entry wins a place (R133): it enters the queue unchanged, the entry is freed, its charge
is released, the key's live count falls, and the intake reconsiders. -/
def responseEntersQueue (s : State) : State :=
  if award s = some .memory then
    match liveMatch s with
    | some (u, i, e) => consider (closeEntry i e (enterQueue u { s with memoryOffer := none }))
    | none => s
  else s

/-- RESPONSE_ENTERS_QUEUE (R133). -/
def execResponseEntersQueue (s : State) : Host.Outcome State Fault Refusal :=
  .next (responseEntersQueue (settleTick s))

/-- The DENY emission (R104): the DENIED response of the bypass lane's head enters the queue, the entry leaves the pool,
its record is made, and the intake reconsiders. -/
def denyEmission (s : State) : State :=
  if award s = some .denyHead then
    match denyClaim s with
    | some (e, reason) => consider (deny e.request reason e.target (leavePool e s))
    | none => s
  else s

/-- DENY_EMISSION (R104). -/
def execDenyEmission (s : State) : Host.Outcome State Fault Refusal :=
  .next (denyEmission (settleTick s))

/-- The TIMEOUT response the part makes for an owed item (R14, R142). -/
def timeoutUnit (x : OwedItem) : Response :=
  { key := x.key, direction := x.direction, status := .timeout, data := [] }

/-- The head of the timeout list wins a place (R142): its TIMEOUT response enters the queue, the item leaves the list, the
key's owed count falls, and the intake reconsiders. -/
def timeoutResponse (s : State) : State :=
  if award s = some .timeoutList then
    match s.owed with
    | x :: rest =>
      consider
        (setCounts (enterQueue (timeoutUnit x) { s with owed := rest }) x.key
          { counts s x.key with owed := (counts s x.key).owed - 1 })
    | [] => s
  else s

/-- TIMEOUT_RESPONSE (R142). -/
def execTimeoutResponse (s : State) : Host.Outcome State Fault Refusal :=
  .next (timeoutResponse (settleTick s))

/-- The interconnect takes the head of the response queue (R147): a place is free and the intake reconsiders (R5). -/
def interconnectTakes (s : State) : State :=
  if flowing s then
    match s.responses with
    | _ :: rest => consider { s with responses := rest }
    | [] => s
  else s

/-- INTERCONNECT_TAKES_RESPONSE (R147). -/
def execInterconnectTakesResponse (s : State) : Host.Outcome State Fault Refusal :=
  .next (interconnectTakes (settleTick s))


end Sys2Proof.Machine
end

