-- ==== Sys2Proof/Machine/Timing.lean ====
section
/-! DEFINITION. The timebase, window ends, expiry, marker pulses and sync edges (R63 to R71, R138 to R140, R152 to R163). -/

namespace Sys2Proof.Machine

/-- TICK (R63 to R67, R131): the divider completes its interval, and marker pulses run on by what was left of it (R163).
A tick still in progress is completed before it. While POR is asserted there are no ticks. -/
def execTick (s : State) : Host.Outcome State Fault Refusal :=
  let t := settleTick s
  .next (if t.por then t else takeTick t)

/-- WINDOW_END (R68): the tick in progress reaches regulator r at POSITION PERIOD-1. Without such a tick no window ends. -/
def execWindowEnd (r : RegNo) (s : State) : Host.Outcome State Fault Refusal :=
  .next (finishWindowEnd r s)

/-- A marker line's pulse is in progress and ends before the next tick, or as that tick comes due. -/
def pulseEndsNext (line : Fin 4) (s : State) : Bool :=
  decide (0 < s.markers[line].pulseLeft) && decide (s.divider + s.markers[line].pulseLeft ≤ s.interval)

/-- MARKER_PULSE_END (R163): four REFCLK periods after the last event of its kind, the pulse on a marker line ends. The
periods it has left pass (log 6). When a tick comes before them, or no pulse is in progress, the line has no such event
next, and nothing changes (log 3). -/
def execMarkerPulseEnd (line : Fin 4) (s : State) : Host.Outcome State Fault Refusal :=
  let t := settleTick s
  .next (if !t.por && pulseEndsNext line t then passPeriods t.markers[line].pulseLeft t else t)

/-- EXPIRY (R138 to R140): the tick in progress judges expiry in the outstanding table. -/
def execExpiry (s : State) : Host.Outcome State Fault Refusal :=
  .next (finishExpiry s)

/-- A SYN line goes to a level and is sampled (R152): a level that differs from the kept one is an edge, which is delivered
to the regulators (R154). With no kept level this is the line's first sample, which makes no edge (R152, R197). While POR
is asserted the line is not sampled. -/
def synSample (line : Fin 4) (level : Bool) (s : State) : State :=
  if s.por then { s with syn := s.syn.set line { s.syn[line] with level := level } }
  else
    let t : State := { s with syn := s.syn.set line { level := level, kept := some level } }
    if s.syn[line].kept = some (!level) then reconsiderStates t (edgeAll line level t) else t

/-- SYN_EDGE (R154): a change of a SYN line to a level, high for a rising edge, is sampled (log 11). -/
def execSynEdge (line : Fin 4) (level : Bool) (s : State) : Host.Outcome State Fault Refusal :=
  .next (synSample line level (settleTick s))


end Sys2Proof.Machine
end

