-- ==== Sys2Proof/Machine/Dispatch.lean ====
section
/-! DEFINITION. The meaning of each command of the table: one arm per row. -/

namespace Sys2Proof.Machine

/-- The effect of a command on everything but the queue of waiting commands. -/
def exec (i : Instr) (s : State) : Host.Outcome State Fault Refusal :=
  match i with
  | .requestOffered request => Sys2Proof.Machine.execRequestOffered request s
  | .forwardTake => Sys2Proof.Machine.execForwardTake s
  | .denyEntryTake => Sys2Proof.Machine.execDenyEntryTake s
  | .directDenial => Sys2Proof.Machine.execDirectDenial s
  | .grant => Sys2Proof.Machine.execGrant s
  | .memoryTakesRequest => Sys2Proof.Machine.execMemoryTakesRequest s
  | .responseOffered response => Sys2Proof.Machine.execResponseOffered response s
  | .responseEntersQueue => Sys2Proof.Machine.execResponseEntersQueue s
  | .denyEmission => Sys2Proof.Machine.execDenyEmission s
  | .timeoutResponse => Sys2Proof.Machine.execTimeoutResponse s
  | .interconnectTakesResponse => Sys2Proof.Machine.execInterconnectTakesResponse s
  | .tick => Sys2Proof.Machine.execTick s
  | .windowEnd r => Sys2Proof.Machine.execWindowEnd r s
  | .markerPulseEnd line => Sys2Proof.Machine.execMarkerPulseEnd line s
  | .expiry => Sys2Proof.Machine.execExpiry s
  | .synEdge line level => Sys2Proof.Machine.execSynEdge line level s
  | .prstAsserted => Sys2Proof.Machine.execPrstAsserted s
  | .prstDeasserted => Sys2Proof.Machine.execPrstDeasserted s
  | .porAsserted => Sys2Proof.Machine.execPorAsserted s
  | .porDeasserted => Sys2Proof.Machine.execPorDeasserted s
  | .identify => Sys2Proof.Machine.execIdentify s
  | .readField space index word => Sys2Proof.Machine.execReadField space index word s
  | .writeField space index word value => Sys2Proof.Machine.execWriteField space index word value s
  | .prescale value => Sys2Proof.Machine.execPrescale value s
  | .responseTimeout value => Sys2Proof.Machine.execResponseTimeout value s
  | .defaultTarget value => Sys2Proof.Machine.execDefaultTarget value s
  | .markers value => Sys2Proof.Machine.execMarkers value s
  | .deviceMask value => Sys2Proof.Machine.execDeviceMask value s
  | .setup index value => Sys2Proof.Machine.execSetup index value s
  | .triggers index value => Sys2Proof.Machine.execTriggers index value s
  | .activeProfile index which value => Sys2Proof.Machine.execActiveProfile index which value s
  | .standbyProfile index which value => Sys2Proof.Machine.execStandbyProfile index which value s
  | .causeMask index value => Sys2Proof.Machine.execCauseMask index value s
  | .mapWord0 index value => Sys2Proof.Machine.execMapWord0 index value s
  | .baseLimit index which value => Sys2Proof.Machine.execBaseLimit index which value s
  | .enable mask => Sys2Proof.Machine.execEnable mask s
  | .disable mask => Sys2Proof.Machine.execDisable mask s
  | .start mask => Sys2Proof.Machine.execStart mask s
  | .halt mask => Sys2Proof.Machine.execHalt mask s
  | .restart mask => Sys2Proof.Machine.execRestart mask s
  | .sample mask => Sys2Proof.Machine.execSample mask s
  | .exchange mask => Sys2Proof.Machine.execExchange mask s
  | .clearCauses target causeSet => Sys2Proof.Machine.execClearCauses target causeSet s
  | .takeDenial => Sys2Proof.Machine.execTakeDenial s
  | .summary => Sys2Proof.Machine.execSummary s
  | .fullReset => Sys2Proof.Machine.execFullReset s
  | .crcMismatch => Sys2Proof.Machine.execCrcMismatch s
  | .unknownCode code => Sys2Proof.Machine.execUnknownCode code s
  | .selDeasserted => Sys2Proof.Machine.execSelDeasserted s
  | .selAsserted => Sys2Proof.Machine.execSelAsserted s
  | .byteSlot sdi => Sys2Proof.Machine.execByteSlot sdi s
  | .regulatorCommand kind mask => Sys2Proof.Machine.execRegulatorCommand kind mask s

end Sys2Proof.Machine
end

