-- ==== Sys2Proof/Machine/Idle.lean ====
section
/-! DEFINITION. What the part does when no command waits: its own events, and the passing of REFCLK. -/

namespace Sys2Proof.Machine

/-- The part's own next event, where one stands: an award (R144), a grant (R119), a take (R91). The spec orders the four
claims of an award. The order among award, grant and take is the model's (log 2). -/
def ownEvent (s : State) : Option State :=
  match award s with
  | some .timeoutList => some (timeoutResponse s)
  | some .denyHead => some (denyEmission s)
  | some .memory => some (responseEntersQueue s)
  | some .intake => some (directDenial s)
  | none =>
    if (choice s).isSome then some (grant s)
    else
      match considered s with
      | some (_, v) =>
        match v.disposition with
        | .forward => some (forwardTake s)
        | .denyEntry _ => some (denyEntryTake s)
        | _ => none
      | none => none

/-- A step with no command waiting: the part's own next event, and when none stands one REFCLK period (log 2). -/
def idle (s : State) : State :=
  let t := settleTick s
  match ownEvent t with
  | some u => u
  | none => refclkPeriod t


end Sys2Proof.Machine
end

