-- ==== Sys2Proof/Safety.lean ====
section
/-! DEFINITION. What a sound state is, in the terms the statements use: ranges of the fields, order and capacity of the
stores, the counts that stand for entries, order per key, and the conditions of the port, the path and the tick. Each is
a decidable proposition over plain data. -/

namespace Sys2Proof.Machine

/-- A profile holds values in range, OPEN LENGTH within its own PERIOD (R40). -/
abbrev ProfileOk (p : Profile) : Prop :=
  1 ≤ p.openLength ∧ p.openLength ≤ p.period ∧ p.period ≤ 65535 ∧ p.budget ≤ 16777215

/-- The setup of regulator r holds values in range (R39); SHAPE only on a shaping regulator (R55). -/
abbrev SetupOk (r : RegNo) (u : Setup) : Prop :=
  u.priority ≤ 3 ∧ 1 ≤ u.holdQuota ∧ u.holdQuota ≤ 48 ∧ u.outstandingLimit ≤ 64
    ∧ (u.mode = .shape → Config.firstShaping ≤ r.val)

/-- The window of a regulator: POSITION below the active PERIOD (R67), CONSUMED within its bound (R82, R79). -/
abbrev WindowOk (g : Regulator) : Prop :=
  g.position < g.active.period ∧ g.consumed ≤ Config.consumedMax
    ∧ (g.setup.mode ≠ .count → g.consumed ≤ g.active.budget + 255)

/-- A regulator in OFF or ARMED has POSITION, CONSUMED and OUTSTANDING COUNT 0 and no pending exchange (R42, R50). -/
abbrev RestOk (g : Regulator) : Prop :=
  laneInUse g.state = false →
    g.position = 0 ∧ g.consumed = 0 ∧ g.outstandingCount = 0 ∧ g.exchangePending = false

/-- A regulator context is sound. -/
abbrev RegulatorOk (r : RegNo) (g : Regulator) : Prop :=
  SetupOk r g.setup ∧ ProfileOk g.active ∧ ProfileOk g.standby ∧ WindowOk g ∧ RestOk g
    ∧ g.sample ≤ Config.consumedMax ∧ g.priorSample ≤ Config.consumedMax

/-- Every regulator context is sound. -/
abbrev RegulatorsOk (s : State) : Prop := ∀ r : RegNo, RegulatorOk r (reg s r)

/-- A pool entry is sound: in a regulator lane it is FORWARD and the regulator is RUNNING or HALTED (R88, R97); FORWARD is
well formed; DENY is denied for MALFORMED or QUOTA and keeps no write data (R87). -/
abbrev EntryOk (s : State) (e : PoolEntry) : Prop :=
  (∀ r : RegNo, e.lane = .regulator r → laneInUse (reg s r).state = true ∧ e.kind = .forward)
    ∧ (e.kind = .forward → malformed e.request = false)
    ∧ (e.kind ≠ .forward → e.kind ≠ .deny .poolFull ∧ e.request.data = [])

/-- The pool is in arrival order and within its capacity, every lane within its HOLD QUOTA (R88, R89, R92). -/
abbrev PoolOk (s : State) : Prop :=
  s.pool.length ≤ Config.poolEntries
    ∧ s.pool.Pairwise (fun a b => a.place < b.place)
    ∧ (∀ e ∈ s.pool, e.place < s.nextPlace ∧ EntryOk s e)
    ∧ ∀ r : RegNo, laneLength s (.regulator r) ≤ (reg s r).setup.holdQuota

/-- An outstanding entry is sound (R129): age within its saturation, an accepted length, ABANDONED charged to none, LIVE
charged to a regulator only while that is RUNNING or HALTED. -/
abbrev OutEntryOk (s : State) (e : OutEntry) : Prop :=
  e.age ≤ Config.ageMax ∧ 1 ≤ e.length.val ∧ e.length.val ≤ Config.maxLength ∧ e.place < s.nextPlace
    ∧ (e.state = .abandoned → e.charged = none)
    ∧ ∀ r ∈ e.charged, laneInUse (reg s r).state = true

/-- The outstanding table is sound: sound entries, each with a place in arrival order that no other entry of the table
and no pool entry has (R6, R129). -/
abbrev TableOk (s : State) : Prop :=
  (∀ p ∈ inUse s, OutEntryOk s p.2)
    ∧ (∀ p ∈ inUse s, ∀ q ∈ inUse s, p.2.place = q.2.place → p.1 = q.1)
    ∧ ∀ p ∈ inUse s, ∀ e ∈ s.pool, p.2.place ≠ e.place

/-- LIVE entries of a key in the table. -/
def liveOfKey (s : State) (k : Key) : Nat := (inUse s).countP fun p => p.2.state == .live && p.2.key == k

/-- LIVE entries charged to a regulator in the table. -/
def liveCharged (s : State) (r : RegNo) : Nat := (inUse s).countP fun p => p.2.state == .live && p.2.charged == some r

/-- The three counts of a key stand for its pool entries, LIVE entries and owed responses (R100). -/
abbrev KeyCountsOk (s : State) (k : Key) : Prop :=
  counts s k =
    { pooled := s.pool.countP fun e => e.request.key == k
      live := liveOfKey s k
      owed := s.owed.countP fun x => x.key == k }

/-- OUTSTANDING COUNT stands for the LIVE entries charged to the regulator and keeps its limit (R84). -/
abbrev ChargeOk (s : State) (r : RegNo) : Prop :=
  (reg s r).outstandingCount = liveCharged s r
    ∧ ((reg s r).setup.outstandingLimit ≠ 0 → (reg s r).outstandingCount ≤ (reg s r).setup.outstandingLimit)

/-- Every count equals the number of entries it stands for (R84, R100). -/
abbrev CountsOk (s : State) : Prop :=
  (∀ (i : Fin 16) (t : Fin 64), KeyCountsOk s { initiator := i, tag := t }) ∧ ∀ r : RegNo, ChargeOk s r

/-- Order per key (R6, R102, R131, R139, R142): a key's entries in the table and on the timeout list are older than its
pool entries, ages do not rise from older to younger entries of a key, a key has no LIVE entry while it is owed a
response, the timeout list is in arrival order, and its items share their places with no pool entry or LIVE entry. -/
abbrev KeyOrderOk (s : State) : Prop :=
  (∀ p ∈ inUse s, ∀ e ∈ s.pool, p.2.key = e.request.key → p.2.place < e.place)
    ∧ (∀ x ∈ s.owed, ∀ e ∈ s.pool, x.place ≠ e.place ∧ (x.key = e.request.key → x.place < e.place))
    ∧ (∀ p ∈ inUse s, ∀ q ∈ inUse s, p.2.key = q.2.key → p.2.place < q.2.place → q.2.age ≤ p.2.age)
    ∧ (∀ p ∈ inUse s, p.2.state = .live → ∀ x ∈ s.owed, x.key ≠ p.2.key ∧ x.place ≠ p.2.place)
    ∧ s.owed.Pairwise (fun x y => x.place < y.place)
    ∧ ∀ x ∈ s.owed, x.place < s.nextPlace

/-- The queues keep their capacities (R140, R143, R178). -/
abbrev QueuesOk (s : State) : Prop :=
  s.responses.length ≤ Config.queuePlaces ∧ s.owed.length ≤ Config.timeoutItems
    ∧ s.denials.length ≤ Config.denialRecords

/-- A map entry holds page numbers in range, and a valid one has BASE no greater than LIMIT (R24). -/
abbrev MapEntryOk (e : MapEntry) : Prop :=
  e.base ≤ 268435455 ∧ e.limit ≤ 268435455 ∧ (e.valid = true → e.base ≤ e.limit)

/-- Every map entry is sound. -/
abbrev MapOk (s : State) : Prop := ∀ i : Fin 32, MapEntryOk s.map[i]

/-- A marker line: its pulse is at most four periods, and there is none while the source is OFF (R163, R164). -/
abbrev MarkerOk (s : State) (m : Marker) : Prop :=
  m.pulseLeft ≤ Config.pulsePeriods ∧ ((reg s m.source).state = .off → m.pulseLeft = 0)

/-- Every marker line is sound. -/
abbrev MarkersOk (s : State) : Prop := ∀ l : Fin 4, MarkerOk s s.markers[l]

/-- The DEVICE fields hold values in range, and the divider counts within its interval (R63, R137, R200). -/
abbrev DeviceOk (s : State) : Prop :=
  1 ≤ s.prescale ∧ s.prescale ≤ 65536 ∧ 1 ≤ s.interval ∧ s.interval ≤ 65536 ∧ s.divider ≤ s.interval
    ∧ s.responseTimeout ≤ 65535 ∧ s.bypassPriority ≤ 3

/-- A kept SYN level is the level of its line, because every change of a line is sampled, and no level is kept while POR is
asserted (R152). -/
abbrev SynOk (s : State) : Prop := ∀ l : Fin 4, ∀ k ∈ (s.syn[l]).kept, k = (s.syn[l]).level ∧ s.por = false

/-- The bytes received in COMMAND are none, or the beginning of the command part that their code names (R182). -/
def receivedOk : List Byte → Bool
  | [] => true
  | code :: rest =>
    match commandPartLength code with
    | some n => decide (rest.length + 1 < n)
    | none => false

/-- What the port's state holds: a beginning of a command part in COMMAND, bytes to shift out in REPLY (R182). -/
def portHolds : Port → Bool
  | .command received => receivedOk received
  | .reply rest => !rest.isEmpty
  | .idle => true
  | .after => true
  | .barred => true

/-- The port agrees with SEL, and holds what its state holds (R182). -/
abbrev PortOk (s : State) : Prop :=
  (s.por = false → (s.port = .idle ↔ s.sel = false))
    ∧ portHolds s.port = true

/-- While the path is held nothing is in flight (R20, R21, R23). -/
abbrev HeldOk (s : State) : Prop :=
  flowing s = false →
    s.held = none ∧ s.responses = [] ∧ s.owed = [] ∧ s.pool = [] ∧ tableCount s = 0

/-- The tick in progress: every regulator due for a window end is RUNNING at its last position (R67), and no tick is in
progress while POR is asserted (R63). -/
abbrev TickOk (s : State) : Prop :=
  (∀ r ∈ s.windowEndDue, atLastPosition (reg s r) = true) ∧ s.windowEndDue.Nodup
    ∧ (s.por = true → s.windowEndDue = [] ∧ s.expiryDue = false)

/-- The offered request's runs are those of a consideration of the present state: the intake has reconsidered at every
event that changes what it finds (R5, R91, R94). -/
abbrev ConsideredOk (s : State) : Prop :=
  ∀ o ∈ s.offer, flowing s = true →
    o.quotaRun = (judge s o.request).atQuota ∧ o.poolRun = (judge s o.request).foundFull

/-- A response left offered is matched to a LIVE entry: late and unexpected ones were taken at once (R132 to R135). -/
abbrev OfferedResponseOk (s : State) : Prop :=
  s.memoryOffer ≠ none → flowing s = true → liveMatch s ≠ none

/-- While POR is asserted the part stands at its reset values; only the lines and the partners' offers move (R23, R166,
R175, R204). -/
abbrev PorHeld (s : State) : Prop := s.por = true → s = { blocksReset s with por := true }

/-- The stores of requests are sound together: the pool, the outstanding table, and every count of them. -/
abbrev StoresOk (s : State) : Prop := PoolOk s ∧ TableOk s ∧ CountsOk s

/-- No tick is in progress: its window ends and its expiry are done. -/
abbrev Quiet (s : State) : Prop := s.windowEndDue = [] ∧ s.expiryDue = false

/-- A frame can be received and performed: no tick is in progress, POR is not asserted and the port is not BARRED. -/
abbrev PortReady (s : State) : Prop := Quiet s ∧ s.por = false ∧ s.port ≠ .barred

/-- A safe run never stops: every step answers a next state. -/
abbrev SafeStep (s : State) : Prop := ∃ t, step s = .next t

/-- Commands executed one after another, each on the state the one before left. -/
def execAll : List Instr → State → Host.Outcome State Fault Refusal
  | [], s => .next s
  | c :: rest, s =>
    match exec c s with
    | .next t => execAll rest t
    | .fault f => .fault f
    | .refused r => .refused r

/-- The table row that stands for the frame of a command (log 7). -/
def rowOf : FrameCommand → Instr
  | .identify => .identify
  | .readField space index word => .readField space index word
  | .writeField space index word value => .writeField space index word value
  | .regulatorCommand kind mask => .regulatorCommand kind mask
  | .clearCauses target causeSet => .clearCauses target causeSet
  | .takeDenial => .takeDenial
  | .summary => .summary
  | .fullReset => .fullReset

/-- A context with some causes set besides those it has. -/
def withCauses (g : Regulator) (bits : BitVec 7) : Regulator := { g with causes := g.causes ||| bits }

/-- The context of a regulator after a command other than DISABLE, by the table of commands and states (R43 to R50): the
fields that change, the causes that are set, everything else as it was. -/
def contextAfter (k : CommandKind) (g : Regulator) : Regulator :=
  match k, g.state with
  | .enable, .off => { g with state := .armed }
  | .start, .armed => { g with state := .running, position := 0, consumed := 0, windowsCompleted := 0#16 }
  | .start, .halted => { g with state := .running }
  | .halt, .running => { g with state := .halted }
  | .restart, .running => restarted g
  | .restart, .halted => restarted g
  | .sample, .armed => sampledWith g
  | .sample, .running => sampledWith g
  | .sample, .halted => sampledWith g
  | .exchange, .off => exchangedWith g
  | .exchange, .armed => exchangedWith g
  | .exchange, .running => { g with exchangePending := true }
  | .exchange, .halted => { g with exchangePending := true }
  | _, _ => g
where
  /-- RESTART (R47): a pending exchange is applied and sets EXCHANGED, and a new window begins. -/
  restarted (g : Regulator) : Regulator :=
    if g.exchangePending then
      { g with
        active := g.standby, standby := g.active, exchangePending := false, causes := g.causes ||| 0x40#7
        position := 0, consumed := 0, windowsCompleted := 0#16 }
    else { g with position := 0, consumed := 0, windowsCompleted := 0#16 }
  /-- SAMPLE (R48). -/
  sampledWith (g : Regulator) : Regulator :=
    { g with
      priorSample := g.sample, sample := g.consumed, sampleWindow := g.windowsCompleted
      causes := g.causes ||| 0x20#7 }
  /-- EXCHANGE at once (R40, R50). -/
  exchangedWith (g : Regulator) : Regulator :=
    { g with
      active := g.standby, standby := g.active, exchangePending := false, causes := g.causes ||| 0x40#7 }

/-- The context after steps 1 and 2 of R155 at one edge: SAMPLE, then START and HALT, with the toggle of R156. -/
def contextAfterStartHalt (line : Fin 4) (rising : Bool) (g : Regulator) : Regulator :=
  let g1 := if selects g.triggers.sample line rising then contextAfter .sample g else g
  if selects g.triggers.start line rising && selects g.triggers.halt line rising then
    if g1.state = .running then { g1 with state := .halted } else contextAfter .start g1
  else if selects g.triggers.start line rising then contextAfter .start g1
  else if selects g.triggers.halt line rising then contextAfter .halt g1
  else g1

/-- The context after the functions that one edge delivers, in the order of R155. -/
def contextAfterEdge (line : Fin 4) (rising : Bool) (g : Regulator) : Regulator :=
  let g2 := contextAfterStartHalt line rising g
  let g3 := if selects g.triggers.restart line rising then contextAfter .restart g2 else g2
  if selects g.triggers.exchange line rising then contextAfter .exchange g3 else g3

/-- The row of a regulator command (R193). -/
def rowOfKind (k : CommandKind) (mask : BitVec 16) : Instr :=
  match k with
  | .enable => .enable mask
  | .disable => .disable mask
  | .start => .start mask
  | .halt => .halt mask
  | .restart => .restart mask
  | .sample => .sample mask
  | .exchange => .exchange mask

/-- A marker line at the start of a pulse (R163). -/
def pulsed (m : Marker) : Marker := { m with pulseLeft := 4 }

/-- The head e of a lane may be chosen as far as its own lane and key go (R115, R116). -/
abbrev Candidate (s : State) (e : PoolEntry) : Prop :=
  e.kind = .forward ∧ oldestPooled s e.request.key = some e ∧ (counts s e.request.key).owed = 0
    ∧ ∀ r : RegNo, e.lane = .regulator r →
        (reg s r).state = .running ∧ gateOpen (reg s r) = true
          ∧ ((reg s r).setup.outstandingLimit = 0
            ∨ (reg s r).outstandingCount < (reg s r).setup.outstandingLimit)

/-- The entry at place i is the in-use entry of key k with the earliest place in arrival order (R132). -/
abbrev OldestAt (s : State) (k : Key) (i : Fin 64) (e : OutEntry) : Prop :=
  s.outstanding[i] = some e ∧ e.key = k
    ∧ ∀ (j : Fin 64) (f : OutEntry), s.outstanding[j] = some f → f.key = k → j ≠ i → e.place < f.place

/-- Some LIVE entry of a key has reached RESPONSE TIMEOUT (R138). -/
def keyExpiring (s : State) (k : Key) : Bool :=
  (inUse s).any fun p => p.2.key == k && expiring s.responseTimeout p.2

/-- What a denial of q for a reason and target leaves in the response queue, the denial queue, the device causes and the
regulators, from s to t, besides the causes `also` (R96, R104, R177, R178). -/
abbrev DenialEffect (q : Request) (reason : DenyReason) (target : Target) (also : BitVec 6) (s t : State) : Prop :=
  t.responses = s.responses ++ [{ key := q.key, direction := q.direction, status := .denied, data := [] }]
    ∧ (s.denials.length < 16 →
        t.denials = s.denials ++
            [{ key := q.key, direction := q.direction, address := q.address, length := q.length, reason := reason,
               target := target, time := s.timebase }]
          ∧ t.deviceCauses = s.deviceCauses ||| also)
    ∧ (16 ≤ s.denials.length → t.denials = s.denials ∧ t.deviceCauses = s.deviceCauses ||| also ||| 0x08#6)
    ∧ ∀ r : RegNo, reg t r =
        if target = .regulator r ∧ ((reg s r).state = .running ∨ (reg s r).state = .halted) then
          withCauses (reg s r) 0x10#7
        else reg s r

/-- The words that software may write, by the table of R191. -/
abbrev Writable (space index word : Byte) : Prop :=
  (space = 0x00#8 ∧ index = 0x00#8 ∧ word ∈ [0x00#8, 0x01#8, 0x02#8, 0x03#8, 0x05#8])
    ∨ (space = 0x01#8 ∧ index.toNat < 16 ∧ word ∈ [0x00#8, 0x01#8, 0x02#8, 0x03#8, 0x04#8, 0x05#8, 0x0D#8])
    ∨ (space = 0x02#8 ∧ index.toNat < 32 ∧ word ∈ [0x00#8, 0x01#8, 0x02#8])

/-- A writable word is locked in the state found, against a value, by the table of R192. -/
abbrev LockedWord (s : State) (space index word : Byte) (value : Word) : Prop :=
  (space = 0x00#8 ∧ word = 0x00#8 ∧ ∃ r : RegNo, (reg s r).state = .running ∨ (reg s r).state = .halted)
    ∨ (∃ r : RegNo, space = 0x01#8 ∧ index.toNat = r.val
        ∧ ((word = 0x00#8 ∨ word = 0x01#8) ∧ (reg s r).state ≠ .off
          ∨ (word = 0x02#8 ∨ word = 0x03#8) ∧ ((reg s r).state = .running ∨ (reg s r).state = .halted)))
    ∨ ∃ i : Fin 32, space = 0x02#8 ∧ index.toNat = i.val ∧ (s.map[i]).valid = true
        ∧ (word ≠ 0x00#8 ∨ value.getLsbD 0 = true)

/-- A value n is out of range for a writable word, by the field ranges and codes of R199 to R202, with SHAPE on regulators 0 to
11 (R55), OPEN LENGTH against PERIOD (R57, R58) and BASE against LIMIT of an entry that becomes valid (R34). -/
abbrev OutOfRange (s : State) (space index word : Byte) (n : Nat) : Prop :=
  (space = 0x00#8
    ∧ (word = 0x00#8 ∧ (n = 0 ∨ 65536 < n)
      ∨ word = 0x01#8 ∧ 65535 < n
      ∨ word = 0x02#8 ∧ (17 ≤ n % 32 ∨ 4 ≤ n / 2 ^ 8 % 8)
      ∨ word = 0x03#8 ∧ ∃ l : Fin 4, n / 2 ^ (8 * l.val + 4) % 8 = 7))
  ∨ (space = 0x01#8
    ∧ (word = 0x00#8
        ∧ (n % 4 = 3 ∨ n % 4 = 2 ∧ index.toNat < 12 ∨ 4 ≤ n / 2 ^ 4 % 8 ∨ 2 ≤ n / 2 ^ 8 % 4 ∨ 2 ≤ n / 2 ^ 12 % 4
          ∨ n / 2 ^ 16 % 64 = 0 ∨ 49 ≤ n / 2 ^ 16 % 64 ∨ 65 ≤ n / 2 ^ 24 % 128)
      ∨ word = 0x01#8 ∧ (∃ k : Fin 5, 5 ≤ n / 2 ^ (6 * k.val) % 8 ∨ n / 2 ^ (6 * k.val + 3) % 4 = 3)
      ∨ (word = 0x02#8 ∨ word = 0x04#8) ∧ (n % 2 ^ 16 = 0 ∨ n / 2 ^ 16 = 0 ∨ n % 2 ^ 16 < n / 2 ^ 16)
      ∨ (word = 0x03#8 ∨ word = 0x05#8) ∧ 16777215 < n))
  ∨ (space = 0x02#8
    ∧ (word = 0x00#8
        ∧ (n / 2 ^ 4 % 4 = 3 ∨ 17 ≤ n / 2 ^ 8 % 32 ∨ 17 ≤ n / 2 ^ 16 % 32
          ∨ n % 2 = 1 ∧ ∃ i : Fin 32, index.toNat = i.val ∧ (s.map[i]).limit < (s.map[i]).base)
      ∨ (word = 0x01#8 ∨ word = 0x02#8) ∧ 268435455 < n))

/-- The words that exist, by the table of R191. -/
abbrev Existing (space index word : Byte) : Prop :=
  (space = 0x00#8 ∧ index = 0x00#8 ∧ word.toNat < 8)
    ∨ (space = 0x01#8 ∧ index.toNat < 16 ∧ word.toNat < 14)
    ∨ (space = 0x02#8 ∧ index.toNat < 32 ∧ word.toNat < 3)
    ∨ (space = 0x03#8 ∧ index.toNat < 17 ∧ word = 0x00#8)
    ∨ (space = 0x04#8 ∧ index.toNat < 64 ∧ word = 0x00#8)

/-- The bits of a writable word that belong to a field, by the layouts of R200 to R202. -/
def fieldBits (space word : Byte) : Word :=
  match space.toNat, word.toNat with
  | 0, 2 => 0x0000071F#32
  | 0, 3 => 0x7F7F7F7F#32
  | 0, 5 => 0x0000003F#32
  | 1, 0 => 0x7F3F3373#32
  | 1, 1 => 0x1F7DF7DF#32
  | 1, 13 => 0x0000007F#32
  | 2, 0 => 0x001F1F31#32
  | _, _ => 0xFFFFFFFF#32

end Sys2Proof.Machine
end

