-- ==== Sys2Proof/Certificates/Slice0/Obligations.lean ====
section
/-! DEFINITION. The statements for the provers. Each says what a rule of spec/ says of the model, over every state that
meets its premises. A statement that rests on a choice of the model names its log entry. -/

open Sys2Proof Sys2Proof.Machine

/-! ## The step and its queue -/

/-- A step executes the command at the front of the queue, with the rest of the queue in place. -/
def Obligations.StepExecutesFrontCommand : Prop :=
  ∀ (s : State) (c : Instr) (rest : List Instr), s.pending = c :: rest →
    step s = exec c { s with pending := rest }

/-- Every command completes, and leaves the waiting commands alone. That an event that cannot happen in the state found (a
GRANT with no candidate) completes as well is the model's choice (log 3), and the queue of waiting commands is the model's
own (log 1). -/
def Obligations.EveryCommandCompletesAndKeepsTheQueue : Prop :=
  ∀ (c : Instr) (s : State), ∃ t, exec c s = .next t ∧ t.pending = s.pending

/-- With no command waiting, the part makes its own next event: an award in the order of R144, a grant, a take. When none
stands, one REFCLK period passes: pulses run on by one period (R163), a SYN line without a kept level takes its first
sample (R152), and the divider counts, or completes its interval and makes the tick (R63). That an empty queue stands for
this, and the order among award, grant and take, are the model's choice (log 2). -/
def Obligations.EmptyQueueMakesOwnEventOrPassesRefclk : Prop :=
  ∀ s : State, s.pending = [] → Quiet s →
    (award s = some .timeoutList → step s = exec .timeoutResponse s)
    ∧ (award s = some .denyHead → step s = exec .denyEmission s)
    ∧ (award s = some .memory → step s = exec .responseEntersQueue s)
    ∧ (award s = some .intake → step s = exec .directDenial s)
    ∧ (award s = none → choice s ≠ none → step s = exec .grant s)
    ∧ (∀ q v, award s = none → choice s = none → considered s = some (q, v) →
        (v.disposition = .forward → step s = exec .forwardTake s)
        ∧ ∀ reason, v.disposition = .denyEntry reason → step s = exec .denyEntryTake s)
    ∧ (award s = none → choice s = none → s.por = false →
        (∀ q v, considered s = some (q, v) → v.disposition ≠ .forward ∧ ∀ reason, v.disposition ≠ .denyEntry reason) →
        (s.divider + 1 < s.interval → ∃ t, step s = .next t
          ∧ t = { s with markers := t.markers, syn := t.syn, divider := s.divider + 1 }
          ∧ (∀ l : Fin 4, t.markers[l] = { s.markers[l] with pulseLeft := (s.markers[l]).pulseLeft - 1 })
          ∧ ∀ l : Fin 4, t.syn[l] =
              if (s.syn[l]).kept = none then { level := (s.syn[l]).level, kept := some (s.syn[l]).level } else s.syn[l])
        ∧ (s.interval ≤ s.divider + 1 → ∃ u, exec .tick s = .next u ∧ step s = .next (settleTick u)))

/-- No other command falls between the parts of a tick: every command but the parts themselves acts on the state in which
the tick is finished (R66, R85, R138; log 5). -/
def Obligations.CommandsMeetFinishedTick : Prop :=
  ∀ (c : Instr) (s : State), (∀ r, c ≠ .windowEnd r) → c ≠ .expiry →
    exec c s = exec c (settleTick s) ∧ Quiet (settleTick s)

/-- Two window ends of one tick leave the same state in either order (R66). -/
def Obligations.WindowEndsOfOneTickCommute : Prop :=
  ∀ (r q : RegNo) (s a b : State), exec (.windowEnd r) s = .next a → exec (.windowEnd q) s = .next b →
    exec (.windowEnd q) a = exec (.windowEnd r) b

/-- An event that cannot happen in the state found changes nothing (log 3). -/
def Obligations.ImpossibleEventsChangeNothing : Prop :=
  ∀ s : State,
    (∀ r, r ∉ s.windowEndDue → exec (.windowEnd r) s = .next s)
    ∧ (s.expiryDue = false → exec .expiry s = .next s)
    ∧ (Quiet s →
        ((∀ q v, considered s = some (q, v) → v.disposition ≠ .forward) → exec .forwardTake s = .next s)
        ∧ ((∀ q v reason, considered s = some (q, v) → v.disposition ≠ .denyEntry reason) →
            exec .denyEntryTake s = .next s)
        ∧ (award s ≠ some .intake → exec .directDenial s = .next s)
        ∧ (award s ≠ some .denyHead → exec .denyEmission s = .next s)
        ∧ (award s ≠ some .memory → exec .responseEntersQueue s = .next s)
        ∧ (award s ≠ some .timeoutList → exec .timeoutResponse s = .next s)
        ∧ (choice s = none → exec .grant s = .next s)
        ∧ (s.responses = [] → exec .interconnectTakesResponse s = .next s)
        ∧ (s.prst = true → exec .prstAsserted s = .next s)
        ∧ (s.prst = false → exec .prstDeasserted s = .next s)
        ∧ (s.por = false → exec .porDeasserted s = .next s))

/-! ## Classification and intake -/

/-- The target is that of the lowest-indexed matching entry, or DEFAULT TARGET; an entry matches when the four conditions
of R25 hold. -/
def Obligations.LowestMatchingEntryClassifies : Prop :=
  ∀ (s : State) (q : Request),
    let matching := fun i : Fin 32 =>
      (s.map[i]).valid = true
        ∧ ((s.map[i]).direction = .both
          ∨ (s.map[i]).direction = .read ∧ q.direction = .read
          ∨ (s.map[i]).direction = .write ∧ q.direction = .write)
        ∧ ((s.map[i]).initiator = none ∨ (s.map[i]).initiator = some q.key.initiator)
        ∧ (s.map[i]).base ≤ q.address.toNat / 4096 ∧ q.address.toNat / 4096 ≤ (s.map[i]).limit
    (∀ i : Fin 32, matching i → (∀ j : Fin 32, j < i → ¬ matching j) → classify s q = (s.map[i]).target)
      ∧ ((∀ i : Fin 32, ¬ matching i) → classify s q = s.defaultTarget)

/-- The table of the take decision (R91), with the malformed check (R17), the effective lane (R28) and the two forms of
deny disposal (R95), and the situations that set QUOTA HIT and POOL FULL (R94). -/
def Obligations.TakeDecisionFollowsTheTable : Prop :=
  ∀ (s : State) (q : Request),
    let v := judge s q
    let full := 48 ≤ s.pool.length
    let free := (counts s q.key).pooled = 0 ∧ (counts s q.key).live = 0 ∧ (counts s q.key).owed = 0
    let bad := q.length.val = 0 ∨ 256 < q.length.val ∨ 4096 < q.address.toNat % 4096 + q.length.val
    let denied := fun reason =>
      (free → v.disposition = .directDenial reason ∧ v.foundFull = false)
        ∧ (¬ free → ¬ full → v.disposition = .denyEntry reason ∧ v.foundFull = false)
        ∧ (¬ free → full → v.disposition = .stall ∧ v.foundFull = true)
    v.target = classify s q
    ∧ (bad → v.atQuota = none ∧ denied .malformed)
    ∧ (¬ bad → ∀ r : RegNo, classify s q = .regulator r →
        ((reg s r).state = .running ∨ (reg s r).state = .halted) →
        let length := s.pool.countP fun e => e.lane == .regulator r
        v.lane = .regulator r
        ∧ ((reg s r).setup.holdQuota ≤ length →
            v.atQuota = some r
            ∧ ((reg s r).setup.policy = .stall → v.disposition = .stall ∧ v.foundFull = false)
            ∧ ((reg s r).setup.policy = .reject → denied .quota))
        ∧ (length < (reg s r).setup.holdQuota → full →
            v.atQuota = none ∧ v.foundFull = true
            ∧ ((reg s r).setup.policy = .stall → v.disposition = .stall)
            ∧ ((reg s r).setup.policy = .reject →
                (free → v.disposition = .directDenial .poolFull) ∧ (¬ free → v.disposition = .stall)))
        ∧ (length < (reg s r).setup.holdQuota → ¬ full →
            v.atQuota = none ∧ v.foundFull = false ∧ v.disposition = .forward))
    ∧ (¬ bad →
        (classify s q = .bypass
          ∨ ∃ r : RegNo, classify s q = .regulator r ∧ ((reg s r).state = .off ∨ (reg s r).state = .armed)) →
        v.lane = .bypass ∧ v.atQuota = none
        ∧ (¬ full → v.disposition = .forward ∧ v.foundFull = false)
        ∧ (full → v.disposition = .stall ∧ v.foundFull = true))

/-- An offered request is considered: it is the offer from then on, the causes of the situations found are set once, and
nothing else changes (R4, R5, R94). While the path is held it is only offered (R21). That the request waits after this
event, also where R91 has it taken at once, is the model's choice: the take is a command of its own (log 4). -/
def Obligations.RequestOfferedIsConsidered : Prop :=
  ∀ (s : State) (q : Request), Quiet s →
    (flowing s = false →
      exec (.requestOffered q) s =
        .next { s with offer := some { request := q, quotaRun := none, poolRun := false } })
    ∧ (flowing s = true → ∃ t, exec (.requestOffered q) s = .next t
        ∧ t = { s with
                offer :=
                  some { request := q, quotaRun := (judge s q).atQuota, poolRun := (judge s q).foundFull }
                regs := t.regs
                markers := t.markers
                deviceCauses := t.deviceCauses }
        ∧ (∀ r : RegNo, reg t r =
            if (judge s q).atQuota = some r then withCauses (reg s r) 0x08#7 else reg s r)
        ∧ (∀ l : Fin 4, t.markers[l] =
            if (s.markers[l]).kind = .quotaHit ∧ (judge s q).atQuota = some (s.markers[l]).source then
              pulsed s.markers[l]
            else s.markers[l])
        ∧ t.deviceCauses = if (judge s q).foundFull then s.deviceCauses ||| 0x01#6 else s.deviceCauses)

/-- A reconsideration that finds the situations that the one before found changes nothing, whatever causes and pulses stand.
One that finds others keeps what it found, and sets exactly what a new run sets: QUOTA HIT of the lane found at quota, with
its pulses, when the one before did not find that lane at quota; POOL FULL when the pool is found full and was not. Nothing
else changes (R91, R94). Which considerations make one run is the model's reading (log 8). -/
def Obligations.ReconsiderationSetsNothingAgain : Prop :=
  ∀ s : State,
    (ConsideredOk s → consider s = s)
    ∧ (s.offer = none ∨ flowing s = false → consider s = s)
    ∧ ∀ o : Offer, s.offer = some o → flowing s = true →
        let v := judge s o.request
        let newRun := fun r : RegNo => v.atQuota = some r ∧ o.quotaRun ≠ some r
        let t := consider s
        t = { s with
              offer := some { request := o.request, quotaRun := v.atQuota, poolRun := v.foundFull }
              regs := t.regs
              markers := t.markers
              deviceCauses := t.deviceCauses }
        ∧ (∀ r : RegNo, (newRun r → reg t r = withCauses (reg s r) 0x08#7) ∧ (¬ newRun r → reg t r = reg s r))
        ∧ (∀ l : Fin 4,
            let m := s.markers[l]
            (m.kind = .quotaHit ∧ newRun m.source → t.markers[l] = pulsed m)
            ∧ (¬ (m.kind = .quotaHit ∧ newRun m.source) → t.markers[l] = m))
        ∧ t.deviceCauses =
            if v.foundFull = true ∧ o.poolRun = false then s.deviceCauses ||| 0x01#6 else s.deviceCauses

/-- A FORWARD take makes the entry at the tail of its effective lane, with the request whole, and counts it (R98). -/
def Obligations.ForwardTakeJoinsTheLane : Prop :=
  ∀ (s : State) (q : Request) (v : Verdict), Quiet s → considered s = some (q, v) → v.disposition = .forward →
    ∃ t, exec .forwardTake s = .next t
      ∧ t = { s with
              offer := none
              pool := s.pool ++
                [{ kind := .forward, lane := v.lane, place := s.nextPlace, request := q, target := v.target }]
              nextPlace := s.nextPlace + 1
              tracker := t.tracker }
      ∧ ∀ k : Key, counts t k =
          if k = q.key then { counts s k with pooled := (counts s k).pooled + 1 } else counts s k

/-- A DENY entry joins the tail of the bypass lane without write data, whatever its effective lane, and counts; taking a
malformed request sets MALFORMED (R97, R11, R18). -/
def Obligations.DenyEntryTakeJoinsTheBypassLane : Prop :=
  ∀ (s : State) (q : Request) (v : Verdict) (reason : DenyReason), Quiet s → considered s = some (q, v) →
    v.disposition = .denyEntry reason →
    ∃ t, exec .denyEntryTake s = .next t
      ∧ t = { s with
              offer := none
              pool := s.pool ++
                [{ kind := .deny reason, lane := .bypass, place := s.nextPlace, request := { q with data := [] },
                   target := v.target }]
              nextPlace := s.nextPlace + 1
              tracker := t.tracker
              deviceCauses := if reason = .malformed then s.deviceCauses ||| 0x10#6 else s.deviceCauses }
      ∧ ∀ k : Key, counts t k =
          if k = q.key then { counts s k with pooled := (counts s k).pooled + 1 } else counts s k

/-- The intake's award takes the request and answers it: DENIED in the queue, the record, the causes; no pool entry and no
count (R96). -/
def Obligations.DirectDenialAnswersTheRequest : Prop :=
  ∀ s : State, Quiet s → award s = some .intake →
    ∃ q v reason, considered s = some (q, v) ∧ v.disposition = .directDenial reason
      ∧ ∃ t, exec .directDenial s = .next t
        ∧ t = { s with
                offer := none
                nextPlace := s.nextPlace + 1
                responses := t.responses
                denials := t.denials
                deviceCauses := t.deviceCauses
                regs := t.regs }
        ∧ DenialEffect q reason v.target (if reason = .malformed then 0x10#6 else 0x00#6) s t

/-! ## The downstream grant -/

/-- The choice: made while the path flows, the grant is IDLE and a place is free; the candidate of highest priority and
then of earliest place, into the lowest free place. The priority of a head is PRIORITY of its lane's regulator, and BYPASS
PRIORITY for the bypass lane. It fails only where one of these is wanting (R115 to R119, R129). -/
def Obligations.GrantChoosesHighestPriorityThenOldest : Prop :=
  ∀ s : State,
    let priority : Lane → Nat := fun
      | .regulator r => (reg s r).setup.priority
      | .bypass => s.bypassPriority
    (∀ e i, choice s = some (e, i) →
      flowing s = true ∧ s.held = none
      ∧ s.outstanding[i] = none ∧ (∀ j : Fin 64, j < i → s.outstanding[j] ≠ none)
      ∧ laneHead s e.lane = some e ∧ Candidate s e
      ∧ ∀ f l, laneHead s l = some f → Candidate s f →
          priority f.lane < priority e.lane ∨ priority f.lane = priority e.lane ∧ e.place ≤ f.place)
    ∧ (choice s = none →
        flowing s = false ∨ s.held ≠ none ∨ (∀ i : Fin 64, s.outstanding[i] ≠ none)
          ∨ ∀ l e, laneHead s l = some e → ¬ Candidate s e)

/-- The effects of a grant in every block (R120, R79 to R81): the entry leaves the pool, a LIVE entry is made, the counts
move, the regulator of the lane is charged and its causes are set, EXHAUSTED markers pulse, the request is offered as it
was taken; then the intake reconsiders (R90). -/
def Obligations.GrantMovesAndChargesTheChosenHead : Prop :=
  ∀ (s : State) (e : PoolEntry) (i : Fin 64), Quiet s → choice s = some (e, i) →
    ∃ u, exec .grant s = .next (consider u)
      ∧ u = { s with
              held := some e.request
              pool := s.pool.erase e
              outstanding :=
                s.outstanding.set i
                  (some { state := .live, key := e.request.key, direction := e.request.direction,
                          length := e.request.length, charged := chargedRegulator e.lane, age := 0,
                          place := e.place })
              tracker := u.tracker
              regs := u.regs
              markers := u.markers }
      ∧ (∀ k : Key, counts u k =
          if k = e.request.key then
            { counts s k with pooled := (counts s k).pooled - 1, live := (counts s k).live + 1 }
          else counts s k)
      ∧ (∀ r : RegNo,
          let g := reg s r
          let sum := g.consumed + e.request.length.val
          reg u r =
            if e.lane = .regulator r then
              if g.setup.mode = .count then
                { g with
                  consumed := min sum 4294967295
                  outstandingCount := g.outstandingCount + 1
                  causes :=
                    if g.consumed ≤ g.active.budget ∧ g.active.budget < min sum 4294967295 then g.causes ||| 0x04#7
                    else g.causes }
              else
                { g with
                  consumed := sum
                  outstandingCount := g.outstandingCount + 1
                  causes :=
                    if g.consumed < g.active.budget ∧ g.active.budget ≤ sum then g.causes ||| 0x02#7 else g.causes }
            else g)
      ∧ ∀ l : Fin 4,
          let g := reg s (s.markers[l]).source
          u.markers[l] =
            if (s.markers[l]).kind = .exhausted ∧ e.lane = .regulator (s.markers[l]).source ∧ g.setup.mode ≠ .count
                ∧ g.consumed < g.active.budget ∧ g.active.budget ≤ g.consumed + e.request.length.val then
              pulsed s.markers[l]
            else s.markers[l]

/-- A partner's take: memory's makes the grant IDLE and changes nothing else (R121); the interconnect's removes the head of
the response queue, and the intake reconsiders (R147, R5). -/
def Obligations.PartnersTakeWhatIsOffered : Prop :=
  ∀ s : State, Quiet s → flowing s = true →
    exec .memoryTakesRequest s = .next { s with held := none }
    ∧ ∀ u rest, s.responses = u :: rest →
        exec .interconnectTakesResponse s = .next (consider { s with responses := rest })

/-! ## Responses -/

/-- A response that memory offers: late and unexpected ones are taken at once and discarded, one for a LIVE entry stays
offered (R132 to R135). While the path is held it is only offered (R21). An unexpected response sets UNEXPECTED RESPONSE
(R135, R169). For status DENIED and TIMEOUT R13 says that no cause is set; there the model sets it or not by a free value,
for every value of which this holds (log 25). -/
def Obligations.OfferedResponseIsMatched : Prop :=
  ∀ (s : State) (u : Response), Quiet s →
    (flowing s = false → exec (.responseOffered u) s = .next { s with memoryOffer := some u })
    ∧ (flowing s = true →
        ((∀ (i : Fin 64) (e : OutEntry), s.outstanding[i] = some e → e.key ≠ u.key) →
          exec (.responseOffered u) s =
            .next { s with
                    memoryOffer := none
                    deviceCauses :=
                      if u.status = .denied ∧ Config.unexpectedDeniedSetsCause = false
                          ∨ u.status = .timeout ∧ Config.unexpectedTimeoutSetsCause = false then
                        s.deviceCauses
                      else s.deviceCauses ||| 0x04#6 })
        ∧ ∀ (i : Fin 64) (e : OutEntry), OldestAt s u.key i e →
            (e.state = .abandoned →
              exec (.responseOffered u) s =
                .next { s with memoryOffer := none, outstanding := s.outstanding.set i none })
            ∧ (e.state = .live → exec (.responseOffered u) s = .next { s with memoryOffer := some u }))

/-- A place of the response queue goes to the first standing claim: timeout list, DENY head, memory, intake (R144). -/
def Obligations.AwardGoesToFirstStandingClaim : Prop :=
  ∀ s : State, (∀ p ∈ inUse s, ∀ q ∈ inUse s, p.2.place = q.2.place → p.1 = q.1) →
    let place := flowing s = true ∧ s.responses.length < 16
    let deny := ∃ e reason, laneHead s .bypass = some e ∧ e.kind = .deny reason
      ∧ oldestPooled s e.request.key = some e
      ∧ (counts s e.request.key).live = 0 ∧ (counts s e.request.key).owed = 0
    let memory := ∃ u i e, s.memoryOffer = some u ∧ OldestAt s u.key i e ∧ e.state = .live
    let intake := ∃ q v reason, considered s = some (q, v) ∧ v.disposition = .directDenial reason
    (award s = some .timeoutList ↔ place ∧ s.owed ≠ [])
    ∧ (award s = some .denyHead ↔ place ∧ s.owed = [] ∧ deny)
    ∧ (award s = some .memory ↔ place ∧ s.owed = [] ∧ ¬ deny ∧ memory)
    ∧ (award s = some .intake ↔ place ∧ s.owed = [] ∧ ¬ deny ∧ ¬ memory ∧ intake)

/-- Memory's response wins a place (R133): it enters the queue unchanged, its entry is freed, its charge is released, its
key's live count falls; then the intake reconsiders (R91). -/
def Obligations.MemoryResponseEntersTheQueue : Prop :=
  ∀ (s : State) (m : Response) (i : Fin 64) (e : OutEntry), Quiet s → award s = some .memory →
    s.memoryOffer = some m → OldestAt s m.key i e →
    ∃ u, exec .responseEntersQueue s = .next (consider u)
      ∧ u = { s with
              memoryOffer := none
              responses := s.responses ++ [m]
              outstanding := s.outstanding.set i none
              tracker := u.tracker
              regs := u.regs }
      ∧ (∀ k : Key, counts u k = if k = m.key then { counts s k with live := (counts s k).live - 1 } else counts s k)
      ∧ ∀ r : RegNo, reg u r =
          if e.charged = some r then { reg s r with outstandingCount := (reg s r).outstandingCount - 1 }
          else reg s r

/-- The DENY emission (R104): DENIED for the bypass lane's head, its record and causes; the entry leaves the pool; then the
intake reconsiders (R90). -/
def Obligations.DenyEmissionAnswersTheHead : Prop :=
  ∀ s : State, Quiet s → award s = some .denyHead →
    ∃ e reason, laneHead s .bypass = some e ∧ e.kind = .deny reason
      ∧ ∃ u, exec .denyEmission s = .next (consider u)
        ∧ u = { s with
                pool := s.pool.erase e
                tracker := u.tracker
                responses := u.responses
                denials := u.denials
                deviceCauses := u.deviceCauses
                regs := u.regs }
        ∧ (∀ k : Key, counts u k =
            if k = e.request.key then { counts s k with pooled := (counts s k).pooled - 1 } else counts s k)
        ∧ DenialEffect e.request reason e.target 0x00#6 s u

/-- The head of the timeout list wins a place (R142, R14): TIMEOUT without data enters the queue, the item leaves the list,
its key's owed count falls; then the intake reconsiders (R91). -/
def Obligations.TimeoutResponseEntersTheQueue : Prop :=
  ∀ s : State, Quiet s → award s = some .timeoutList →
    ∃ x rest, s.owed = x :: rest
      ∧ ∃ u, exec .timeoutResponse s = .next (consider u)
        ∧ u = { s with
                owed := rest
                responses :=
                  s.responses ++ [{ key := x.key, direction := x.direction, status := .timeout, data := [] }]
                tracker := u.tracker }
        ∧ ∀ k : Key, counts u k = if k = x.key then { counts s k with owed := (counts s k).owed - 1 } else counts s k

/-! ## Ticks, window ends, expiry, edges -/

/-- A tick: the interval begins anew, the timebase count rises and wraps, every RUNNING window below its end moves on and
the others are due for a window end, every entry in use ages, and expiry is due when some LIVE entry has reached RESPONSE
TIMEOUT (R63 to R67, R131, R138). That the window ends and the expiry are left due for commands of their own is the model's
reading (log 5). That TICK is the end of the running interval whatever the divider has counted, with pulses run on by what
was left of it and the SYN lines sampled, is the model's choice (log 6). -/
def Obligations.TickMovesWindowsAndAges : Prop :=
  ∀ s : State, Quiet s → s.por = false → ∃ t, exec .tick s = .next t
    ∧ t = { s with
            divider := 0
            interval := s.prescale
            timebase := t.timebase
            regs := t.regs
            outstanding := t.outstanding
            windowEndDue := t.windowEndDue
            expiryDue := t.expiryDue
            markers := t.markers
            syn := t.syn }
    ∧ (∀ l : Fin 4, t.markers[l] =
        { s.markers[l] with pulseLeft := (s.markers[l]).pulseLeft - (s.interval - s.divider) })
    ∧ (∀ l : Fin 4, t.syn[l] =
        if (s.syn[l]).kept = none then { level := (s.syn[l]).level, kept := some (s.syn[l]).level } else s.syn[l])
    ∧ t.timebase.toNat = (s.timebase.toNat + 1) % 2 ^ 32
    ∧ (∀ r : RegNo, reg t r =
        if (reg s r).state = .running ∧ (reg s r).position + 1 < (reg s r).active.period then
          { reg s r with position := (reg s r).position + 1 }
        else reg s r)
    ∧ (∀ r : RegNo, r ∈ t.windowEndDue ↔
        (reg s r).state = .running ∧ (reg s r).active.period ≤ (reg s r).position + 1)
    ∧ (∀ i : Fin 64, t.outstanding[i] =
        (s.outstanding[i]).map fun e => { e with age := if e.age < 65535 then e.age + 1 else e.age })
    ∧ (t.expiryDue = true ↔
        s.responseTimeout ≠ 0
          ∧ ∃ (i : Fin 64) (e : OutEntry),
              t.outstanding[i] = some e ∧ e.state = .live ∧ s.responseTimeout ≤ e.age)

/-- A window end (R68): sample, carry, WINDOWS COMPLETED, exchange, POSITION 0, causes, pulses; no other regulator and
nothing else changes. -/
def Obligations.WindowEndClosesTheWindow : Prop :=
  ∀ (s : State) (r : RegNo), r ∈ s.windowEndDue → (reg s r).state = .running →
    let g := reg s r
    ∃ t, exec (.windowEnd r) s = .next t
      ∧ t = { s with regs := t.regs, markers := t.markers, windowEndDue := s.windowEndDue.filter (· ≠ r) }
      ∧ (∀ q : RegNo, q ≠ r → reg t q = reg s q)
      ∧ reg t r =
          { g with
            priorSample := if g.setup.autoSample then g.sample else g.priorSample
            sample := if g.setup.autoSample then g.consumed else g.sample
            sampleWindow := if g.setup.autoSample then g.windowsCompleted else g.sampleWindow
            consumed :=
              if g.setup.mode = .count then 0
              else if g.active.budget < g.consumed then g.consumed - g.active.budget
              else 0
            windowsCompleted := g.windowsCompleted + 1#16
            active := if g.exchangePending then g.standby else g.active
            standby := if g.exchangePending then g.active else g.standby
            exchangePending := false
            position := 0
            causes :=
              g.causes ||| (if g.setup.autoSample then 0x20#7 else 0x00#7)
                ||| (if g.exchangePending then 0x40#7 else 0x00#7) ||| 0x01#7 }
      ∧ ∀ l : Fin 4, t.markers[l] =
          if (s.markers[l]).source = r
              ∧ ((s.markers[l]).kind = .windowEnd
                ∨ (s.markers[l]).kind = .sampled ∧ g.setup.autoSample = true
                ∨ (s.markers[l]).kind = .exchanged ∧ g.exchangePending = true) then
            pulsed s.markers[l]
          else s.markers[l]

/-- Expiry (R138 to R140), in a state whose stores are sound: a key with an expiring entry has its whole run abandoned or
none of it. The keys are taken in the arrival order of their oldest expiring entries, and a run is abandoned exactly when it
fits in the room of 64 items left by the list and by the runs abandoned before it, also after a run that did not fit. Each
abandoned entry keeps its place, is charged to none and adds its owed TIMEOUT in arrival order; TIMEOUT is set when any is;
the stores stay sound. Then the waiting response is matched again and the intake reconsiders (R132, R91). -/
def Obligations.ExpiryAbandonsWholeRuns : Prop :=
  ∀ s : State, s.expiryDue = true → StoresOk s → KeyOrderOk s →
    ∃ u, exec .expiry s = .next { resume u with expiryDue := false }
      ∧ u = { s with
              outstanding := u.outstanding
              tracker := u.tracker
              owed := u.owed
              regs := u.regs
              deviceCauses := u.deviceCauses }
      ∧ (∀ i : Fin 64, s.outstanding[i] = none → u.outstanding[i] = none)
      ∧ (∀ (i : Fin 64) (e : OutEntry), s.outstanding[i] = some e →
          u.outstanding[i] = some e
          ∨ e.state = .live ∧ keyExpiring s e.key = true
            ∧ u.outstanding[i] = some { e with state := .abandoned, charged := none })
      ∧ (∀ (i j : Fin 64) (e f : OutEntry), s.outstanding[i] = some e → s.outstanding[j] = some f →
          e.state = .live → f.state = .live → e.key = f.key →
          (u.outstanding[i] = some e ↔ u.outstanding[j] = some f))
      ∧ (∀ (i : Fin 64) (e : OutEntry), s.outstanding[i] = some e → expiring s.responseTimeout e = true →
          (∀ (j : Fin 64) (f : OutEntry), s.outstanding[j] = some f → f.key = e.key →
            expiring s.responseTimeout f = true → e.place ≤ f.place) →
          let before := (inUse s).countP fun p =>
            u.outstanding[p.1] != some p.2
              && (inUse s).any fun q =>
                q.2.key == p.2.key && expiring s.responseTimeout q.2 && decide (q.2.place < e.place)
          (u.outstanding[i] ≠ some e ↔ liveOfKey s e.key + before + s.owed.length ≤ 64))
      ∧ (∀ x : OwedItem, x ∈ u.owed ↔
          x ∈ s.owed
          ∨ ∃ (i : Fin 64) (e : OutEntry), s.outstanding[i] = some e ∧ u.outstanding[i] ≠ some e
              ∧ x = { key := e.key, direction := e.direction, place := e.place })
      ∧ u.owed.Pairwise (fun x y => x.place < y.place)
      ∧ (u.owed = s.owed → u.deviceCauses = s.deviceCauses)
      ∧ (u.owed ≠ s.owed → u.deviceCauses = s.deviceCauses ||| 0x02#6)
      ∧ (∀ r : RegNo, ∃ n, reg u r = { reg s r with outstandingCount := n })
      ∧ StoresOk u ∧ KeyOrderOk u

/-- An edge reaches every regulator at one event, and each takes the functions delivered to it in the order of R155 with
the toggle of R156; SAMPLED lines pulse at a sample and EXCHANGED lines where an exchange is applied, of a source that is
not OFF; a change of STATE makes the intake reconsider (R153 to R157, R161, R164, R43). No edge is made by a level that is
already kept, by the first sample of a line, or while POR is asserted (R152, R197). That a change sent while a line has no
kept level is its first sample, and that while POR is asserted the line moves and no level is kept, is the model's reading
(log 11). -/
def Obligations.SynEdgeDeliversFunctionsInOrder : Prop :=
  ∀ (s : State) (line : Fin 4) (level : Bool), Quiet s →
    let sampled := s.syn.set line { level := level, kept := some level }
    (s.por = true →
      exec (.synEdge line level) s =
        .next { s with syn := s.syn.set line { level := level, kept := (s.syn[line]).kept } })
    ∧ (s.por = false → (s.syn[line]).kept ≠ some (!level) → exec (.synEdge line level) s = .next { s with syn := sampled })
    ∧ (s.por = false → (s.syn[line]).kept = some (!level) →
        ∃ u, exec (.synEdge line level) s = .next (reconsiderStates s u)
          ∧ u = { s with syn := sampled, regs := u.regs, markers := u.markers }
          ∧ (∀ r : RegNo, reg u r = contextAfterEdge line level (reg s r))
          ∧ ∀ l : Fin 4,
              let m := s.markers[l]
              let g := reg s m.source
              let h := contextAfterStartHalt line level g
              u.markers[l] =
                if g.state ≠ .off
                    ∧ (m.kind = .sampled ∧ selects g.triggers.sample line level = true
                      ∨ m.kind = .exchanged
                        ∧ (selects g.triggers.restart line level = true ∧ (h.state = .running ∨ h.state = .halted)
                            ∧ h.exchangePending = true
                          ∨ selects g.triggers.exchange line level = true ∧ h.state = .armed)) then
                  pulsed m
                else m)

/-- The end of a marker pulse that no tick comes before: the REFCLK periods it has left pass, the divider counts them, every
pulse runs on by as many, the line's own pulse is over, and a line of a pulse kind is low (R163, R63, R152). That these
periods pass with the command, and that a tick must come first where the divider's interval ends earlier, is the model's
choice (log 6). A pulse end that cannot come next changes nothing (log 3). -/
def Obligations.MarkerPulseEndsLow : Prop :=
  ∀ (s : State) (l : Fin 4), Quiet s →
    let n := (s.markers[l]).pulseLeft
    (s.por = false → 0 < n → s.divider + n ≤ s.interval →
      ∃ t, exec (.markerPulseEnd l) s = .next t
        ∧ t = { s with divider := s.divider + n, markers := t.markers, syn := t.syn }
        ∧ (∀ k : Fin 4, t.markers[k] = { s.markers[k] with pulseLeft := (s.markers[k]).pulseLeft - n })
        ∧ (∀ k : Fin 4, t.syn[k] =
            if (s.syn[k]).kept = none then { level := (s.syn[k]).level, kept := some (s.syn[k]).level } else s.syn[k])
        ∧ ((s.markers[l]).kind ≠ .gate → markerHigh t l = false))
    ∧ (s.por = true ∨ n = 0 ∨ s.interval < s.divider + n → exec (.markerPulseEnd l) s = .next s)

/-! ## Resets -/

/-- PRST is asserted: the path is emptied at one event and RUNNING and HALTED regulators fall to ARMED; everything else is
kept (R20, R62, R113, R125, R151). -/
def Obligations.PrstEmptiesThePath : Prop :=
  ∀ s : State, Quiet s → s.prst = false →
    ∃ t, exec .prstAsserted s = .next t
      ∧ t = { s with
              prst := true
              held := none
              responses := []
              owed := []
              pool := []
              tracker := t.tracker
              outstanding := t.outstanding
              regs := t.regs }
      ∧ (∀ k : Key, counts t k = { pooled := 0, live := 0, owed := 0 })
      ∧ (∀ i : Fin 64, t.outstanding[i] = none)
      ∧ ∀ r : RegNo, reg t r =
          if (reg s r).state = .running ∨ (reg s r).state = .halted then
            { reg s r with
              state := .armed, position := 0, consumed := 0, outstandingCount := 0, exchangePending := false }
          else reg s r

/-- When PRST is deasserted the link resumes: the response that memory offers is matched, and the offered request is
considered as a new offer (R22, R132). -/
def Obligations.PrstDeassertionResumesTheLink : Prop :=
  ∀ s : State, Quiet s → s.prst = true →
    let t : State := { s with prst := false }
    (s.offer = none → s.memoryOffer = none → exec .prstDeasserted s = .next t)
    ∧ (∀ u, s.offer = none → s.memoryOffer = some u → exec .prstDeasserted s = exec (.responseOffered u) t)
    ∧ (∀ o, s.offer = some o → s.memoryOffer = none → exec .prstDeasserted s = exec (.requestOffered o.request) t)
    ∧ ∀ o u, s.offer = some o → s.memoryOffer = some u →
        ∃ m, exec (.responseOffered u) { t with offer := none } = .next m
          ∧ exec .prstDeasserted s = exec (.requestOffered o.request) m

/-- POR is asserted: every block is at its reset values, whatever it held; no SYN level is kept (R152); the lines and the
partners' offers stay (R23, R36, R61, R86, R112, R126, R150, R166, R175, R180, R204; the model's reading of what stands
outside the part: log 10, log 11, log 20). -/
def Obligations.PorResetsEveryBlock : Prop :=
  ∀ s : State, Quiet s →
    exec .porAsserted s =
      .next { State.reset with
              por := true
              prst := s.prst
              sel := s.sel
              syn := mapSlots (fun x => { level := x.level, kept := none }) s.syn
              offer := s.offer.map fun o => { request := o.request, quotaRun := none, poolRun := false }
              memoryOffer := s.memoryOffer
              pending := s.pending }

/-- When POR is deasserted the part starts from its reset values: the divider starts, the port is IDLE, or BARRED when SEL is
asserted, and the link resumes (R63, R182, R204, R23). Each SYN line is at the level the outside drives, with no level kept
until its first sample (R152). That the levels move while POR is asserted and the first sample is a later event is the
model's reading (log 11). -/
def Obligations.PorDeassertionStartsThePart : Prop :=
  ∀ s : State, Quiet s → s.por = true →
    let t : State := { State.reset with
      prst := s.prst, sel := s.sel, pending := s.pending
      syn := mapSlots (fun x => { level := x.level, kept := none }) s.syn
      port := if s.sel then .barred else .idle }
    (s.offer = none → s.memoryOffer = none → exec .porDeasserted s = .next t)
    ∧ (∀ u, s.offer = none → s.memoryOffer = some u → exec .porDeasserted s = exec (.responseOffered u) t)
    ∧ (∀ o, s.offer = some o → s.memoryOffer = none → exec .porDeasserted s = exec (.requestOffered o.request) t)
    ∧ ∀ o u, s.offer = some o → s.memoryOffer = some u →
        ∃ m, exec (.responseOffered u) t = .next m
          ∧ exec .porDeasserted s = exec (.requestOffered o.request) m

/-! ## The management port

A row that is a frame stands for the whole frame up to its CRC byte, with SEL asserted (log 7). -/

/-- The bytes of a frame, sent one byte slot after another from IDLE, do exactly what the frame's row does (R182, R185;
log 7). -/
def Obligations.FrameBytesPerformTheRow : Prop :=
  ∀ (s : State) (c : FrameCommand), Quiet s → s.por = false → s.port = .idle →
    execAll (.selAsserted :: (encodeCommand c).map Instr.byteSlot) s = exec (rowOf c) s

/-- Decoding the command part of a command gives the command back, with every parameter, and the code fixes the length
(R183). -/
def Obligations.CommandPartsDecodeBack : Prop :=
  ∀ c : FrameCommand, ∃ code params, commandBody c = code :: params
    ∧ parseCommand code params = some c ∧ commandPartLength code = some (params.length + 2)

/-- A command part whose CRC byte does not match is not performed: FRAME ERROR is set, the reply is FRAME with its CRC, and
nothing else changes (R186). -/
def Obligations.BadCrcSetsFrameErrorOnly : Prop :=
  ∀ s : State,
    let t : State := { s with deviceCauses := s.deviceCauses ||| 0x20#6, sel := true, port := .reply [0x06#8, 0x12#8] }
    (∀ (code : Byte) (params : List Byte) (b : Byte), Quiet s → s.por = false → s.port = .command (code :: params) →
        commandPartLength code = some (params.length + 2) → crc8 (code :: params) ≠ b →
        exec (.byteSlot b) s = .next t)
    ∧ (PortReady s → exec .crcMismatch s = .next t)

/-- A first byte that names no command is answered with FRAME at once, sets no cause and performs nothing; the next two
slots carry 0x06 and 0x12, and the port is then in AFTER (R187). -/
def Obligations.UnknownCodeIsAnsweredAtOnce : Prop :=
  ∀ (s : State) (code a b : Byte), commandPartLength code = none →
    let t : State := { s with sel := true, port := .reply [0x06#8, 0x12#8] }
    (PortReady s → exec (.unknownCode code) s = .next t)
    ∧ (Quiet s → s.por = false → s.port = .command [] →
        exec (.byteSlot code) s = .next t
        ∧ sdoByte t = some 0x06#8
        ∧ ∃ u, exec (.byteSlot a) t = .next u ∧ sdoByte u = some 0x12#8
            ∧ exec (.byteSlot b) u = .next { s with sel := true, port := .after })

/-- The port's states: SEL begins and ends a frame, a byte is stored, a reply is shifted out, bytes are ignored in AFTER,
BARRED and IDLE (R181, R182, R188). -/
def Obligations.PortStatesFollowSelAndSlots : Prop :=
  ∀ s : State, Quiet s →
    exec .selDeasserted s = .next { s with sel := false, port := .idle }
    ∧ (s.por = false → s.port = .idle → exec .selAsserted s = .next { s with sel := true, port := .command [] })
    ∧ (s.por = true → ∀ b, exec .selAsserted s = .next { s with sel := true } ∧ exec (.byteSlot b) s = .next s
        ∧ sdoByte s = none)
    ∧ (s.por = false → ∀ b : Byte,
        (∀ n, s.port = .command [] → commandPartLength b = some n → exec (.byteSlot b) s = .next { s with port := .command [b] })
        ∧ (∀ code params n, s.port = .command (code :: params) → commandPartLength code = some n →
            params.length + 2 < n →
            exec (.byteSlot b) s = .next { s with port := .command (code :: params ++ [b]) })
        ∧ (∀ x y rest, s.port = .reply (x :: y :: rest) →
            sdoByte s = some x ∧ exec (.byteSlot b) s = .next { s with port := .reply (y :: rest) })
        ∧ (∀ x, s.port = .reply [x] → sdoByte s = some x ∧ exec (.byteSlot b) s = .next { s with port := .after })
        ∧ (∀ received, s.port = .command received → sdoByte s = some 0xFF#8)
        ∧ (s.port = .after ∨ s.port = .barred → sdoByte s = some 0xFF#8 ∧ exec (.byteSlot b) s = .next s)
        ∧ (s.port = .idle → sdoByte s = none ∧ exec (.byteSlot b) s = .next s))

/-- IDENTIFY and SUMMARY change nothing but the port, and carry the bytes of R190 and R196 with their CRC (R184). -/
def Obligations.IdentifyAndSummaryReport : Prop :=
  ∀ s : State, PortReady s →
    let reply := fun body : List Byte => ({ s with sel := true, port := .reply (body ++ [crc8 body]) } : State)
    exec .identify s =
      .next (reply [0x00#8, 0x01#8, 0xB8#8, 0x01#8, 16#8, 12#8, 17#8, 48#8, 64#8, 16#8, 16#8, 32#8, 4#8, 4#8])
    ∧ ∃ mask : Nat, mask < 2 ^ 16
      ∧ (∀ r : RegNo, mask.testBit r.val = true ↔
          ∃ c : Fin 7, (reg s r).causes.getLsbD c = true ∧ (reg s r).mask.getLsbD c = false)
      ∧ exec .summary s =
          .next (reply ([0x00#8] ++ bytesOfNat 2 mask ++ [s.deviceCauses.setWidth 8]
            ++ bytesOfNat 4 (s.pool.length + tableCount s * 2 ^ 7 + s.owed.length * 2 ^ 14
                + s.responses.length * 2 ^ 21 + s.denials.length * 2 ^ 26)))

/-- READ FIELD: a word that exists is answered with DONE and its value, any other with INDEX and a value of 0; nothing but
the port changes (R191). The words that software cannot write hold the fields of R200, R201 and R203, and the profile words
hold the profiles (R201). -/
def Obligations.ReadFieldAnswersExistingWords : Prop :=
  ∀ s : State, PortReady s →
    let reads := fun (space index word : Byte) (v : Nat) =>
      readWord s space.toNat index.toNat word.toNat = some v
        ∧ exec (.readField space index word) s =
            .next { s with
                    sel := true
                    port := .reply ([0x00#8] ++ bytesOfNat 4 v ++ [crc8 ([0x00#8] ++ bytesOfNat 4 v)]) }
    (∀ space index word : Byte,
      (Existing space index word → ∃ v, reads space index word v)
      ∧ (¬ Existing space index word →
          exec (.readField space index word) s =
            .next { s with sel := true, port := .reply (replyPart .index [0x00#8, 0x00#8, 0x00#8, 0x00#8]) }))
    ∧ reads 0x00#8 0x00#8 0x04#8 s.deviceCauses.toNat
    ∧ reads 0x00#8 0x00#8 0x06#8 s.timebase.toNat
    ∧ reads 0x00#8 0x00#8 0x07#8
        (s.pool.length + tableCount s * 2 ^ 7 + s.owed.length * 2 ^ 14 + s.responses.length * 2 ^ 21
          + s.denials.length * 2 ^ 26)
    ∧ (∀ r : RegNo,
        let g := reg s r
        let readsReg := reads 0x01#8 (BitVec.ofNat 8 r.val)
        let state :=
          match g.state with
          | .off => 0
          | .armed => 1
          | .running => 2
          | .halted => 3
        readsReg 0x02#8 (g.active.period + g.active.openLength * 2 ^ 16)
        ∧ readsReg 0x03#8 g.active.budget
        ∧ readsReg 0x04#8 (g.standby.period + g.standby.openLength * 2 ^ 16)
        ∧ readsReg 0x05#8 g.standby.budget
        ∧ readsReg 0x06#8
            (state + (if g.exchangePending then 2 ^ 4 else 0) + g.outstandingCount * 2 ^ 8
              + (s.pool.countP fun e => e.lane == .regulator r) * 2 ^ 16)
        ∧ readsReg 0x07#8 (g.position + g.windowsCompleted.toNat * 2 ^ 16)
        ∧ readsReg 0x08#8 g.consumed ∧ readsReg 0x09#8 g.sample ∧ readsReg 0x0A#8 g.priorSample
        ∧ readsReg 0x0B#8 g.sampleWindow.toNat ∧ readsReg 0x0C#8 g.causes.toNat)
    ∧ (∀ (l : Fin 17) (lane : Lane), (∀ r : RegNo, lane = .regulator r ↔ l.val = r.val) →
        let length := s.pool.countP fun e => e.lane == lane
        reads 0x03#8 (BitVec.ofNat 8 l.val) 0x00#8
          (match s.pool.find? fun e => e.lane == lane with
            | none => length
            | some e =>
              length + (if e.kind = .forward then 1 else 2) * 2 ^ 8 + e.request.key.initiator.val * 2 ^ 16
                + e.request.key.tag.val * 2 ^ 24))
    ∧ ∀ i : Fin 64,
        reads 0x04#8 (BitVec.ofNat 8 i.val) 0x00#8
          (match s.outstanding[i] with
            | none => 0
            | some e =>
              (match e.state, e.charged with
                | .live, some r => r.val + 1
                | .live, none => 17
                | .abandoned, _ => 18)
                + (if e.direction = .write then 2 ^ 5 else 0) + e.key.initiator.val * 2 ^ 6 + e.key.tag.val * 2 ^ 10
                + (e.length.val - 1) * 2 ^ 16 + e.age / 256 * 2 ^ 24)

/-- The value of every word after reset (R200 to R203). -/
def Obligations.WordsReadTheirResetValues : Prop :=
  (List.range 8).map (readWord State.reset 0 0) =
      [some 0x64, some 0, some 0x310, some 0, some 0, some 0x3F, some 0, some 0]
  ∧ (∀ r : Fin 16, (List.range 14).map (readWord State.reset 1 r.val) =
      [some 0x80000, some 0, some 0x10001, some 0, some 0x10001, some 0, some 0, some 0, some 0, some 0, some 0,
       some 0, some 0, some 0x7F])
  ∧ (∀ i : Fin 32, (List.range 3).map (readWord State.reset 2 i.val) = [some 0, some 0, some 0])
  ∧ (∀ l : Fin 17, readWord State.reset 3 l.val 0 = some 0)
  ∧ ∀ i : Fin 64, readWord State.reset 4 i.val 0 = some 0

/-- A refused WRITE FIELD: INDEX where the word may not be written, LOCKED where it may and is locked, RANGE where it is not
locked and a field is out of its range (R32 to R35, R55 to R58, R65, R137, R160, R199 to R202), and nothing but the reply
follows from any refusal (R192). -/
def Obligations.RefusedWritesChangeNothing : Prop :=
  ∀ (s : State) (space index word : Byte) (v : Word), PortReady s →
    let status := (writeWord s space.toNat index.toNat word.toNat v.toNat).1
    (status = .index ↔ ¬ Writable space index word)
    ∧ (status = .locked ↔ Writable space index word ∧ LockedWord s space index word v)
    ∧ (status = .range ↔
        Writable space index word ∧ ¬ LockedWord s space index word v ∧ OutOfRange s space index word v.toNat)
    ∧ (status = .done ∨ status = .index ∨ status = .locked ∨ status = .range)
    ∧ (status ≠ .done →
        exec (.writeField space index word v) s = .next { s with sel := true, port := .reply (replyPart status []) })

/-- Each row that writes a word does exactly what WRITE FIELD does at that word, whatever the value, the index and the state,
the refusals included (R32 to R35, R55 to R59, R65, R137, R160, R170, R192; log 7). -/
def Obligations.WriteRowsAreWritesOfTheirWords : Prop :=
  ∀ (s : State) (index : Byte) (v : Word),
    let write := fun space index word => exec (.writeField space index word v) s
    exec (.prescale v) s = write 0x00#8 0x00#8 0x00#8
    ∧ exec (.responseTimeout v) s = write 0x00#8 0x00#8 0x01#8
    ∧ exec (.defaultTarget v) s = write 0x00#8 0x00#8 0x02#8
    ∧ exec (.markers v) s = write 0x00#8 0x00#8 0x03#8
    ∧ exec (.deviceMask v) s = write 0x00#8 0x00#8 0x05#8
    ∧ exec (.setup index v) s = write 0x01#8 index 0x00#8
    ∧ exec (.triggers index v) s = write 0x01#8 index 0x01#8
    ∧ exec (.activeProfile index .timing v) s = write 0x01#8 index 0x02#8
    ∧ exec (.activeProfile index .budget v) s = write 0x01#8 index 0x03#8
    ∧ exec (.standbyProfile index .timing v) s = write 0x01#8 index 0x04#8
    ∧ exec (.standbyProfile index .budget v) s = write 0x01#8 index 0x05#8
    ∧ exec (.causeMask index v) s = write 0x01#8 index 0x0D#8
    ∧ exec (.mapWord0 index v) s = write 0x02#8 index 0x00#8
    ∧ exec (.baseLimit index .base v) s = write 0x02#8 index 0x01#8
    ∧ exec (.baseLimit index .limit v) s = write 0x02#8 index 0x02#8

/-- A stored WRITE FIELD reads back: the word reads as the value written on the bits that belong to its fields, and every
other writable word reads as before (R192, R199). -/
def Obligations.StoredWritesReadBack : Prop :=
  ∀ (s : State) (space index word : Byte) (v : Word), PortReady s →
    (writeWord s space.toNat index.toNat word.toNat v.toNat).1 = .done →
    ∃ u, exec (.writeField space index word v) s = .next { u with sel := true, port := .reply [0x00#8, 0x00#8] }
      ∧ readWord u space.toNat index.toNat word.toNat = some (v &&& fieldBits space word).toNat
      ∧ ∀ space' index' word' : Byte, Writable space' index' word' →
          ¬ (space' = space ∧ index' = index ∧ word' = word) →
          readWord u space'.toNat index'.toNat word'.toNat = readWord s space'.toNat index'.toNat word'.toNat

/-- The rows that write DEVICE words store their fields and reply DONE (R65, R137, R35, R160, R170). -/
def Obligations.DeviceWordsAreStored : Prop :=
  ∀ (s : State) (v : Word), PortReady s →
    let done := fun t : State => ({ t with sel := true, port := .reply [0x00#8, 0x00#8] } : State)
    ((∀ r : RegNo, (reg s r).state = .off ∨ (reg s r).state = .armed) → 1 ≤ v.toNat → v.toNat ≤ 65536 →
      exec (.prescale v) s = .next (done { s with prescale := v.toNat }))
    ∧ (v.toNat ≤ 65535 → exec (.responseTimeout v) s = .next (done { s with responseTimeout := v.toNat }))
    ∧ (∀ target : Target, v.toNat % 32 = targetCode target → v.toNat / 256 % 8 ≤ 3 →
        exec (.defaultTarget v) s =
          .next (done (consider { s with defaultTarget := target, bypassPriority := v.toNat / 256 % 8 })))
    ∧ ((∀ l : Fin 4, v.toNat / 2 ^ (8 * l.val + 4) % 8 ≠ 7) →
        ∃ m : Vector Marker 4, exec (.markers v) s = .next (done { s with markers := m })
          ∧ ∀ l : Fin 4, (m[l]).source.val = v.toNat / 2 ^ (8 * l.val) % 16
            ∧ markerKindCode (m[l]).kind = v.toNat / 2 ^ (8 * l.val + 4) % 8
            ∧ (m[l]).pulseLeft =
                if (m[l]).source = (s.markers[l]).source ∧ (m[l]).kind = (s.markers[l]).kind then
                  (s.markers[l]).pulseLeft
                else 0)
    ∧ exec (.deviceMask v) s = .next (done { s with deviceMask := v.setWidth 6 })

/-- The rows that write REGULATOR words store their fields whole and reply DONE, in the states that allow it (R54 to
R59). -/
def Obligations.RegulatorWordsAreStored : Prop :=
  ∀ (s : State) (r : RegNo) (v : Word), PortReady s →
    let done := fun t : State => ({ t with sel := true, port := .reply [0x00#8, 0x00#8] } : State)
    let index := BitVec.ofNat 8 r.val
    let g := reg s r
    (∀ u : Setup, g.state = .off → SetupOk r u →
      v.toNat % 4 = modeCode u.mode → v.toNat / 2 ^ 4 % 8 = u.priority → v.toNat / 2 ^ 8 % 4 = policyCode u.policy →
      v.toNat / 2 ^ 12 % 4 = flagBit u.autoSample → v.toNat / 2 ^ 16 % 64 = u.holdQuota →
      v.toNat / 2 ^ 24 % 128 = u.outstandingLimit →
      exec (.setup index v) s = .next (done (consider (setReg s r { g with setup := u }))))
    ∧ (∀ t : Triggers, g.state = .off →
        v.toNat % 32 = selectionBits t.start → v.toNat / 2 ^ 6 % 32 = selectionBits t.halt →
        v.toNat / 2 ^ 12 % 32 = selectionBits t.restart → v.toNat / 2 ^ 18 % 32 = selectionBits t.sample →
        v.toNat / 2 ^ 24 % 32 = selectionBits t.exchange →
        exec (.triggers index v) s = .next (done (setReg s r { g with triggers := t })))
    ∧ (∀ period openLength : Nat, v.toNat = period + openLength * 2 ^ 16 → period ≤ 65535 → 1 ≤ openLength →
        openLength ≤ period →
        (g.state = .off ∨ g.state = .armed →
          exec (.activeProfile index .timing v) s =
            .next (done (setReg s r { g with active := { g.active with period := period, openLength := openLength } })))
        ∧ exec (.standbyProfile index .timing v) s =
            .next (done (setReg s r
              { g with standby := { g.standby with period := period, openLength := openLength } })))
    ∧ (v.toNat ≤ 16777215 →
        (g.state = .off ∨ g.state = .armed →
          exec (.activeProfile index .budget v) s =
            .next (done (setReg s r { g with active := { g.active with budget := v.toNat } })))
        ∧ exec (.standbyProfile index .budget v) s =
            .next (done (setReg s r { g with standby := { g.standby with budget := v.toNat } })))
    ∧ exec (.causeMask index v) s = .next (done (setReg s r { g with mask := v.setWidth 7 }))

/-- The rows that write MAP words store their fields whole and reply DONE, where no lock and no check refuses, and the
intake reconsiders (R32 to R34, R27). -/
def Obligations.MapWordsAreStored : Prop :=
  ∀ (s : State) (i : Fin 32) (v : Word), PortReady s →
    let done := fun t : State => ({ t with sel := true, port := .reply [0x00#8, 0x00#8] } : State)
    let index := BitVec.ofNat 8 i.val
    let e := s.map[i]
    let store := fun f : MapEntry => done (consider { s with map := s.map.set i f })
    (e.valid = false → v.toNat ≤ 268435455 →
      exec (.baseLimit index .base v) s = .next (store { e with base := v.toNat })
      ∧ exec (.baseLimit index .limit v) s = .next (store { e with limit := v.toNat }))
    ∧ ∀ (valid : Bool) (d : DirectionMatch) (initiator : Option (Fin 16)) (target : Target),
        v.toNat % 2 = flagBit valid → v.toNat / 2 ^ 4 % 4 = directionMatchCode d →
        v.toNat / 2 ^ 8 % 32 = initiatorCode initiator → v.toNat / 2 ^ 16 % 32 = targetCode target →
        (valid = true → e.valid = false ∧ e.base ≤ e.limit) →
        exec (.mapWord0 index v) s =
          .next (store { e with valid := valid, direction := d, initiator := initiator, target := target })

/-! ## Commands of the management port -/

/-- ENABLE, START, HALT, RESTART, SAMPLE and EXCHANGE act on every named regulator at one event, each by its state, and the
reply tells on which they took effect (R43 to R50, R193). The row with the code byte does the same, and an unknown code is
refused with RANGE. -/
def Obligations.RegulatorCommandsFollowTheTable : Prop :=
  ∀ (s : State) (mask : BitVec 16), PortReady s →
    (∀ kind : Byte, 0 = kind.toNat ∨ 7 < kind.toNat →
      exec (.regulatorCommand kind mask) s =
        .next { s with sel := true, port := .reply (replyPart .range [0x00#8, 0x00#8]) })
    ∧ ∀ k : CommandKind, exec (.regulatorCommand (kindCode k) mask) s = exec (rowOfKind k mask) s
      ∧ (k ≠ .disable →
        ∃ (u : State) (took : Nat),
          exec (rowOfKind k mask) s =
            .next { reconsiderStates s u with
                    sel := true
                    port := .reply (replyPart (if took = mask.toNat then .done else .noEffect) (bytesOfNat 2 took)) }
          ∧ u = { s with regs := u.regs, markers := u.markers }
          ∧ (∀ r : RegNo, reg u r = if mask.getLsbD r.val then contextAfter k (reg s r) else reg s r)
          ∧ took < 2 ^ 16
          ∧ (∀ r : RegNo,
              let g := reg s r
              took.testBit r.val = true ↔
                mask.getLsbD r.val = true
                  ∧ (k = .enable ∧ g.state = .off
                    ∨ k = .start ∧ (g.state = .armed ∨ g.state = .halted)
                    ∨ k = .halt ∧ g.state = .running
                    ∨ k = .restart ∧ (g.state = .running ∨ g.state = .halted)
                    ∨ k = .sample ∧ g.state ≠ .off
                    ∨ k = .exchange ∧ (g.state = .off ∨ g.state = .armed ∨ g.exchangePending = false)))
          ∧ ∀ l : Fin 4,
              let m := s.markers[l]
              let g := reg s m.source
              u.markers[l] =
                if mask.getLsbD m.source.val = true
                    ∧ (m.kind = .sampled ∧ k = .sample ∧ g.state ≠ .off
                      ∨ m.kind = .exchanged
                        ∧ (k = .restart ∧ (g.state = .running ∨ g.state = .halted) ∧ g.exchangePending = true
                          ∨ k = .exchange ∧ g.state = .armed)) then
                  pulsed m
                else m)

/-- DISABLE at every named regulator that is not OFF: its lane is merged into the bypass lane in arrival order, its LIVE
entries are uncharged, its counts, its pending exchange and its causes are cleared, its marker lines go low; nothing else
changes, and the intake reconsiders (R51, R107, R164). -/
def Obligations.DisableMergesAndUncharges : Prop :=
  ∀ (s : State) (mask : BitVec 16), PortReady s →
    let off := fun r : RegNo => mask.getLsbD r.val = true ∧ (reg s r).state ≠ .off
    ∃ (u : State) (took : Nat),
      exec (.disable mask) s =
        .next { reconsiderStates s u with
                sel := true
                port := .reply (replyPart (if took = mask.toNat then .done else .noEffect) (bytesOfNat 2 took)) }
      ∧ (∀ r : RegNo, took.testBit r.val = true ↔ off r)
      ∧ took < 2 ^ 16
      ∧ u = { s with pool := u.pool, outstanding := u.outstanding, regs := u.regs, markers := u.markers }
      ∧ u.pool.length = s.pool.length
      ∧ (∀ (n : Nat) (e : PoolEntry), s.pool[n]? = some e → u.pool[n]? = some
          (match e.lane with
            | .regulator r => if off r then { e with lane := .bypass } else e
            | .bypass => e))
      ∧ (∀ i : Fin 64, u.outstanding[i] = (s.outstanding[i]).map fun e =>
          match e.state, e.charged with
          | .live, some r => if off r then { e with charged := none } else e
          | _, _ => e)
      ∧ (∀ r : RegNo, reg u r =
          if off r then
            { reg s r with
              state := .off, outstandingCount := 0, consumed := 0, position := 0, exchangePending := false,
              causes := 0#7 }
          else reg s r)
      ∧ ∀ l : Fin 4, u.markers[l] =
          if off (s.markers[l]).source then { s.markers[l] with pulseLeft := 0 } else s.markers[l]

/-- CLEAR CAUSES clears the named causes of one target and reports what is left; a wrong target gives INDEX, a cause beyond
the target's gives RANGE, and then nothing is cleared (R173, R194). -/
def Obligations.ClearCausesClearsTheNamedSet : Prop :=
  ∀ (s : State) (target causeSet : Byte), PortReady s →
    let reply := fun (t : State) (status : Status) (left : Byte) =>
      ({ t with sel := true, port := .reply (replyPart status [left]) } : State)
    (∀ r : RegNo, target.toNat = r.val → causeSet.toNat < 128 →
      ∃ left : BitVec 7,
        (∀ c : Fin 7, left.getLsbD c = ((reg s r).causes.getLsbD c && !causeSet.getLsbD c))
        ∧ exec (.clearCauses target causeSet) s =
            .next (reply (setReg s r { reg s r with causes := left }) .done (left.setWidth 8)))
    ∧ (target = 0xFF#8 → causeSet.toNat < 64 →
        ∃ left : BitVec 6,
          (∀ c : Fin 6, left.getLsbD c = (s.deviceCauses.getLsbD c && !causeSet.getLsbD c))
          ∧ exec (.clearCauses target causeSet) s =
              .next (reply { s with deviceCauses := left } .done (left.setWidth 8)))
    ∧ (target.toNat < 16 ∧ 128 ≤ causeSet.toNat ∨ target = 0xFF#8 ∧ 64 ≤ causeSet.toNat →
        exec (.clearCauses target causeSet) s = .next (reply s .range 0x00#8))
    ∧ (16 ≤ target.toNat → target ≠ 0xFF#8 →
        exec (.clearCauses target causeSet) s = .next (reply s .index 0x00#8))

/-- TAKE DENIAL removes the oldest record and carries it in the reply, byte by byte; with no record it carries zeros and
changes nothing (R179, R195). -/
def Obligations.TakeDenialRemovesTheOldestRecord : Prop :=
  ∀ s : State, PortReady s →
    (s.denials = [] →
      exec .takeDenial s = .next { s with sel := true, port := .reply (List.replicate 19 0x00#8) })
    ∧ ∀ d rest, s.denials = d :: rest →
        ∃ body : List Byte, body.length = 18
          ∧ exec .takeDenial s =
              .next { s with denials := rest, sel := true, port := .reply (body ++ [crc8 body]) }
          ∧ body.map BitVec.toNat =
              [0, 1, d.key.initiator.val, d.key.tag.val, directionCode d.direction,
               d.address.toNat / 2 ^ 32, d.address.toNat / 2 ^ 24 % 256, d.address.toNat / 2 ^ 16 % 256,
               d.address.toNat / 2 ^ 8 % 256, d.address.toNat % 256,
               d.length.val / 256, d.length.val % 256, reasonCode d.reason, targetCode d.target,
               d.time.toNat / 2 ^ 24, d.time.toNat / 2 ^ 16 % 256, d.time.toNat / 2 ^ 8 % 256, d.time.toNat % 256]

/-- FULL RESET is taken exactly when the path is empty, and then every block has its reset values and the offers that stand
are taken up afresh, with the frame's own reply kept; otherwise the reply is BUSY and nothing changes (R197, R198). No SYN
level is kept until the line's next sample (R197); which event that sample is, is the model's reading (log 11). -/
def Obligations.FullResetNeedsAnEmptyPath : Prop :=
  ∀ s : State, PortReady s →
    let empty := s.pool = [] ∧ (∀ i : Fin 64, s.outstanding[i] = none) ∧ s.responses = [] ∧ s.owed = [] ∧ s.held = none
    (¬ empty → exec .fullReset s = .next { s with sel := true, port := .reply [0x05#8, 0x1B#8] })
    ∧ (empty →
        let t : State := { State.reset with
          prst := s.prst, sel := true, pending := s.pending, port := .reply [0x00#8, 0x00#8]
          syn := mapSlots (fun x => { level := x.level, kept := none }) s.syn }
        (s.offer = none → s.memoryOffer = none → exec .fullReset s = .next t)
        ∧ (∀ u, s.offer = none → s.memoryOffer = some u → exec .fullReset s = exec (.responseOffered u) t)
        ∧ (∀ o, s.offer = some o → s.memoryOffer = none → exec .fullReset s = exec (.requestOffered o.request) t)
        ∧ ∀ o u, s.offer = some o → s.memoryOffer = some u →
            ∃ m, exec (.responseOffered u) t = .next m
              ∧ exec .fullReset s = exec (.requestOffered o.request) m)

/-- ALERT is low exactly while POR is not asserted and some cause of a regulator or of the device is set with its mask bit
clear (R171). A GATE line is high exactly while POR is not asserted and its source is RUNNING with its gate open, by MODE
(R162, R74). A line of a pulse kind is high exactly while periods of its pulse are left (R161, R163), and a line of kind NONE
is low (R161). While POR is asserted every line is low (R166). -/
def Obligations.AlertAndGateLinesFollowState : Prop :=
  ∀ s : State,
    (s.por = true → alertLow s = false ∧ ∀ l : Fin 4, markerHigh s l = false)
    ∧ (s.por = false →
      (alertLow s = true ↔
        (∃ (r : RegNo) (c : Fin 7), (reg s r).causes.getLsbD c = true ∧ (reg s r).mask.getLsbD c = false)
          ∨ ∃ c : Fin 6, s.deviceCauses.getLsbD c = true ∧ s.deviceMask.getLsbD c = false)
      ∧ ∀ l : Fin 4,
          let g := reg s (s.markers[l]).source
          ((s.markers[l]).kind = .gate →
            (markerHigh s l = true ↔
              g.state = .running
                ∧ (g.setup.mode = .count
                  ∨ g.setup.mode = .window ∧ g.consumed < g.active.budget
                  ∨ g.setup.mode = .shape ∧ g.position < g.active.openLength ∧ g.consumed < g.active.budget)))
          ∧ ((s.markers[l]).kind = .none → markerHigh s l = false)
          ∧ ((s.markers[l]).kind ≠ .gate → (s.markers[l]).kind ≠ .none →
              (markerHigh s l = true ↔ 0 < (s.markers[l]).pulseLeft)))

/-! ## What every step keeps -/

/-- Right after reset every invariant below holds. -/
def Obligations.ResetMeetsEveryInvariant : Prop :=
  MapOk State.reset ∧ DeviceOk State.reset ∧ QueuesOk State.reset ∧ MarkersOk State.reset ∧ PortOk State.reset
    ∧ PoolOk State.reset ∧ RegulatorsOk State.reset ∧ StoresOk State.reset ∧ KeyOrderOk State.reset
    ∧ ConsideredOk State.reset ∧ OfferedResponseOk State.reset ∧ HeldOk State.reset ∧ PorHeld State.reset
    ∧ TickOk State.reset ∧ SynOk State.reset

/-- Every step keeps the map entries, the DEVICE fields and the queues within their ranges and capacities (R24, R63, R137,
R140, R143, R178). -/
def Obligations.StepKeepsRangesAndCapacities : Prop :=
  ∀ s t : State, step s = .next t →
    (MapOk s → MapOk t) ∧ (DeviceOk s → DeviceOk t) ∧ (QueuesOk s → QueuesOk t)

/-- Every step keeps the marker lines sound, no pulse longer than four periods and none while the source is OFF (R163,
R164), the tick in progress sound, every regulator due for a window end RUNNING at its last position (R67; log 5), and the
kept SYN levels those of their lines, with none kept while POR is asserted (R152; log 11). -/
def Obligations.StepKeepsMarkerLinesAndTickSound : Prop :=
  ∀ s t : State, step s = .next t → (MarkersOk s → MarkersOk t) ∧ (TickOk s → TickOk t) ∧ (SynOk s → SynOk t)

/-- Every step keeps the port in agreement with SEL, with a proper beginning of a command part in COMMAND (R182). -/
def Obligations.StepKeepsThePortSound : Prop :=
  ∀ s t : State, PortOk s → step s = .next t → PortOk t

/-- Every step keeps the pool in arrival order, within 48 entries and each lane within its HOLD QUOTA, and regulator lanes
in use only while their regulators are RUNNING or HALTED (R88, R89, R92, R97). -/
def Obligations.StepKeepsThePoolSound : Prop :=
  ∀ s t : State, PoolOk s → step s = .next t → PoolOk t

/-- Every step keeps every regulator context in range: POSITION below the active PERIOD, CONSUMED within the active BUDGET
plus 255, zeros in OFF and ARMED, OPEN LENGTH within PERIOD (R39, R40, R42, R67, R82). -/
def Obligations.StepKeepsRegulatorsInRange : Prop :=
  ∀ s t : State, RegulatorsOk s → PoolOk s → step s = .next t → RegulatorsOk t

/-- Every step keeps every count equal to the entries it stands for, and OUTSTANDING COUNT within its limit (R84, R100). -/
def Obligations.StepKeepsCountsOfEntries : Prop :=
  ∀ s t : State, StoresOk s → step s = .next t → StoresOk t

/-- Every step keeps the order of each key through pool, table and timeout list (R102, R131, R139, R142). -/
def Obligations.StepKeepsOrderPerKey : Prop :=
  ∀ s t : State, StoresOk s → KeyOrderOk s → step s = .next t → KeyOrderOk t

/-- Every step leaves the offered request considered against the state it leaves, and the offered response matched: the
intake has reconsidered, and a response has been matched again, at every event that changes what they find (R5, R91, R132;
log 17, log 18). -/
def Obligations.StepKeepsOffersJudgedAfresh : Prop :=
  ∀ s t : State, step s = .next t →
    (ConsideredOk s → ConsideredOk t) ∧ (OfferedResponseOk s → OfferedResponseOk t)

/-- While the path is held nothing is in flight, and while POR is asserted the part stands at its reset values (R20, R21,
R23, R166, R204). -/
def Obligations.StepKeepsHeldPathEmpty : Prop :=
  ∀ s t : State, step s = .next t → (HeldOk s → HeldOk t) ∧ (PorHeld s → PorHeld t)
end

