-- ==== Sys2Proof/Laws/State.lean ====
section
/-! SUPPORT. The fields that each named update of the state leaves alone, one lemma per field, true by unfolding. -/

namespace Sys2Proof.Machine

/-! `setReg` changes regs. -/

@[simp] theorem setReg_por (s : State) (r : RegNo) (g : Regulator) : (setReg s r g).por = s.por := rfl
@[simp] theorem setReg_prst (s : State) (r : RegNo) (g : Regulator) : (setReg s r g).prst = s.prst := rfl
@[simp] theorem setReg_sel (s : State) (r : RegNo) (g : Regulator) : (setReg s r g).sel = s.sel := rfl
@[simp] theorem setReg_syn (s : State) (r : RegNo) (g : Regulator) : (setReg s r g).syn = s.syn := rfl
@[simp] theorem setReg_offer (s : State) (r : RegNo) (g : Regulator) : (setReg s r g).offer = s.offer := rfl
@[simp] theorem setReg_held (s : State) (r : RegNo) (g : Regulator) : (setReg s r g).held = s.held := rfl
@[simp] theorem setReg_memoryOffer (s : State) (r : RegNo) (g : Regulator) : (setReg s r g).memoryOffer = s.memoryOffer := rfl
@[simp] theorem setReg_responses (s : State) (r : RegNo) (g : Regulator) : (setReg s r g).responses = s.responses := rfl
@[simp] theorem setReg_owed (s : State) (r : RegNo) (g : Regulator) : (setReg s r g).owed = s.owed := rfl
@[simp] theorem setReg_pool (s : State) (r : RegNo) (g : Regulator) : (setReg s r g).pool = s.pool := rfl
@[simp] theorem setReg_tracker (s : State) (r : RegNo) (g : Regulator) : (setReg s r g).tracker = s.tracker := rfl
@[simp] theorem setReg_nextPlace (s : State) (r : RegNo) (g : Regulator) : (setReg s r g).nextPlace = s.nextPlace := rfl
@[simp] theorem setReg_outstanding (s : State) (r : RegNo) (g : Regulator) : (setReg s r g).outstanding = s.outstanding := rfl
@[simp] theorem setReg_responseTimeout (s : State) (r : RegNo) (g : Regulator) : (setReg s r g).responseTimeout = s.responseTimeout := rfl
@[simp] theorem setReg_map (s : State) (r : RegNo) (g : Regulator) : (setReg s r g).map = s.map := rfl
@[simp] theorem setReg_defaultTarget (s : State) (r : RegNo) (g : Regulator) : (setReg s r g).defaultTarget = s.defaultTarget := rfl
@[simp] theorem setReg_bypassPriority (s : State) (r : RegNo) (g : Regulator) : (setReg s r g).bypassPriority = s.bypassPriority := rfl
@[simp] theorem setReg_prescale (s : State) (r : RegNo) (g : Regulator) : (setReg s r g).prescale = s.prescale := rfl
@[simp] theorem setReg_interval (s : State) (r : RegNo) (g : Regulator) : (setReg s r g).interval = s.interval := rfl
@[simp] theorem setReg_divider (s : State) (r : RegNo) (g : Regulator) : (setReg s r g).divider = s.divider := rfl
@[simp] theorem setReg_timebase (s : State) (r : RegNo) (g : Regulator) : (setReg s r g).timebase = s.timebase := rfl
@[simp] theorem setReg_windowEndDue (s : State) (r : RegNo) (g : Regulator) : (setReg s r g).windowEndDue = s.windowEndDue := rfl
@[simp] theorem setReg_expiryDue (s : State) (r : RegNo) (g : Regulator) : (setReg s r g).expiryDue = s.expiryDue := rfl
@[simp] theorem setReg_markers (s : State) (r : RegNo) (g : Regulator) : (setReg s r g).markers = s.markers := rfl
@[simp] theorem setReg_deviceCauses (s : State) (r : RegNo) (g : Regulator) : (setReg s r g).deviceCauses = s.deviceCauses := rfl
@[simp] theorem setReg_deviceMask (s : State) (r : RegNo) (g : Regulator) : (setReg s r g).deviceMask = s.deviceMask := rfl
@[simp] theorem setReg_denials (s : State) (r : RegNo) (g : Regulator) : (setReg s r g).denials = s.denials := rfl
@[simp] theorem setReg_port (s : State) (r : RegNo) (g : Regulator) : (setReg s r g).port = s.port := rfl
@[simp] theorem setReg_pending (s : State) (r : RegNo) (g : Regulator) : (setReg s r g).pending = s.pending := rfl

/-! `setCounts` changes tracker. -/

@[simp] theorem setCounts_por (s : State) (k : Key) (c : KeyCounts) : (setCounts s k c).por = s.por := rfl
@[simp] theorem setCounts_prst (s : State) (k : Key) (c : KeyCounts) : (setCounts s k c).prst = s.prst := rfl
@[simp] theorem setCounts_sel (s : State) (k : Key) (c : KeyCounts) : (setCounts s k c).sel = s.sel := rfl
@[simp] theorem setCounts_syn (s : State) (k : Key) (c : KeyCounts) : (setCounts s k c).syn = s.syn := rfl
@[simp] theorem setCounts_offer (s : State) (k : Key) (c : KeyCounts) : (setCounts s k c).offer = s.offer := rfl
@[simp] theorem setCounts_held (s : State) (k : Key) (c : KeyCounts) : (setCounts s k c).held = s.held := rfl
@[simp] theorem setCounts_memoryOffer (s : State) (k : Key) (c : KeyCounts) : (setCounts s k c).memoryOffer = s.memoryOffer := rfl
@[simp] theorem setCounts_responses (s : State) (k : Key) (c : KeyCounts) : (setCounts s k c).responses = s.responses := rfl
@[simp] theorem setCounts_owed (s : State) (k : Key) (c : KeyCounts) : (setCounts s k c).owed = s.owed := rfl
@[simp] theorem setCounts_pool (s : State) (k : Key) (c : KeyCounts) : (setCounts s k c).pool = s.pool := rfl
@[simp] theorem setCounts_nextPlace (s : State) (k : Key) (c : KeyCounts) : (setCounts s k c).nextPlace = s.nextPlace := rfl
@[simp] theorem setCounts_outstanding (s : State) (k : Key) (c : KeyCounts) : (setCounts s k c).outstanding = s.outstanding := rfl
@[simp] theorem setCounts_responseTimeout (s : State) (k : Key) (c : KeyCounts) : (setCounts s k c).responseTimeout = s.responseTimeout := rfl
@[simp] theorem setCounts_map (s : State) (k : Key) (c : KeyCounts) : (setCounts s k c).map = s.map := rfl
@[simp] theorem setCounts_defaultTarget (s : State) (k : Key) (c : KeyCounts) : (setCounts s k c).defaultTarget = s.defaultTarget := rfl
@[simp] theorem setCounts_bypassPriority (s : State) (k : Key) (c : KeyCounts) : (setCounts s k c).bypassPriority = s.bypassPriority := rfl
@[simp] theorem setCounts_regs (s : State) (k : Key) (c : KeyCounts) : (setCounts s k c).regs = s.regs := rfl
@[simp] theorem setCounts_prescale (s : State) (k : Key) (c : KeyCounts) : (setCounts s k c).prescale = s.prescale := rfl
@[simp] theorem setCounts_interval (s : State) (k : Key) (c : KeyCounts) : (setCounts s k c).interval = s.interval := rfl
@[simp] theorem setCounts_divider (s : State) (k : Key) (c : KeyCounts) : (setCounts s k c).divider = s.divider := rfl
@[simp] theorem setCounts_timebase (s : State) (k : Key) (c : KeyCounts) : (setCounts s k c).timebase = s.timebase := rfl
@[simp] theorem setCounts_windowEndDue (s : State) (k : Key) (c : KeyCounts) : (setCounts s k c).windowEndDue = s.windowEndDue := rfl
@[simp] theorem setCounts_expiryDue (s : State) (k : Key) (c : KeyCounts) : (setCounts s k c).expiryDue = s.expiryDue := rfl
@[simp] theorem setCounts_markers (s : State) (k : Key) (c : KeyCounts) : (setCounts s k c).markers = s.markers := rfl
@[simp] theorem setCounts_deviceCauses (s : State) (k : Key) (c : KeyCounts) : (setCounts s k c).deviceCauses = s.deviceCauses := rfl
@[simp] theorem setCounts_deviceMask (s : State) (k : Key) (c : KeyCounts) : (setCounts s k c).deviceMask = s.deviceMask := rfl
@[simp] theorem setCounts_denials (s : State) (k : Key) (c : KeyCounts) : (setCounts s k c).denials = s.denials := rfl
@[simp] theorem setCounts_port (s : State) (k : Key) (c : KeyCounts) : (setCounts s k c).port = s.port := rfl
@[simp] theorem setCounts_pending (s : State) (k : Key) (c : KeyCounts) : (setCounts s k c).pending = s.pending := rfl

/-! `raiseCause` changes regs, markers. -/

@[simp] theorem raiseCause_por (r : RegNo) (c : Cause) (s : State) : (raiseCause r c s).por = s.por := rfl
@[simp] theorem raiseCause_prst (r : RegNo) (c : Cause) (s : State) : (raiseCause r c s).prst = s.prst := rfl
@[simp] theorem raiseCause_sel (r : RegNo) (c : Cause) (s : State) : (raiseCause r c s).sel = s.sel := rfl
@[simp] theorem raiseCause_syn (r : RegNo) (c : Cause) (s : State) : (raiseCause r c s).syn = s.syn := rfl
@[simp] theorem raiseCause_offer (r : RegNo) (c : Cause) (s : State) : (raiseCause r c s).offer = s.offer := rfl
@[simp] theorem raiseCause_held (r : RegNo) (c : Cause) (s : State) : (raiseCause r c s).held = s.held := rfl
@[simp] theorem raiseCause_memoryOffer (r : RegNo) (c : Cause) (s : State) : (raiseCause r c s).memoryOffer = s.memoryOffer := rfl
@[simp] theorem raiseCause_responses (r : RegNo) (c : Cause) (s : State) : (raiseCause r c s).responses = s.responses := rfl
@[simp] theorem raiseCause_owed (r : RegNo) (c : Cause) (s : State) : (raiseCause r c s).owed = s.owed := rfl
@[simp] theorem raiseCause_pool (r : RegNo) (c : Cause) (s : State) : (raiseCause r c s).pool = s.pool := rfl
@[simp] theorem raiseCause_tracker (r : RegNo) (c : Cause) (s : State) : (raiseCause r c s).tracker = s.tracker := rfl
@[simp] theorem raiseCause_nextPlace (r : RegNo) (c : Cause) (s : State) : (raiseCause r c s).nextPlace = s.nextPlace := rfl
@[simp] theorem raiseCause_outstanding (r : RegNo) (c : Cause) (s : State) : (raiseCause r c s).outstanding = s.outstanding := rfl
@[simp] theorem raiseCause_responseTimeout (r : RegNo) (c : Cause) (s : State) : (raiseCause r c s).responseTimeout = s.responseTimeout := rfl
@[simp] theorem raiseCause_map (r : RegNo) (c : Cause) (s : State) : (raiseCause r c s).map = s.map := rfl
@[simp] theorem raiseCause_defaultTarget (r : RegNo) (c : Cause) (s : State) : (raiseCause r c s).defaultTarget = s.defaultTarget := rfl
@[simp] theorem raiseCause_bypassPriority (r : RegNo) (c : Cause) (s : State) : (raiseCause r c s).bypassPriority = s.bypassPriority := rfl
@[simp] theorem raiseCause_prescale (r : RegNo) (c : Cause) (s : State) : (raiseCause r c s).prescale = s.prescale := rfl
@[simp] theorem raiseCause_interval (r : RegNo) (c : Cause) (s : State) : (raiseCause r c s).interval = s.interval := rfl
@[simp] theorem raiseCause_divider (r : RegNo) (c : Cause) (s : State) : (raiseCause r c s).divider = s.divider := rfl
@[simp] theorem raiseCause_timebase (r : RegNo) (c : Cause) (s : State) : (raiseCause r c s).timebase = s.timebase := rfl
@[simp] theorem raiseCause_windowEndDue (r : RegNo) (c : Cause) (s : State) : (raiseCause r c s).windowEndDue = s.windowEndDue := rfl
@[simp] theorem raiseCause_expiryDue (r : RegNo) (c : Cause) (s : State) : (raiseCause r c s).expiryDue = s.expiryDue := rfl
@[simp] theorem raiseCause_deviceCauses (r : RegNo) (c : Cause) (s : State) : (raiseCause r c s).deviceCauses = s.deviceCauses := rfl
@[simp] theorem raiseCause_deviceMask (r : RegNo) (c : Cause) (s : State) : (raiseCause r c s).deviceMask = s.deviceMask := rfl
@[simp] theorem raiseCause_denials (r : RegNo) (c : Cause) (s : State) : (raiseCause r c s).denials = s.denials := rfl
@[simp] theorem raiseCause_port (r : RegNo) (c : Cause) (s : State) : (raiseCause r c s).port = s.port := rfl
@[simp] theorem raiseCause_pending (r : RegNo) (c : Cause) (s : State) : (raiseCause r c s).pending = s.pending := rfl

/-! `raiseDevice` changes deviceCauses. -/

@[simp] theorem raiseDevice_por (c : DeviceCause) (s : State) : (raiseDevice c s).por = s.por := rfl
@[simp] theorem raiseDevice_prst (c : DeviceCause) (s : State) : (raiseDevice c s).prst = s.prst := rfl
@[simp] theorem raiseDevice_sel (c : DeviceCause) (s : State) : (raiseDevice c s).sel = s.sel := rfl
@[simp] theorem raiseDevice_syn (c : DeviceCause) (s : State) : (raiseDevice c s).syn = s.syn := rfl
@[simp] theorem raiseDevice_offer (c : DeviceCause) (s : State) : (raiseDevice c s).offer = s.offer := rfl
@[simp] theorem raiseDevice_held (c : DeviceCause) (s : State) : (raiseDevice c s).held = s.held := rfl
@[simp] theorem raiseDevice_memoryOffer (c : DeviceCause) (s : State) : (raiseDevice c s).memoryOffer = s.memoryOffer := rfl
@[simp] theorem raiseDevice_responses (c : DeviceCause) (s : State) : (raiseDevice c s).responses = s.responses := rfl
@[simp] theorem raiseDevice_owed (c : DeviceCause) (s : State) : (raiseDevice c s).owed = s.owed := rfl
@[simp] theorem raiseDevice_pool (c : DeviceCause) (s : State) : (raiseDevice c s).pool = s.pool := rfl
@[simp] theorem raiseDevice_tracker (c : DeviceCause) (s : State) : (raiseDevice c s).tracker = s.tracker := rfl
@[simp] theorem raiseDevice_nextPlace (c : DeviceCause) (s : State) : (raiseDevice c s).nextPlace = s.nextPlace := rfl
@[simp] theorem raiseDevice_outstanding (c : DeviceCause) (s : State) : (raiseDevice c s).outstanding = s.outstanding := rfl
@[simp] theorem raiseDevice_responseTimeout (c : DeviceCause) (s : State) : (raiseDevice c s).responseTimeout = s.responseTimeout := rfl
@[simp] theorem raiseDevice_map (c : DeviceCause) (s : State) : (raiseDevice c s).map = s.map := rfl
@[simp] theorem raiseDevice_defaultTarget (c : DeviceCause) (s : State) : (raiseDevice c s).defaultTarget = s.defaultTarget := rfl
@[simp] theorem raiseDevice_bypassPriority (c : DeviceCause) (s : State) : (raiseDevice c s).bypassPriority = s.bypassPriority := rfl
@[simp] theorem raiseDevice_regs (c : DeviceCause) (s : State) : (raiseDevice c s).regs = s.regs := rfl
@[simp] theorem raiseDevice_prescale (c : DeviceCause) (s : State) : (raiseDevice c s).prescale = s.prescale := rfl
@[simp] theorem raiseDevice_interval (c : DeviceCause) (s : State) : (raiseDevice c s).interval = s.interval := rfl
@[simp] theorem raiseDevice_divider (c : DeviceCause) (s : State) : (raiseDevice c s).divider = s.divider := rfl
@[simp] theorem raiseDevice_timebase (c : DeviceCause) (s : State) : (raiseDevice c s).timebase = s.timebase := rfl
@[simp] theorem raiseDevice_windowEndDue (c : DeviceCause) (s : State) : (raiseDevice c s).windowEndDue = s.windowEndDue := rfl
@[simp] theorem raiseDevice_expiryDue (c : DeviceCause) (s : State) : (raiseDevice c s).expiryDue = s.expiryDue := rfl
@[simp] theorem raiseDevice_markers (c : DeviceCause) (s : State) : (raiseDevice c s).markers = s.markers := rfl
@[simp] theorem raiseDevice_deviceMask (c : DeviceCause) (s : State) : (raiseDevice c s).deviceMask = s.deviceMask := rfl
@[simp] theorem raiseDevice_denials (c : DeviceCause) (s : State) : (raiseDevice c s).denials = s.denials := rfl
@[simp] theorem raiseDevice_port (c : DeviceCause) (s : State) : (raiseDevice c s).port = s.port := rfl
@[simp] theorem raiseDevice_pending (c : DeviceCause) (s : State) : (raiseDevice c s).pending = s.pending := rfl

/-! `enterQueue` changes responses. -/

@[simp] theorem enterQueue_por (u : Response) (s : State) : (enterQueue u s).por = s.por := rfl
@[simp] theorem enterQueue_prst (u : Response) (s : State) : (enterQueue u s).prst = s.prst := rfl
@[simp] theorem enterQueue_sel (u : Response) (s : State) : (enterQueue u s).sel = s.sel := rfl
@[simp] theorem enterQueue_syn (u : Response) (s : State) : (enterQueue u s).syn = s.syn := rfl
@[simp] theorem enterQueue_offer (u : Response) (s : State) : (enterQueue u s).offer = s.offer := rfl
@[simp] theorem enterQueue_held (u : Response) (s : State) : (enterQueue u s).held = s.held := rfl
@[simp] theorem enterQueue_memoryOffer (u : Response) (s : State) : (enterQueue u s).memoryOffer = s.memoryOffer := rfl
@[simp] theorem enterQueue_owed (u : Response) (s : State) : (enterQueue u s).owed = s.owed := rfl
@[simp] theorem enterQueue_pool (u : Response) (s : State) : (enterQueue u s).pool = s.pool := rfl
@[simp] theorem enterQueue_tracker (u : Response) (s : State) : (enterQueue u s).tracker = s.tracker := rfl
@[simp] theorem enterQueue_nextPlace (u : Response) (s : State) : (enterQueue u s).nextPlace = s.nextPlace := rfl
@[simp] theorem enterQueue_outstanding (u : Response) (s : State) : (enterQueue u s).outstanding = s.outstanding := rfl
@[simp] theorem enterQueue_responseTimeout (u : Response) (s : State) : (enterQueue u s).responseTimeout = s.responseTimeout := rfl
@[simp] theorem enterQueue_map (u : Response) (s : State) : (enterQueue u s).map = s.map := rfl
@[simp] theorem enterQueue_defaultTarget (u : Response) (s : State) : (enterQueue u s).defaultTarget = s.defaultTarget := rfl
@[simp] theorem enterQueue_bypassPriority (u : Response) (s : State) : (enterQueue u s).bypassPriority = s.bypassPriority := rfl
@[simp] theorem enterQueue_regs (u : Response) (s : State) : (enterQueue u s).regs = s.regs := rfl
@[simp] theorem enterQueue_prescale (u : Response) (s : State) : (enterQueue u s).prescale = s.prescale := rfl
@[simp] theorem enterQueue_interval (u : Response) (s : State) : (enterQueue u s).interval = s.interval := rfl
@[simp] theorem enterQueue_divider (u : Response) (s : State) : (enterQueue u s).divider = s.divider := rfl
@[simp] theorem enterQueue_timebase (u : Response) (s : State) : (enterQueue u s).timebase = s.timebase := rfl
@[simp] theorem enterQueue_windowEndDue (u : Response) (s : State) : (enterQueue u s).windowEndDue = s.windowEndDue := rfl
@[simp] theorem enterQueue_expiryDue (u : Response) (s : State) : (enterQueue u s).expiryDue = s.expiryDue := rfl
@[simp] theorem enterQueue_markers (u : Response) (s : State) : (enterQueue u s).markers = s.markers := rfl
@[simp] theorem enterQueue_deviceCauses (u : Response) (s : State) : (enterQueue u s).deviceCauses = s.deviceCauses := rfl
@[simp] theorem enterQueue_deviceMask (u : Response) (s : State) : (enterQueue u s).deviceMask = s.deviceMask := rfl
@[simp] theorem enterQueue_denials (u : Response) (s : State) : (enterQueue u s).denials = s.denials := rfl
@[simp] theorem enterQueue_port (u : Response) (s : State) : (enterQueue u s).port = s.port := rfl
@[simp] theorem enterQueue_pending (u : Response) (s : State) : (enterQueue u s).pending = s.pending := rfl

/-! `joinPool` changes offer, pool, nextPlace, tracker. -/

@[simp] theorem joinPool_por (kind : EntryKind) (l : Lane) (q : Request) (t : Target) (s : State) : (joinPool kind l q t s).por = s.por := rfl
@[simp] theorem joinPool_prst (kind : EntryKind) (l : Lane) (q : Request) (t : Target) (s : State) : (joinPool kind l q t s).prst = s.prst := rfl
@[simp] theorem joinPool_sel (kind : EntryKind) (l : Lane) (q : Request) (t : Target) (s : State) : (joinPool kind l q t s).sel = s.sel := rfl
@[simp] theorem joinPool_syn (kind : EntryKind) (l : Lane) (q : Request) (t : Target) (s : State) : (joinPool kind l q t s).syn = s.syn := rfl
@[simp] theorem joinPool_held (kind : EntryKind) (l : Lane) (q : Request) (t : Target) (s : State) : (joinPool kind l q t s).held = s.held := rfl
@[simp] theorem joinPool_memoryOffer (kind : EntryKind) (l : Lane) (q : Request) (t : Target) (s : State) : (joinPool kind l q t s).memoryOffer = s.memoryOffer := rfl
@[simp] theorem joinPool_responses (kind : EntryKind) (l : Lane) (q : Request) (t : Target) (s : State) : (joinPool kind l q t s).responses = s.responses := rfl
@[simp] theorem joinPool_owed (kind : EntryKind) (l : Lane) (q : Request) (t : Target) (s : State) : (joinPool kind l q t s).owed = s.owed := rfl
@[simp] theorem joinPool_outstanding (kind : EntryKind) (l : Lane) (q : Request) (t : Target) (s : State) : (joinPool kind l q t s).outstanding = s.outstanding := rfl
@[simp] theorem joinPool_responseTimeout (kind : EntryKind) (l : Lane) (q : Request) (t : Target) (s : State) : (joinPool kind l q t s).responseTimeout = s.responseTimeout := rfl
@[simp] theorem joinPool_map (kind : EntryKind) (l : Lane) (q : Request) (t : Target) (s : State) : (joinPool kind l q t s).map = s.map := rfl
@[simp] theorem joinPool_defaultTarget (kind : EntryKind) (l : Lane) (q : Request) (t : Target) (s : State) : (joinPool kind l q t s).defaultTarget = s.defaultTarget := rfl
@[simp] theorem joinPool_bypassPriority (kind : EntryKind) (l : Lane) (q : Request) (t : Target) (s : State) : (joinPool kind l q t s).bypassPriority = s.bypassPriority := rfl
@[simp] theorem joinPool_regs (kind : EntryKind) (l : Lane) (q : Request) (t : Target) (s : State) : (joinPool kind l q t s).regs = s.regs := rfl
@[simp] theorem joinPool_prescale (kind : EntryKind) (l : Lane) (q : Request) (t : Target) (s : State) : (joinPool kind l q t s).prescale = s.prescale := rfl
@[simp] theorem joinPool_interval (kind : EntryKind) (l : Lane) (q : Request) (t : Target) (s : State) : (joinPool kind l q t s).interval = s.interval := rfl
@[simp] theorem joinPool_divider (kind : EntryKind) (l : Lane) (q : Request) (t : Target) (s : State) : (joinPool kind l q t s).divider = s.divider := rfl
@[simp] theorem joinPool_timebase (kind : EntryKind) (l : Lane) (q : Request) (t : Target) (s : State) : (joinPool kind l q t s).timebase = s.timebase := rfl
@[simp] theorem joinPool_windowEndDue (kind : EntryKind) (l : Lane) (q : Request) (t : Target) (s : State) : (joinPool kind l q t s).windowEndDue = s.windowEndDue := rfl
@[simp] theorem joinPool_expiryDue (kind : EntryKind) (l : Lane) (q : Request) (t : Target) (s : State) : (joinPool kind l q t s).expiryDue = s.expiryDue := rfl
@[simp] theorem joinPool_markers (kind : EntryKind) (l : Lane) (q : Request) (t : Target) (s : State) : (joinPool kind l q t s).markers = s.markers := rfl
@[simp] theorem joinPool_deviceCauses (kind : EntryKind) (l : Lane) (q : Request) (t : Target) (s : State) : (joinPool kind l q t s).deviceCauses = s.deviceCauses := rfl
@[simp] theorem joinPool_deviceMask (kind : EntryKind) (l : Lane) (q : Request) (t : Target) (s : State) : (joinPool kind l q t s).deviceMask = s.deviceMask := rfl
@[simp] theorem joinPool_denials (kind : EntryKind) (l : Lane) (q : Request) (t : Target) (s : State) : (joinPool kind l q t s).denials = s.denials := rfl
@[simp] theorem joinPool_port (kind : EntryKind) (l : Lane) (q : Request) (t : Target) (s : State) : (joinPool kind l q t s).port = s.port := rfl
@[simp] theorem joinPool_pending (kind : EntryKind) (l : Lane) (q : Request) (t : Target) (s : State) : (joinPool kind l q t s).pending = s.pending := rfl

/-! `leavePool` changes pool, tracker. -/

@[simp] theorem leavePool_por (e : PoolEntry) (s : State) : (leavePool e s).por = s.por := rfl
@[simp] theorem leavePool_prst (e : PoolEntry) (s : State) : (leavePool e s).prst = s.prst := rfl
@[simp] theorem leavePool_sel (e : PoolEntry) (s : State) : (leavePool e s).sel = s.sel := rfl
@[simp] theorem leavePool_syn (e : PoolEntry) (s : State) : (leavePool e s).syn = s.syn := rfl
@[simp] theorem leavePool_offer (e : PoolEntry) (s : State) : (leavePool e s).offer = s.offer := rfl
@[simp] theorem leavePool_held (e : PoolEntry) (s : State) : (leavePool e s).held = s.held := rfl
@[simp] theorem leavePool_memoryOffer (e : PoolEntry) (s : State) : (leavePool e s).memoryOffer = s.memoryOffer := rfl
@[simp] theorem leavePool_responses (e : PoolEntry) (s : State) : (leavePool e s).responses = s.responses := rfl
@[simp] theorem leavePool_owed (e : PoolEntry) (s : State) : (leavePool e s).owed = s.owed := rfl
@[simp] theorem leavePool_nextPlace (e : PoolEntry) (s : State) : (leavePool e s).nextPlace = s.nextPlace := rfl
@[simp] theorem leavePool_outstanding (e : PoolEntry) (s : State) : (leavePool e s).outstanding = s.outstanding := rfl
@[simp] theorem leavePool_responseTimeout (e : PoolEntry) (s : State) : (leavePool e s).responseTimeout = s.responseTimeout := rfl
@[simp] theorem leavePool_map (e : PoolEntry) (s : State) : (leavePool e s).map = s.map := rfl
@[simp] theorem leavePool_defaultTarget (e : PoolEntry) (s : State) : (leavePool e s).defaultTarget = s.defaultTarget := rfl
@[simp] theorem leavePool_bypassPriority (e : PoolEntry) (s : State) : (leavePool e s).bypassPriority = s.bypassPriority := rfl
@[simp] theorem leavePool_regs (e : PoolEntry) (s : State) : (leavePool e s).regs = s.regs := rfl
@[simp] theorem leavePool_prescale (e : PoolEntry) (s : State) : (leavePool e s).prescale = s.prescale := rfl
@[simp] theorem leavePool_interval (e : PoolEntry) (s : State) : (leavePool e s).interval = s.interval := rfl
@[simp] theorem leavePool_divider (e : PoolEntry) (s : State) : (leavePool e s).divider = s.divider := rfl
@[simp] theorem leavePool_timebase (e : PoolEntry) (s : State) : (leavePool e s).timebase = s.timebase := rfl
@[simp] theorem leavePool_windowEndDue (e : PoolEntry) (s : State) : (leavePool e s).windowEndDue = s.windowEndDue := rfl
@[simp] theorem leavePool_expiryDue (e : PoolEntry) (s : State) : (leavePool e s).expiryDue = s.expiryDue := rfl
@[simp] theorem leavePool_markers (e : PoolEntry) (s : State) : (leavePool e s).markers = s.markers := rfl
@[simp] theorem leavePool_deviceCauses (e : PoolEntry) (s : State) : (leavePool e s).deviceCauses = s.deviceCauses := rfl
@[simp] theorem leavePool_deviceMask (e : PoolEntry) (s : State) : (leavePool e s).deviceMask = s.deviceMask := rfl
@[simp] theorem leavePool_denials (e : PoolEntry) (s : State) : (leavePool e s).denials = s.denials := rfl
@[simp] theorem leavePool_port (e : PoolEntry) (s : State) : (leavePool e s).port = s.port := rfl
@[simp] theorem leavePool_pending (e : PoolEntry) (s : State) : (leavePool e s).pending = s.pending := rfl

/-! `openEntry` changes outstanding, tracker. -/

@[simp] theorem openEntry_por (i : Fin 64) (e : OutEntry) (s : State) : (openEntry i e s).por = s.por := rfl
@[simp] theorem openEntry_prst (i : Fin 64) (e : OutEntry) (s : State) : (openEntry i e s).prst = s.prst := rfl
@[simp] theorem openEntry_sel (i : Fin 64) (e : OutEntry) (s : State) : (openEntry i e s).sel = s.sel := rfl
@[simp] theorem openEntry_syn (i : Fin 64) (e : OutEntry) (s : State) : (openEntry i e s).syn = s.syn := rfl
@[simp] theorem openEntry_offer (i : Fin 64) (e : OutEntry) (s : State) : (openEntry i e s).offer = s.offer := rfl
@[simp] theorem openEntry_held (i : Fin 64) (e : OutEntry) (s : State) : (openEntry i e s).held = s.held := rfl
@[simp] theorem openEntry_memoryOffer (i : Fin 64) (e : OutEntry) (s : State) : (openEntry i e s).memoryOffer = s.memoryOffer := rfl
@[simp] theorem openEntry_responses (i : Fin 64) (e : OutEntry) (s : State) : (openEntry i e s).responses = s.responses := rfl
@[simp] theorem openEntry_owed (i : Fin 64) (e : OutEntry) (s : State) : (openEntry i e s).owed = s.owed := rfl
@[simp] theorem openEntry_pool (i : Fin 64) (e : OutEntry) (s : State) : (openEntry i e s).pool = s.pool := rfl
@[simp] theorem openEntry_nextPlace (i : Fin 64) (e : OutEntry) (s : State) : (openEntry i e s).nextPlace = s.nextPlace := rfl
@[simp] theorem openEntry_responseTimeout (i : Fin 64) (e : OutEntry) (s : State) : (openEntry i e s).responseTimeout = s.responseTimeout := rfl
@[simp] theorem openEntry_map (i : Fin 64) (e : OutEntry) (s : State) : (openEntry i e s).map = s.map := rfl
@[simp] theorem openEntry_defaultTarget (i : Fin 64) (e : OutEntry) (s : State) : (openEntry i e s).defaultTarget = s.defaultTarget := rfl
@[simp] theorem openEntry_bypassPriority (i : Fin 64) (e : OutEntry) (s : State) : (openEntry i e s).bypassPriority = s.bypassPriority := rfl
@[simp] theorem openEntry_regs (i : Fin 64) (e : OutEntry) (s : State) : (openEntry i e s).regs = s.regs := rfl
@[simp] theorem openEntry_prescale (i : Fin 64) (e : OutEntry) (s : State) : (openEntry i e s).prescale = s.prescale := rfl
@[simp] theorem openEntry_interval (i : Fin 64) (e : OutEntry) (s : State) : (openEntry i e s).interval = s.interval := rfl
@[simp] theorem openEntry_divider (i : Fin 64) (e : OutEntry) (s : State) : (openEntry i e s).divider = s.divider := rfl
@[simp] theorem openEntry_timebase (i : Fin 64) (e : OutEntry) (s : State) : (openEntry i e s).timebase = s.timebase := rfl
@[simp] theorem openEntry_windowEndDue (i : Fin 64) (e : OutEntry) (s : State) : (openEntry i e s).windowEndDue = s.windowEndDue := rfl
@[simp] theorem openEntry_expiryDue (i : Fin 64) (e : OutEntry) (s : State) : (openEntry i e s).expiryDue = s.expiryDue := rfl
@[simp] theorem openEntry_markers (i : Fin 64) (e : OutEntry) (s : State) : (openEntry i e s).markers = s.markers := rfl
@[simp] theorem openEntry_deviceCauses (i : Fin 64) (e : OutEntry) (s : State) : (openEntry i e s).deviceCauses = s.deviceCauses := rfl
@[simp] theorem openEntry_deviceMask (i : Fin 64) (e : OutEntry) (s : State) : (openEntry i e s).deviceMask = s.deviceMask := rfl
@[simp] theorem openEntry_denials (i : Fin 64) (e : OutEntry) (s : State) : (openEntry i e s).denials = s.denials := rfl
@[simp] theorem openEntry_port (i : Fin 64) (e : OutEntry) (s : State) : (openEntry i e s).port = s.port := rfl
@[simp] theorem openEntry_pending (i : Fin 64) (e : OutEntry) (s : State) : (openEntry i e s).pending = s.pending := rfl

/-! `enterReply` changes sel, port. -/

@[simp] theorem enterReply_por (st : Status) (bytes : List Byte) (s : State) : (enterReply st bytes s).por = s.por := rfl
@[simp] theorem enterReply_prst (st : Status) (bytes : List Byte) (s : State) : (enterReply st bytes s).prst = s.prst := rfl
@[simp] theorem enterReply_syn (st : Status) (bytes : List Byte) (s : State) : (enterReply st bytes s).syn = s.syn := rfl
@[simp] theorem enterReply_offer (st : Status) (bytes : List Byte) (s : State) : (enterReply st bytes s).offer = s.offer := rfl
@[simp] theorem enterReply_held (st : Status) (bytes : List Byte) (s : State) : (enterReply st bytes s).held = s.held := rfl
@[simp] theorem enterReply_memoryOffer (st : Status) (bytes : List Byte) (s : State) : (enterReply st bytes s).memoryOffer = s.memoryOffer := rfl
@[simp] theorem enterReply_responses (st : Status) (bytes : List Byte) (s : State) : (enterReply st bytes s).responses = s.responses := rfl
@[simp] theorem enterReply_owed (st : Status) (bytes : List Byte) (s : State) : (enterReply st bytes s).owed = s.owed := rfl
@[simp] theorem enterReply_pool (st : Status) (bytes : List Byte) (s : State) : (enterReply st bytes s).pool = s.pool := rfl
@[simp] theorem enterReply_tracker (st : Status) (bytes : List Byte) (s : State) : (enterReply st bytes s).tracker = s.tracker := rfl
@[simp] theorem enterReply_nextPlace (st : Status) (bytes : List Byte) (s : State) : (enterReply st bytes s).nextPlace = s.nextPlace := rfl
@[simp] theorem enterReply_outstanding (st : Status) (bytes : List Byte) (s : State) : (enterReply st bytes s).outstanding = s.outstanding := rfl
@[simp] theorem enterReply_responseTimeout (st : Status) (bytes : List Byte) (s : State) : (enterReply st bytes s).responseTimeout = s.responseTimeout := rfl
@[simp] theorem enterReply_map (st : Status) (bytes : List Byte) (s : State) : (enterReply st bytes s).map = s.map := rfl
@[simp] theorem enterReply_defaultTarget (st : Status) (bytes : List Byte) (s : State) : (enterReply st bytes s).defaultTarget = s.defaultTarget := rfl
@[simp] theorem enterReply_bypassPriority (st : Status) (bytes : List Byte) (s : State) : (enterReply st bytes s).bypassPriority = s.bypassPriority := rfl
@[simp] theorem enterReply_regs (st : Status) (bytes : List Byte) (s : State) : (enterReply st bytes s).regs = s.regs := rfl
@[simp] theorem enterReply_prescale (st : Status) (bytes : List Byte) (s : State) : (enterReply st bytes s).prescale = s.prescale := rfl
@[simp] theorem enterReply_interval (st : Status) (bytes : List Byte) (s : State) : (enterReply st bytes s).interval = s.interval := rfl
@[simp] theorem enterReply_divider (st : Status) (bytes : List Byte) (s : State) : (enterReply st bytes s).divider = s.divider := rfl
@[simp] theorem enterReply_timebase (st : Status) (bytes : List Byte) (s : State) : (enterReply st bytes s).timebase = s.timebase := rfl
@[simp] theorem enterReply_windowEndDue (st : Status) (bytes : List Byte) (s : State) : (enterReply st bytes s).windowEndDue = s.windowEndDue := rfl
@[simp] theorem enterReply_expiryDue (st : Status) (bytes : List Byte) (s : State) : (enterReply st bytes s).expiryDue = s.expiryDue := rfl
@[simp] theorem enterReply_markers (st : Status) (bytes : List Byte) (s : State) : (enterReply st bytes s).markers = s.markers := rfl
@[simp] theorem enterReply_deviceCauses (st : Status) (bytes : List Byte) (s : State) : (enterReply st bytes s).deviceCauses = s.deviceCauses := rfl
@[simp] theorem enterReply_deviceMask (st : Status) (bytes : List Byte) (s : State) : (enterReply st bytes s).deviceMask = s.deviceMask := rfl
@[simp] theorem enterReply_denials (st : Status) (bytes : List Byte) (s : State) : (enterReply st bytes s).denials = s.denials := rfl
@[simp] theorem enterReply_pending (st : Status) (bytes : List Byte) (s : State) : (enterReply st bytes s).pending = s.pending := rfl

/-! `passPeriods` changes syn, divider, markers. -/

@[simp] theorem passPeriods_por (n : Nat) (s : State) : (passPeriods n s).por = s.por := rfl
@[simp] theorem passPeriods_prst (n : Nat) (s : State) : (passPeriods n s).prst = s.prst := rfl
@[simp] theorem passPeriods_sel (n : Nat) (s : State) : (passPeriods n s).sel = s.sel := rfl
@[simp] theorem passPeriods_offer (n : Nat) (s : State) : (passPeriods n s).offer = s.offer := rfl
@[simp] theorem passPeriods_held (n : Nat) (s : State) : (passPeriods n s).held = s.held := rfl
@[simp] theorem passPeriods_memoryOffer (n : Nat) (s : State) : (passPeriods n s).memoryOffer = s.memoryOffer := rfl
@[simp] theorem passPeriods_responses (n : Nat) (s : State) : (passPeriods n s).responses = s.responses := rfl
@[simp] theorem passPeriods_owed (n : Nat) (s : State) : (passPeriods n s).owed = s.owed := rfl
@[simp] theorem passPeriods_pool (n : Nat) (s : State) : (passPeriods n s).pool = s.pool := rfl
@[simp] theorem passPeriods_tracker (n : Nat) (s : State) : (passPeriods n s).tracker = s.tracker := rfl
@[simp] theorem passPeriods_nextPlace (n : Nat) (s : State) : (passPeriods n s).nextPlace = s.nextPlace := rfl
@[simp] theorem passPeriods_responseTimeout (n : Nat) (s : State) : (passPeriods n s).responseTimeout = s.responseTimeout := rfl
@[simp] theorem passPeriods_map (n : Nat) (s : State) : (passPeriods n s).map = s.map := rfl
@[simp] theorem passPeriods_defaultTarget (n : Nat) (s : State) : (passPeriods n s).defaultTarget = s.defaultTarget := rfl
@[simp] theorem passPeriods_bypassPriority (n : Nat) (s : State) : (passPeriods n s).bypassPriority = s.bypassPriority := rfl
@[simp] theorem passPeriods_prescale (n : Nat) (s : State) : (passPeriods n s).prescale = s.prescale := rfl
@[simp] theorem passPeriods_deviceCauses (n : Nat) (s : State) : (passPeriods n s).deviceCauses = s.deviceCauses := rfl
@[simp] theorem passPeriods_deviceMask (n : Nat) (s : State) : (passPeriods n s).deviceMask = s.deviceMask := rfl
@[simp] theorem passPeriods_denials (n : Nat) (s : State) : (passPeriods n s).denials = s.denials := rfl
@[simp] theorem passPeriods_port (n : Nat) (s : State) : (passPeriods n s).port = s.port := rfl
@[simp] theorem passPeriods_pending (n : Nat) (s : State) : (passPeriods n s).pending = s.pending := rfl
@[simp] theorem passPeriods_interval (n : Nat) (s : State) : (passPeriods n s).interval = s.interval := rfl
@[simp] theorem passPeriods_timebase (n : Nat) (s : State) : (passPeriods n s).timebase = s.timebase := rfl
@[simp] theorem passPeriods_regs (n : Nat) (s : State) : (passPeriods n s).regs = s.regs := rfl
@[simp] theorem passPeriods_outstanding (n : Nat) (s : State) : (passPeriods n s).outstanding = s.outstanding := rfl
@[simp] theorem passPeriods_windowEndDue (n : Nat) (s : State) : (passPeriods n s).windowEndDue = s.windowEndDue := rfl
@[simp] theorem passPeriods_expiryDue (n : Nat) (s : State) : (passPeriods n s).expiryDue = s.expiryDue := rfl

/-! `takeTick` changes syn, divider, interval, timebase, regs, outstanding, windowEndDue, expiryDue, markers. -/

@[simp] theorem takeTick_por (s : State) : (takeTick s).por = s.por := rfl
@[simp] theorem takeTick_prst (s : State) : (takeTick s).prst = s.prst := rfl
@[simp] theorem takeTick_sel (s : State) : (takeTick s).sel = s.sel := rfl
@[simp] theorem takeTick_offer (s : State) : (takeTick s).offer = s.offer := rfl
@[simp] theorem takeTick_held (s : State) : (takeTick s).held = s.held := rfl
@[simp] theorem takeTick_memoryOffer (s : State) : (takeTick s).memoryOffer = s.memoryOffer := rfl
@[simp] theorem takeTick_responses (s : State) : (takeTick s).responses = s.responses := rfl
@[simp] theorem takeTick_owed (s : State) : (takeTick s).owed = s.owed := rfl
@[simp] theorem takeTick_pool (s : State) : (takeTick s).pool = s.pool := rfl
@[simp] theorem takeTick_tracker (s : State) : (takeTick s).tracker = s.tracker := rfl
@[simp] theorem takeTick_nextPlace (s : State) : (takeTick s).nextPlace = s.nextPlace := rfl
@[simp] theorem takeTick_responseTimeout (s : State) : (takeTick s).responseTimeout = s.responseTimeout := rfl
@[simp] theorem takeTick_map (s : State) : (takeTick s).map = s.map := rfl
@[simp] theorem takeTick_defaultTarget (s : State) : (takeTick s).defaultTarget = s.defaultTarget := rfl
@[simp] theorem takeTick_bypassPriority (s : State) : (takeTick s).bypassPriority = s.bypassPriority := rfl
@[simp] theorem takeTick_prescale (s : State) : (takeTick s).prescale = s.prescale := rfl
@[simp] theorem takeTick_deviceCauses (s : State) : (takeTick s).deviceCauses = s.deviceCauses := rfl
@[simp] theorem takeTick_deviceMask (s : State) : (takeTick s).deviceMask = s.deviceMask := rfl
@[simp] theorem takeTick_denials (s : State) : (takeTick s).denials = s.denials := rfl
@[simp] theorem takeTick_port (s : State) : (takeTick s).port = s.port := rfl
@[simp] theorem takeTick_pending (s : State) : (takeTick s).pending = s.pending := rfl

/-! `pathReset` changes prst, held, responses, owed, pool, tracker, outstanding, regs. -/

@[simp] theorem pathReset_por (s : State) : (pathReset s).por = s.por := rfl
@[simp] theorem pathReset_sel (s : State) : (pathReset s).sel = s.sel := rfl
@[simp] theorem pathReset_syn (s : State) : (pathReset s).syn = s.syn := rfl
@[simp] theorem pathReset_offer (s : State) : (pathReset s).offer = s.offer := rfl
@[simp] theorem pathReset_memoryOffer (s : State) : (pathReset s).memoryOffer = s.memoryOffer := rfl
@[simp] theorem pathReset_nextPlace (s : State) : (pathReset s).nextPlace = s.nextPlace := rfl
@[simp] theorem pathReset_responseTimeout (s : State) : (pathReset s).responseTimeout = s.responseTimeout := rfl
@[simp] theorem pathReset_map (s : State) : (pathReset s).map = s.map := rfl
@[simp] theorem pathReset_defaultTarget (s : State) : (pathReset s).defaultTarget = s.defaultTarget := rfl
@[simp] theorem pathReset_bypassPriority (s : State) : (pathReset s).bypassPriority = s.bypassPriority := rfl
@[simp] theorem pathReset_prescale (s : State) : (pathReset s).prescale = s.prescale := rfl
@[simp] theorem pathReset_interval (s : State) : (pathReset s).interval = s.interval := rfl
@[simp] theorem pathReset_divider (s : State) : (pathReset s).divider = s.divider := rfl
@[simp] theorem pathReset_timebase (s : State) : (pathReset s).timebase = s.timebase := rfl
@[simp] theorem pathReset_windowEndDue (s : State) : (pathReset s).windowEndDue = s.windowEndDue := rfl
@[simp] theorem pathReset_expiryDue (s : State) : (pathReset s).expiryDue = s.expiryDue := rfl
@[simp] theorem pathReset_markers (s : State) : (pathReset s).markers = s.markers := rfl
@[simp] theorem pathReset_deviceCauses (s : State) : (pathReset s).deviceCauses = s.deviceCauses := rfl
@[simp] theorem pathReset_deviceMask (s : State) : (pathReset s).deviceMask = s.deviceMask := rfl
@[simp] theorem pathReset_denials (s : State) : (pathReset s).denials = s.denials := rfl
@[simp] theorem pathReset_port (s : State) : (pathReset s).port = s.port := rfl
@[simp] theorem pathReset_pending (s : State) : (pathReset s).pending = s.pending := rfl

/-! What the updates put into the fields they change. -/

@[simp] theorem setReg_regs (s : State) (r : RegNo) (g : Regulator) : (setReg s r g).regs = s.regs.set r g := rfl
@[simp] theorem raiseDevice_deviceCauses (c : DeviceCause) (s : State) :
    (raiseDevice c s).deviceCauses = s.deviceCauses ||| deviceBit c := rfl
@[simp] theorem enterQueue_responses (u : Response) (s : State) : (enterQueue u s).responses = s.responses ++ [u] := rfl
@[simp] theorem joinPool_offer (kind : EntryKind) (l : Lane) (q : Request) (t : Target) (s : State) :
    (joinPool kind l q t s).offer = none := rfl
@[simp] theorem joinPool_pool (kind : EntryKind) (l : Lane) (q : Request) (t : Target) (s : State) :
    (joinPool kind l q t s).pool =
      s.pool ++ [{ kind := kind, lane := l, place := s.nextPlace, request := q, target := t }] := rfl
@[simp] theorem joinPool_nextPlace (kind : EntryKind) (l : Lane) (q : Request) (t : Target) (s : State) :
    (joinPool kind l q t s).nextPlace = s.nextPlace + 1 := rfl
@[simp] theorem leavePool_pool (e : PoolEntry) (s : State) : (leavePool e s).pool = s.pool.erase e := rfl
@[simp] theorem openEntry_outstanding (i : Fin 64) (e : OutEntry) (s : State) :
    (openEntry i e s).outstanding = s.outstanding.set i (some e) := rfl
@[simp] theorem enterReply_sel (st : Status) (bytes : List Byte) (s : State) : (enterReply st bytes s).sel = true := rfl
@[simp] theorem enterReply_port (st : Status) (bytes : List Byte) (s : State) :
    (enterReply st bytes s).port = .reply (replyPart st bytes) := rfl

end Sys2Proof.Machine
end

