-- ==== Sys2Proof/Laws/Frames.lean ====
section
/-! SUPPORT. The frame of each shared operation: one lemma that names every field the operation can change, and from it
one simp lemma for each field it leaves alone. -/

namespace Sys2Proof.Machine

theorem raiseCauses_frame (r : RegNo) (cs : List Cause) (s : State) :
    raiseCauses r cs s =
      { s with regs := (raiseCauses r cs s).regs, markers := (raiseCauses r cs s).markers } := by
  induction cs generalizing s with
  | nil => rfl
  | cons c cs ih => exact ih (raiseCause r c s)

@[simp] theorem raiseCauses_por (r : RegNo) (cs : List Cause) (s : State) : (raiseCauses r cs s).por = s.por :=
  (congrArg State.por (raiseCauses_frame r cs s) :)
@[simp] theorem raiseCauses_prst (r : RegNo) (cs : List Cause) (s : State) : (raiseCauses r cs s).prst = s.prst :=
  (congrArg State.prst (raiseCauses_frame r cs s) :)
@[simp] theorem raiseCauses_sel (r : RegNo) (cs : List Cause) (s : State) : (raiseCauses r cs s).sel = s.sel :=
  (congrArg State.sel (raiseCauses_frame r cs s) :)
@[simp] theorem raiseCauses_syn (r : RegNo) (cs : List Cause) (s : State) : (raiseCauses r cs s).syn = s.syn :=
  (congrArg State.syn (raiseCauses_frame r cs s) :)
@[simp] theorem raiseCauses_offer (r : RegNo) (cs : List Cause) (s : State) : (raiseCauses r cs s).offer = s.offer :=
  (congrArg State.offer (raiseCauses_frame r cs s) :)
@[simp] theorem raiseCauses_held (r : RegNo) (cs : List Cause) (s : State) : (raiseCauses r cs s).held = s.held :=
  (congrArg State.held (raiseCauses_frame r cs s) :)
@[simp] theorem raiseCauses_memoryOffer (r : RegNo) (cs : List Cause) (s : State) : (raiseCauses r cs s).memoryOffer = s.memoryOffer :=
  (congrArg State.memoryOffer (raiseCauses_frame r cs s) :)
@[simp] theorem raiseCauses_responses (r : RegNo) (cs : List Cause) (s : State) : (raiseCauses r cs s).responses = s.responses :=
  (congrArg State.responses (raiseCauses_frame r cs s) :)
@[simp] theorem raiseCauses_owed (r : RegNo) (cs : List Cause) (s : State) : (raiseCauses r cs s).owed = s.owed :=
  (congrArg State.owed (raiseCauses_frame r cs s) :)
@[simp] theorem raiseCauses_pool (r : RegNo) (cs : List Cause) (s : State) : (raiseCauses r cs s).pool = s.pool :=
  (congrArg State.pool (raiseCauses_frame r cs s) :)
@[simp] theorem raiseCauses_tracker (r : RegNo) (cs : List Cause) (s : State) : (raiseCauses r cs s).tracker = s.tracker :=
  (congrArg State.tracker (raiseCauses_frame r cs s) :)
@[simp] theorem raiseCauses_nextPlace (r : RegNo) (cs : List Cause) (s : State) : (raiseCauses r cs s).nextPlace = s.nextPlace :=
  (congrArg State.nextPlace (raiseCauses_frame r cs s) :)
@[simp] theorem raiseCauses_outstanding (r : RegNo) (cs : List Cause) (s : State) : (raiseCauses r cs s).outstanding = s.outstanding :=
  (congrArg State.outstanding (raiseCauses_frame r cs s) :)
@[simp] theorem raiseCauses_responseTimeout (r : RegNo) (cs : List Cause) (s : State) : (raiseCauses r cs s).responseTimeout = s.responseTimeout :=
  (congrArg State.responseTimeout (raiseCauses_frame r cs s) :)
@[simp] theorem raiseCauses_map (r : RegNo) (cs : List Cause) (s : State) : (raiseCauses r cs s).map = s.map :=
  (congrArg State.map (raiseCauses_frame r cs s) :)
@[simp] theorem raiseCauses_defaultTarget (r : RegNo) (cs : List Cause) (s : State) : (raiseCauses r cs s).defaultTarget = s.defaultTarget :=
  (congrArg State.defaultTarget (raiseCauses_frame r cs s) :)
@[simp] theorem raiseCauses_bypassPriority (r : RegNo) (cs : List Cause) (s : State) : (raiseCauses r cs s).bypassPriority = s.bypassPriority :=
  (congrArg State.bypassPriority (raiseCauses_frame r cs s) :)
@[simp] theorem raiseCauses_prescale (r : RegNo) (cs : List Cause) (s : State) : (raiseCauses r cs s).prescale = s.prescale :=
  (congrArg State.prescale (raiseCauses_frame r cs s) :)
@[simp] theorem raiseCauses_interval (r : RegNo) (cs : List Cause) (s : State) : (raiseCauses r cs s).interval = s.interval :=
  (congrArg State.interval (raiseCauses_frame r cs s) :)
@[simp] theorem raiseCauses_divider (r : RegNo) (cs : List Cause) (s : State) : (raiseCauses r cs s).divider = s.divider :=
  (congrArg State.divider (raiseCauses_frame r cs s) :)
@[simp] theorem raiseCauses_timebase (r : RegNo) (cs : List Cause) (s : State) : (raiseCauses r cs s).timebase = s.timebase :=
  (congrArg State.timebase (raiseCauses_frame r cs s) :)
@[simp] theorem raiseCauses_windowEndDue (r : RegNo) (cs : List Cause) (s : State) : (raiseCauses r cs s).windowEndDue = s.windowEndDue :=
  (congrArg State.windowEndDue (raiseCauses_frame r cs s) :)
@[simp] theorem raiseCauses_expiryDue (r : RegNo) (cs : List Cause) (s : State) : (raiseCauses r cs s).expiryDue = s.expiryDue :=
  (congrArg State.expiryDue (raiseCauses_frame r cs s) :)
@[simp] theorem raiseCauses_deviceCauses (r : RegNo) (cs : List Cause) (s : State) : (raiseCauses r cs s).deviceCauses = s.deviceCauses :=
  (congrArg State.deviceCauses (raiseCauses_frame r cs s) :)
@[simp] theorem raiseCauses_deviceMask (r : RegNo) (cs : List Cause) (s : State) : (raiseCauses r cs s).deviceMask = s.deviceMask :=
  (congrArg State.deviceMask (raiseCauses_frame r cs s) :)
@[simp] theorem raiseCauses_denials (r : RegNo) (cs : List Cause) (s : State) : (raiseCauses r cs s).denials = s.denials :=
  (congrArg State.denials (raiseCauses_frame r cs s) :)
@[simp] theorem raiseCauses_port (r : RegNo) (cs : List Cause) (s : State) : (raiseCauses r cs s).port = s.port :=
  (congrArg State.port (raiseCauses_frame r cs s) :)
@[simp] theorem raiseCauses_pending (r : RegNo) (cs : List Cause) (s : State) : (raiseCauses r cs s).pending = s.pending :=
  (congrArg State.pending (raiseCauses_frame r cs s) :)

theorem regulatorEvent_frame (r : RegNo) (g : Regulator) (cs : List Cause) (s : State) :
    regulatorEvent r g cs s =
      { s with regs := (regulatorEvent r g cs s).regs, markers := (regulatorEvent r g cs s).markers } := raiseCauses_frame r cs (setReg s r g)

@[simp] theorem regulatorEvent_por (r : RegNo) (g : Regulator) (cs : List Cause) (s : State) : (regulatorEvent r g cs s).por = s.por :=
  (congrArg State.por (regulatorEvent_frame r g cs s) :)
@[simp] theorem regulatorEvent_prst (r : RegNo) (g : Regulator) (cs : List Cause) (s : State) : (regulatorEvent r g cs s).prst = s.prst :=
  (congrArg State.prst (regulatorEvent_frame r g cs s) :)
@[simp] theorem regulatorEvent_sel (r : RegNo) (g : Regulator) (cs : List Cause) (s : State) : (regulatorEvent r g cs s).sel = s.sel :=
  (congrArg State.sel (regulatorEvent_frame r g cs s) :)
@[simp] theorem regulatorEvent_syn (r : RegNo) (g : Regulator) (cs : List Cause) (s : State) : (regulatorEvent r g cs s).syn = s.syn :=
  (congrArg State.syn (regulatorEvent_frame r g cs s) :)
@[simp] theorem regulatorEvent_offer (r : RegNo) (g : Regulator) (cs : List Cause) (s : State) : (regulatorEvent r g cs s).offer = s.offer :=
  (congrArg State.offer (regulatorEvent_frame r g cs s) :)
@[simp] theorem regulatorEvent_held (r : RegNo) (g : Regulator) (cs : List Cause) (s : State) : (regulatorEvent r g cs s).held = s.held :=
  (congrArg State.held (regulatorEvent_frame r g cs s) :)
@[simp] theorem regulatorEvent_memoryOffer (r : RegNo) (g : Regulator) (cs : List Cause) (s : State) : (regulatorEvent r g cs s).memoryOffer = s.memoryOffer :=
  (congrArg State.memoryOffer (regulatorEvent_frame r g cs s) :)
@[simp] theorem regulatorEvent_responses (r : RegNo) (g : Regulator) (cs : List Cause) (s : State) : (regulatorEvent r g cs s).responses = s.responses :=
  (congrArg State.responses (regulatorEvent_frame r g cs s) :)
@[simp] theorem regulatorEvent_owed (r : RegNo) (g : Regulator) (cs : List Cause) (s : State) : (regulatorEvent r g cs s).owed = s.owed :=
  (congrArg State.owed (regulatorEvent_frame r g cs s) :)
@[simp] theorem regulatorEvent_pool (r : RegNo) (g : Regulator) (cs : List Cause) (s : State) : (regulatorEvent r g cs s).pool = s.pool :=
  (congrArg State.pool (regulatorEvent_frame r g cs s) :)
@[simp] theorem regulatorEvent_tracker (r : RegNo) (g : Regulator) (cs : List Cause) (s : State) : (regulatorEvent r g cs s).tracker = s.tracker :=
  (congrArg State.tracker (regulatorEvent_frame r g cs s) :)
@[simp] theorem regulatorEvent_nextPlace (r : RegNo) (g : Regulator) (cs : List Cause) (s : State) : (regulatorEvent r g cs s).nextPlace = s.nextPlace :=
  (congrArg State.nextPlace (regulatorEvent_frame r g cs s) :)
@[simp] theorem regulatorEvent_outstanding (r : RegNo) (g : Regulator) (cs : List Cause) (s : State) : (regulatorEvent r g cs s).outstanding = s.outstanding :=
  (congrArg State.outstanding (regulatorEvent_frame r g cs s) :)
@[simp] theorem regulatorEvent_responseTimeout (r : RegNo) (g : Regulator) (cs : List Cause) (s : State) : (regulatorEvent r g cs s).responseTimeout = s.responseTimeout :=
  (congrArg State.responseTimeout (regulatorEvent_frame r g cs s) :)
@[simp] theorem regulatorEvent_map (r : RegNo) (g : Regulator) (cs : List Cause) (s : State) : (regulatorEvent r g cs s).map = s.map :=
  (congrArg State.map (regulatorEvent_frame r g cs s) :)
@[simp] theorem regulatorEvent_defaultTarget (r : RegNo) (g : Regulator) (cs : List Cause) (s : State) : (regulatorEvent r g cs s).defaultTarget = s.defaultTarget :=
  (congrArg State.defaultTarget (regulatorEvent_frame r g cs s) :)
@[simp] theorem regulatorEvent_bypassPriority (r : RegNo) (g : Regulator) (cs : List Cause) (s : State) : (regulatorEvent r g cs s).bypassPriority = s.bypassPriority :=
  (congrArg State.bypassPriority (regulatorEvent_frame r g cs s) :)
@[simp] theorem regulatorEvent_prescale (r : RegNo) (g : Regulator) (cs : List Cause) (s : State) : (regulatorEvent r g cs s).prescale = s.prescale :=
  (congrArg State.prescale (regulatorEvent_frame r g cs s) :)
@[simp] theorem regulatorEvent_interval (r : RegNo) (g : Regulator) (cs : List Cause) (s : State) : (regulatorEvent r g cs s).interval = s.interval :=
  (congrArg State.interval (regulatorEvent_frame r g cs s) :)
@[simp] theorem regulatorEvent_divider (r : RegNo) (g : Regulator) (cs : List Cause) (s : State) : (regulatorEvent r g cs s).divider = s.divider :=
  (congrArg State.divider (regulatorEvent_frame r g cs s) :)
@[simp] theorem regulatorEvent_timebase (r : RegNo) (g : Regulator) (cs : List Cause) (s : State) : (regulatorEvent r g cs s).timebase = s.timebase :=
  (congrArg State.timebase (regulatorEvent_frame r g cs s) :)
@[simp] theorem regulatorEvent_windowEndDue (r : RegNo) (g : Regulator) (cs : List Cause) (s : State) : (regulatorEvent r g cs s).windowEndDue = s.windowEndDue :=
  (congrArg State.windowEndDue (regulatorEvent_frame r g cs s) :)
@[simp] theorem regulatorEvent_expiryDue (r : RegNo) (g : Regulator) (cs : List Cause) (s : State) : (regulatorEvent r g cs s).expiryDue = s.expiryDue :=
  (congrArg State.expiryDue (regulatorEvent_frame r g cs s) :)
@[simp] theorem regulatorEvent_deviceCauses (r : RegNo) (g : Regulator) (cs : List Cause) (s : State) : (regulatorEvent r g cs s).deviceCauses = s.deviceCauses :=
  (congrArg State.deviceCauses (regulatorEvent_frame r g cs s) :)
@[simp] theorem regulatorEvent_deviceMask (r : RegNo) (g : Regulator) (cs : List Cause) (s : State) : (regulatorEvent r g cs s).deviceMask = s.deviceMask :=
  (congrArg State.deviceMask (regulatorEvent_frame r g cs s) :)
@[simp] theorem regulatorEvent_denials (r : RegNo) (g : Regulator) (cs : List Cause) (s : State) : (regulatorEvent r g cs s).denials = s.denials :=
  (congrArg State.denials (regulatorEvent_frame r g cs s) :)
@[simp] theorem regulatorEvent_port (r : RegNo) (g : Regulator) (cs : List Cause) (s : State) : (regulatorEvent r g cs s).port = s.port :=
  (congrArg State.port (regulatorEvent_frame r g cs s) :)
@[simp] theorem regulatorEvent_pending (r : RegNo) (g : Regulator) (cs : List Cause) (s : State) : (regulatorEvent r g cs s).pending = s.pending :=
  (congrArg State.pending (regulatorEvent_frame r g cs s) :)

theorem quotaCause_frame (v : Verdict) (o : Offer) (s : State) :
    quotaCause v o s =
      { s with regs := (quotaCause v o s).regs, markers := (quotaCause v o s).markers } := by
  unfold quotaCause
  split
  · split <;> rfl
  · rfl


theorem fullCause_frame (v : Verdict) (o : Offer) (s : State) :
    fullCause v o s =
      { s with deviceCauses := (fullCause v o s).deviceCauses } := by
  unfold fullCause
  split <;> rfl


theorem consider_frame (s : State) :
    consider s =
      { s with offer := (consider s).offer, regs := (consider s).regs, markers := (consider s).markers, deviceCauses := (consider s).deviceCauses } := by
  unfold consider
  split
  · rfl
  · split
    · dsimp only
      rw [fullCause_frame, quotaCause_frame]
    · rfl

@[simp] theorem consider_por (s : State) : (consider s).por = s.por :=
  (congrArg State.por (consider_frame s) :)
@[simp] theorem consider_prst (s : State) : (consider s).prst = s.prst :=
  (congrArg State.prst (consider_frame s) :)
@[simp] theorem consider_sel (s : State) : (consider s).sel = s.sel :=
  (congrArg State.sel (consider_frame s) :)
@[simp] theorem consider_syn (s : State) : (consider s).syn = s.syn :=
  (congrArg State.syn (consider_frame s) :)
@[simp] theorem consider_held (s : State) : (consider s).held = s.held :=
  (congrArg State.held (consider_frame s) :)
@[simp] theorem consider_memoryOffer (s : State) : (consider s).memoryOffer = s.memoryOffer :=
  (congrArg State.memoryOffer (consider_frame s) :)
@[simp] theorem consider_responses (s : State) : (consider s).responses = s.responses :=
  (congrArg State.responses (consider_frame s) :)
@[simp] theorem consider_owed (s : State) : (consider s).owed = s.owed :=
  (congrArg State.owed (consider_frame s) :)
@[simp] theorem consider_pool (s : State) : (consider s).pool = s.pool :=
  (congrArg State.pool (consider_frame s) :)
@[simp] theorem consider_tracker (s : State) : (consider s).tracker = s.tracker :=
  (congrArg State.tracker (consider_frame s) :)
@[simp] theorem consider_nextPlace (s : State) : (consider s).nextPlace = s.nextPlace :=
  (congrArg State.nextPlace (consider_frame s) :)
@[simp] theorem consider_outstanding (s : State) : (consider s).outstanding = s.outstanding :=
  (congrArg State.outstanding (consider_frame s) :)
@[simp] theorem consider_responseTimeout (s : State) : (consider s).responseTimeout = s.responseTimeout :=
  (congrArg State.responseTimeout (consider_frame s) :)
@[simp] theorem consider_map (s : State) : (consider s).map = s.map :=
  (congrArg State.map (consider_frame s) :)
@[simp] theorem consider_defaultTarget (s : State) : (consider s).defaultTarget = s.defaultTarget :=
  (congrArg State.defaultTarget (consider_frame s) :)
@[simp] theorem consider_bypassPriority (s : State) : (consider s).bypassPriority = s.bypassPriority :=
  (congrArg State.bypassPriority (consider_frame s) :)
@[simp] theorem consider_prescale (s : State) : (consider s).prescale = s.prescale :=
  (congrArg State.prescale (consider_frame s) :)
@[simp] theorem consider_interval (s : State) : (consider s).interval = s.interval :=
  (congrArg State.interval (consider_frame s) :)
@[simp] theorem consider_divider (s : State) : (consider s).divider = s.divider :=
  (congrArg State.divider (consider_frame s) :)
@[simp] theorem consider_timebase (s : State) : (consider s).timebase = s.timebase :=
  (congrArg State.timebase (consider_frame s) :)
@[simp] theorem consider_windowEndDue (s : State) : (consider s).windowEndDue = s.windowEndDue :=
  (congrArg State.windowEndDue (consider_frame s) :)
@[simp] theorem consider_expiryDue (s : State) : (consider s).expiryDue = s.expiryDue :=
  (congrArg State.expiryDue (consider_frame s) :)
@[simp] theorem consider_deviceMask (s : State) : (consider s).deviceMask = s.deviceMask :=
  (congrArg State.deviceMask (consider_frame s) :)
@[simp] theorem consider_denials (s : State) : (consider s).denials = s.denials :=
  (congrArg State.denials (consider_frame s) :)
@[simp] theorem consider_port (s : State) : (consider s).port = s.port :=
  (congrArg State.port (consider_frame s) :)
@[simp] theorem consider_pending (s : State) : (consider s).pending = s.pending :=
  (congrArg State.pending (consider_frame s) :)

theorem malformedCause_frame (reason : DenyReason) (s : State) :
    malformedCause reason s =
      { s with deviceCauses := (malformedCause reason s).deviceCauses } := by
  unfold malformedCause
  split <;> rfl

@[simp] theorem malformedCause_por (reason : DenyReason) (s : State) : (malformedCause reason s).por = s.por :=
  (congrArg State.por (malformedCause_frame reason s) :)
@[simp] theorem malformedCause_prst (reason : DenyReason) (s : State) : (malformedCause reason s).prst = s.prst :=
  (congrArg State.prst (malformedCause_frame reason s) :)
@[simp] theorem malformedCause_sel (reason : DenyReason) (s : State) : (malformedCause reason s).sel = s.sel :=
  (congrArg State.sel (malformedCause_frame reason s) :)
@[simp] theorem malformedCause_syn (reason : DenyReason) (s : State) : (malformedCause reason s).syn = s.syn :=
  (congrArg State.syn (malformedCause_frame reason s) :)
@[simp] theorem malformedCause_offer (reason : DenyReason) (s : State) : (malformedCause reason s).offer = s.offer :=
  (congrArg State.offer (malformedCause_frame reason s) :)
@[simp] theorem malformedCause_held (reason : DenyReason) (s : State) : (malformedCause reason s).held = s.held :=
  (congrArg State.held (malformedCause_frame reason s) :)
@[simp] theorem malformedCause_memoryOffer (reason : DenyReason) (s : State) : (malformedCause reason s).memoryOffer = s.memoryOffer :=
  (congrArg State.memoryOffer (malformedCause_frame reason s) :)
@[simp] theorem malformedCause_responses (reason : DenyReason) (s : State) : (malformedCause reason s).responses = s.responses :=
  (congrArg State.responses (malformedCause_frame reason s) :)
@[simp] theorem malformedCause_owed (reason : DenyReason) (s : State) : (malformedCause reason s).owed = s.owed :=
  (congrArg State.owed (malformedCause_frame reason s) :)
@[simp] theorem malformedCause_pool (reason : DenyReason) (s : State) : (malformedCause reason s).pool = s.pool :=
  (congrArg State.pool (malformedCause_frame reason s) :)
@[simp] theorem malformedCause_tracker (reason : DenyReason) (s : State) : (malformedCause reason s).tracker = s.tracker :=
  (congrArg State.tracker (malformedCause_frame reason s) :)
@[simp] theorem malformedCause_nextPlace (reason : DenyReason) (s : State) : (malformedCause reason s).nextPlace = s.nextPlace :=
  (congrArg State.nextPlace (malformedCause_frame reason s) :)
@[simp] theorem malformedCause_outstanding (reason : DenyReason) (s : State) : (malformedCause reason s).outstanding = s.outstanding :=
  (congrArg State.outstanding (malformedCause_frame reason s) :)
@[simp] theorem malformedCause_responseTimeout (reason : DenyReason) (s : State) : (malformedCause reason s).responseTimeout = s.responseTimeout :=
  (congrArg State.responseTimeout (malformedCause_frame reason s) :)
@[simp] theorem malformedCause_map (reason : DenyReason) (s : State) : (malformedCause reason s).map = s.map :=
  (congrArg State.map (malformedCause_frame reason s) :)
@[simp] theorem malformedCause_defaultTarget (reason : DenyReason) (s : State) : (malformedCause reason s).defaultTarget = s.defaultTarget :=
  (congrArg State.defaultTarget (malformedCause_frame reason s) :)
@[simp] theorem malformedCause_bypassPriority (reason : DenyReason) (s : State) : (malformedCause reason s).bypassPriority = s.bypassPriority :=
  (congrArg State.bypassPriority (malformedCause_frame reason s) :)
@[simp] theorem malformedCause_regs (reason : DenyReason) (s : State) : (malformedCause reason s).regs = s.regs :=
  (congrArg State.regs (malformedCause_frame reason s) :)
@[simp] theorem malformedCause_prescale (reason : DenyReason) (s : State) : (malformedCause reason s).prescale = s.prescale :=
  (congrArg State.prescale (malformedCause_frame reason s) :)
@[simp] theorem malformedCause_interval (reason : DenyReason) (s : State) : (malformedCause reason s).interval = s.interval :=
  (congrArg State.interval (malformedCause_frame reason s) :)
@[simp] theorem malformedCause_divider (reason : DenyReason) (s : State) : (malformedCause reason s).divider = s.divider :=
  (congrArg State.divider (malformedCause_frame reason s) :)
@[simp] theorem malformedCause_timebase (reason : DenyReason) (s : State) : (malformedCause reason s).timebase = s.timebase :=
  (congrArg State.timebase (malformedCause_frame reason s) :)
@[simp] theorem malformedCause_windowEndDue (reason : DenyReason) (s : State) : (malformedCause reason s).windowEndDue = s.windowEndDue :=
  (congrArg State.windowEndDue (malformedCause_frame reason s) :)
@[simp] theorem malformedCause_expiryDue (reason : DenyReason) (s : State) : (malformedCause reason s).expiryDue = s.expiryDue :=
  (congrArg State.expiryDue (malformedCause_frame reason s) :)
@[simp] theorem malformedCause_markers (reason : DenyReason) (s : State) : (malformedCause reason s).markers = s.markers :=
  (congrArg State.markers (malformedCause_frame reason s) :)
@[simp] theorem malformedCause_deviceMask (reason : DenyReason) (s : State) : (malformedCause reason s).deviceMask = s.deviceMask :=
  (congrArg State.deviceMask (malformedCause_frame reason s) :)
@[simp] theorem malformedCause_denials (reason : DenyReason) (s : State) : (malformedCause reason s).denials = s.denials :=
  (congrArg State.denials (malformedCause_frame reason s) :)
@[simp] theorem malformedCause_port (reason : DenyReason) (s : State) : (malformedCause reason s).port = s.port :=
  (congrArg State.port (malformedCause_frame reason s) :)
@[simp] theorem malformedCause_pending (reason : DenyReason) (s : State) : (malformedCause reason s).pending = s.pending :=
  (congrArg State.pending (malformedCause_frame reason s) :)

theorem offerRecord_frame (d : DenialRecord) (s : State) :
    offerRecord d s =
      { s with denials := (offerRecord d s).denials, deviceCauses := (offerRecord d s).deviceCauses } := by
  unfold offerRecord
  split <;> rfl

@[simp] theorem offerRecord_por (d : DenialRecord) (s : State) : (offerRecord d s).por = s.por :=
  (congrArg State.por (offerRecord_frame d s) :)
@[simp] theorem offerRecord_prst (d : DenialRecord) (s : State) : (offerRecord d s).prst = s.prst :=
  (congrArg State.prst (offerRecord_frame d s) :)
@[simp] theorem offerRecord_sel (d : DenialRecord) (s : State) : (offerRecord d s).sel = s.sel :=
  (congrArg State.sel (offerRecord_frame d s) :)
@[simp] theorem offerRecord_syn (d : DenialRecord) (s : State) : (offerRecord d s).syn = s.syn :=
  (congrArg State.syn (offerRecord_frame d s) :)
@[simp] theorem offerRecord_offer (d : DenialRecord) (s : State) : (offerRecord d s).offer = s.offer :=
  (congrArg State.offer (offerRecord_frame d s) :)
@[simp] theorem offerRecord_held (d : DenialRecord) (s : State) : (offerRecord d s).held = s.held :=
  (congrArg State.held (offerRecord_frame d s) :)
@[simp] theorem offerRecord_memoryOffer (d : DenialRecord) (s : State) : (offerRecord d s).memoryOffer = s.memoryOffer :=
  (congrArg State.memoryOffer (offerRecord_frame d s) :)
@[simp] theorem offerRecord_responses (d : DenialRecord) (s : State) : (offerRecord d s).responses = s.responses :=
  (congrArg State.responses (offerRecord_frame d s) :)
@[simp] theorem offerRecord_owed (d : DenialRecord) (s : State) : (offerRecord d s).owed = s.owed :=
  (congrArg State.owed (offerRecord_frame d s) :)
@[simp] theorem offerRecord_pool (d : DenialRecord) (s : State) : (offerRecord d s).pool = s.pool :=
  (congrArg State.pool (offerRecord_frame d s) :)
@[simp] theorem offerRecord_tracker (d : DenialRecord) (s : State) : (offerRecord d s).tracker = s.tracker :=
  (congrArg State.tracker (offerRecord_frame d s) :)
@[simp] theorem offerRecord_nextPlace (d : DenialRecord) (s : State) : (offerRecord d s).nextPlace = s.nextPlace :=
  (congrArg State.nextPlace (offerRecord_frame d s) :)
@[simp] theorem offerRecord_outstanding (d : DenialRecord) (s : State) : (offerRecord d s).outstanding = s.outstanding :=
  (congrArg State.outstanding (offerRecord_frame d s) :)
@[simp] theorem offerRecord_responseTimeout (d : DenialRecord) (s : State) : (offerRecord d s).responseTimeout = s.responseTimeout :=
  (congrArg State.responseTimeout (offerRecord_frame d s) :)
@[simp] theorem offerRecord_map (d : DenialRecord) (s : State) : (offerRecord d s).map = s.map :=
  (congrArg State.map (offerRecord_frame d s) :)
@[simp] theorem offerRecord_defaultTarget (d : DenialRecord) (s : State) : (offerRecord d s).defaultTarget = s.defaultTarget :=
  (congrArg State.defaultTarget (offerRecord_frame d s) :)
@[simp] theorem offerRecord_bypassPriority (d : DenialRecord) (s : State) : (offerRecord d s).bypassPriority = s.bypassPriority :=
  (congrArg State.bypassPriority (offerRecord_frame d s) :)
@[simp] theorem offerRecord_regs (d : DenialRecord) (s : State) : (offerRecord d s).regs = s.regs :=
  (congrArg State.regs (offerRecord_frame d s) :)
@[simp] theorem offerRecord_prescale (d : DenialRecord) (s : State) : (offerRecord d s).prescale = s.prescale :=
  (congrArg State.prescale (offerRecord_frame d s) :)
@[simp] theorem offerRecord_interval (d : DenialRecord) (s : State) : (offerRecord d s).interval = s.interval :=
  (congrArg State.interval (offerRecord_frame d s) :)
@[simp] theorem offerRecord_divider (d : DenialRecord) (s : State) : (offerRecord d s).divider = s.divider :=
  (congrArg State.divider (offerRecord_frame d s) :)
@[simp] theorem offerRecord_timebase (d : DenialRecord) (s : State) : (offerRecord d s).timebase = s.timebase :=
  (congrArg State.timebase (offerRecord_frame d s) :)
@[simp] theorem offerRecord_windowEndDue (d : DenialRecord) (s : State) : (offerRecord d s).windowEndDue = s.windowEndDue :=
  (congrArg State.windowEndDue (offerRecord_frame d s) :)
@[simp] theorem offerRecord_expiryDue (d : DenialRecord) (s : State) : (offerRecord d s).expiryDue = s.expiryDue :=
  (congrArg State.expiryDue (offerRecord_frame d s) :)
@[simp] theorem offerRecord_markers (d : DenialRecord) (s : State) : (offerRecord d s).markers = s.markers :=
  (congrArg State.markers (offerRecord_frame d s) :)
@[simp] theorem offerRecord_deviceMask (d : DenialRecord) (s : State) : (offerRecord d s).deviceMask = s.deviceMask :=
  (congrArg State.deviceMask (offerRecord_frame d s) :)
@[simp] theorem offerRecord_port (d : DenialRecord) (s : State) : (offerRecord d s).port = s.port :=
  (congrArg State.port (offerRecord_frame d s) :)
@[simp] theorem offerRecord_pending (d : DenialRecord) (s : State) : (offerRecord d s).pending = s.pending :=
  (congrArg State.pending (offerRecord_frame d s) :)

theorem attributeDenial_frame (t : Target) (s : State) :
    attributeDenial t s =
      { s with regs := (attributeDenial t s).regs, markers := (attributeDenial t s).markers } := by
  unfold attributeDenial
  split
  · split <;> rfl
  · rfl

@[simp] theorem attributeDenial_por (t : Target) (s : State) : (attributeDenial t s).por = s.por :=
  (congrArg State.por (attributeDenial_frame t s) :)
@[simp] theorem attributeDenial_prst (t : Target) (s : State) : (attributeDenial t s).prst = s.prst :=
  (congrArg State.prst (attributeDenial_frame t s) :)
@[simp] theorem attributeDenial_sel (t : Target) (s : State) : (attributeDenial t s).sel = s.sel :=
  (congrArg State.sel (attributeDenial_frame t s) :)
@[simp] theorem attributeDenial_syn (t : Target) (s : State) : (attributeDenial t s).syn = s.syn :=
  (congrArg State.syn (attributeDenial_frame t s) :)
@[simp] theorem attributeDenial_offer (t : Target) (s : State) : (attributeDenial t s).offer = s.offer :=
  (congrArg State.offer (attributeDenial_frame t s) :)
@[simp] theorem attributeDenial_held (t : Target) (s : State) : (attributeDenial t s).held = s.held :=
  (congrArg State.held (attributeDenial_frame t s) :)
@[simp] theorem attributeDenial_memoryOffer (t : Target) (s : State) : (attributeDenial t s).memoryOffer = s.memoryOffer :=
  (congrArg State.memoryOffer (attributeDenial_frame t s) :)
@[simp] theorem attributeDenial_responses (t : Target) (s : State) : (attributeDenial t s).responses = s.responses :=
  (congrArg State.responses (attributeDenial_frame t s) :)
@[simp] theorem attributeDenial_owed (t : Target) (s : State) : (attributeDenial t s).owed = s.owed :=
  (congrArg State.owed (attributeDenial_frame t s) :)
@[simp] theorem attributeDenial_pool (t : Target) (s : State) : (attributeDenial t s).pool = s.pool :=
  (congrArg State.pool (attributeDenial_frame t s) :)
@[simp] theorem attributeDenial_tracker (t : Target) (s : State) : (attributeDenial t s).tracker = s.tracker :=
  (congrArg State.tracker (attributeDenial_frame t s) :)
@[simp] theorem attributeDenial_nextPlace (t : Target) (s : State) : (attributeDenial t s).nextPlace = s.nextPlace :=
  (congrArg State.nextPlace (attributeDenial_frame t s) :)
@[simp] theorem attributeDenial_outstanding (t : Target) (s : State) : (attributeDenial t s).outstanding = s.outstanding :=
  (congrArg State.outstanding (attributeDenial_frame t s) :)
@[simp] theorem attributeDenial_responseTimeout (t : Target) (s : State) : (attributeDenial t s).responseTimeout = s.responseTimeout :=
  (congrArg State.responseTimeout (attributeDenial_frame t s) :)
@[simp] theorem attributeDenial_map (t : Target) (s : State) : (attributeDenial t s).map = s.map :=
  (congrArg State.map (attributeDenial_frame t s) :)
@[simp] theorem attributeDenial_defaultTarget (t : Target) (s : State) : (attributeDenial t s).defaultTarget = s.defaultTarget :=
  (congrArg State.defaultTarget (attributeDenial_frame t s) :)
@[simp] theorem attributeDenial_bypassPriority (t : Target) (s : State) : (attributeDenial t s).bypassPriority = s.bypassPriority :=
  (congrArg State.bypassPriority (attributeDenial_frame t s) :)
@[simp] theorem attributeDenial_prescale (t : Target) (s : State) : (attributeDenial t s).prescale = s.prescale :=
  (congrArg State.prescale (attributeDenial_frame t s) :)
@[simp] theorem attributeDenial_interval (t : Target) (s : State) : (attributeDenial t s).interval = s.interval :=
  (congrArg State.interval (attributeDenial_frame t s) :)
@[simp] theorem attributeDenial_divider (t : Target) (s : State) : (attributeDenial t s).divider = s.divider :=
  (congrArg State.divider (attributeDenial_frame t s) :)
@[simp] theorem attributeDenial_timebase (t : Target) (s : State) : (attributeDenial t s).timebase = s.timebase :=
  (congrArg State.timebase (attributeDenial_frame t s) :)
@[simp] theorem attributeDenial_windowEndDue (t : Target) (s : State) : (attributeDenial t s).windowEndDue = s.windowEndDue :=
  (congrArg State.windowEndDue (attributeDenial_frame t s) :)
@[simp] theorem attributeDenial_expiryDue (t : Target) (s : State) : (attributeDenial t s).expiryDue = s.expiryDue :=
  (congrArg State.expiryDue (attributeDenial_frame t s) :)
@[simp] theorem attributeDenial_deviceCauses (t : Target) (s : State) : (attributeDenial t s).deviceCauses = s.deviceCauses :=
  (congrArg State.deviceCauses (attributeDenial_frame t s) :)
@[simp] theorem attributeDenial_deviceMask (t : Target) (s : State) : (attributeDenial t s).deviceMask = s.deviceMask :=
  (congrArg State.deviceMask (attributeDenial_frame t s) :)
@[simp] theorem attributeDenial_denials (t : Target) (s : State) : (attributeDenial t s).denials = s.denials :=
  (congrArg State.denials (attributeDenial_frame t s) :)
@[simp] theorem attributeDenial_port (t : Target) (s : State) : (attributeDenial t s).port = s.port :=
  (congrArg State.port (attributeDenial_frame t s) :)
@[simp] theorem attributeDenial_pending (t : Target) (s : State) : (attributeDenial t s).pending = s.pending :=
  (congrArg State.pending (attributeDenial_frame t s) :)

theorem deny_frame (q : Request) (reason : DenyReason) (t : Target) (s : State) :
    deny q reason t s =
      { s with responses := (deny q reason t s).responses, denials := (deny q reason t s).denials, deviceCauses := (deny q reason t s).deviceCauses, regs := (deny q reason t s).regs, markers := (deny q reason t s).markers } := by
  unfold deny
  rw [attributeDenial_frame, offerRecord_frame]
  rfl

@[simp] theorem deny_por (q : Request) (reason : DenyReason) (t : Target) (s : State) : (deny q reason t s).por = s.por :=
  (congrArg State.por (deny_frame q reason t s) :)
@[simp] theorem deny_prst (q : Request) (reason : DenyReason) (t : Target) (s : State) : (deny q reason t s).prst = s.prst :=
  (congrArg State.prst (deny_frame q reason t s) :)
@[simp] theorem deny_sel (q : Request) (reason : DenyReason) (t : Target) (s : State) : (deny q reason t s).sel = s.sel :=
  (congrArg State.sel (deny_frame q reason t s) :)
@[simp] theorem deny_syn (q : Request) (reason : DenyReason) (t : Target) (s : State) : (deny q reason t s).syn = s.syn :=
  (congrArg State.syn (deny_frame q reason t s) :)
@[simp] theorem deny_offer (q : Request) (reason : DenyReason) (t : Target) (s : State) : (deny q reason t s).offer = s.offer :=
  (congrArg State.offer (deny_frame q reason t s) :)
@[simp] theorem deny_held (q : Request) (reason : DenyReason) (t : Target) (s : State) : (deny q reason t s).held = s.held :=
  (congrArg State.held (deny_frame q reason t s) :)
@[simp] theorem deny_memoryOffer (q : Request) (reason : DenyReason) (t : Target) (s : State) : (deny q reason t s).memoryOffer = s.memoryOffer :=
  (congrArg State.memoryOffer (deny_frame q reason t s) :)
@[simp] theorem deny_owed (q : Request) (reason : DenyReason) (t : Target) (s : State) : (deny q reason t s).owed = s.owed :=
  (congrArg State.owed (deny_frame q reason t s) :)
@[simp] theorem deny_pool (q : Request) (reason : DenyReason) (t : Target) (s : State) : (deny q reason t s).pool = s.pool :=
  (congrArg State.pool (deny_frame q reason t s) :)
@[simp] theorem deny_tracker (q : Request) (reason : DenyReason) (t : Target) (s : State) : (deny q reason t s).tracker = s.tracker :=
  (congrArg State.tracker (deny_frame q reason t s) :)
@[simp] theorem deny_nextPlace (q : Request) (reason : DenyReason) (t : Target) (s : State) : (deny q reason t s).nextPlace = s.nextPlace :=
  (congrArg State.nextPlace (deny_frame q reason t s) :)
@[simp] theorem deny_outstanding (q : Request) (reason : DenyReason) (t : Target) (s : State) : (deny q reason t s).outstanding = s.outstanding :=
  (congrArg State.outstanding (deny_frame q reason t s) :)
@[simp] theorem deny_responseTimeout (q : Request) (reason : DenyReason) (t : Target) (s : State) : (deny q reason t s).responseTimeout = s.responseTimeout :=
  (congrArg State.responseTimeout (deny_frame q reason t s) :)
@[simp] theorem deny_map (q : Request) (reason : DenyReason) (t : Target) (s : State) : (deny q reason t s).map = s.map :=
  (congrArg State.map (deny_frame q reason t s) :)
@[simp] theorem deny_defaultTarget (q : Request) (reason : DenyReason) (t : Target) (s : State) : (deny q reason t s).defaultTarget = s.defaultTarget :=
  (congrArg State.defaultTarget (deny_frame q reason t s) :)
@[simp] theorem deny_bypassPriority (q : Request) (reason : DenyReason) (t : Target) (s : State) : (deny q reason t s).bypassPriority = s.bypassPriority :=
  (congrArg State.bypassPriority (deny_frame q reason t s) :)
@[simp] theorem deny_prescale (q : Request) (reason : DenyReason) (t : Target) (s : State) : (deny q reason t s).prescale = s.prescale :=
  (congrArg State.prescale (deny_frame q reason t s) :)
@[simp] theorem deny_interval (q : Request) (reason : DenyReason) (t : Target) (s : State) : (deny q reason t s).interval = s.interval :=
  (congrArg State.interval (deny_frame q reason t s) :)
@[simp] theorem deny_divider (q : Request) (reason : DenyReason) (t : Target) (s : State) : (deny q reason t s).divider = s.divider :=
  (congrArg State.divider (deny_frame q reason t s) :)
@[simp] theorem deny_timebase (q : Request) (reason : DenyReason) (t : Target) (s : State) : (deny q reason t s).timebase = s.timebase :=
  (congrArg State.timebase (deny_frame q reason t s) :)
@[simp] theorem deny_windowEndDue (q : Request) (reason : DenyReason) (t : Target) (s : State) : (deny q reason t s).windowEndDue = s.windowEndDue :=
  (congrArg State.windowEndDue (deny_frame q reason t s) :)
@[simp] theorem deny_expiryDue (q : Request) (reason : DenyReason) (t : Target) (s : State) : (deny q reason t s).expiryDue = s.expiryDue :=
  (congrArg State.expiryDue (deny_frame q reason t s) :)
@[simp] theorem deny_deviceMask (q : Request) (reason : DenyReason) (t : Target) (s : State) : (deny q reason t s).deviceMask = s.deviceMask :=
  (congrArg State.deviceMask (deny_frame q reason t s) :)
@[simp] theorem deny_port (q : Request) (reason : DenyReason) (t : Target) (s : State) : (deny q reason t s).port = s.port :=
  (congrArg State.port (deny_frame q reason t s) :)
@[simp] theorem deny_pending (q : Request) (reason : DenyReason) (t : Target) (s : State) : (deny q reason t s).pending = s.pending :=
  (congrArg State.pending (deny_frame q reason t s) :)

theorem enableReg_frame (r : RegNo) (s : State) :
    enableReg r s =
      { s with regs := (enableReg r s).regs, markers := (enableReg r s).markers } := by
  unfold enableReg
  split <;> rfl


theorem startReg_frame (r : RegNo) (s : State) :
    startReg r s =
      { s with regs := (startReg r s).regs, markers := (startReg r s).markers } := by
  unfold startReg
  split <;> rfl


theorem haltReg_frame (r : RegNo) (s : State) :
    haltReg r s =
      { s with regs := (haltReg r s).regs, markers := (haltReg r s).markers } := by
  unfold haltReg
  split <;> rfl


theorem restartReg_frame (r : RegNo) (s : State) :
    restartReg r s =
      { s with regs := (restartReg r s).regs, markers := (restartReg r s).markers } := by
  unfold restartReg
  split
  · exact regulatorEvent_frame ..
  · rfl


theorem sampleReg_frame (r : RegNo) (s : State) :
    sampleReg r s =
      { s with regs := (sampleReg r s).regs, markers := (sampleReg r s).markers } := by
  unfold sampleReg
  split
  · rfl
  · exact regulatorEvent_frame ..


theorem exchangeReg_frame (r : RegNo) (s : State) :
    exchangeReg r s =
      { s with regs := (exchangeReg r s).regs, markers := (exchangeReg r s).markers } := by
  unfold exchangeReg
  split
  · rfl
  · exact regulatorEvent_frame ..


theorem disableReg_frame (r : RegNo) (s : State) :
    disableReg r s =
      { s with pool := (disableReg r s).pool, outstanding := (disableReg r s).outstanding, regs := (disableReg r s).regs, markers := (disableReg r s).markers } := by
  unfold disableReg
  split <;> rfl


theorem act_frame (k : CommandKind) (r : RegNo) (s : State) :
    act k r s =
      { s with pool := (act k r s).pool, outstanding := (act k r s).outstanding, regs := (act k r s).regs, markers := (act k r s).markers } := by
  cases k <;> unfold act <;> dsimp only
  · rw [enableReg_frame]
  · exact disableReg_frame r s
  · rw [startReg_frame]
  · rw [haltReg_frame]
  · rw [restartReg_frame]
  · rw [sampleReg_frame]
  · rw [exchangeReg_frame]

@[simp] theorem act_por (k : CommandKind) (r : RegNo) (s : State) : (act k r s).por = s.por :=
  (congrArg State.por (act_frame k r s) :)
@[simp] theorem act_prst (k : CommandKind) (r : RegNo) (s : State) : (act k r s).prst = s.prst :=
  (congrArg State.prst (act_frame k r s) :)
@[simp] theorem act_sel (k : CommandKind) (r : RegNo) (s : State) : (act k r s).sel = s.sel :=
  (congrArg State.sel (act_frame k r s) :)
@[simp] theorem act_syn (k : CommandKind) (r : RegNo) (s : State) : (act k r s).syn = s.syn :=
  (congrArg State.syn (act_frame k r s) :)
@[simp] theorem act_offer (k : CommandKind) (r : RegNo) (s : State) : (act k r s).offer = s.offer :=
  (congrArg State.offer (act_frame k r s) :)
@[simp] theorem act_held (k : CommandKind) (r : RegNo) (s : State) : (act k r s).held = s.held :=
  (congrArg State.held (act_frame k r s) :)
@[simp] theorem act_memoryOffer (k : CommandKind) (r : RegNo) (s : State) : (act k r s).memoryOffer = s.memoryOffer :=
  (congrArg State.memoryOffer (act_frame k r s) :)
@[simp] theorem act_responses (k : CommandKind) (r : RegNo) (s : State) : (act k r s).responses = s.responses :=
  (congrArg State.responses (act_frame k r s) :)
@[simp] theorem act_owed (k : CommandKind) (r : RegNo) (s : State) : (act k r s).owed = s.owed :=
  (congrArg State.owed (act_frame k r s) :)
@[simp] theorem act_tracker (k : CommandKind) (r : RegNo) (s : State) : (act k r s).tracker = s.tracker :=
  (congrArg State.tracker (act_frame k r s) :)
@[simp] theorem act_nextPlace (k : CommandKind) (r : RegNo) (s : State) : (act k r s).nextPlace = s.nextPlace :=
  (congrArg State.nextPlace (act_frame k r s) :)
@[simp] theorem act_responseTimeout (k : CommandKind) (r : RegNo) (s : State) : (act k r s).responseTimeout = s.responseTimeout :=
  (congrArg State.responseTimeout (act_frame k r s) :)
@[simp] theorem act_map (k : CommandKind) (r : RegNo) (s : State) : (act k r s).map = s.map :=
  (congrArg State.map (act_frame k r s) :)
@[simp] theorem act_defaultTarget (k : CommandKind) (r : RegNo) (s : State) : (act k r s).defaultTarget = s.defaultTarget :=
  (congrArg State.defaultTarget (act_frame k r s) :)
@[simp] theorem act_bypassPriority (k : CommandKind) (r : RegNo) (s : State) : (act k r s).bypassPriority = s.bypassPriority :=
  (congrArg State.bypassPriority (act_frame k r s) :)
@[simp] theorem act_prescale (k : CommandKind) (r : RegNo) (s : State) : (act k r s).prescale = s.prescale :=
  (congrArg State.prescale (act_frame k r s) :)
@[simp] theorem act_interval (k : CommandKind) (r : RegNo) (s : State) : (act k r s).interval = s.interval :=
  (congrArg State.interval (act_frame k r s) :)
@[simp] theorem act_divider (k : CommandKind) (r : RegNo) (s : State) : (act k r s).divider = s.divider :=
  (congrArg State.divider (act_frame k r s) :)
@[simp] theorem act_timebase (k : CommandKind) (r : RegNo) (s : State) : (act k r s).timebase = s.timebase :=
  (congrArg State.timebase (act_frame k r s) :)
@[simp] theorem act_windowEndDue (k : CommandKind) (r : RegNo) (s : State) : (act k r s).windowEndDue = s.windowEndDue :=
  (congrArg State.windowEndDue (act_frame k r s) :)
@[simp] theorem act_expiryDue (k : CommandKind) (r : RegNo) (s : State) : (act k r s).expiryDue = s.expiryDue :=
  (congrArg State.expiryDue (act_frame k r s) :)
@[simp] theorem act_deviceCauses (k : CommandKind) (r : RegNo) (s : State) : (act k r s).deviceCauses = s.deviceCauses :=
  (congrArg State.deviceCauses (act_frame k r s) :)
@[simp] theorem act_deviceMask (k : CommandKind) (r : RegNo) (s : State) : (act k r s).deviceMask = s.deviceMask :=
  (congrArg State.deviceMask (act_frame k r s) :)
@[simp] theorem act_denials (k : CommandKind) (r : RegNo) (s : State) : (act k r s).denials = s.denials :=
  (congrArg State.denials (act_frame k r s) :)
@[simp] theorem act_port (k : CommandKind) (r : RegNo) (s : State) : (act k r s).port = s.port :=
  (congrArg State.port (act_frame k r s) :)
@[simp] theorem act_pending (k : CommandKind) (r : RegNo) (s : State) : (act k r s).pending = s.pending :=
  (congrArg State.pending (act_frame k r s) :)

theorem actAll_frame (k : CommandKind) (mask : BitVec 16) (s : State) :
    actAll k mask s =
      { s with pool := (actAll k mask s).pool, outstanding := (actAll k mask s).outstanding, regs := (actAll k mask s).regs, markers := (actAll k mask s).markers } := by
  unfold actAll
  generalize List.finRange 16 = l
  induction l generalizing s with
  | nil => rfl
  | cons r rest ih =>
    rw [List.foldl_cons]
    split
    · rw [ih, act_frame]
    · rw [ih]

@[simp] theorem actAll_por (k : CommandKind) (mask : BitVec 16) (s : State) : (actAll k mask s).por = s.por :=
  (congrArg State.por (actAll_frame k mask s) :)
@[simp] theorem actAll_prst (k : CommandKind) (mask : BitVec 16) (s : State) : (actAll k mask s).prst = s.prst :=
  (congrArg State.prst (actAll_frame k mask s) :)
@[simp] theorem actAll_sel (k : CommandKind) (mask : BitVec 16) (s : State) : (actAll k mask s).sel = s.sel :=
  (congrArg State.sel (actAll_frame k mask s) :)
@[simp] theorem actAll_syn (k : CommandKind) (mask : BitVec 16) (s : State) : (actAll k mask s).syn = s.syn :=
  (congrArg State.syn (actAll_frame k mask s) :)
@[simp] theorem actAll_offer (k : CommandKind) (mask : BitVec 16) (s : State) : (actAll k mask s).offer = s.offer :=
  (congrArg State.offer (actAll_frame k mask s) :)
@[simp] theorem actAll_held (k : CommandKind) (mask : BitVec 16) (s : State) : (actAll k mask s).held = s.held :=
  (congrArg State.held (actAll_frame k mask s) :)
@[simp] theorem actAll_memoryOffer (k : CommandKind) (mask : BitVec 16) (s : State) : (actAll k mask s).memoryOffer = s.memoryOffer :=
  (congrArg State.memoryOffer (actAll_frame k mask s) :)
@[simp] theorem actAll_responses (k : CommandKind) (mask : BitVec 16) (s : State) : (actAll k mask s).responses = s.responses :=
  (congrArg State.responses (actAll_frame k mask s) :)
@[simp] theorem actAll_owed (k : CommandKind) (mask : BitVec 16) (s : State) : (actAll k mask s).owed = s.owed :=
  (congrArg State.owed (actAll_frame k mask s) :)
@[simp] theorem actAll_tracker (k : CommandKind) (mask : BitVec 16) (s : State) : (actAll k mask s).tracker = s.tracker :=
  (congrArg State.tracker (actAll_frame k mask s) :)
@[simp] theorem actAll_nextPlace (k : CommandKind) (mask : BitVec 16) (s : State) : (actAll k mask s).nextPlace = s.nextPlace :=
  (congrArg State.nextPlace (actAll_frame k mask s) :)
@[simp] theorem actAll_responseTimeout (k : CommandKind) (mask : BitVec 16) (s : State) : (actAll k mask s).responseTimeout = s.responseTimeout :=
  (congrArg State.responseTimeout (actAll_frame k mask s) :)
@[simp] theorem actAll_map (k : CommandKind) (mask : BitVec 16) (s : State) : (actAll k mask s).map = s.map :=
  (congrArg State.map (actAll_frame k mask s) :)
@[simp] theorem actAll_defaultTarget (k : CommandKind) (mask : BitVec 16) (s : State) : (actAll k mask s).defaultTarget = s.defaultTarget :=
  (congrArg State.defaultTarget (actAll_frame k mask s) :)
@[simp] theorem actAll_bypassPriority (k : CommandKind) (mask : BitVec 16) (s : State) : (actAll k mask s).bypassPriority = s.bypassPriority :=
  (congrArg State.bypassPriority (actAll_frame k mask s) :)
@[simp] theorem actAll_prescale (k : CommandKind) (mask : BitVec 16) (s : State) : (actAll k mask s).prescale = s.prescale :=
  (congrArg State.prescale (actAll_frame k mask s) :)
@[simp] theorem actAll_interval (k : CommandKind) (mask : BitVec 16) (s : State) : (actAll k mask s).interval = s.interval :=
  (congrArg State.interval (actAll_frame k mask s) :)
@[simp] theorem actAll_divider (k : CommandKind) (mask : BitVec 16) (s : State) : (actAll k mask s).divider = s.divider :=
  (congrArg State.divider (actAll_frame k mask s) :)
@[simp] theorem actAll_timebase (k : CommandKind) (mask : BitVec 16) (s : State) : (actAll k mask s).timebase = s.timebase :=
  (congrArg State.timebase (actAll_frame k mask s) :)
@[simp] theorem actAll_windowEndDue (k : CommandKind) (mask : BitVec 16) (s : State) : (actAll k mask s).windowEndDue = s.windowEndDue :=
  (congrArg State.windowEndDue (actAll_frame k mask s) :)
@[simp] theorem actAll_expiryDue (k : CommandKind) (mask : BitVec 16) (s : State) : (actAll k mask s).expiryDue = s.expiryDue :=
  (congrArg State.expiryDue (actAll_frame k mask s) :)
@[simp] theorem actAll_deviceCauses (k : CommandKind) (mask : BitVec 16) (s : State) : (actAll k mask s).deviceCauses = s.deviceCauses :=
  (congrArg State.deviceCauses (actAll_frame k mask s) :)
@[simp] theorem actAll_deviceMask (k : CommandKind) (mask : BitVec 16) (s : State) : (actAll k mask s).deviceMask = s.deviceMask :=
  (congrArg State.deviceMask (actAll_frame k mask s) :)
@[simp] theorem actAll_denials (k : CommandKind) (mask : BitVec 16) (s : State) : (actAll k mask s).denials = s.denials :=
  (congrArg State.denials (actAll_frame k mask s) :)
@[simp] theorem actAll_port (k : CommandKind) (mask : BitVec 16) (s : State) : (actAll k mask s).port = s.port :=
  (congrArg State.port (actAll_frame k mask s) :)
@[simp] theorem actAll_pending (k : CommandKind) (mask : BitVec 16) (s : State) : (actAll k mask s).pending = s.pending :=
  (congrArg State.pending (actAll_frame k mask s) :)

theorem toggleReg_frame (r : RegNo) (s : State) :
    toggleReg r s =
      { s with regs := (toggleReg r s).regs, markers := (toggleReg r s).markers } := by
  unfold toggleReg
  split
  · exact haltReg_frame r s
  · exact startReg_frame r s


theorem startHaltStep_frame (a b : Bool) (r : RegNo) (s : State) :
    startHaltStep a b r s =
      { s with regs := (startHaltStep a b r s).regs, markers := (startHaltStep a b r s).markers } := by
  unfold startHaltStep
  split
  · exact toggleReg_frame r s
  · exact startReg_frame r s
  · exact haltReg_frame r s
  · rfl


theorem edgeAtReg_frame (line : Fin 4) (rising : Bool) (r : RegNo) (s : State) :
    edgeAtReg line rising r s =
      { s with regs := (edgeAtReg line rising r s).regs, markers := (edgeAtReg line rising r s).markers } := by
  have h1 : ∀ (b : Bool) (t : State), (if b then sampleReg r t else t) =
      { t with regs := (if b then sampleReg r t else t).regs, markers := (if b then sampleReg r t else t).markers } := by
    intro b t; split
    · exact sampleReg_frame r t
    · rfl
  have h3 : ∀ (b : Bool) (t : State), (if b then restartReg r t else t) =
      { t with regs := (if b then restartReg r t else t).regs, markers := (if b then restartReg r t else t).markers } := by
    intro b t; split
    · exact restartReg_frame r t
    · rfl
  have h4 : ∀ (b : Bool) (t : State), (if b then exchangeReg r t else t) =
      { t with regs := (if b then exchangeReg r t else t).regs,
               markers := (if b then exchangeReg r t else t).markers } := by
    intro b t; split
    · exact exchangeReg_frame r t
    · rfl
  unfold edgeAtReg
  dsimp only
  rw [h4, h3, startHaltStep_frame, h1]


theorem edgeAll_frame (line : Fin 4) (rising : Bool) (s : State) :
    edgeAll line rising s =
      { s with regs := (edgeAll line rising s).regs, markers := (edgeAll line rising s).markers } := by
  unfold edgeAll
  generalize List.finRange 16 = l
  induction l generalizing s with
  | nil => rfl
  | cons r rest ih => rw [List.foldl_cons, ih, edgeAtReg_frame]

@[simp] theorem edgeAll_por (line : Fin 4) (rising : Bool) (s : State) : (edgeAll line rising s).por = s.por :=
  (congrArg State.por (edgeAll_frame line rising s) :)
@[simp] theorem edgeAll_prst (line : Fin 4) (rising : Bool) (s : State) : (edgeAll line rising s).prst = s.prst :=
  (congrArg State.prst (edgeAll_frame line rising s) :)
@[simp] theorem edgeAll_sel (line : Fin 4) (rising : Bool) (s : State) : (edgeAll line rising s).sel = s.sel :=
  (congrArg State.sel (edgeAll_frame line rising s) :)
@[simp] theorem edgeAll_syn (line : Fin 4) (rising : Bool) (s : State) : (edgeAll line rising s).syn = s.syn :=
  (congrArg State.syn (edgeAll_frame line rising s) :)
@[simp] theorem edgeAll_offer (line : Fin 4) (rising : Bool) (s : State) : (edgeAll line rising s).offer = s.offer :=
  (congrArg State.offer (edgeAll_frame line rising s) :)
@[simp] theorem edgeAll_held (line : Fin 4) (rising : Bool) (s : State) : (edgeAll line rising s).held = s.held :=
  (congrArg State.held (edgeAll_frame line rising s) :)
@[simp] theorem edgeAll_memoryOffer (line : Fin 4) (rising : Bool) (s : State) : (edgeAll line rising s).memoryOffer = s.memoryOffer :=
  (congrArg State.memoryOffer (edgeAll_frame line rising s) :)
@[simp] theorem edgeAll_responses (line : Fin 4) (rising : Bool) (s : State) : (edgeAll line rising s).responses = s.responses :=
  (congrArg State.responses (edgeAll_frame line rising s) :)
@[simp] theorem edgeAll_owed (line : Fin 4) (rising : Bool) (s : State) : (edgeAll line rising s).owed = s.owed :=
  (congrArg State.owed (edgeAll_frame line rising s) :)
@[simp] theorem edgeAll_pool (line : Fin 4) (rising : Bool) (s : State) : (edgeAll line rising s).pool = s.pool :=
  (congrArg State.pool (edgeAll_frame line rising s) :)
@[simp] theorem edgeAll_tracker (line : Fin 4) (rising : Bool) (s : State) : (edgeAll line rising s).tracker = s.tracker :=
  (congrArg State.tracker (edgeAll_frame line rising s) :)
@[simp] theorem edgeAll_nextPlace (line : Fin 4) (rising : Bool) (s : State) : (edgeAll line rising s).nextPlace = s.nextPlace :=
  (congrArg State.nextPlace (edgeAll_frame line rising s) :)
@[simp] theorem edgeAll_outstanding (line : Fin 4) (rising : Bool) (s : State) : (edgeAll line rising s).outstanding = s.outstanding :=
  (congrArg State.outstanding (edgeAll_frame line rising s) :)
@[simp] theorem edgeAll_responseTimeout (line : Fin 4) (rising : Bool) (s : State) : (edgeAll line rising s).responseTimeout = s.responseTimeout :=
  (congrArg State.responseTimeout (edgeAll_frame line rising s) :)
@[simp] theorem edgeAll_map (line : Fin 4) (rising : Bool) (s : State) : (edgeAll line rising s).map = s.map :=
  (congrArg State.map (edgeAll_frame line rising s) :)
@[simp] theorem edgeAll_defaultTarget (line : Fin 4) (rising : Bool) (s : State) : (edgeAll line rising s).defaultTarget = s.defaultTarget :=
  (congrArg State.defaultTarget (edgeAll_frame line rising s) :)
@[simp] theorem edgeAll_bypassPriority (line : Fin 4) (rising : Bool) (s : State) : (edgeAll line rising s).bypassPriority = s.bypassPriority :=
  (congrArg State.bypassPriority (edgeAll_frame line rising s) :)
@[simp] theorem edgeAll_prescale (line : Fin 4) (rising : Bool) (s : State) : (edgeAll line rising s).prescale = s.prescale :=
  (congrArg State.prescale (edgeAll_frame line rising s) :)
@[simp] theorem edgeAll_interval (line : Fin 4) (rising : Bool) (s : State) : (edgeAll line rising s).interval = s.interval :=
  (congrArg State.interval (edgeAll_frame line rising s) :)
@[simp] theorem edgeAll_divider (line : Fin 4) (rising : Bool) (s : State) : (edgeAll line rising s).divider = s.divider :=
  (congrArg State.divider (edgeAll_frame line rising s) :)
@[simp] theorem edgeAll_timebase (line : Fin 4) (rising : Bool) (s : State) : (edgeAll line rising s).timebase = s.timebase :=
  (congrArg State.timebase (edgeAll_frame line rising s) :)
@[simp] theorem edgeAll_windowEndDue (line : Fin 4) (rising : Bool) (s : State) : (edgeAll line rising s).windowEndDue = s.windowEndDue :=
  (congrArg State.windowEndDue (edgeAll_frame line rising s) :)
@[simp] theorem edgeAll_expiryDue (line : Fin 4) (rising : Bool) (s : State) : (edgeAll line rising s).expiryDue = s.expiryDue :=
  (congrArg State.expiryDue (edgeAll_frame line rising s) :)
@[simp] theorem edgeAll_deviceCauses (line : Fin 4) (rising : Bool) (s : State) : (edgeAll line rising s).deviceCauses = s.deviceCauses :=
  (congrArg State.deviceCauses (edgeAll_frame line rising s) :)
@[simp] theorem edgeAll_deviceMask (line : Fin 4) (rising : Bool) (s : State) : (edgeAll line rising s).deviceMask = s.deviceMask :=
  (congrArg State.deviceMask (edgeAll_frame line rising s) :)
@[simp] theorem edgeAll_denials (line : Fin 4) (rising : Bool) (s : State) : (edgeAll line rising s).denials = s.denials :=
  (congrArg State.denials (edgeAll_frame line rising s) :)
@[simp] theorem edgeAll_port (line : Fin 4) (rising : Bool) (s : State) : (edgeAll line rising s).port = s.port :=
  (congrArg State.port (edgeAll_frame line rising s) :)
@[simp] theorem edgeAll_pending (line : Fin 4) (rising : Bool) (s : State) : (edgeAll line rising s).pending = s.pending :=
  (congrArg State.pending (edgeAll_frame line rising s) :)

theorem chargeLane_frame (l : Lane) (n : Nat) (s : State) :
    chargeLane l n s =
      { s with regs := (chargeLane l n s).regs, markers := (chargeLane l n s).markers } := by
  cases l
  · exact regulatorEvent_frame ..
  · rfl

@[simp] theorem chargeLane_por (l : Lane) (n : Nat) (s : State) : (chargeLane l n s).por = s.por :=
  (congrArg State.por (chargeLane_frame l n s) :)
@[simp] theorem chargeLane_prst (l : Lane) (n : Nat) (s : State) : (chargeLane l n s).prst = s.prst :=
  (congrArg State.prst (chargeLane_frame l n s) :)
@[simp] theorem chargeLane_sel (l : Lane) (n : Nat) (s : State) : (chargeLane l n s).sel = s.sel :=
  (congrArg State.sel (chargeLane_frame l n s) :)
@[simp] theorem chargeLane_syn (l : Lane) (n : Nat) (s : State) : (chargeLane l n s).syn = s.syn :=
  (congrArg State.syn (chargeLane_frame l n s) :)
@[simp] theorem chargeLane_offer (l : Lane) (n : Nat) (s : State) : (chargeLane l n s).offer = s.offer :=
  (congrArg State.offer (chargeLane_frame l n s) :)
@[simp] theorem chargeLane_held (l : Lane) (n : Nat) (s : State) : (chargeLane l n s).held = s.held :=
  (congrArg State.held (chargeLane_frame l n s) :)
@[simp] theorem chargeLane_memoryOffer (l : Lane) (n : Nat) (s : State) : (chargeLane l n s).memoryOffer = s.memoryOffer :=
  (congrArg State.memoryOffer (chargeLane_frame l n s) :)
@[simp] theorem chargeLane_responses (l : Lane) (n : Nat) (s : State) : (chargeLane l n s).responses = s.responses :=
  (congrArg State.responses (chargeLane_frame l n s) :)
@[simp] theorem chargeLane_owed (l : Lane) (n : Nat) (s : State) : (chargeLane l n s).owed = s.owed :=
  (congrArg State.owed (chargeLane_frame l n s) :)
@[simp] theorem chargeLane_pool (l : Lane) (n : Nat) (s : State) : (chargeLane l n s).pool = s.pool :=
  (congrArg State.pool (chargeLane_frame l n s) :)
@[simp] theorem chargeLane_tracker (l : Lane) (n : Nat) (s : State) : (chargeLane l n s).tracker = s.tracker :=
  (congrArg State.tracker (chargeLane_frame l n s) :)
@[simp] theorem chargeLane_nextPlace (l : Lane) (n : Nat) (s : State) : (chargeLane l n s).nextPlace = s.nextPlace :=
  (congrArg State.nextPlace (chargeLane_frame l n s) :)
@[simp] theorem chargeLane_outstanding (l : Lane) (n : Nat) (s : State) : (chargeLane l n s).outstanding = s.outstanding :=
  (congrArg State.outstanding (chargeLane_frame l n s) :)
@[simp] theorem chargeLane_responseTimeout (l : Lane) (n : Nat) (s : State) : (chargeLane l n s).responseTimeout = s.responseTimeout :=
  (congrArg State.responseTimeout (chargeLane_frame l n s) :)
@[simp] theorem chargeLane_map (l : Lane) (n : Nat) (s : State) : (chargeLane l n s).map = s.map :=
  (congrArg State.map (chargeLane_frame l n s) :)
@[simp] theorem chargeLane_defaultTarget (l : Lane) (n : Nat) (s : State) : (chargeLane l n s).defaultTarget = s.defaultTarget :=
  (congrArg State.defaultTarget (chargeLane_frame l n s) :)
@[simp] theorem chargeLane_bypassPriority (l : Lane) (n : Nat) (s : State) : (chargeLane l n s).bypassPriority = s.bypassPriority :=
  (congrArg State.bypassPriority (chargeLane_frame l n s) :)
@[simp] theorem chargeLane_prescale (l : Lane) (n : Nat) (s : State) : (chargeLane l n s).prescale = s.prescale :=
  (congrArg State.prescale (chargeLane_frame l n s) :)
@[simp] theorem chargeLane_interval (l : Lane) (n : Nat) (s : State) : (chargeLane l n s).interval = s.interval :=
  (congrArg State.interval (chargeLane_frame l n s) :)
@[simp] theorem chargeLane_divider (l : Lane) (n : Nat) (s : State) : (chargeLane l n s).divider = s.divider :=
  (congrArg State.divider (chargeLane_frame l n s) :)
@[simp] theorem chargeLane_timebase (l : Lane) (n : Nat) (s : State) : (chargeLane l n s).timebase = s.timebase :=
  (congrArg State.timebase (chargeLane_frame l n s) :)
@[simp] theorem chargeLane_windowEndDue (l : Lane) (n : Nat) (s : State) : (chargeLane l n s).windowEndDue = s.windowEndDue :=
  (congrArg State.windowEndDue (chargeLane_frame l n s) :)
@[simp] theorem chargeLane_expiryDue (l : Lane) (n : Nat) (s : State) : (chargeLane l n s).expiryDue = s.expiryDue :=
  (congrArg State.expiryDue (chargeLane_frame l n s) :)
@[simp] theorem chargeLane_deviceCauses (l : Lane) (n : Nat) (s : State) : (chargeLane l n s).deviceCauses = s.deviceCauses :=
  (congrArg State.deviceCauses (chargeLane_frame l n s) :)
@[simp] theorem chargeLane_deviceMask (l : Lane) (n : Nat) (s : State) : (chargeLane l n s).deviceMask = s.deviceMask :=
  (congrArg State.deviceMask (chargeLane_frame l n s) :)
@[simp] theorem chargeLane_denials (l : Lane) (n : Nat) (s : State) : (chargeLane l n s).denials = s.denials :=
  (congrArg State.denials (chargeLane_frame l n s) :)
@[simp] theorem chargeLane_port (l : Lane) (n : Nat) (s : State) : (chargeLane l n s).port = s.port :=
  (congrArg State.port (chargeLane_frame l n s) :)
@[simp] theorem chargeLane_pending (l : Lane) (n : Nat) (s : State) : (chargeLane l n s).pending = s.pending :=
  (congrArg State.pending (chargeLane_frame l n s) :)

theorem release_frame (c : Option RegNo) (s : State) :
    release c s =
      { s with regs := (release c s).regs } := by
  cases c <;> rfl

@[simp] theorem release_por (c : Option RegNo) (s : State) : (release c s).por = s.por :=
  (congrArg State.por (release_frame c s) :)
@[simp] theorem release_prst (c : Option RegNo) (s : State) : (release c s).prst = s.prst :=
  (congrArg State.prst (release_frame c s) :)
@[simp] theorem release_sel (c : Option RegNo) (s : State) : (release c s).sel = s.sel :=
  (congrArg State.sel (release_frame c s) :)
@[simp] theorem release_syn (c : Option RegNo) (s : State) : (release c s).syn = s.syn :=
  (congrArg State.syn (release_frame c s) :)
@[simp] theorem release_offer (c : Option RegNo) (s : State) : (release c s).offer = s.offer :=
  (congrArg State.offer (release_frame c s) :)
@[simp] theorem release_held (c : Option RegNo) (s : State) : (release c s).held = s.held :=
  (congrArg State.held (release_frame c s) :)
@[simp] theorem release_memoryOffer (c : Option RegNo) (s : State) : (release c s).memoryOffer = s.memoryOffer :=
  (congrArg State.memoryOffer (release_frame c s) :)
@[simp] theorem release_responses (c : Option RegNo) (s : State) : (release c s).responses = s.responses :=
  (congrArg State.responses (release_frame c s) :)
@[simp] theorem release_owed (c : Option RegNo) (s : State) : (release c s).owed = s.owed :=
  (congrArg State.owed (release_frame c s) :)
@[simp] theorem release_pool (c : Option RegNo) (s : State) : (release c s).pool = s.pool :=
  (congrArg State.pool (release_frame c s) :)
@[simp] theorem release_tracker (c : Option RegNo) (s : State) : (release c s).tracker = s.tracker :=
  (congrArg State.tracker (release_frame c s) :)
@[simp] theorem release_nextPlace (c : Option RegNo) (s : State) : (release c s).nextPlace = s.nextPlace :=
  (congrArg State.nextPlace (release_frame c s) :)
@[simp] theorem release_outstanding (c : Option RegNo) (s : State) : (release c s).outstanding = s.outstanding :=
  (congrArg State.outstanding (release_frame c s) :)
@[simp] theorem release_responseTimeout (c : Option RegNo) (s : State) : (release c s).responseTimeout = s.responseTimeout :=
  (congrArg State.responseTimeout (release_frame c s) :)
@[simp] theorem release_map (c : Option RegNo) (s : State) : (release c s).map = s.map :=
  (congrArg State.map (release_frame c s) :)
@[simp] theorem release_defaultTarget (c : Option RegNo) (s : State) : (release c s).defaultTarget = s.defaultTarget :=
  (congrArg State.defaultTarget (release_frame c s) :)
@[simp] theorem release_bypassPriority (c : Option RegNo) (s : State) : (release c s).bypassPriority = s.bypassPriority :=
  (congrArg State.bypassPriority (release_frame c s) :)
@[simp] theorem release_prescale (c : Option RegNo) (s : State) : (release c s).prescale = s.prescale :=
  (congrArg State.prescale (release_frame c s) :)
@[simp] theorem release_interval (c : Option RegNo) (s : State) : (release c s).interval = s.interval :=
  (congrArg State.interval (release_frame c s) :)
@[simp] theorem release_divider (c : Option RegNo) (s : State) : (release c s).divider = s.divider :=
  (congrArg State.divider (release_frame c s) :)
@[simp] theorem release_timebase (c : Option RegNo) (s : State) : (release c s).timebase = s.timebase :=
  (congrArg State.timebase (release_frame c s) :)
@[simp] theorem release_windowEndDue (c : Option RegNo) (s : State) : (release c s).windowEndDue = s.windowEndDue :=
  (congrArg State.windowEndDue (release_frame c s) :)
@[simp] theorem release_expiryDue (c : Option RegNo) (s : State) : (release c s).expiryDue = s.expiryDue :=
  (congrArg State.expiryDue (release_frame c s) :)
@[simp] theorem release_markers (c : Option RegNo) (s : State) : (release c s).markers = s.markers :=
  (congrArg State.markers (release_frame c s) :)
@[simp] theorem release_deviceCauses (c : Option RegNo) (s : State) : (release c s).deviceCauses = s.deviceCauses :=
  (congrArg State.deviceCauses (release_frame c s) :)
@[simp] theorem release_deviceMask (c : Option RegNo) (s : State) : (release c s).deviceMask = s.deviceMask :=
  (congrArg State.deviceMask (release_frame c s) :)
@[simp] theorem release_denials (c : Option RegNo) (s : State) : (release c s).denials = s.denials :=
  (congrArg State.denials (release_frame c s) :)
@[simp] theorem release_port (c : Option RegNo) (s : State) : (release c s).port = s.port :=
  (congrArg State.port (release_frame c s) :)
@[simp] theorem release_pending (c : Option RegNo) (s : State) : (release c s).pending = s.pending :=
  (congrArg State.pending (release_frame c s) :)

theorem closeEntry_frame (i : Fin 64) (e : OutEntry) (s : State) :
    closeEntry i e s =
      { s with outstanding := (closeEntry i e s).outstanding, tracker := (closeEntry i e s).tracker, regs := (closeEntry i e s).regs } := by
  unfold closeEntry
  rw [release_frame]

@[simp] theorem closeEntry_por (i : Fin 64) (e : OutEntry) (s : State) : (closeEntry i e s).por = s.por :=
  (congrArg State.por (closeEntry_frame i e s) :)
@[simp] theorem closeEntry_prst (i : Fin 64) (e : OutEntry) (s : State) : (closeEntry i e s).prst = s.prst :=
  (congrArg State.prst (closeEntry_frame i e s) :)
@[simp] theorem closeEntry_sel (i : Fin 64) (e : OutEntry) (s : State) : (closeEntry i e s).sel = s.sel :=
  (congrArg State.sel (closeEntry_frame i e s) :)
@[simp] theorem closeEntry_syn (i : Fin 64) (e : OutEntry) (s : State) : (closeEntry i e s).syn = s.syn :=
  (congrArg State.syn (closeEntry_frame i e s) :)
@[simp] theorem closeEntry_offer (i : Fin 64) (e : OutEntry) (s : State) : (closeEntry i e s).offer = s.offer :=
  (congrArg State.offer (closeEntry_frame i e s) :)
@[simp] theorem closeEntry_held (i : Fin 64) (e : OutEntry) (s : State) : (closeEntry i e s).held = s.held :=
  (congrArg State.held (closeEntry_frame i e s) :)
@[simp] theorem closeEntry_memoryOffer (i : Fin 64) (e : OutEntry) (s : State) : (closeEntry i e s).memoryOffer = s.memoryOffer :=
  (congrArg State.memoryOffer (closeEntry_frame i e s) :)
@[simp] theorem closeEntry_responses (i : Fin 64) (e : OutEntry) (s : State) : (closeEntry i e s).responses = s.responses :=
  (congrArg State.responses (closeEntry_frame i e s) :)
@[simp] theorem closeEntry_owed (i : Fin 64) (e : OutEntry) (s : State) : (closeEntry i e s).owed = s.owed :=
  (congrArg State.owed (closeEntry_frame i e s) :)
@[simp] theorem closeEntry_pool (i : Fin 64) (e : OutEntry) (s : State) : (closeEntry i e s).pool = s.pool :=
  (congrArg State.pool (closeEntry_frame i e s) :)
@[simp] theorem closeEntry_nextPlace (i : Fin 64) (e : OutEntry) (s : State) : (closeEntry i e s).nextPlace = s.nextPlace :=
  (congrArg State.nextPlace (closeEntry_frame i e s) :)
@[simp] theorem closeEntry_responseTimeout (i : Fin 64) (e : OutEntry) (s : State) : (closeEntry i e s).responseTimeout = s.responseTimeout :=
  (congrArg State.responseTimeout (closeEntry_frame i e s) :)
@[simp] theorem closeEntry_map (i : Fin 64) (e : OutEntry) (s : State) : (closeEntry i e s).map = s.map :=
  (congrArg State.map (closeEntry_frame i e s) :)
@[simp] theorem closeEntry_defaultTarget (i : Fin 64) (e : OutEntry) (s : State) : (closeEntry i e s).defaultTarget = s.defaultTarget :=
  (congrArg State.defaultTarget (closeEntry_frame i e s) :)
@[simp] theorem closeEntry_bypassPriority (i : Fin 64) (e : OutEntry) (s : State) : (closeEntry i e s).bypassPriority = s.bypassPriority :=
  (congrArg State.bypassPriority (closeEntry_frame i e s) :)
@[simp] theorem closeEntry_prescale (i : Fin 64) (e : OutEntry) (s : State) : (closeEntry i e s).prescale = s.prescale :=
  (congrArg State.prescale (closeEntry_frame i e s) :)
@[simp] theorem closeEntry_interval (i : Fin 64) (e : OutEntry) (s : State) : (closeEntry i e s).interval = s.interval :=
  (congrArg State.interval (closeEntry_frame i e s) :)
@[simp] theorem closeEntry_divider (i : Fin 64) (e : OutEntry) (s : State) : (closeEntry i e s).divider = s.divider :=
  (congrArg State.divider (closeEntry_frame i e s) :)
@[simp] theorem closeEntry_timebase (i : Fin 64) (e : OutEntry) (s : State) : (closeEntry i e s).timebase = s.timebase :=
  (congrArg State.timebase (closeEntry_frame i e s) :)
@[simp] theorem closeEntry_windowEndDue (i : Fin 64) (e : OutEntry) (s : State) : (closeEntry i e s).windowEndDue = s.windowEndDue :=
  (congrArg State.windowEndDue (closeEntry_frame i e s) :)
@[simp] theorem closeEntry_expiryDue (i : Fin 64) (e : OutEntry) (s : State) : (closeEntry i e s).expiryDue = s.expiryDue :=
  (congrArg State.expiryDue (closeEntry_frame i e s) :)
@[simp] theorem closeEntry_markers (i : Fin 64) (e : OutEntry) (s : State) : (closeEntry i e s).markers = s.markers :=
  (congrArg State.markers (closeEntry_frame i e s) :)
@[simp] theorem closeEntry_deviceCauses (i : Fin 64) (e : OutEntry) (s : State) : (closeEntry i e s).deviceCauses = s.deviceCauses :=
  (congrArg State.deviceCauses (closeEntry_frame i e s) :)
@[simp] theorem closeEntry_deviceMask (i : Fin 64) (e : OutEntry) (s : State) : (closeEntry i e s).deviceMask = s.deviceMask :=
  (congrArg State.deviceMask (closeEntry_frame i e s) :)
@[simp] theorem closeEntry_denials (i : Fin 64) (e : OutEntry) (s : State) : (closeEntry i e s).denials = s.denials :=
  (congrArg State.denials (closeEntry_frame i e s) :)
@[simp] theorem closeEntry_port (i : Fin 64) (e : OutEntry) (s : State) : (closeEntry i e s).port = s.port :=
  (congrArg State.port (closeEntry_frame i e s) :)
@[simp] theorem closeEntry_pending (i : Fin 64) (e : OutEntry) (s : State) : (closeEntry i e s).pending = s.pending :=
  (congrArg State.pending (closeEntry_frame i e s) :)

theorem matchOffered_frame (s : State) :
    matchOffered s =
      { s with memoryOffer := (matchOffered s).memoryOffer, outstanding := (matchOffered s).outstanding, deviceCauses := (matchOffered s).deviceCauses } := by
  unfold matchOffered
  split
  · rfl
  · split
    · split
      · unfold unexpectedCause; split <;> rfl
      · split <;> rfl
    · rfl

@[simp] theorem matchOffered_por (s : State) : (matchOffered s).por = s.por :=
  (congrArg State.por (matchOffered_frame s) :)
@[simp] theorem matchOffered_prst (s : State) : (matchOffered s).prst = s.prst :=
  (congrArg State.prst (matchOffered_frame s) :)
@[simp] theorem matchOffered_sel (s : State) : (matchOffered s).sel = s.sel :=
  (congrArg State.sel (matchOffered_frame s) :)
@[simp] theorem matchOffered_syn (s : State) : (matchOffered s).syn = s.syn :=
  (congrArg State.syn (matchOffered_frame s) :)
@[simp] theorem matchOffered_offer (s : State) : (matchOffered s).offer = s.offer :=
  (congrArg State.offer (matchOffered_frame s) :)
@[simp] theorem matchOffered_held (s : State) : (matchOffered s).held = s.held :=
  (congrArg State.held (matchOffered_frame s) :)
@[simp] theorem matchOffered_responses (s : State) : (matchOffered s).responses = s.responses :=
  (congrArg State.responses (matchOffered_frame s) :)
@[simp] theorem matchOffered_owed (s : State) : (matchOffered s).owed = s.owed :=
  (congrArg State.owed (matchOffered_frame s) :)
@[simp] theorem matchOffered_pool (s : State) : (matchOffered s).pool = s.pool :=
  (congrArg State.pool (matchOffered_frame s) :)
@[simp] theorem matchOffered_tracker (s : State) : (matchOffered s).tracker = s.tracker :=
  (congrArg State.tracker (matchOffered_frame s) :)
@[simp] theorem matchOffered_nextPlace (s : State) : (matchOffered s).nextPlace = s.nextPlace :=
  (congrArg State.nextPlace (matchOffered_frame s) :)
@[simp] theorem matchOffered_responseTimeout (s : State) : (matchOffered s).responseTimeout = s.responseTimeout :=
  (congrArg State.responseTimeout (matchOffered_frame s) :)
@[simp] theorem matchOffered_map (s : State) : (matchOffered s).map = s.map :=
  (congrArg State.map (matchOffered_frame s) :)
@[simp] theorem matchOffered_defaultTarget (s : State) : (matchOffered s).defaultTarget = s.defaultTarget :=
  (congrArg State.defaultTarget (matchOffered_frame s) :)
@[simp] theorem matchOffered_bypassPriority (s : State) : (matchOffered s).bypassPriority = s.bypassPriority :=
  (congrArg State.bypassPriority (matchOffered_frame s) :)
@[simp] theorem matchOffered_regs (s : State) : (matchOffered s).regs = s.regs :=
  (congrArg State.regs (matchOffered_frame s) :)
@[simp] theorem matchOffered_prescale (s : State) : (matchOffered s).prescale = s.prescale :=
  (congrArg State.prescale (matchOffered_frame s) :)
@[simp] theorem matchOffered_interval (s : State) : (matchOffered s).interval = s.interval :=
  (congrArg State.interval (matchOffered_frame s) :)
@[simp] theorem matchOffered_divider (s : State) : (matchOffered s).divider = s.divider :=
  (congrArg State.divider (matchOffered_frame s) :)
@[simp] theorem matchOffered_timebase (s : State) : (matchOffered s).timebase = s.timebase :=
  (congrArg State.timebase (matchOffered_frame s) :)
@[simp] theorem matchOffered_windowEndDue (s : State) : (matchOffered s).windowEndDue = s.windowEndDue :=
  (congrArg State.windowEndDue (matchOffered_frame s) :)
@[simp] theorem matchOffered_expiryDue (s : State) : (matchOffered s).expiryDue = s.expiryDue :=
  (congrArg State.expiryDue (matchOffered_frame s) :)
@[simp] theorem matchOffered_markers (s : State) : (matchOffered s).markers = s.markers :=
  (congrArg State.markers (matchOffered_frame s) :)
@[simp] theorem matchOffered_deviceMask (s : State) : (matchOffered s).deviceMask = s.deviceMask :=
  (congrArg State.deviceMask (matchOffered_frame s) :)
@[simp] theorem matchOffered_denials (s : State) : (matchOffered s).denials = s.denials :=
  (congrArg State.denials (matchOffered_frame s) :)
@[simp] theorem matchOffered_port (s : State) : (matchOffered s).port = s.port :=
  (congrArg State.port (matchOffered_frame s) :)
@[simp] theorem matchOffered_pending (s : State) : (matchOffered s).pending = s.pending :=
  (congrArg State.pending (matchOffered_frame s) :)

theorem resume_frame (s : State) :
    resume s =
      { s with memoryOffer := (resume s).memoryOffer, outstanding := (resume s).outstanding, deviceCauses := (resume s).deviceCauses, offer := (resume s).offer, regs := (resume s).regs, markers := (resume s).markers } := by
  unfold resume
  rw [consider_frame, matchOffered_frame]

@[simp] theorem resume_por (s : State) : (resume s).por = s.por :=
  (congrArg State.por (resume_frame s) :)
@[simp] theorem resume_prst (s : State) : (resume s).prst = s.prst :=
  (congrArg State.prst (resume_frame s) :)
@[simp] theorem resume_sel (s : State) : (resume s).sel = s.sel :=
  (congrArg State.sel (resume_frame s) :)
@[simp] theorem resume_syn (s : State) : (resume s).syn = s.syn :=
  (congrArg State.syn (resume_frame s) :)
@[simp] theorem resume_held (s : State) : (resume s).held = s.held :=
  (congrArg State.held (resume_frame s) :)
@[simp] theorem resume_responses (s : State) : (resume s).responses = s.responses :=
  (congrArg State.responses (resume_frame s) :)
@[simp] theorem resume_owed (s : State) : (resume s).owed = s.owed :=
  (congrArg State.owed (resume_frame s) :)
@[simp] theorem resume_pool (s : State) : (resume s).pool = s.pool :=
  (congrArg State.pool (resume_frame s) :)
@[simp] theorem resume_tracker (s : State) : (resume s).tracker = s.tracker :=
  (congrArg State.tracker (resume_frame s) :)
@[simp] theorem resume_nextPlace (s : State) : (resume s).nextPlace = s.nextPlace :=
  (congrArg State.nextPlace (resume_frame s) :)
@[simp] theorem resume_responseTimeout (s : State) : (resume s).responseTimeout = s.responseTimeout :=
  (congrArg State.responseTimeout (resume_frame s) :)
@[simp] theorem resume_map (s : State) : (resume s).map = s.map :=
  (congrArg State.map (resume_frame s) :)
@[simp] theorem resume_defaultTarget (s : State) : (resume s).defaultTarget = s.defaultTarget :=
  (congrArg State.defaultTarget (resume_frame s) :)
@[simp] theorem resume_bypassPriority (s : State) : (resume s).bypassPriority = s.bypassPriority :=
  (congrArg State.bypassPriority (resume_frame s) :)
@[simp] theorem resume_prescale (s : State) : (resume s).prescale = s.prescale :=
  (congrArg State.prescale (resume_frame s) :)
@[simp] theorem resume_interval (s : State) : (resume s).interval = s.interval :=
  (congrArg State.interval (resume_frame s) :)
@[simp] theorem resume_divider (s : State) : (resume s).divider = s.divider :=
  (congrArg State.divider (resume_frame s) :)
@[simp] theorem resume_timebase (s : State) : (resume s).timebase = s.timebase :=
  (congrArg State.timebase (resume_frame s) :)
@[simp] theorem resume_windowEndDue (s : State) : (resume s).windowEndDue = s.windowEndDue :=
  (congrArg State.windowEndDue (resume_frame s) :)
@[simp] theorem resume_expiryDue (s : State) : (resume s).expiryDue = s.expiryDue :=
  (congrArg State.expiryDue (resume_frame s) :)
@[simp] theorem resume_deviceMask (s : State) : (resume s).deviceMask = s.deviceMask :=
  (congrArg State.deviceMask (resume_frame s) :)
@[simp] theorem resume_denials (s : State) : (resume s).denials = s.denials :=
  (congrArg State.denials (resume_frame s) :)
@[simp] theorem resume_port (s : State) : (resume s).port = s.port :=
  (congrArg State.port (resume_frame s) :)
@[simp] theorem resume_pending (s : State) : (resume s).pending = s.pending :=
  (congrArg State.pending (resume_frame s) :)

theorem windowEndReg_frame (r : RegNo) (s : State) :
    windowEndReg r s =
      { s with regs := (windowEndReg r s).regs, markers := (windowEndReg r s).markers } := regulatorEvent_frame ..


theorem finishWindowEnd_frame (r : RegNo) (s : State) :
    finishWindowEnd r s =
      { s with regs := (finishWindowEnd r s).regs, markers := (finishWindowEnd r s).markers, windowEndDue := (finishWindowEnd r s).windowEndDue } := by
  unfold finishWindowEnd
  split
  · rw [windowEndReg_frame]
  · rfl

@[simp] theorem finishWindowEnd_por (r : RegNo) (s : State) : (finishWindowEnd r s).por = s.por :=
  (congrArg State.por (finishWindowEnd_frame r s) :)
@[simp] theorem finishWindowEnd_prst (r : RegNo) (s : State) : (finishWindowEnd r s).prst = s.prst :=
  (congrArg State.prst (finishWindowEnd_frame r s) :)
@[simp] theorem finishWindowEnd_sel (r : RegNo) (s : State) : (finishWindowEnd r s).sel = s.sel :=
  (congrArg State.sel (finishWindowEnd_frame r s) :)
@[simp] theorem finishWindowEnd_syn (r : RegNo) (s : State) : (finishWindowEnd r s).syn = s.syn :=
  (congrArg State.syn (finishWindowEnd_frame r s) :)
@[simp] theorem finishWindowEnd_offer (r : RegNo) (s : State) : (finishWindowEnd r s).offer = s.offer :=
  (congrArg State.offer (finishWindowEnd_frame r s) :)
@[simp] theorem finishWindowEnd_held (r : RegNo) (s : State) : (finishWindowEnd r s).held = s.held :=
  (congrArg State.held (finishWindowEnd_frame r s) :)
@[simp] theorem finishWindowEnd_memoryOffer (r : RegNo) (s : State) : (finishWindowEnd r s).memoryOffer = s.memoryOffer :=
  (congrArg State.memoryOffer (finishWindowEnd_frame r s) :)
@[simp] theorem finishWindowEnd_responses (r : RegNo) (s : State) : (finishWindowEnd r s).responses = s.responses :=
  (congrArg State.responses (finishWindowEnd_frame r s) :)
@[simp] theorem finishWindowEnd_owed (r : RegNo) (s : State) : (finishWindowEnd r s).owed = s.owed :=
  (congrArg State.owed (finishWindowEnd_frame r s) :)
@[simp] theorem finishWindowEnd_pool (r : RegNo) (s : State) : (finishWindowEnd r s).pool = s.pool :=
  (congrArg State.pool (finishWindowEnd_frame r s) :)
@[simp] theorem finishWindowEnd_tracker (r : RegNo) (s : State) : (finishWindowEnd r s).tracker = s.tracker :=
  (congrArg State.tracker (finishWindowEnd_frame r s) :)
@[simp] theorem finishWindowEnd_nextPlace (r : RegNo) (s : State) : (finishWindowEnd r s).nextPlace = s.nextPlace :=
  (congrArg State.nextPlace (finishWindowEnd_frame r s) :)
@[simp] theorem finishWindowEnd_outstanding (r : RegNo) (s : State) : (finishWindowEnd r s).outstanding = s.outstanding :=
  (congrArg State.outstanding (finishWindowEnd_frame r s) :)
@[simp] theorem finishWindowEnd_responseTimeout (r : RegNo) (s : State) : (finishWindowEnd r s).responseTimeout = s.responseTimeout :=
  (congrArg State.responseTimeout (finishWindowEnd_frame r s) :)
@[simp] theorem finishWindowEnd_map (r : RegNo) (s : State) : (finishWindowEnd r s).map = s.map :=
  (congrArg State.map (finishWindowEnd_frame r s) :)
@[simp] theorem finishWindowEnd_defaultTarget (r : RegNo) (s : State) : (finishWindowEnd r s).defaultTarget = s.defaultTarget :=
  (congrArg State.defaultTarget (finishWindowEnd_frame r s) :)
@[simp] theorem finishWindowEnd_bypassPriority (r : RegNo) (s : State) : (finishWindowEnd r s).bypassPriority = s.bypassPriority :=
  (congrArg State.bypassPriority (finishWindowEnd_frame r s) :)
@[simp] theorem finishWindowEnd_prescale (r : RegNo) (s : State) : (finishWindowEnd r s).prescale = s.prescale :=
  (congrArg State.prescale (finishWindowEnd_frame r s) :)
@[simp] theorem finishWindowEnd_interval (r : RegNo) (s : State) : (finishWindowEnd r s).interval = s.interval :=
  (congrArg State.interval (finishWindowEnd_frame r s) :)
@[simp] theorem finishWindowEnd_divider (r : RegNo) (s : State) : (finishWindowEnd r s).divider = s.divider :=
  (congrArg State.divider (finishWindowEnd_frame r s) :)
@[simp] theorem finishWindowEnd_timebase (r : RegNo) (s : State) : (finishWindowEnd r s).timebase = s.timebase :=
  (congrArg State.timebase (finishWindowEnd_frame r s) :)
@[simp] theorem finishWindowEnd_expiryDue (r : RegNo) (s : State) : (finishWindowEnd r s).expiryDue = s.expiryDue :=
  (congrArg State.expiryDue (finishWindowEnd_frame r s) :)
@[simp] theorem finishWindowEnd_deviceCauses (r : RegNo) (s : State) : (finishWindowEnd r s).deviceCauses = s.deviceCauses :=
  (congrArg State.deviceCauses (finishWindowEnd_frame r s) :)
@[simp] theorem finishWindowEnd_deviceMask (r : RegNo) (s : State) : (finishWindowEnd r s).deviceMask = s.deviceMask :=
  (congrArg State.deviceMask (finishWindowEnd_frame r s) :)
@[simp] theorem finishWindowEnd_denials (r : RegNo) (s : State) : (finishWindowEnd r s).denials = s.denials :=
  (congrArg State.denials (finishWindowEnd_frame r s) :)
@[simp] theorem finishWindowEnd_port (r : RegNo) (s : State) : (finishWindowEnd r s).port = s.port :=
  (congrArg State.port (finishWindowEnd_frame r s) :)
@[simp] theorem finishWindowEnd_pending (r : RegNo) (s : State) : (finishWindowEnd r s).pending = s.pending :=
  (congrArg State.pending (finishWindowEnd_frame r s) :)

theorem abandonEntry_frame (p : Fin 64 × OutEntry) (s : State) :
    abandonEntry p s =
      { s with outstanding := (abandonEntry p s).outstanding, tracker := (abandonEntry p s).tracker, owed := (abandonEntry p s).owed, regs := (abandonEntry p s).regs } := by
  unfold abandonEntry
  rw [release_frame]

@[simp] theorem abandonEntry_por (p : Fin 64 × OutEntry) (s : State) : (abandonEntry p s).por = s.por :=
  (congrArg State.por (abandonEntry_frame p s) :)
@[simp] theorem abandonEntry_prst (p : Fin 64 × OutEntry) (s : State) : (abandonEntry p s).prst = s.prst :=
  (congrArg State.prst (abandonEntry_frame p s) :)
@[simp] theorem abandonEntry_sel (p : Fin 64 × OutEntry) (s : State) : (abandonEntry p s).sel = s.sel :=
  (congrArg State.sel (abandonEntry_frame p s) :)
@[simp] theorem abandonEntry_syn (p : Fin 64 × OutEntry) (s : State) : (abandonEntry p s).syn = s.syn :=
  (congrArg State.syn (abandonEntry_frame p s) :)
@[simp] theorem abandonEntry_offer (p : Fin 64 × OutEntry) (s : State) : (abandonEntry p s).offer = s.offer :=
  (congrArg State.offer (abandonEntry_frame p s) :)
@[simp] theorem abandonEntry_held (p : Fin 64 × OutEntry) (s : State) : (abandonEntry p s).held = s.held :=
  (congrArg State.held (abandonEntry_frame p s) :)
@[simp] theorem abandonEntry_memoryOffer (p : Fin 64 × OutEntry) (s : State) : (abandonEntry p s).memoryOffer = s.memoryOffer :=
  (congrArg State.memoryOffer (abandonEntry_frame p s) :)
@[simp] theorem abandonEntry_responses (p : Fin 64 × OutEntry) (s : State) : (abandonEntry p s).responses = s.responses :=
  (congrArg State.responses (abandonEntry_frame p s) :)
@[simp] theorem abandonEntry_pool (p : Fin 64 × OutEntry) (s : State) : (abandonEntry p s).pool = s.pool :=
  (congrArg State.pool (abandonEntry_frame p s) :)
@[simp] theorem abandonEntry_nextPlace (p : Fin 64 × OutEntry) (s : State) : (abandonEntry p s).nextPlace = s.nextPlace :=
  (congrArg State.nextPlace (abandonEntry_frame p s) :)
@[simp] theorem abandonEntry_responseTimeout (p : Fin 64 × OutEntry) (s : State) : (abandonEntry p s).responseTimeout = s.responseTimeout :=
  (congrArg State.responseTimeout (abandonEntry_frame p s) :)
@[simp] theorem abandonEntry_map (p : Fin 64 × OutEntry) (s : State) : (abandonEntry p s).map = s.map :=
  (congrArg State.map (abandonEntry_frame p s) :)
@[simp] theorem abandonEntry_defaultTarget (p : Fin 64 × OutEntry) (s : State) : (abandonEntry p s).defaultTarget = s.defaultTarget :=
  (congrArg State.defaultTarget (abandonEntry_frame p s) :)
@[simp] theorem abandonEntry_bypassPriority (p : Fin 64 × OutEntry) (s : State) : (abandonEntry p s).bypassPriority = s.bypassPriority :=
  (congrArg State.bypassPriority (abandonEntry_frame p s) :)
@[simp] theorem abandonEntry_prescale (p : Fin 64 × OutEntry) (s : State) : (abandonEntry p s).prescale = s.prescale :=
  (congrArg State.prescale (abandonEntry_frame p s) :)
@[simp] theorem abandonEntry_interval (p : Fin 64 × OutEntry) (s : State) : (abandonEntry p s).interval = s.interval :=
  (congrArg State.interval (abandonEntry_frame p s) :)
@[simp] theorem abandonEntry_divider (p : Fin 64 × OutEntry) (s : State) : (abandonEntry p s).divider = s.divider :=
  (congrArg State.divider (abandonEntry_frame p s) :)
@[simp] theorem abandonEntry_timebase (p : Fin 64 × OutEntry) (s : State) : (abandonEntry p s).timebase = s.timebase :=
  (congrArg State.timebase (abandonEntry_frame p s) :)
@[simp] theorem abandonEntry_windowEndDue (p : Fin 64 × OutEntry) (s : State) : (abandonEntry p s).windowEndDue = s.windowEndDue :=
  (congrArg State.windowEndDue (abandonEntry_frame p s) :)
@[simp] theorem abandonEntry_expiryDue (p : Fin 64 × OutEntry) (s : State) : (abandonEntry p s).expiryDue = s.expiryDue :=
  (congrArg State.expiryDue (abandonEntry_frame p s) :)
@[simp] theorem abandonEntry_markers (p : Fin 64 × OutEntry) (s : State) : (abandonEntry p s).markers = s.markers :=
  (congrArg State.markers (abandonEntry_frame p s) :)
@[simp] theorem abandonEntry_deviceCauses (p : Fin 64 × OutEntry) (s : State) : (abandonEntry p s).deviceCauses = s.deviceCauses :=
  (congrArg State.deviceCauses (abandonEntry_frame p s) :)
@[simp] theorem abandonEntry_deviceMask (p : Fin 64 × OutEntry) (s : State) : (abandonEntry p s).deviceMask = s.deviceMask :=
  (congrArg State.deviceMask (abandonEntry_frame p s) :)
@[simp] theorem abandonEntry_denials (p : Fin 64 × OutEntry) (s : State) : (abandonEntry p s).denials = s.denials :=
  (congrArg State.denials (abandonEntry_frame p s) :)
@[simp] theorem abandonEntry_port (p : Fin 64 × OutEntry) (s : State) : (abandonEntry p s).port = s.port :=
  (congrArg State.port (abandonEntry_frame p s) :)
@[simp] theorem abandonEntry_pending (p : Fin 64 × OutEntry) (s : State) : (abandonEntry p s).pending = s.pending :=
  (congrArg State.pending (abandonEntry_frame p s) :)

theorem abandonRun_frame (lead : OutEntry) (s : State) :
    abandonRun lead s =
      { s with outstanding := (abandonRun lead s).outstanding, tracker := (abandonRun lead s).tracker, owed := (abandonRun lead s).owed, regs := (abandonRun lead s).regs } := by
  unfold abandonRun
  split
  · rename_i h
    clear h
    generalize runOf lead s = l
    induction l generalizing s with
    | nil => rfl
    | cons p rest ih => rw [List.foldl_cons, ih, abandonEntry_frame]
  · rfl


theorem abandonRuns_frame (s : State) :
    abandonRuns s =
      { s with outstanding := (abandonRuns s).outstanding, tracker := (abandonRuns s).tracker, owed := (abandonRuns s).owed, regs := (abandonRuns s).regs } := by
  unfold abandonRuns
  generalize leaders s = l
  induction l generalizing s with
  | nil => rfl
  | cons p rest ih => rw [List.foldl_cons, ih, abandonRun_frame]

@[simp] theorem abandonRuns_por (s : State) : (abandonRuns s).por = s.por :=
  (congrArg State.por (abandonRuns_frame s) :)
@[simp] theorem abandonRuns_prst (s : State) : (abandonRuns s).prst = s.prst :=
  (congrArg State.prst (abandonRuns_frame s) :)
@[simp] theorem abandonRuns_sel (s : State) : (abandonRuns s).sel = s.sel :=
  (congrArg State.sel (abandonRuns_frame s) :)
@[simp] theorem abandonRuns_syn (s : State) : (abandonRuns s).syn = s.syn :=
  (congrArg State.syn (abandonRuns_frame s) :)
@[simp] theorem abandonRuns_offer (s : State) : (abandonRuns s).offer = s.offer :=
  (congrArg State.offer (abandonRuns_frame s) :)
@[simp] theorem abandonRuns_held (s : State) : (abandonRuns s).held = s.held :=
  (congrArg State.held (abandonRuns_frame s) :)
@[simp] theorem abandonRuns_memoryOffer (s : State) : (abandonRuns s).memoryOffer = s.memoryOffer :=
  (congrArg State.memoryOffer (abandonRuns_frame s) :)
@[simp] theorem abandonRuns_responses (s : State) : (abandonRuns s).responses = s.responses :=
  (congrArg State.responses (abandonRuns_frame s) :)
@[simp] theorem abandonRuns_pool (s : State) : (abandonRuns s).pool = s.pool :=
  (congrArg State.pool (abandonRuns_frame s) :)
@[simp] theorem abandonRuns_nextPlace (s : State) : (abandonRuns s).nextPlace = s.nextPlace :=
  (congrArg State.nextPlace (abandonRuns_frame s) :)
@[simp] theorem abandonRuns_responseTimeout (s : State) : (abandonRuns s).responseTimeout = s.responseTimeout :=
  (congrArg State.responseTimeout (abandonRuns_frame s) :)
@[simp] theorem abandonRuns_map (s : State) : (abandonRuns s).map = s.map :=
  (congrArg State.map (abandonRuns_frame s) :)
@[simp] theorem abandonRuns_defaultTarget (s : State) : (abandonRuns s).defaultTarget = s.defaultTarget :=
  (congrArg State.defaultTarget (abandonRuns_frame s) :)
@[simp] theorem abandonRuns_bypassPriority (s : State) : (abandonRuns s).bypassPriority = s.bypassPriority :=
  (congrArg State.bypassPriority (abandonRuns_frame s) :)
@[simp] theorem abandonRuns_prescale (s : State) : (abandonRuns s).prescale = s.prescale :=
  (congrArg State.prescale (abandonRuns_frame s) :)
@[simp] theorem abandonRuns_interval (s : State) : (abandonRuns s).interval = s.interval :=
  (congrArg State.interval (abandonRuns_frame s) :)
@[simp] theorem abandonRuns_divider (s : State) : (abandonRuns s).divider = s.divider :=
  (congrArg State.divider (abandonRuns_frame s) :)
@[simp] theorem abandonRuns_timebase (s : State) : (abandonRuns s).timebase = s.timebase :=
  (congrArg State.timebase (abandonRuns_frame s) :)
@[simp] theorem abandonRuns_windowEndDue (s : State) : (abandonRuns s).windowEndDue = s.windowEndDue :=
  (congrArg State.windowEndDue (abandonRuns_frame s) :)
@[simp] theorem abandonRuns_expiryDue (s : State) : (abandonRuns s).expiryDue = s.expiryDue :=
  (congrArg State.expiryDue (abandonRuns_frame s) :)
@[simp] theorem abandonRuns_markers (s : State) : (abandonRuns s).markers = s.markers :=
  (congrArg State.markers (abandonRuns_frame s) :)
@[simp] theorem abandonRuns_deviceCauses (s : State) : (abandonRuns s).deviceCauses = s.deviceCauses :=
  (congrArg State.deviceCauses (abandonRuns_frame s) :)
@[simp] theorem abandonRuns_deviceMask (s : State) : (abandonRuns s).deviceMask = s.deviceMask :=
  (congrArg State.deviceMask (abandonRuns_frame s) :)
@[simp] theorem abandonRuns_denials (s : State) : (abandonRuns s).denials = s.denials :=
  (congrArg State.denials (abandonRuns_frame s) :)
@[simp] theorem abandonRuns_port (s : State) : (abandonRuns s).port = s.port :=
  (congrArg State.port (abandonRuns_frame s) :)
@[simp] theorem abandonRuns_pending (s : State) : (abandonRuns s).pending = s.pending :=
  (congrArg State.pending (abandonRuns_frame s) :)

theorem timeoutCause_frame (a s : State) :
    timeoutCause a s =
      { s with deviceCauses := (timeoutCause a s).deviceCauses } := by
  unfold timeoutCause
  split <;> rfl

@[simp] theorem timeoutCause_por (a s : State) : (timeoutCause a s).por = s.por :=
  (congrArg State.por (timeoutCause_frame a s) :)
@[simp] theorem timeoutCause_prst (a s : State) : (timeoutCause a s).prst = s.prst :=
  (congrArg State.prst (timeoutCause_frame a s) :)
@[simp] theorem timeoutCause_sel (a s : State) : (timeoutCause a s).sel = s.sel :=
  (congrArg State.sel (timeoutCause_frame a s) :)
@[simp] theorem timeoutCause_syn (a s : State) : (timeoutCause a s).syn = s.syn :=
  (congrArg State.syn (timeoutCause_frame a s) :)
@[simp] theorem timeoutCause_offer (a s : State) : (timeoutCause a s).offer = s.offer :=
  (congrArg State.offer (timeoutCause_frame a s) :)
@[simp] theorem timeoutCause_held (a s : State) : (timeoutCause a s).held = s.held :=
  (congrArg State.held (timeoutCause_frame a s) :)
@[simp] theorem timeoutCause_memoryOffer (a s : State) : (timeoutCause a s).memoryOffer = s.memoryOffer :=
  (congrArg State.memoryOffer (timeoutCause_frame a s) :)
@[simp] theorem timeoutCause_responses (a s : State) : (timeoutCause a s).responses = s.responses :=
  (congrArg State.responses (timeoutCause_frame a s) :)
@[simp] theorem timeoutCause_owed (a s : State) : (timeoutCause a s).owed = s.owed :=
  (congrArg State.owed (timeoutCause_frame a s) :)
@[simp] theorem timeoutCause_pool (a s : State) : (timeoutCause a s).pool = s.pool :=
  (congrArg State.pool (timeoutCause_frame a s) :)
@[simp] theorem timeoutCause_tracker (a s : State) : (timeoutCause a s).tracker = s.tracker :=
  (congrArg State.tracker (timeoutCause_frame a s) :)
@[simp] theorem timeoutCause_nextPlace (a s : State) : (timeoutCause a s).nextPlace = s.nextPlace :=
  (congrArg State.nextPlace (timeoutCause_frame a s) :)
@[simp] theorem timeoutCause_outstanding (a s : State) : (timeoutCause a s).outstanding = s.outstanding :=
  (congrArg State.outstanding (timeoutCause_frame a s) :)
@[simp] theorem timeoutCause_responseTimeout (a s : State) : (timeoutCause a s).responseTimeout = s.responseTimeout :=
  (congrArg State.responseTimeout (timeoutCause_frame a s) :)
@[simp] theorem timeoutCause_map (a s : State) : (timeoutCause a s).map = s.map :=
  (congrArg State.map (timeoutCause_frame a s) :)
@[simp] theorem timeoutCause_defaultTarget (a s : State) : (timeoutCause a s).defaultTarget = s.defaultTarget :=
  (congrArg State.defaultTarget (timeoutCause_frame a s) :)
@[simp] theorem timeoutCause_bypassPriority (a s : State) : (timeoutCause a s).bypassPriority = s.bypassPriority :=
  (congrArg State.bypassPriority (timeoutCause_frame a s) :)
@[simp] theorem timeoutCause_regs (a s : State) : (timeoutCause a s).regs = s.regs :=
  (congrArg State.regs (timeoutCause_frame a s) :)
@[simp] theorem timeoutCause_prescale (a s : State) : (timeoutCause a s).prescale = s.prescale :=
  (congrArg State.prescale (timeoutCause_frame a s) :)
@[simp] theorem timeoutCause_interval (a s : State) : (timeoutCause a s).interval = s.interval :=
  (congrArg State.interval (timeoutCause_frame a s) :)
@[simp] theorem timeoutCause_divider (a s : State) : (timeoutCause a s).divider = s.divider :=
  (congrArg State.divider (timeoutCause_frame a s) :)
@[simp] theorem timeoutCause_timebase (a s : State) : (timeoutCause a s).timebase = s.timebase :=
  (congrArg State.timebase (timeoutCause_frame a s) :)
@[simp] theorem timeoutCause_windowEndDue (a s : State) : (timeoutCause a s).windowEndDue = s.windowEndDue :=
  (congrArg State.windowEndDue (timeoutCause_frame a s) :)
@[simp] theorem timeoutCause_expiryDue (a s : State) : (timeoutCause a s).expiryDue = s.expiryDue :=
  (congrArg State.expiryDue (timeoutCause_frame a s) :)
@[simp] theorem timeoutCause_markers (a s : State) : (timeoutCause a s).markers = s.markers :=
  (congrArg State.markers (timeoutCause_frame a s) :)
@[simp] theorem timeoutCause_deviceMask (a s : State) : (timeoutCause a s).deviceMask = s.deviceMask :=
  (congrArg State.deviceMask (timeoutCause_frame a s) :)
@[simp] theorem timeoutCause_denials (a s : State) : (timeoutCause a s).denials = s.denials :=
  (congrArg State.denials (timeoutCause_frame a s) :)
@[simp] theorem timeoutCause_port (a s : State) : (timeoutCause a s).port = s.port :=
  (congrArg State.port (timeoutCause_frame a s) :)
@[simp] theorem timeoutCause_pending (a s : State) : (timeoutCause a s).pending = s.pending :=
  (congrArg State.pending (timeoutCause_frame a s) :)

theorem expire_frame (s : State) :
    expire s =
      { s with outstanding := (expire s).outstanding, tracker := (expire s).tracker, owed := (expire s).owed, regs := (expire s).regs, deviceCauses := (expire s).deviceCauses, memoryOffer := (expire s).memoryOffer, offer := (expire s).offer, markers := (expire s).markers } := by
  unfold expire
  rw [resume_frame, timeoutCause_frame, abandonRuns_frame]

@[simp] theorem expire_por (s : State) : (expire s).por = s.por :=
  (congrArg State.por (expire_frame s) :)
@[simp] theorem expire_prst (s : State) : (expire s).prst = s.prst :=
  (congrArg State.prst (expire_frame s) :)
@[simp] theorem expire_sel (s : State) : (expire s).sel = s.sel :=
  (congrArg State.sel (expire_frame s) :)
@[simp] theorem expire_syn (s : State) : (expire s).syn = s.syn :=
  (congrArg State.syn (expire_frame s) :)
@[simp] theorem expire_held (s : State) : (expire s).held = s.held :=
  (congrArg State.held (expire_frame s) :)
@[simp] theorem expire_responses (s : State) : (expire s).responses = s.responses :=
  (congrArg State.responses (expire_frame s) :)
@[simp] theorem expire_pool (s : State) : (expire s).pool = s.pool :=
  (congrArg State.pool (expire_frame s) :)
@[simp] theorem expire_nextPlace (s : State) : (expire s).nextPlace = s.nextPlace :=
  (congrArg State.nextPlace (expire_frame s) :)
@[simp] theorem expire_responseTimeout (s : State) : (expire s).responseTimeout = s.responseTimeout :=
  (congrArg State.responseTimeout (expire_frame s) :)
@[simp] theorem expire_map (s : State) : (expire s).map = s.map :=
  (congrArg State.map (expire_frame s) :)
@[simp] theorem expire_defaultTarget (s : State) : (expire s).defaultTarget = s.defaultTarget :=
  (congrArg State.defaultTarget (expire_frame s) :)
@[simp] theorem expire_bypassPriority (s : State) : (expire s).bypassPriority = s.bypassPriority :=
  (congrArg State.bypassPriority (expire_frame s) :)
@[simp] theorem expire_prescale (s : State) : (expire s).prescale = s.prescale :=
  (congrArg State.prescale (expire_frame s) :)
@[simp] theorem expire_interval (s : State) : (expire s).interval = s.interval :=
  (congrArg State.interval (expire_frame s) :)
@[simp] theorem expire_divider (s : State) : (expire s).divider = s.divider :=
  (congrArg State.divider (expire_frame s) :)
@[simp] theorem expire_timebase (s : State) : (expire s).timebase = s.timebase :=
  (congrArg State.timebase (expire_frame s) :)
@[simp] theorem expire_windowEndDue (s : State) : (expire s).windowEndDue = s.windowEndDue :=
  (congrArg State.windowEndDue (expire_frame s) :)
@[simp] theorem expire_expiryDue (s : State) : (expire s).expiryDue = s.expiryDue :=
  (congrArg State.expiryDue (expire_frame s) :)
@[simp] theorem expire_deviceMask (s : State) : (expire s).deviceMask = s.deviceMask :=
  (congrArg State.deviceMask (expire_frame s) :)
@[simp] theorem expire_denials (s : State) : (expire s).denials = s.denials :=
  (congrArg State.denials (expire_frame s) :)
@[simp] theorem expire_port (s : State) : (expire s).port = s.port :=
  (congrArg State.port (expire_frame s) :)
@[simp] theorem expire_pending (s : State) : (expire s).pending = s.pending :=
  (congrArg State.pending (expire_frame s) :)

theorem finishExpiry_frame (s : State) :
    finishExpiry s =
      { s with outstanding := (finishExpiry s).outstanding, tracker := (finishExpiry s).tracker, owed := (finishExpiry s).owed, regs := (finishExpiry s).regs, deviceCauses := (finishExpiry s).deviceCauses, memoryOffer := (finishExpiry s).memoryOffer, offer := (finishExpiry s).offer, markers := (finishExpiry s).markers, expiryDue := (finishExpiry s).expiryDue } := by
  unfold finishExpiry
  split
  · rw [expire_frame]
  · rfl


theorem finishWindowEnds_frame (l : List RegNo) (s : State) :
    l.foldl (fun t r => finishWindowEnd r t) s =
      { s with regs := (l.foldl (fun t r => finishWindowEnd r t) s).regs, markers := (l.foldl (fun t r => finishWindowEnd r t) s).markers, windowEndDue := (l.foldl (fun t r => finishWindowEnd r t) s).windowEndDue } := by
  induction l generalizing s with
  | nil => rfl
  | cons p rest ih => rw [List.foldl_cons, ih, finishWindowEnd_frame]


theorem settleTick_frame (s : State) :
    settleTick s =
      { s with outstanding := (settleTick s).outstanding, tracker := (settleTick s).tracker, owed := (settleTick s).owed, regs := (settleTick s).regs, deviceCauses := (settleTick s).deviceCauses, memoryOffer := (settleTick s).memoryOffer, offer := (settleTick s).offer, markers := (settleTick s).markers, expiryDue := (settleTick s).expiryDue, windowEndDue := (settleTick s).windowEndDue } := by
  unfold settleTick
  rw [finishWindowEnds_frame, finishExpiry_frame]

@[simp] theorem settleTick_por (s : State) : (settleTick s).por = s.por :=
  (congrArg State.por (settleTick_frame s) :)
@[simp] theorem settleTick_prst (s : State) : (settleTick s).prst = s.prst :=
  (congrArg State.prst (settleTick_frame s) :)
@[simp] theorem settleTick_sel (s : State) : (settleTick s).sel = s.sel :=
  (congrArg State.sel (settleTick_frame s) :)
@[simp] theorem settleTick_syn (s : State) : (settleTick s).syn = s.syn :=
  (congrArg State.syn (settleTick_frame s) :)
@[simp] theorem settleTick_held (s : State) : (settleTick s).held = s.held :=
  (congrArg State.held (settleTick_frame s) :)
@[simp] theorem settleTick_responses (s : State) : (settleTick s).responses = s.responses :=
  (congrArg State.responses (settleTick_frame s) :)
@[simp] theorem settleTick_pool (s : State) : (settleTick s).pool = s.pool :=
  (congrArg State.pool (settleTick_frame s) :)
@[simp] theorem settleTick_nextPlace (s : State) : (settleTick s).nextPlace = s.nextPlace :=
  (congrArg State.nextPlace (settleTick_frame s) :)
@[simp] theorem settleTick_responseTimeout (s : State) : (settleTick s).responseTimeout = s.responseTimeout :=
  (congrArg State.responseTimeout (settleTick_frame s) :)
@[simp] theorem settleTick_map (s : State) : (settleTick s).map = s.map :=
  (congrArg State.map (settleTick_frame s) :)
@[simp] theorem settleTick_defaultTarget (s : State) : (settleTick s).defaultTarget = s.defaultTarget :=
  (congrArg State.defaultTarget (settleTick_frame s) :)
@[simp] theorem settleTick_bypassPriority (s : State) : (settleTick s).bypassPriority = s.bypassPriority :=
  (congrArg State.bypassPriority (settleTick_frame s) :)
@[simp] theorem settleTick_prescale (s : State) : (settleTick s).prescale = s.prescale :=
  (congrArg State.prescale (settleTick_frame s) :)
@[simp] theorem settleTick_interval (s : State) : (settleTick s).interval = s.interval :=
  (congrArg State.interval (settleTick_frame s) :)
@[simp] theorem settleTick_divider (s : State) : (settleTick s).divider = s.divider :=
  (congrArg State.divider (settleTick_frame s) :)
@[simp] theorem settleTick_timebase (s : State) : (settleTick s).timebase = s.timebase :=
  (congrArg State.timebase (settleTick_frame s) :)
@[simp] theorem settleTick_deviceMask (s : State) : (settleTick s).deviceMask = s.deviceMask :=
  (congrArg State.deviceMask (settleTick_frame s) :)
@[simp] theorem settleTick_denials (s : State) : (settleTick s).denials = s.denials :=
  (congrArg State.denials (settleTick_frame s) :)
@[simp] theorem settleTick_port (s : State) : (settleTick s).port = s.port :=
  (congrArg State.port (settleTick_frame s) :)
@[simp] theorem settleTick_pending (s : State) : (settleTick s).pending = s.pending :=
  (congrArg State.pending (settleTick_frame s) :)

theorem reconsiderStates_frame (a s : State) :
    reconsiderStates a s =
      { s with offer := (reconsiderStates a s).offer, regs := (reconsiderStates a s).regs, markers := (reconsiderStates a s).markers, deviceCauses := (reconsiderStates a s).deviceCauses } := by
  unfold reconsiderStates
  split
  · rfl
  · exact consider_frame s

@[simp] theorem reconsiderStates_por (a s : State) : (reconsiderStates a s).por = s.por :=
  (congrArg State.por (reconsiderStates_frame a s) :)
@[simp] theorem reconsiderStates_prst (a s : State) : (reconsiderStates a s).prst = s.prst :=
  (congrArg State.prst (reconsiderStates_frame a s) :)
@[simp] theorem reconsiderStates_sel (a s : State) : (reconsiderStates a s).sel = s.sel :=
  (congrArg State.sel (reconsiderStates_frame a s) :)
@[simp] theorem reconsiderStates_syn (a s : State) : (reconsiderStates a s).syn = s.syn :=
  (congrArg State.syn (reconsiderStates_frame a s) :)
@[simp] theorem reconsiderStates_held (a s : State) : (reconsiderStates a s).held = s.held :=
  (congrArg State.held (reconsiderStates_frame a s) :)
@[simp] theorem reconsiderStates_memoryOffer (a s : State) : (reconsiderStates a s).memoryOffer = s.memoryOffer :=
  (congrArg State.memoryOffer (reconsiderStates_frame a s) :)
@[simp] theorem reconsiderStates_responses (a s : State) : (reconsiderStates a s).responses = s.responses :=
  (congrArg State.responses (reconsiderStates_frame a s) :)
@[simp] theorem reconsiderStates_owed (a s : State) : (reconsiderStates a s).owed = s.owed :=
  (congrArg State.owed (reconsiderStates_frame a s) :)
@[simp] theorem reconsiderStates_pool (a s : State) : (reconsiderStates a s).pool = s.pool :=
  (congrArg State.pool (reconsiderStates_frame a s) :)
@[simp] theorem reconsiderStates_tracker (a s : State) : (reconsiderStates a s).tracker = s.tracker :=
  (congrArg State.tracker (reconsiderStates_frame a s) :)
@[simp] theorem reconsiderStates_nextPlace (a s : State) : (reconsiderStates a s).nextPlace = s.nextPlace :=
  (congrArg State.nextPlace (reconsiderStates_frame a s) :)
@[simp] theorem reconsiderStates_outstanding (a s : State) : (reconsiderStates a s).outstanding = s.outstanding :=
  (congrArg State.outstanding (reconsiderStates_frame a s) :)
@[simp] theorem reconsiderStates_responseTimeout (a s : State) : (reconsiderStates a s).responseTimeout = s.responseTimeout :=
  (congrArg State.responseTimeout (reconsiderStates_frame a s) :)
@[simp] theorem reconsiderStates_map (a s : State) : (reconsiderStates a s).map = s.map :=
  (congrArg State.map (reconsiderStates_frame a s) :)
@[simp] theorem reconsiderStates_defaultTarget (a s : State) : (reconsiderStates a s).defaultTarget = s.defaultTarget :=
  (congrArg State.defaultTarget (reconsiderStates_frame a s) :)
@[simp] theorem reconsiderStates_bypassPriority (a s : State) : (reconsiderStates a s).bypassPriority = s.bypassPriority :=
  (congrArg State.bypassPriority (reconsiderStates_frame a s) :)
@[simp] theorem reconsiderStates_prescale (a s : State) : (reconsiderStates a s).prescale = s.prescale :=
  (congrArg State.prescale (reconsiderStates_frame a s) :)
@[simp] theorem reconsiderStates_interval (a s : State) : (reconsiderStates a s).interval = s.interval :=
  (congrArg State.interval (reconsiderStates_frame a s) :)
@[simp] theorem reconsiderStates_divider (a s : State) : (reconsiderStates a s).divider = s.divider :=
  (congrArg State.divider (reconsiderStates_frame a s) :)
@[simp] theorem reconsiderStates_timebase (a s : State) : (reconsiderStates a s).timebase = s.timebase :=
  (congrArg State.timebase (reconsiderStates_frame a s) :)
@[simp] theorem reconsiderStates_windowEndDue (a s : State) : (reconsiderStates a s).windowEndDue = s.windowEndDue :=
  (congrArg State.windowEndDue (reconsiderStates_frame a s) :)
@[simp] theorem reconsiderStates_expiryDue (a s : State) : (reconsiderStates a s).expiryDue = s.expiryDue :=
  (congrArg State.expiryDue (reconsiderStates_frame a s) :)
@[simp] theorem reconsiderStates_deviceMask (a s : State) : (reconsiderStates a s).deviceMask = s.deviceMask :=
  (congrArg State.deviceMask (reconsiderStates_frame a s) :)
@[simp] theorem reconsiderStates_denials (a s : State) : (reconsiderStates a s).denials = s.denials :=
  (congrArg State.denials (reconsiderStates_frame a s) :)
@[simp] theorem reconsiderStates_port (a s : State) : (reconsiderStates a s).port = s.port :=
  (congrArg State.port (reconsiderStates_frame a s) :)
@[simp] theorem reconsiderStates_pending (a s : State) : (reconsiderStates a s).pending = s.pending :=
  (congrArg State.pending (reconsiderStates_frame a s) :)

end Sys2Proof.Machine
end

