-- ==== Sys2Proof/Laws/Slots.lean ====
section
/-! SUPPORT. Reading the part's arrays after the operations that write them. -/

namespace Sys2Proof.Machine

variable {α β : Type} {n : Nat}

@[simp] theorem mapSlots_getElem (f : α → β) (v : Vector α n) (i : Nat) (h : i < n) :
    (mapSlots f v)[i] = f v[i] := by
  simp [mapSlots]

theorem mapSlots_get (f : α → β) (v : Vector α n) (i : Fin n) : (mapSlots f v)[i] = f v[i] :=
  mapSlots_getElem f v i.val i.isLt

theorem set_get (v : Vector α n) (i j : Fin n) (x : α) : (v.set i x)[j] = if j = i then x else v[j] := by
  by_cases h : j = i
  · subst h; simp
  · have h' : i.val ≠ j.val := fun e => h (Fin.ext e.symm)
    simp [h, h']

/-- Two arrays with the same slots are the same. -/
theorem slots_ext {v w : Vector α n} (h : ∀ i : Fin n, v[i] = w[i]) : v = w := by
  apply Vector.ext
  intro i hi
  exact h ⟨i, hi⟩

theorem mapSlots_mapSlots {γ : Type} (g : β → γ) (f : α → β) (v : Vector α n) :
    mapSlots g (mapSlots f v) = mapSlots (fun x => g (f x)) v :=
  slots_ext fun i => by simp

@[simp] theorem mapSlots_id (v : Vector α n) : mapSlots (fun x => x) v = v :=
  slots_ext fun i => by simp

@[simp] theorem mem_indexed (v : Vector α n) (p : Fin n × α) : p ∈ indexed v ↔ v[p.1] = p.2 := by
  obtain ⟨i, x⟩ := p
  simp [indexed, Prod.ext_iff]

/-! ## Regulator contexts -/

/-- Two banks of contexts that read the same are the same. -/
theorem regs_ext {s t : State} (h : ∀ r, reg s r = reg t r) : s.regs = t.regs := slots_ext h

theorem reg_of_regs {s t : State} {r : RegNo} {g : Regulator} (h : t.regs = s.regs.set r g) (q : RegNo) :
    reg t q = if q = r then g else reg s q := by
  unfold reg; rw [h]; exact set_get ..

theorem reg_setReg (s : State) (r : RegNo) (g : Regulator) (q : RegNo) :
    reg (setReg s r g) q = if q = r then g else reg s q := reg_of_regs rfl q

@[simp] theorem reg_setReg_self (s : State) (r : RegNo) (g : Regulator) : reg (setReg s r g) r = g := by
  simp [reg_setReg]

theorem setReg_same (s : State) (r : RegNo) : setReg s r (reg s r) = s := by
  have h : s.regs.set r (reg s r) = s.regs := slots_ext fun i => by
    rw [set_get]
    split
    · subst_vars; rfl
    · rfl
  unfold setReg
  rw [h]

/-- The context with some causes set besides those it has. -/
def addCauses (g : Regulator) (bits : BitVec 7) : Regulator := { g with causes := g.causes ||| bits }

theorem reg_raiseCause (r : RegNo) (c : Cause) (s : State) (q : RegNo) :
    reg (raiseCause r c s) q = if q = r then addCauses (reg s r) (causeBit c) else reg s q := reg_of_regs rfl q

/-- The bits of a list of causes. -/
def causeBits (cs : List Cause) : BitVec 7 := cs.foldr (fun c b => causeBit c ||| b) 0#7

@[simp] theorem causeBits_nil : causeBits [] = 0#7 := rfl
@[simp] theorem causeBits_cons (c : Cause) (cs : List Cause) : causeBits (c :: cs) = causeBit c ||| causeBits cs := rfl

theorem reg_raiseCauses (r : RegNo) (cs : List Cause) (s : State) (q : RegNo) :
    reg (raiseCauses r cs s) q = if q = r then addCauses (reg s r) (causeBits cs) else reg s q := by
  induction cs generalizing s with
  | nil =>
    have h0 : addCauses (reg s r) (causeBits []) = reg s r := by simp [addCauses]
    rw [h0]
    split
    · subst_vars; rfl
    · rfl
  | cons c cs ih =>
    have h := ih (raiseCause r c s)
    rw [show raiseCauses r (c :: cs) s = raiseCauses r cs (raiseCause r c s) from rfl, h]
    simp only [reg_raiseCause, if_true]
    split
    · simp [addCauses, BitVec.or_assoc]
    · rfl

theorem reg_regulatorEvent (r : RegNo) (g : Regulator) (cs : List Cause) (s : State) (q : RegNo) :
    reg (regulatorEvent r g cs s) q = if q = r then addCauses g (causeBits cs) else reg s q := by
  unfold regulatorEvent
  rw [reg_raiseCauses, reg_setReg, reg_setReg]
  split <;> simp

/-! ## Marker lines -/

theorem markers_raiseCause (r : RegNo) (c : Cause) (s : State) (l : Fin 4) :
    (raiseCause r c s).markers[l] =
      if (reg s r).state ≠ .off ∧ (s.markers[l]).source = r ∧ some (s.markers[l]).kind = pulseKind c then
        { s.markers[l] with pulseLeft := Config.pulsePeriods }
      else s.markers[l] := by
  show (pulseLines r c (reg s r).state s.markers)[l] = _
  unfold pulseLines
  by_cases h : (reg s r).state = .off
  · simp [h]
  · simp [h, pulseLine]

theorem markers_raiseCauses (r : RegNo) (cs : List Cause) (s : State) (l : Fin 4) :
    (raiseCauses r cs s).markers[l] =
      if (reg s r).state ≠ .off ∧ (s.markers[l]).source = r ∧ ∃ c ∈ cs, some (s.markers[l]).kind = pulseKind c then
        { s.markers[l] with pulseLeft := Config.pulsePeriods }
      else s.markers[l] := by
  induction cs generalizing s with
  | nil => simp [raiseCauses]
  | cons c cs ih =>
    rw [show raiseCauses r (c :: cs) s = raiseCauses r cs (raiseCause r c s) from rfl, ih, markers_raiseCause,
      reg_raiseCause]
    generalize s.markers[l] = m
    by_cases h1 : (reg s r).state = .off
    · simp [h1, addCauses]
    · by_cases h2 : m.source = r
      · by_cases h3 : some m.kind = pulseKind c
        · simp [h1, h2, h3, addCauses]
        · simp [h1, h2, h3, addCauses]
      · simp [h2]

theorem markers_regulatorEvent (r : RegNo) (g : Regulator) (cs : List Cause) (s : State) (l : Fin 4) :
    (regulatorEvent r g cs s).markers[l] =
      if g.state ≠ .off ∧ (s.markers[l]).source = r ∧ ∃ c ∈ cs, some (s.markers[l]).kind = pulseKind c then
        { s.markers[l] with pulseLeft := Config.pulsePeriods }
      else s.markers[l] := by
  unfold regulatorEvent
  rw [markers_raiseCauses, reg_setReg]
  simp

/-! ## Counts of the order tracker -/

theorem keyIndex_inj {k j : Key} (h : keyIndex k = keyIndex j) : k = j := by
  obtain ⟨⟨a, ha⟩, ⟨b, hb⟩⟩ := k
  obtain ⟨⟨c, hc⟩, ⟨d, hd⟩⟩ := j
  simp only [keyIndex, Fin.mk.injEq] at h
  simp only [Key.mk.injEq, Fin.mk.injEq]
  omega

theorem counts_of_tracker {s t : State} {k : Key} {c : KeyCounts} (h : t.tracker = s.tracker.set (keyIndex k) c)
    (j : Key) : counts t j = if j = k then c else counts s j := by
  unfold counts
  rw [h, set_get]
  by_cases e : j = k
  · simp [e]
  · have : keyIndex j ≠ keyIndex k := fun he => e (keyIndex_inj he)
    simp [e, this]

theorem counts_setCounts (s : State) (k : Key) (c : KeyCounts) (j : Key) :
    counts (setCounts s k c) j = if j = k then c else counts s j := counts_of_tracker rfl j

theorem counts_joinPool (kind : EntryKind) (l : Lane) (q : Request) (t : Target) (s : State) (j : Key) :
    counts (joinPool kind l q t s) j =
      if j = q.key then { counts s q.key with pooled := (counts s q.key).pooled + 1 } else counts s j :=
  counts_of_tracker rfl j

theorem counts_leavePool (e : PoolEntry) (s : State) (j : Key) :
    counts (leavePool e s) j =
      if j = e.request.key then { counts s e.request.key with pooled := (counts s e.request.key).pooled - 1 }
      else counts s j := counts_of_tracker rfl j

theorem counts_openEntry (i : Fin 64) (e : OutEntry) (s : State) (j : Key) :
    counts (openEntry i e s) j =
      if j = e.key then { counts s e.key with live := (counts s e.key).live + 1 } else counts s j :=
  counts_of_tracker rfl j

theorem reg_release (c : Option RegNo) (s : State) (q : RegNo) :
    reg (release c s) q =
      if c = some q then { reg s q with outstandingCount := (reg s q).outstandingCount - 1 } else reg s q := by
  cases c with
  | none => simp [release]
  | some r =>
    simp only [release, reg_setReg, Option.some.injEq]
    by_cases h : q = r
    · subst h; simp
    · simp [h, Ne.symm h]

theorem counts_closeEntry (i : Fin 64) (e : OutEntry) (s : State) (j : Key) :
    counts (closeEntry i e s) j =
      if j = e.key then { counts s e.key with live := (counts s e.key).live - 1 } else counts s j := by
  refine counts_of_tracker ?_ j
  unfold closeEntry
  rw [release_tracker]

theorem reg_closeEntry (i : Fin 64) (e : OutEntry) (s : State) (q : RegNo) :
    reg (closeEntry i e s) q =
      if e.charged = some q then { reg s q with outstandingCount := (reg s q).outstandingCount - 1 } else reg s q := by
  unfold closeEntry
  rw [reg_release]
  rfl

/-! ## The outstanding table -/

theorem mem_inUse (s : State) (p : Fin 64 × OutEntry) : p ∈ inUse s ↔ s.outstanding[p.1] = some p.2 := by
  unfold inUse
  simp only [List.mem_filterMap, mem_indexed]
  constructor
  · rintro ⟨⟨i, o⟩, h, h'⟩
    cases o with
    | none => simp at h'
    | some e =>
      simp only [Option.map_some, Option.some.injEq] at h'
      rw [← h']; exact h
  · intro h
    exact ⟨(p.1, some p.2), h, by simp⟩

end Sys2Proof.Machine
end

