-- ==== Sys2Proof/Laws/Ops.lean ====
section
/-! SUPPORT. What the shared operations can do, one lemma each, for the proofs to cite instead of unfolding them. -/

namespace Sys2Proof.Machine

/-! ## The tick -/

/-- With no tick in progress there is nothing to finish. -/
theorem settleTick_of_quiet {s : State} (h : Quiet s) : settleTick s = s := by
  unfold settleTick finishExpiry
  rw [h.2, if_neg (by simp), h.1]
  rfl

/-! ## REFCLK periods -/

/-- Passing periods run every marker pulse on by as many (R163). -/
@[simp] theorem getElem_markers_passPeriods (n : Nat) (s : State) (l : Fin 4) :
    (passPeriods n s).markers[l] = { s.markers[l] with pulseLeft := (s.markers[l]).pulseLeft - n } := by
  simp [passPeriods, runPulse]

/-- Passing periods sample every SYN line: only a line without a kept level is changed (R152). -/
theorem getElem_syn_passPeriods (n : Nat) (s : State) (l : Fin 4) :
    (passPeriods n s).syn[l] =
      if (s.syn[l]).kept = none then { level := (s.syn[l]).level, kept := some (s.syn[l]).level } else s.syn[l] := by
  have h : (passPeriods n s).syn[l] = firstSample s.syn[l] := by simp [passPeriods]
  rw [h]
  unfold firstSample
  cases hk : (s.syn[l]).kept with
  | none => simp
  | some k => rw [if_neg (by simp)]; cases hx : s.syn[l]; rw [hx] at hk; cases hk; rfl

/-- The tick runs pulses on and samples the SYN lines for the rest of its interval (R63, R163). -/
theorem markers_takeTick (s : State) : (takeTick s).markers = (passPeriods (s.interval - s.divider) s).markers := rfl
theorem syn_takeTick (s : State) (n : Nat) : (takeTick s).syn = (passPeriods n s).syn := rfl

/-! ## Causes -/

theorem deviceCauses_fullCause (v : Verdict) (o : Offer) (s : State) :
    (fullCause v o s).deviceCauses =
      if v.foundFull = true ∧ o.poolRun = false then s.deviceCauses ||| 0x01#6 else s.deviceCauses := by
  unfold fullCause
  cases v.foundFull <;> cases o.poolRun <;> simp [deviceBit]

theorem reg_quotaCause (v : Verdict) (o : Offer) (s : State) (q : RegNo) :
    reg (quotaCause v o s) q =
      if v.atQuota = some q ∧ o.quotaRun ≠ some q then addCauses (reg s q) 0x08#7 else reg s q := by
  unfold quotaCause
  cases h : v.atQuota with
  | none => simp
  | some r =>
    by_cases h2 : o.quotaRun = some r
    · simp only [h2, if_true, Option.some.injEq]
      by_cases h3 : r = q <;> simp [h3]
    · simp only [h2, if_false, reg_raiseCause, Option.some.injEq, causeBit]
      by_cases h3 : q = r
      · subst h3; simp [h2]
      · simp [h3, Ne.symm h3]

/-! ## Consideration -/

/-- What a consideration reads of the state: the map and DEFAULT TARGET, the states and setups of the regulators, the pool
and the order tracker. -/
structure SameJudgement (s t : State) : Prop where
  map : t.map = s.map
  defaultTarget : t.defaultTarget = s.defaultTarget
  pool : t.pool = s.pool
  tracker : t.tracker = s.tracker
  state : ∀ r, (reg t r).state = (reg s r).state
  setup : ∀ r, (reg t r).setup = (reg s r).setup

/-- States alike in what a consideration reads give the same verdict. -/
theorem judge_congr {s t : State} (h : SameJudgement s t) (q : Request) : judge t q = judge s q := by
  have hc : classify t q = classify s q := by unfold classify; rw [h.map, h.defaultTarget]
  have hl : ∀ x, effectiveLane t x = effectiveLane s x := by
    intro x; cases x <;> simp [effectiveLane, h.state]
  have hn : ∀ x, laneLength t x = laneLength s x := by intro x; unfold laneLength; rw [h.pool]
  have hf : poolFull t = poolFull s := by unfold poolFull; rw [h.pool]
  have hk : ∀ k, keyFree t k = keyFree s k := by intro k; unfold keyFree counts; rw [h.tracker]
  have hd : ∀ k x, denyDisposal t k x = denyDisposal s k x := by intro k x; unfold denyDisposal; rw [hk, hf]
  have hg : ∀ k, denyFoundFull t k = denyFoundFull s k := by intro k; unfold denyFoundFull; rw [hk, hf]
  unfold judge
  rw [hc]
  dsimp only
  rw [hl, hd, hg, hf]
  cases effectiveLane s (classify s q) with
  | bypass => rfl
  | regulator r => simp only [h.setup, hn, hd]

theorem sameJudgement_refl (s : State) : SameJudgement s s := ⟨rfl, rfl, rfl, rfl, fun _ => rfl, fun _ => rfl⟩

theorem SameJudgement.trans {s t u : State} (h : SameJudgement s t) (k : SameJudgement t u) : SameJudgement s u :=
  ⟨k.map.trans h.map, k.defaultTarget.trans h.defaultTarget, k.pool.trans h.pool, k.tracker.trans h.tracker,
   fun r => (k.state r).trans (h.state r), fun r => (k.setup r).trans (h.setup r)⟩

/-- The offer that a consideration leaves. -/
theorem consider_offer (s : State) :
    (consider s).offer =
      if flowing s = true then
        s.offer.map fun o =>
          { o with quotaRun := (judge s o.request).atQuota, poolRun := (judge s o.request).foundFull }
      else s.offer := by
  unfold consider
  cases h : s.offer with
  | none => simp [h]
  | some o =>
    dsimp only
    by_cases hf : flowing s = true
    · simp [hf]
    · simp [hf, h]

/-- A consideration sets QUOTA HIT of the lane found at quota when that begins a run, and changes nothing else of a
regulator (R94). -/
theorem reg_consider (s : State) (q : RegNo) :
    reg (consider s) q =
      if flowing s = true ∧ ∃ o, s.offer = some o ∧ (judge s o.request).atQuota = some q ∧ o.quotaRun ≠ some q then
        addCauses (reg s q) 0x08#7
      else reg s q := by
  unfold consider
  cases h : s.offer with
  | none => simp
  | some o =>
    dsimp only
    by_cases hf : flowing s = true
    · rw [if_pos hf]
      show reg (fullCause _ o (quotaCause _ o s)) q = _
      have hr : reg (fullCause (judge s o.request) o (quotaCause (judge s o.request) o s)) q =
          reg (quotaCause (judge s o.request) o s) q := by rw [fullCause_frame]; rfl
      rw [hr, reg_quotaCause]
      simp [hf]
    · simp [hf]

/-- A consideration leaves what a consideration reads. -/
theorem sameJudgement_consider (s : State) : SameJudgement s (consider s) := by
  refine ⟨by simp, by simp, by simp, by simp, ?_, ?_⟩ <;> intro r <;> rw [reg_consider] <;> split <;> rfl

theorem flowing_consider (s : State) : flowing (consider s) = flowing s := by simp [flowing]

/-- With nothing offered a consideration does nothing. -/
theorem consider_none {s : State} (h : s.offer = none) : consider s = s := by
  unfold consider; rw [h]

/-! ## Matching a response -/

/-- With no response offered there is nothing to match. -/
theorem matchOffered_none {s : State} (h : s.memoryOffer = none) : matchOffered s = s := by
  unfold matchOffered; rw [h]

/-- What the discard of an unexpected response sets (R13, R135). -/
@[simp] theorem unexpectedCause_eq (status : ResponseStatus) (s : State) :
    unexpectedCause status s =
      { s with
        deviceCauses := if unexpectedSetsCause status then s.deviceCauses ||| 0x04#6 else s.deviceCauses } := by
  unfold unexpectedCause; split <;> rfl

/-- The three cases of a response that is offered (R132). -/
theorem matchOffered_some {s : State} {u : Response} (h : s.memoryOffer = some u) :
    matchOffered s =
      if flowing s then
        match oldestEntry s u.key with
        | none => unexpectedCause u.status { s with memoryOffer := none }
        | some p =>
          match p.2.state with
          | .abandoned => { s with memoryOffer := none, outstanding := s.outstanding.set p.1 none }
          | .live => s
      else s := by
  unfold matchOffered; rw [h] <;> rfl

/-- A match does not look at the offered request. -/
theorem matchOffered_offer_comm (s : State) (o : Option Offer) :
    matchOffered { s with offer := o } = { matchOffered s with offer := o } := by
  obtain h | ⟨u, h⟩ := Option.eq_none_or_eq_some s.memoryOffer
  · have h' : ({ s with offer := o } : State).memoryOffer = none := h
    rw [matchOffered_none h, matchOffered_none h']
  · have h' : ({ s with offer := o } : State).memoryOffer = some u := h
    have hf : flowing { s with offer := o } = flowing s := rfl
    have ho : oldestEntry { s with offer := o } u.key = oldestEntry s u.key := rfl
    rw [matchOffered_some h, matchOffered_some h', hf, ho]
    split
    · split
      · simp
      · split <;> rfl
    · rfl

/-- Folding for the older entry finds the one that is older than all others. -/
theorem foldl_olderEntry {p : Fin 64 × OutEntry} (l : List (Fin 64 × OutEntry)) (best : Option (Fin 64 × OutEntry))
    (hl : ∀ q ∈ l, q = p ∨ p.2.place < q.2.place) (hb : ∀ q ∈ best, q = p ∨ p.2.place < q.2.place)
    (hp : p ∈ l ∨ best = some p) : l.foldl olderEntry best = some p := by
  induction l generalizing best with
  | nil => simpa using hp
  | cons x xs ih =>
    rw [List.foldl_cons]
    have hx := hl x (List.mem_cons_self ..)
    have hxs : ∀ q ∈ xs, q = p ∨ p.2.place < q.2.place := fun q hq => hl q (List.mem_cons_of_mem _ hq)
    cases best with
    | none =>
      refine ih (some x) hxs (by simpa using hx) ?_
      rcases hp with hp | hp
      · rcases List.mem_cons.1 hp with rfl | h
        · exact .inr rfl
        · exact .inl h
      · cases hp
    | some b =>
      have hbp := hb b rfl
      by_cases hlt : x.2.place < b.2.place
      · have e : olderEntry (some b) x = some x := by simp [olderEntry, hlt]
        rw [e]
        refine ih (some x) hxs (by simpa using hx) ?_
        rcases hp with hp | hp
        · rcases List.mem_cons.1 hp with rfl | h
          · exact .inr rfl
          · exact .inl h
        · cases hp
          rcases hx with rfl | h
          · exact .inr rfl
          · omega
      · have e : olderEntry (some b) x = some b := by simp [olderEntry, hlt]
        rw [e]
        refine ih (some b) hxs (by simpa using hbp) ?_
        rcases hp with hp | hp
        · rcases List.mem_cons.1 hp with rfl | h
          · rcases hbp with rfl | h
            · exact .inr rfl
            · omega
          · exact .inl h
        · exact .inr hp

/-- The entry a response of a key is matched to is the oldest in use (R132). -/
theorem oldestEntry_of_oldestAt {s : State} {k : Key} {i : Fin 64} {e : OutEntry} (h : OldestAt s k i e) :
    oldestEntry s k = some (i, e) := by
  obtain ⟨h1, h2, h3⟩ := h
  refine foldl_olderEntry _ none ?_ (by simp) (.inl ?_)
  · intro q hq
    obtain ⟨hm, hk⟩ := List.mem_filter.1 hq
    obtain ⟨j, f⟩ := q
    have hs : s.outstanding[j] = some f := (mem_inUse s (j, f)).1 hm
    have hk' : f.key = k := by simpa using hk
    by_cases hi : j = i
    · subst hi
      rw [h1] at hs
      exact .inl (by rw [Option.some.inj hs])
    · exact .inr (h3 j f hs hk' hi)
  · exact List.mem_filter.2 ⟨(mem_inUse s (i, e)).2 h1, by simpa using h2⟩

/-- No entry of a key is in use exactly when a response of the key is matched to none. -/
theorem oldestEntry_eq_none {s : State} {k : Key} (h : ∀ (i : Fin 64) (e : OutEntry), s.outstanding[i] = some e → e.key ≠ k) :
    oldestEntry s k = none := by
  have : (inUse s).filter (fun p => p.2.key == k) = [] :=
    List.filter_eq_nil_iff.2 fun p hp => by simpa using h p.1 p.2 ((mem_inUse s p).1 hp)
  unfold oldestEntry
  rw [this]
  rfl

end Sys2Proof.Machine
end

