-- ==== Sys2Proof/Tests/Slice0.lean ====
section
/-! SUPPORT. Small tests on fixed states. Expected results come from the tables and worked sequences of spec/. The
theorems named `test_meets_…` show, for each statement of Obligations.lean with premises, a state that meets them. -/

open Sys2Proof Sys2Proof.Machine

namespace Sys2Proof.Tests

/- One theorem after another: many at once take more threads than the check's memory limit allows. -/
set_option Elab.async false

/-! ## Helpers -/

def keyA : Key := { initiator := 3, tag := 9 }
def keyB : Key := { initiator := 5, tag := 0 }
def keyC : Key := { initiator := 15, tag := 63 }

/-- A READ of 64 bytes in page 0. -/
def readOf (k : Key) : Request := { key := k, direction := .read, address := 0x100#40, length := 64, data := [] }

/-- The malformed request of R17's table: length 0. -/
def badOf (k : Key) : Request := { readOf k with length := 0 }

def offering (q : Request) (s : State) : State :=
  { s with offer := some { request := q, quotaRun := none, poolRun := false } }

def withState (r : RegNo) (x : RegState) (s : State) : State := setReg s r { reg s r with state := x }

/-- A valid entry 0 of the map, page 0, every initiator and direction, with a target. -/
def mapped (t : Target) (s : State) : State :=
  { s with
    map := s.map.set 0 { valid := true, direction := .both, initiator := none, target := t, base := 0, limit := 0 } }

def entryOf (kind : EntryKind) (l : Lane) (place : Nat) (k : Key) : PoolEntry :=
  { kind := kind, lane := l, place := place, request := readOf k, target := .bypass }

def pooling (e : PoolEntry) (s : State) : State :=
  setCounts { s with pool := s.pool ++ [e], nextPlace := e.place + 1 } e.request.key
    { counts s e.request.key with pooled := (counts s e.request.key).pooled + 1 }

/-- Forty-eight bypass entries of one key. -/
def fullPool (s : State) : State :=
  { s with pool := (List.range 48).map fun n => entryOf .forward .bypass n keyB, nextPlace := 48 }

def outEntry (x : EntryState) (c : Option RegNo) (age place : Nat) (k : Key) : OutEntry :=
  { state := x, key := k, direction := .read, length := 64, charged := c, age := age, place := place }

def inTable (i : Fin 64) (e : OutEntry) (s : State) : State :=
  { s with
    outstanding := s.outstanding.set i (some e)
    nextPlace := max s.nextPlace (e.place + 1)
    tracker := s.tracker.set (keyIndex e.key)
      { counts s e.key with live := (counts s e.key).live + if e.state = .live then 1 else 0 } }

def answer (k : Key) : Response := { key := k, direction := .read, status := .okay, data := [] }

def owing (k : Key) (place : Nat) (s : State) : State :=
  setCounts { s with owed := s.owed ++ [{ key := k, direction := .read, place := place }] } k
    { counts s k with owed := (counts s k).owed + 1 }

/-- Regulator 2 RUNNING on a budget of 100 bytes, its map entry valid. -/
def running : State :=
  mapped (.regulator 2)
    (setReg State.reset 2
      { resetRegulator with state := .running, active := { period := 4, openLength := 4, budget := 100 } })

/-- One forward head in lane 2 of `running`. -/
def waiting : State := pooling (entryOf .forward (.regulator 2) 0 keyA) running

def record : DenialRecord :=
  { key := keyA, direction := .write, address := 0x123456789A#40, length := 300, reason := .quota,
    target := .regulator 2, time := 40#32 }

/-! ## Ill-formed commands are refused by the checks (R11, R12, R187) -/

theorem test_wellFormed_readWithData :
    wellFormed (.requestOffered { readOf keyA with data := [0x00#8] }) = false := by decide +kernel

theorem test_wellFormed_writeShort :
    wellFormed (.requestOffered { readOf keyA with direction := .write, data := [0x00#8] }) = false := by decide +kernel

theorem test_wellFormed_deniedWithData :
    wellFormed (.responseOffered { answer keyA with status := .denied, data := [0x00#8] }) = false := by decide +kernel

theorem test_wellFormed_writeAnswerWithData :
    wellFormed (.responseOffered { answer keyA with direction := .write, data := [0x00#8] }) = false := by decide +kernel

theorem test_wellFormed_knownCode : wellFormed (.unknownCode 0x0F#8) = false := by decide +kernel

theorem test_wellFormed_accepts :
    wellFormed (.requestOffered (readOf keyA)) = true ∧ wellFormed (.responseOffered (answer keyA)) = true
      ∧ wellFormed (.unknownCode 0xFF#8) = true ∧ wellFormed .tick = true := by decide +kernel

/-! ## Bytes of the port: the CRC table of R184 and the frames of R183 -/

theorem test_crc_table :
    [[0x00#8], [0x01#8], [0x05#8], [0x06#8], [0x07#8], [0x0F#8], [0x02#8, 0x00#8, 0x00#8, 0x01#8],
      [0x00#8, 0x00#8, 0x00#8, 0x00#8, 0x32#8]].map crc8
      = [0x00#8, 0x07#8, 0x1B#8, 0x12#8, 0x15#8, 0x2D#8, 0x2B#8, 0x9E#8] := by decide +kernel

theorem test_commandPart_readTimeout :
    encodeCommand (.readField 0x00#8 0x00#8 0x01#8) = [0x02#8, 0x00#8, 0x00#8, 0x01#8, 0x2B#8]
      ∧ parseCommand 0x02#8 [0x00#8, 0x00#8, 0x01#8] = some (.readField 0x00#8 0x00#8 0x01#8) := by decide +kernel

/-- Regulators 15 to 8 are in the first mask byte, and words go most significant byte first (R183, R193). -/
theorem test_commandPart_bytes :
    parseCommand 0x04#8 [0x03#8, 0x80#8, 0x01#8] = some (.regulatorCommand 0x03#8 0x8001#16)
      ∧ parseCommand 0x03#8 [0x00#8, 0x00#8, 0x00#8, 0x00#8, 0x01#8, 0x00#8, 0x00#8]
          = some (.writeField 0x00#8 0x00#8 0x00#8 0x00010000#32)
      ∧ parseCommand 0x08#8 [] = none := by decide +kernel

theorem test_table_has_no_bits :
    decodeTableWord 16 0x0107 = none ∧ State.reset.withFetchWord 16 0x0107 = State.reset := by
  exact ⟨rfl, rfl⟩

/-- The state that an outcome answers. -/
def after (o : Host.Outcome State Fault Refusal) : State :=
  match o with
  | .next t => t
  | _ => State.reset

/-! ## Single steps, from the tables and worked sequences of spec/ -/

/-- The worked frame of spec/10: READ FIELD of RESPONSE TIMEOUT 50. -/
theorem test_readField_timeout :
    (after (exec (.readField 0x00#8 0x00#8 0x01#8) { State.reset with responseTimeout := 50 })).port
      = .reply [0x00#8, 0x00#8, 0x00#8, 0x00#8, 0x32#8, 0x9E#8] := by decide +kernel

/-- The same frame with a wrong check byte 0x2A: FRAME, CRC 0x12, FRAME ERROR. -/
theorem test_byteSlot_mismatch :
    let t := after (exec (.byteSlot 0x2A#8)
      { State.reset with sel := true, port := .command [0x02#8, 0x00#8, 0x00#8, 0x01#8] })
    t.port = .reply [0x06#8, 0x12#8] ∧ t.deviceCauses = 0x20#6 := by decide +kernel

/-- R17's table of malformed requests. -/
theorem test_malformed_table :
    [((0x000#40 : Address), (256 : Fin 4096)), (0xF80#40, 128), (0xF80#40, 129), (0xFFF#40, 1), (0xFFF#40, 2),
      (0x100#40, 0), (0x000#40, 257), (0x000#40, 4095)].map
        (fun p => malformed { readOf keyA with address := p.1, length := p.2 })
      = [false, false, true, false, true, true, true, true] := by decide +kernel

/-- A page of R202: BASE 0x0040000 stands for byte address 0x00_4000_0000. -/
theorem test_page : page { readOf keyA with address := 0x0040000000#40 } = 0x0040000 := by decide +kernel

/-- Regulator 9 of the worked budget cut (spec/11.3), at POSITION 999 with CONSUMED 200,100 and an exchange pending. -/
def budgetCut : State :=
  setReg { State.reset with windowEndDue := [9] } 9
    { resetRegulator with
      setup := { resetRegulator.setup with autoSample := true }
      state := .running
      active := { period := 1000, openLength := 1000, budget := 200000 }
      standby := { period := 1000, openLength := 1000, budget := 120000 }
      exchangePending := true
      position := 999
      consumed := 200100 }

/-- The window end of that sequence: sample 200,100, carry 100, exchange, three causes. -/
theorem test_windowEnd_budgetCut :
    let g := reg (after (exec (.windowEnd 9) budgetCut)) 9
    g.sample = 200100 ∧ g.consumed = 100 ∧ g.position = 0 ∧ g.active.budget = 120000 ∧ g.standby.budget = 200000
      ∧ g.exchangePending = false ∧ g.causes = 0x61#7 := by decide +kernel

/-- A tick at POSITION PERIOD-1 owes a window end and does not move POSITION (R67). -/
theorem test_tick_lastPosition :
    let t := after (exec .tick { budgetCut with windowEndDue := [] })
    t.windowEndDue = [9] ∧ (reg t 9).position = 999 ∧ t.timebase = 1#32 := by decide +kernel

/-- A charge that passes the budget sets EXHAUSTED and closes the gate (R80). -/
theorem test_grant_exhausts :
    let s := setReg waiting 2 { reg waiting 2 with consumed := 90 }
    let t := after (exec .grant s)
    (reg t 2).consumed = 154 ∧ (reg t 2).causes = 0x02#7 ∧ gateOpen (reg t 2) = false ∧ t.pool = [] := by
  decide +kernel

/-- Word 6 of a RUNNING regulator with one pooled request and two outstanding (R201). -/
theorem test_readWord_status :
    readWord (setReg waiting 2 { reg waiting 2 with outstandingCount := 2 }) 1 2 6 = some 0x00010202 := by
  decide +kernel

/-- An OUTSTANDING word: LIVE charged to 2, READ, initiator 3, tag 9, length 64, age 512 (R203). -/
theorem test_readWord_outstanding :
    readWord (inTable 7 (outEntry .live (some 2) 512 0 keyA) running) 4 7 0 = some 0x023F24C3 := by decide +kernel

/-- A record of R195 as the reply carries it. -/
theorem test_takeDenial_record :
    recordBytes record =
      [0x01#8, 3#8, 9#8, 1#8, 0x12#8, 0x34#8, 0x56#8, 0x78#8, 0x9A#8, 0x01#8, 0x2C#8, 0x02#8, 2#8, 0#8, 0#8, 0#8,
        40#8] := by decide +kernel

/-- A write of an OPEN LENGTH above PERIOD gives RANGE, a write to a RUNNING regulator's setup LOCKED, one to word 6
INDEX (R192). -/
theorem test_writeWord_refusals :
    (writeWord running 1 0 2 0x00030002).1 = .range ∧ (writeWord running 1 2 0 0x00080000).1 = .locked
      ∧ (writeWord running 1 2 6 0).1 = .index ∧ (writeWord running 1 0 0 0x00080002).1 = .range := by decide +kernel

/-- One DISABLE merges the lane by arrival order (R107). -/
theorem test_disable_merges :
    let s := pooling (entryOf .forward .bypass 2 keyB)
      (pooling (entryOf .forward (.regulator 2) 1 keyA) (pooling (entryOf .forward .bypass 0 keyB) running))
    (after (exec (.disable 0x0004#16) s)).pool.map (fun e => (e.lane, e.place))
      = [(.bypass, 0), (.bypass, 1), (.bypass, 2)] := by decide +kernel

/-- A START of an OFF regulator has no effect: status NO EFFECT, took-effect mask 0 (R193). -/
theorem test_start_off :
    (after (exec (.start 0x0001#16) State.reset)).port
      = .reply [0x01#8, 0x00#8, 0x00#8, crc8 [0x01#8, 0x00#8, 0x00#8]] := by decide +kernel

/-- Two LIVE entries of one key. -/
def pair : State := inTable 1 (outEntry .live none 2 4 keyA) (inTable 0 (outEntry .live none 5 3 keyA) State.reset)

/-- The older one has reached RESPONSE TIMEOUT. -/
def aged : State := { pair with responseTimeout := 5, expiryDue := true }

/-- A run of two entries is abandoned whole, in arrival order (R139, R142). -/
theorem test_expiry_run :
    let t := after (exec .expiry aged)
    t.owed.map (·.place) = [3, 4] ∧ t.deviceCauses = 0x02#6 ∧ (counts t keyA) = { pooled := 0, live := 0, owed := 2 } := by
  decide +kernel

/-- An unexpected response is discarded and sets UNEXPECTED RESPONSE (R135). -/
theorem test_responseOffered_unexpected :
    [ResponseStatus.okay, .memoryError].map (fun x =>
        let t := after (exec (.responseOffered { answer keyA with status := x }) State.reset)
        (t.memoryOffer, t.deviceCauses))
      = [(none, 0x04#6), (none, 0x04#6)] := by decide +kernel

/-- A toggle selection halts a RUNNING regulator (R156). -/
theorem test_synEdge_toggle :
    let both : Selection := { line := some 1, edge := .both }
    let s := setReg running 2 { reg running 2 with triggers := { (reg running 2).triggers with start := both, halt := both } }
    (reg (after (exec (.synEdge 1 true) s)) 2).state = .halted := by decide +kernel

/-- The first SYN sample after a taken FULL RESET makes no edge (R197), and the level it finds is kept. -/
theorem test_fullReset_syn :
    let s := after (exec .fullReset { State.reset with syn := Vector.replicate 4 { level := true, kept := some true } })
    s.syn[1] = { level := true, kept := none }
      ∧ (after (exec (.synEdge 1 false) s)).syn[1] = { level := false, kept := some false }
      ∧ (after (exec .tick s)).syn[1] = { level := true, kept := some true } := by decide +kernel

/-- Marker line 0 shows SAMPLED of regulator 2, its pulse just begun. -/
def pulsing : State :=
  { running with markers := running.markers.set 0 { source := 2, kind := .sampled, pulseLeft := 4 } }

/-- A tick that ends 98 more REFCLK periods ends a pulse that had four left; one that ends two more leaves two (R163). -/
theorem test_tick_pulse :
    markerHigh pulsing 0 = true
      ∧ markerHigh (after (exec .tick { pulsing with divider := 2 })) 0 = false
      ∧ ((after (exec .tick { pulsing with divider := 98 })).markers[0]).pulseLeft = 2 := by decide +kernel

/-- PRST drops a RUNNING regulator to ARMED (R62). -/
theorem test_prst_falls :
    let t := after (exec .prstAsserted waiting)
    (reg t 2).state = .armed ∧ t.pool = [] ∧ counts t keyA = freeKey := by decide +kernel

/-- FULL RESET with an entry outstanding is BUSY, CRC 0x1B (R197). -/
theorem test_fullReset_busy :
    (after (exec .fullReset (inTable 0 (outEntry .live none 0 0 keyA) State.reset))).port
      = .reply [0x05#8, 0x1B#8] := by decide +kernel

/-- With nothing to do, 100 REFCLK periods after reset make the first tick (R63). -/
theorem test_idle_tick :
    (after (step { State.reset with divider := 99 })).timebase = 1#32
      ∧ (after (step { State.reset with divider := 98 })).timebase = 0#32 := by decide +kernel

/-! ## Every premise of a statement is met by some state -/

/-- The path held by PRST. -/
def held : State := { State.reset with prst := true }

/-- POR asserted. -/
def inPor : State := { blocksReset State.reset with por := true }

/-- An owed TIMEOUT response. -/
def owed : State := owing keyA 0 { State.reset with nextPlace := 1 }

/-- An eligible DENY head. -/
def denying : State := pooling (entryOf (.deny .quota) .bypass 0 keyA) State.reset

/-- A LIVE entry of one key, charged to regulator 2. -/
def live : State := inTable 0 (outEntry .live (some 2) 3 0 keyA) (setReg running 2 { reg running 2 with outstandingCount := 1 })

/-- An ABANDONED entry of one key in the last place. -/
def abandoned : State := inTable 63 (outEntry .abandoned none 3 0 keyA) State.reset

/-- Memory answers the LIVE entry. -/
def answered : State := { live with memoryOffer := some (answer keyA) }

/-- A well-formed request for lane 2 is offered. -/
def offered : State := offering (readOf keyA) running

/-- A malformed request of a free key is offered. -/
def refusing : State := offering (badOf keyA) State.reset

/-- A malformed request of a busy key is offered while another is held downstream. -/
def deferring : State :=
  offering (badOf keyB) (pooling (entryOf .forward .bypass 0 keyB) { State.reset with held := some (readOf keyA) })

/-- Lane 2 stands at a HOLD QUOTA of 1, under a policy. -/
def atQuota (p : OverflowPolicy) : State :=
  setReg waiting 2 { reg waiting 2 with setup := { resetRegulator.setup with holdQuota := 1, policy := p } }

/-- The pool is full of bypass entries and lane 2 empty, under a policy. -/
def noRoom (p : OverflowPolicy) : State :=
  setCounts (setReg (fullPool running) 2 { reg running 2 with setup := { resetRegulator.setup with policy := p } }) keyB
    { pooled := 48, live := 0, owed := 0 }

theorem oldestAt_of_only {s : State} {k : Key} {i : Fin 64} {e : OutEntry} (h : s.outstanding[i] = some e)
    (hk : e.key = k) (h0 : ∀ j : Fin 64, j ≠ i → s.outstanding[j] = none) : OldestAt s k i e :=
  ⟨h, hk, fun j f hf _ hj => by rw [h0 j hj] at hf; cases hf⟩

theorem oldestAt_answered : OldestAt answered keyA 0 (outEntry .live (some 2) 3 0 keyA) :=
  oldestAt_of_only (by decide +kernel) rfl (by decide +kernel)

theorem nothing_considered {P : Request → Verdict → Prop} (s : State) (h : considered s = none) :
    ∀ q v, considered s = some (q, v) → P q v := by
  intro q v hq; rw [h] at hq; cases hq

theorem test_meets_StepExecutesFrontCommand :
    ({ State.reset with pending := [.tick, .grant] } : State).pending = .tick :: [.grant] := rfl

theorem test_meets_EmptyQueueMakesOwnEventOrPassesRefclk :
    (owed.pending = [] ∧ Quiet owed ∧ award owed = some .timeoutList)
    ∧ (denying.pending = [] ∧ Quiet denying ∧ award denying = some .denyHead)
    ∧ (answered.pending = [] ∧ Quiet answered ∧ award answered = some .memory)
    ∧ (refusing.pending = [] ∧ Quiet refusing ∧ award refusing = some .intake)
    ∧ (waiting.pending = [] ∧ Quiet waiting ∧ award waiting = none ∧ choice waiting ≠ none) := by decide +kernel

theorem test_meets_EmptyQueue_takes :
    (offered.pending = [] ∧ Quiet offered ∧ award offered = none ∧ choice offered = none
      ∧ considered offered = some (readOf keyA, judge offered (readOf keyA))
      ∧ (judge offered (readOf keyA)).disposition = .forward)
    ∧ (deferring.pending = [] ∧ Quiet deferring ∧ award deferring = none ∧ choice deferring = none
      ∧ considered deferring = some (badOf keyB, judge deferring (badOf keyB))
      ∧ (judge deferring (badOf keyB)).disposition = .denyEntry .malformed) := by decide +kernel

theorem test_meets_EmptyQueue_refclk :
    (State.reset.pending = [] ∧ Quiet State.reset ∧ award State.reset = none ∧ choice State.reset = none
      ∧ State.reset.por = false ∧ State.reset.divider + 1 < State.reset.interval)
    ∧ (let s : State := { State.reset with divider := 99 }
      Quiet s ∧ award s = none ∧ choice s = none ∧ s.interval ≤ s.divider + 1)
    ∧ considered State.reset = none := by decide +kernel

theorem test_meets_CommandsMeetFinishedTick : (∀ r, Instr.grant ≠ .windowEnd r) ∧ Instr.grant ≠ .expiry := by
  constructor <;> simp

theorem test_meets_WindowEndsOfOneTickCommute :
    ∃ a b, exec (.windowEnd 9) budgetCut = .next a ∧ exec (.windowEnd 2) budgetCut = .next b := ⟨_, _, rfl, rfl⟩

theorem test_meets_ImpossibleEventsChangeNothing :
    (0 ∉ budgetCut.windowEndDue ∧ budgetCut.expiryDue = false)
    ∧ Quiet held ∧ considered held = none
    ∧ (award held ≠ some .intake ∧ award held ≠ some .denyHead ∧ award held ≠ some .memory
        ∧ award held ≠ some .timeoutList)
    ∧ choice held = none ∧ held.responses = [] ∧ held.prst = true ∧ held.por = false
    ∧ Quiet State.reset ∧ State.reset.prst = false := by decide +kernel

/-- Page 0 is BASE and LIMIT of entry 0; page 1 matches no entry. -/
theorem test_meets_LowestMatchingEntryClassifies :
    (let s := mapped (.regulator 2) State.reset
      let q := readOf keyA
      (s.map[0]).valid = true ∧ (s.map[0]).direction = .both ∧ (s.map[0]).initiator = none
        ∧ (s.map[0]).base ≤ q.address.toNat / 4096 ∧ q.address.toNat / 4096 ≤ (s.map[0]).limit
        ∧ ∀ j : Fin 32, ¬ j < 0)
    ∧ (let s := mapped (.regulator 2) State.reset
      let q : Request := { readOf keyA with address := 0x1000#40 }
      ∀ i : Fin 32, ¬ ((s.map[i]).valid = true ∧ q.address.toNat / 4096 ≤ (s.map[i]).limit)) := by decide +kernel

/-- Lengths 0 and 257 and a crossing are malformed; lengths 1 and 256 are not. A key is free, busy with room in the pool,
busy with none. -/
theorem test_meets_TakeDecision_malformed :
    ((badOf keyA).length.val = 0 ∧ 256 < (257 : Fin 4096).val ∧ 4096 < 0xFFF % 4096 + (2 : Fin 4096).val)
    ∧ counts State.reset keyA = { pooled := 0, live := 0, owed := 0 }
    ∧ ((counts deferring keyB).pooled ≠ 0 ∧ ¬ 48 ≤ deferring.pool.length)
    ∧ ((counts (noRoom .stall) keyB).pooled ≠ 0 ∧ 48 ≤ (noRoom .stall).pool.length) := by decide +kernel

/-- A well-formed request for lane 2: at quota, below quota with the pool full, below quota with room, by either policy. -/
theorem test_meets_TakeDecision_lanes :
    (∀ p ∈ [OverflowPolicy.stall, .reject],
      classify (atQuota p) (readOf keyA) = .regulator 2 ∧ (reg (atQuota p) 2).state = .running
        ∧ (reg (atQuota p) 2).setup.holdQuota ≤ (atQuota p).pool.countP (fun e => e.lane == .regulator 2)
        ∧ (reg (atQuota p) 2).setup.policy = p)
    ∧ (∀ p ∈ [OverflowPolicy.stall, .reject],
      classify (noRoom p) (readOf keyA) = .regulator 2 ∧ (reg (noRoom p) 2).state = .running
        ∧ (noRoom p).pool.countP (fun e => e.lane == .regulator 2) < (reg (noRoom p) 2).setup.holdQuota
        ∧ 48 ≤ (noRoom p).pool.length ∧ (reg (noRoom p) 2).setup.policy = p)
    ∧ (classify running (readOf keyA) = .regulator 2 ∧ ¬ 48 ≤ running.pool.length)
    ∧ classify (withState 2 .armed running) (readOf keyA) = .regulator 2
    ∧ (reg (withState 2 .armed running) 2).state = .armed
    ∧ classify State.reset (readOf keyA) = .bypass ∧ classify (fullPool State.reset) (readOf keyA) = .bypass
    ∧ 48 ≤ (fullPool State.reset).pool.length := by decide +kernel

theorem test_meets_RequestOfferedIsConsidered :
    (Quiet held ∧ flowing held = false) ∧ Quiet running ∧ flowing running = true := by decide +kernel

/-- A standing offer at quota: considered with the cause set and its pulse partly run, at quota for the first time, and with
another lane found before; a full pool found for the first time and again; nothing offered. -/
theorem test_meets_ReconsiderationSetsNothingAgain :
    let s0 : State := offering (readOf keyA)
      { atQuota .stall with markers := (atQuota .stall).markers.set 3 { source := 2, kind := .quotaHit, pulseLeft := 2 } }
    (ConsideredOk (consider s0) ∧ (reg (consider s0) 2).causes = 0x08#7 ∧ (consider s0).offer ≠ none)
    ∧ (let s : State := { consider s0 with markers := s0.markers }
      ConsideredOk s ∧ (s.markers[3]).pulseLeft = 2)
    ∧ (flowing s0 = true ∧ (judge s0 (readOf keyA)).atQuota = some 2 ∧ (s0.markers[3]).kind = .quotaHit
      ∧ ∀ run ∈ [none, some 1], run ≠ some (2 : RegNo))
    ∧ (let s := offering (readOf keyA) (noRoom .stall)
      flowing s = true ∧ (judge s (readOf keyA)).foundFull = true ∧ ∃ o ∈ s.offer, o.poolRun = false)
    ∧ State.reset.offer = none ∧ flowing held = false := by decide +kernel

theorem test_meets_ForwardTakeJoinsTheLane :
    Quiet offered ∧ considered offered = some (readOf keyA, judge offered (readOf keyA))
      ∧ (judge offered (readOf keyA)).disposition = .forward := by decide +kernel

theorem test_meets_DenyEntryTakeJoinsTheBypassLane :
    Quiet deferring ∧ considered deferring = some (badOf keyB, judge deferring (badOf keyB))
      ∧ (judge deferring (badOf keyB)).disposition = .denyEntry .malformed := by decide +kernel

theorem test_meets_DirectDenialAnswersTheRequest : Quiet refusing ∧ award refusing = some .intake := by
  decide +kernel

theorem test_meets_GrantChoosesHighestPriorityThenOldest :
    choice waiting = some (entryOf .forward (.regulator 2) 0 keyA, 0)
      ∧ laneHead waiting (.regulator 2) = some (entryOf .forward (.regulator 2) 0 keyA)
      ∧ Candidate waiting (entryOf .forward (.regulator 2) 0 keyA)
      ∧ choice State.reset = none := by decide +kernel

theorem test_meets_GrantMovesAndChargesTheChosenHead :
    Quiet waiting ∧ choice waiting = some (entryOf .forward (.regulator 2) 0 keyA, 0) := by decide +kernel

theorem test_meets_PartnersTakeWhatIsOffered :
    let s : State := { State.reset with responses := [answer keyA, answer keyB] }
    Quiet s ∧ flowing s = true ∧ s.responses = answer keyA :: [answer keyB] := by decide +kernel

theorem test_meets_OfferedResponseIsMatched :
    (Quiet held ∧ flowing held = false) ∧ (Quiet State.reset ∧ flowing State.reset = true)
    ∧ (∀ (i : Fin 64) (e : OutEntry), State.reset.outstanding[i] = some e → e.key ≠ keyA)
    ∧ (Quiet abandoned ∧ flowing abandoned = true ∧ OldestAt abandoned keyA 63 (outEntry .abandoned none 3 0 keyA))
    ∧ Quiet answered ∧ flowing answered = true ∧ OldestAt answered keyA 0 (outEntry .live (some 2) 3 0 keyA) := by
  have free : ∀ i : Fin 64, State.reset.outstanding[i] = none := by decide +kernel
  refine ⟨by decide +kernel, by decide +kernel, fun i e h => ?_, ?_, ?_⟩
  · rw [free i] at h; cases h
  · exact ⟨by decide +kernel, by decide +kernel, oldestAt_of_only (by decide +kernel) rfl (by decide +kernel)⟩
  · exact ⟨by decide +kernel, by decide +kernel, oldestAt_answered⟩

theorem test_meets_AwardGoesToFirstStandingClaim :
    (∀ p ∈ inUse aged, ∀ q ∈ inUse aged, p.2.place = q.2.place → p.1 = q.1) ∧ (inUse aged).length = 2 := by
  decide +kernel

theorem test_meets_MemoryResponseEntersTheQueue :
    Quiet answered ∧ award answered = some .memory ∧ answered.memoryOffer = some (answer keyA)
      ∧ OldestAt answered (answer keyA).key 0 (outEntry .live (some 2) 3 0 keyA) :=
  ⟨by decide +kernel, by decide +kernel, rfl, oldestAt_answered⟩

theorem test_meets_DenyEmissionAnswersTheHead : Quiet denying ∧ award denying = some .denyHead := by decide +kernel

theorem test_meets_TimeoutResponseEntersTheQueue : Quiet owed ∧ award owed = some .timeoutList := by decide +kernel

theorem test_meets_TickMovesWindowsAndAges : Quiet answered ∧ answered.por = false := by decide +kernel

theorem test_meets_WindowEndClosesTheWindow :
    9 ∈ budgetCut.windowEndDue ∧ (reg budgetCut 9).state = .running := by decide +kernel

/-- The counts are sound when they are so for the keys that have work in the part and 0 for all others. -/
theorem countsOk_of_keys {s : State} (ks : List Key) (hk : ∀ k ∈ ks, KeyCountsOk s k)
    (h0 : ∀ k, k ∉ ks → counts s k = freeKey) (hp : ∀ e ∈ s.pool, e.request.key ∈ ks)
    (ht : ∀ p ∈ inUse s, p.2.key ∈ ks) (ho : ∀ x ∈ s.owed, x.key ∈ ks) (k : Key) : KeyCountsOk s k := by
  by_cases h : k ∈ ks
  · exact hk k h
  · have e1 : s.pool.countP (fun e => e.request.key == k) = 0 :=
      List.countP_eq_zero.2 fun e he => by simpa using fun (q : e.request.key = k) => h (q ▸ hp e he)
    have e2 : liveOfKey s k = 0 :=
      List.countP_eq_zero.2 fun p hp => by simpa using fun _ (q : p.2.key = k) => h (q ▸ ht p hp)
    have e3 : s.owed.countP (fun x => x.key == k) = 0 :=
      List.countP_eq_zero.2 fun x hx => by simpa using fun (q : x.key = k) => h (q ▸ ho x hx)
    show counts s k = _
    rw [h0 k h, e1, e2, e3]; rfl

theorem counts_reset (k : Key) : counts State.reset k = freeKey := by simp [counts, State.reset]

theorem counts_inTable {i : Fin 64} {e : OutEntry} {s : State} {k : Key} (h : k ≠ e.key) :
    counts (inTable i e s) k = counts s k := by
  rw [counts_of_tracker (s := s) (t := inTable i e s) (k := e.key) rfl k, if_neg h]

/-- A run of two entries to abandon and after it a run of one, and a timeout list with n other items. -/
def crowded (n : Nat) : State :=
  setCounts
    { inTable 2 (outEntry .live none 5 5 keyC) aged with
      owed := (List.range n).map fun m => { key := keyB, direction := .read, place := m + 10 }
      nextPlace := 100 } keyB { pooled := 0, live := 0, owed := n }

theorem countsOk_crowded : ∀ n ∈ [0, 62, 63], CountsOk (crowded n) := by
  intro n hn
  refine ⟨fun i t => countsOk_of_keys [keyA, keyB, keyC] ?_ ?_ ?_ ?_ ?_ _, ?_⟩
  · revert n; decide +kernel
  · intro k hk
    simp only [List.mem_cons, List.not_mem_nil, or_false, not_or] at hk
    unfold crowded
    rw [counts_setCounts, if_neg hk.2.1]
    show counts (inTable 2 _ aged) k = freeKey
    rw [counts_inTable hk.2.2]
    show counts pair k = freeKey
    unfold pair
    rw [counts_inTable hk.1, counts_inTable hk.1, counts_reset]
  · revert n; decide +kernel
  · revert n; decide +kernel
  · revert n; decide +kernel
  · revert n; decide +kernel

/-- With 62 items the run of two just fits, and the run of one no more; with 63 the run of two does not fit, and the run of
one does (R140). -/
theorem test_expiry_room :
    ((after (exec .expiry (crowded 62))).owed.map (·.place)).take 2 = [3, 4]
      ∧ (after (exec .expiry (crowded 62))).outstanding[2] = some (outEntry .live none 5 5 keyC)
      ∧ (after (exec .expiry (crowded 63))).outstanding[0] = some (outEntry .live none 5 3 keyA)
      ∧ (after (exec .expiry (crowded 63))).outstanding[2] = some (outEntry .abandoned none 5 5 keyC) := by decide +kernel

theorem test_meets_ExpiryAbandonsWholeRuns :
    (∀ n ∈ [0, 62, 63], (crowded n).expiryDue = true ∧ (crowded n).outstanding[0] = some (outEntry .live none 5 3 keyA)
        ∧ expiring (crowded n).responseTimeout (outEntry .live none 5 3 keyA) = true
        ∧ (crowded n).outstanding[2] = some (outEntry .live none 5 5 keyC)
        ∧ expiring (crowded n).responseTimeout (outEntry .live none 5 5 keyC) = true
        ∧ expiring (crowded n).responseTimeout (outEntry .live none 2 4 keyA) = false)
    ∧ (∀ n ∈ [0, 62, 63], StoresOk (crowded n) ∧ KeyOrderOk (crowded n))
    ∧ liveOfKey (crowded 62) keyA + (crowded 62).owed.length ≤ 64
    ∧ ¬ liveOfKey (crowded 63) keyA + (crowded 63).owed.length ≤ 64 := by
  refine ⟨by decide +kernel, ?_, by decide +kernel, by decide +kernel⟩
  have stores : ∀ n ∈ [0, 62, 63], PoolOk (crowded n) ∧ TableOk (crowded n) := by decide +kernel
  have order : ∀ n ∈ [0, 62, 63], KeyOrderOk (crowded n) := by decide +kernel
  exact fun n h => ⟨⟨(stores n h).1, (stores n h).2, countsOk_crowded n h⟩, order n h⟩

theorem test_meets_SynEdgeDeliversFunctionsInOrder :
    (Quiet running ∧ running.por = false ∧ (running.syn[1]).kept = some (!true)
      ∧ (running.syn[0]).kept ≠ some (!false))
    ∧ (let s : State := { running with syn := running.syn.set 3 { level := true, kept := none } }
      Quiet s ∧ s.por = false ∧ (s.syn[3]).kept ≠ some (!true) ∧ (s.syn[3]).kept ≠ some (!false))
    ∧ Quiet inPor ∧ inPor.por = true := by decide +kernel

/-- RESTART with an exchange pending, at an edge, pulses an EXCHANGED line of a RUNNING source (R155, R161). -/
theorem test_synEdge_exchanged :
    let s := setReg { running with markers := running.markers.set 0 { source := 2, kind := .exchanged, pulseLeft := 0 } } 2
      { reg running 2 with
        exchangePending := true
        triggers := { (reg running 2).triggers with restart := { line := some 1, edge := .rising } } }
    ((after (exec (.synEdge 1 true) s)).markers[0]).pulseLeft = 4 := by decide +kernel

/-- A pulse that ends before the next tick, one that ends as the tick comes due, one that the tick comes before; no pulse. -/
theorem test_meets_MarkerPulseEndsLow :
    (∀ n ∈ [0, 96], let s : State := { pulsing with divider := n }
      Quiet s ∧ s.por = false ∧ 0 < (s.markers[0]).pulseLeft ∧ s.divider + (s.markers[0]).pulseLeft ≤ s.interval
        ∧ (s.markers[0]).kind ≠ .gate)
    ∧ (let s : State := { pulsing with divider := 97 }
      Quiet s ∧ s.interval < s.divider + (s.markers[0]).pulseLeft)
    ∧ (Quiet running ∧ (running.markers[0]).pulseLeft = 0) ∧ Quiet inPor ∧ inPor.por = true := by decide +kernel

theorem test_meets_PrstEmptiesThePath : Quiet waiting ∧ waiting.prst = false := by decide +kernel

theorem test_meets_PrstDeassertionResumesTheLink :
    (Quiet held ∧ held.prst = true ∧ held.offer = none ∧ held.memoryOffer = none)
    ∧ (let s : State := { held with memoryOffer := some (answer keyA) }
      Quiet s ∧ s.prst = true ∧ s.offer = none ∧ s.memoryOffer = some (answer keyA))
    ∧ (let s := offering (readOf keyB) held
      Quiet s ∧ s.prst = true ∧ s.offer.isSome = true ∧ s.memoryOffer = none)
    ∧ (let s := offering (readOf keyB) { held with memoryOffer := some (answer keyA) }
      Quiet s ∧ s.prst = true ∧ s.offer.isSome = true ∧ s.memoryOffer = some (answer keyA)) := by decide +kernel

theorem test_meets_PorResetsEveryBlock : Quiet waiting := by decide +kernel

theorem test_meets_PorDeassertionStartsThePart :
    (Quiet inPor ∧ inPor.por = true ∧ inPor.offer = none ∧ inPor.memoryOffer = none)
    ∧ (let s := offering (readOf keyB) { inPor with memoryOffer := some (answer keyA) }
      Quiet s ∧ s.por = true ∧ s.offer.isSome = true ∧ s.memoryOffer = some (answer keyA))
    ∧ (let s := offering (readOf keyB) inPor
      Quiet s ∧ s.por = true ∧ s.offer.isSome = true ∧ s.memoryOffer = none)
    ∧ (let s : State := { inPor with memoryOffer := some (answer keyA) }
      Quiet s ∧ s.por = true ∧ s.offer = none ∧ s.memoryOffer = some (answer keyA)) := by decide +kernel

theorem test_meets_FrameBytesPerformTheRow : Quiet waiting ∧ waiting.por = false ∧ waiting.port = .idle := by
  decide +kernel

/-- The frame of the worked sequence: TAKE DENIAL with its check byte corrupted to 0x13. -/
theorem test_meets_BadCrcSetsFrameErrorOnly :
    PortReady waiting
    ∧ commandPartLength 0x06#8 = some (([] : List Byte).length + 2) ∧ crc8 (0x06#8 :: []) ≠ 0x13#8
    ∧ let s : State := { waiting with sel := true, port := .command (0x06#8 :: []) }
      Quiet s ∧ s.por = false ∧ s.port = .command (0x06#8 :: []) := by decide +kernel

theorem test_meets_UnknownCodeIsAnsweredAtOnce :
    commandPartLength 0x00#8 = none ∧ commandPartLength 0xFF#8 = none ∧ commandPartLength 0x08#8 = none
      ∧ PortReady waiting
      ∧ let s : State := { waiting with sel := true, port := .command [] }
        Quiet s ∧ s.por = false ∧ s.port = .command [] := by decide +kernel

/-- The port in each state, with the last parameter byte but one of a READ FIELD as the boundary. -/
theorem test_meets_PortStatesFollowSelAndSlots :
    (Quiet State.reset ∧ State.reset.por = false ∧ State.reset.port = .idle) ∧ (Quiet inPor ∧ inPor.por = true)
    ∧ commandPartLength 0x02#8 = some 5 ∧ [0x00#8, 0x00#8].length + 2 < 5
    ∧ ∀ p ∈ [Port.command [], .command (0x02#8 :: [0x00#8, 0x00#8]), .reply (0x00#8 :: 0x01#8 :: []),
        .reply [0x01#8], .after, .barred],
      let s : State := { State.reset with sel := true, port := p }
      Quiet s ∧ s.por = false ∧ s.port = p := by decide +kernel

theorem test_meets_IdentifyAndSummaryReport : PortReady waiting ∧ PortReady held := by decide +kernel

theorem test_meets_ReadFieldAnswersExistingWords :
    PortReady waiting
      ∧ (Existing 0x00#8 0x00#8 0x07#8 ∧ Existing 0x01#8 0x0F#8 0x0D#8 ∧ Existing 0x02#8 0x1F#8 0x02#8
        ∧ Existing 0x03#8 0x10#8 0x00#8 ∧ Existing 0x04#8 0x3F#8 0x00#8)
      ∧ (¬ Existing 0x00#8 0x00#8 0x08#8 ∧ ¬ Existing 0x01#8 0x0F#8 0x0E#8 ∧ ¬ Existing 0x01#8 0x10#8 0x00#8)
      ∧ ¬ Existing 0x02#8 0x20#8 0x00#8 ∧ ¬ Existing 0x03#8 0x11#8 0x00#8 ∧ ¬ Existing 0x04#8 0x40#8 0x00#8
      ∧ (∀ r : RegNo, Lane.bypass = .regulator r ↔ (16 : Fin 17).val = r.val)
      ∧ (∀ r : RegNo, Lane.regulator 15 = .regulator r ↔ (15 : Fin 17).val = r.val) := by
  refine ⟨by decide +kernel, ⟨?_, ?_, ?_, ?_, ?_⟩, by decide +kernel, by decide +kernel⟩ <;> decide +kernel

theorem test_meets_RefusedWritesChangeNothing :
    PortReady waiting ∧ (writeWord waiting 1 2 0 0).1 ≠ .done ∧ Writable 0x01#8 0x02#8 0x00#8
      ∧ LockedWord waiting 0x01#8 0x02#8 0x00#8 0#32 ∧ ¬ Writable 0x00#8 0x00#8 0x04#8 := by decide +kernel

/-- SHAPE is out of range on regulator 11 and in range on regulator 12. -/
theorem test_meets_RefusedWrites_range :
    (Writable 0x01#8 0x0B#8 0x00#8 ∧ ¬ LockedWord waiting 0x01#8 0x0B#8 0x00#8 0x00080002#32)
      ∧ OutOfRange waiting 0x01#8 0x0B#8 0x00#8 0x00080002 ∧ ¬ OutOfRange waiting 0x01#8 0x0C#8 0x00#8 0x00080002 :=
  ⟨by decide +kernel, by simp [OutOfRange], by simp [OutOfRange]⟩

/-- The bounds of R200 to R202, one value inside and the next one outside: PRESCALE, RESPONSE TIMEOUT, DEFAULT TARGET,
MARKERS, HOLD QUOTA, OUTSTANDING LIMIT, triggers, OPEN LENGTH, BUDGET, BASE. -/
theorem test_writeWord_ranges :
    [(0, 0, 0x10000), (0, 0, 0x10001), (0, 1, 0xFFFF), (0, 1, 0x10000), (0, 2, 0x310), (0, 2, 0x011), (0, 3, 0x60),
      (0, 3, 0x70000000), (1, 0, 0x40300000), (1, 0, 0x40310000), (1, 0, 0x41300000), (1, 1, 0x14000000),
      (1, 1, 0x18000000), (1, 4, 0x00020002), (1, 4, 0x00030002), (1, 3, 0xFFFFFF), (1, 5, 0x1000000), (2, 1, 0xFFFFFFF),
      (2, 2, 0x10000000)].map (fun p => (writeWord State.reset p.1 0 p.2.1 p.2.2).1)
    = [.done, .range, .done, .range, .done, .range, .done, .range, .done, .range, .range, .done, .range, .done, .range,
        .done, .range, .done, .range] := by decide +kernel

theorem test_meets_StoredWritesReadBack :
    PortReady waiting ∧ (writeWord waiting 1 0 0 0xFFFFFFFF).1 ≠ .done
      ∧ (writeWord waiting 1 0 0 0xC030D1B1).1 = .done ∧ Writable 0x01#8 0x00#8 0x0D#8
      ∧ ¬ (0x01#8 = 0x01#8 ∧ 0x00#8 = 0x00#8 ∧ 0x0D#8 = 0x00#8) := by decide +kernel

/-- PRESCALE 1 and 65,536, RESPONSE TIMEOUT 65,535, BYPASS at priority 3, and a MARKERS word of legal kinds. -/
theorem test_meets_DeviceWordsAreStored :
    (PortReady State.reset ∧ ∀ r : RegNo, (reg State.reset r).state = .off ∨ (reg State.reset r).state = .armed)
    ∧ (1 ≤ (65536#32).toNat ∧ (65536#32).toNat ≤ 65536) ∧ (65535#32).toNat ≤ 65535
    ∧ ((0x310#32).toNat % 32 = targetCode .bypass ∧ (0x310#32).toNat / 256 % 8 ≤ 3)
    ∧ ∀ l : Fin 4, (0x60514233#32).toNat / 2 ^ (8 * l.val + 4) % 8 ≠ 7 := by decide +kernel

/-- The setup of a SHAPE regulator 15 at HOLD QUOTA 48 and OUTSTANDING LIMIT 64; selections on SYN3 and BOTH; a profile
with OPEN LENGTH equal to PERIOD; a budget of 16,777,215. -/
theorem test_meets_RegulatorWordsAreStored :
    (PortReady State.reset ∧ (reg State.reset 15).state = .off)
    ∧ (let u : Setup :=
        { mode := .shape, priority := 3, policy := .reject, holdQuota := 48, outstandingLimit := 64, autoSample := true }
      let v := (0x40301132#32).toNat
      SetupOk 15 u ∧ v % 4 = modeCode u.mode ∧ v / 2 ^ 4 % 8 = u.priority ∧ v / 2 ^ 8 % 4 = policyCode u.policy
        ∧ v / 2 ^ 12 % 4 = flagBit u.autoSample ∧ v / 2 ^ 16 % 64 = u.holdQuota ∧ v / 2 ^ 24 % 128 = u.outstandingLimit)
    ∧ (let t : Triggers :=
        { start := { line := some 3, edge := .both }, halt := resetSelection, restart := resetSelection,
          sample := resetSelection, exchange := { line := some 0, edge := .falling } }
      let v := (0x09000014#32).toNat
      v % 32 = selectionBits t.start ∧ v / 2 ^ 6 % 32 = selectionBits t.halt
        ∧ v / 2 ^ 12 % 32 = selectionBits t.restart ∧ v / 2 ^ 18 % 32 = selectionBits t.sample
        ∧ v / 2 ^ 24 % 32 = selectionBits t.exchange)
    ∧ ((0xFFFFFFFF#32).toNat = 65535 + 65535 * 2 ^ 16 ∧ (0x00010001#32).toNat = 1 + 1 * 2 ^ 16)
    ∧ (16777215#32).toNat ≤ 16777215 := by decide +kernel

theorem test_meets_MapWordsAreStored :
    (PortReady State.reset ∧ (State.reset.map[31]).valid = false ∧ (268435455#32).toNat ≤ 268435455
      ∧ (State.reset.map[31]).base ≤ (State.reset.map[31]).limit)
    ∧ (let v := (0x00101021#32).toNat
      v % 2 = flagBit true ∧ v / 2 ^ 4 % 4 = directionMatchCode .both ∧ v / 2 ^ 8 % 32 = initiatorCode none
        ∧ v / 2 ^ 16 % 32 = targetCode .bypass)
    ∧ (let v := (0x000F0F10#32).toNat
      v % 2 = flagBit false ∧ v / 2 ^ 4 % 4 = directionMatchCode .write ∧ v / 2 ^ 8 % 32 = initiatorCode (some 15)
        ∧ v / 2 ^ 16 % 32 = targetCode (.regulator 15)) := by decide +kernel

theorem test_meets_RegulatorCommandsFollowTheTable :
    PortReady waiting ∧ 0 = (0x00#8).toNat ∧ 7 < (0x08#8).toNat ∧ CommandKind.exchange ≠ .disable := by decide +kernel

theorem test_meets_DisableMergesAndUncharges :
    PortReady waiting ∧ (0x0004#16).getLsbD (2 : RegNo).val = true ∧ (reg waiting 2).state ≠ .off
      ∧ waiting.pool[0]? = some (entryOf .forward (.regulator 2) 0 keyA) := by decide +kernel

theorem test_meets_ClearCausesClearsTheNamedSet :
    PortReady waiting ∧ ((0x0F#8).toNat = (15 : RegNo).val ∧ (0x7F#8).toNat < 128) ∧ (0x3F#8).toNat < 64
      ∧ ((0x0F#8).toNat < 16 ∧ 128 ≤ (0x80#8).toNat) ∧ 64 ≤ (0x40#8).toNat
      ∧ 16 ≤ (0x10#8).toNat ∧ 0x10#8 ≠ 0xFF#8 ∧ 0xFE#8 ≠ 0xFF#8 := by decide +kernel

theorem test_meets_TakeDenialRemovesTheOldestRecord :
    (PortReady State.reset ∧ State.reset.denials = [])
      ∧ let s : State := { State.reset with denials := [record] }
        PortReady s ∧ s.denials = record :: [] := by decide +kernel

theorem test_meets_FullResetNeedsAnEmptyPath :
    (PortReady waiting ∧ waiting.pool ≠ [])
    ∧ (∀ s ∈ [running, held], PortReady s ∧ s.pool = [] ∧ (∀ i : Fin 64, s.outstanding[i] = none)
        ∧ s.responses = [] ∧ s.owed = [] ∧ s.held = none ∧ s.offer = none ∧ s.memoryOffer = none)
    ∧ (let s : State := { held with memoryOffer := some (answer keyA) }
      PortReady s ∧ s.offer = none ∧ s.memoryOffer = some (answer keyA))
    ∧ (let s := offering (readOf keyB) held
      PortReady s ∧ s.offer.isSome = true ∧ s.memoryOffer = none)
    ∧ (let s := offering (readOf keyB) { held with memoryOffer := some (answer keyA) }
      PortReady s ∧ s.offer.isSome = true ∧ s.memoryOffer = some (answer keyA)) := by decide +kernel

theorem test_meets_AlertAndGateLinesFollowState :
    let s : State := { pulsing with markers := pulsing.markers.set 3 { source := 2, kind := .gate, pulseLeft := 0 } }
    s.por = false ∧ (s.markers[3]).kind = .gate ∧ (s.markers[1]).kind = .none
      ∧ ((s.markers[0]).kind ≠ .gate ∧ (s.markers[0]).kind ≠ .none) ∧ inPor.por = true := by decide +kernel

theorem countsOk_live : CountsOk live := by
  refine ⟨fun i t => countsOk_of_keys [keyA] (by decide +kernel) ?_ (by decide +kernel) (by decide +kernel)
    (by decide +kernel) _, by decide +kernel⟩
  intro k hk
  simp only [List.mem_cons, List.not_mem_nil, or_false] at hk
  show counts (inTable 0 _ _) k = freeKey
  rw [counts_inTable hk]
  exact counts_reset k

theorem test_meets_StepKeeps_stores : RegulatorsOk live ∧ StoresOk live ∧ KeyOrderOk live := by
  have stores : PoolOk live ∧ TableOk live := by decide +kernel
  exact ⟨by decide +kernel, ⟨stores.1, stores.2, countsOk_live⟩, by decide +kernel⟩

theorem test_meets_StepKeeps_fields :
    (MapOk waiting ∧ DeviceOk waiting ∧ QueuesOk waiting ∧ MarkersOk pulsing ∧ TickOk budgetCut ∧ SynOk waiting)
      ∧ (PortOk waiting ∧ PortOk { waiting with sel := true, port := .command [0x02#8, 0x00#8, 0x00#8, 0x00#8] }) := by
  decide +kernel

theorem test_meets_StepKeeps_offers :
    (ConsideredOk offered ∧ offered.offer ≠ none)
      ∧ (OfferedResponseOk answered ∧ answered.memoryOffer ≠ none ∧ flowing answered = true)
      ∧ (HeldOk held ∧ flowing held = false) ∧ PorHeld inPor ∧ inPor.por = true :=
  ⟨by decide +kernel, by decide +kernel, by decide +kernel, fun _ => rfl, rfl⟩

theorem step_of_empty {s : State} (h : s.pending = []) : ∃ t, step s = .next t := by
  unfold step; rw [h]; exact ⟨_, rfl⟩

theorem test_meets_StepKeeps_next :
    ∀ s ∈ [live, waiting, budgetCut, offered, answered, held, inPor], ∃ t, step s = .next t := by
  have h : ∀ s ∈ [live, waiting, budgetCut, offered, answered, held, inPor], s.pending = [] := by decide +kernel
  exact fun s hs => step_of_empty (h s hs)

end Sys2Proof.Tests
end

