-- ==== Sys2Proof/Proofs/Classification.lean ====
section
/-! Classification of a request by the stream map: R25 as an `↔` for one entry, R26 for the search through the map, and
the obligation O7. -/

namespace Sys2Proof.Machine

/-! ## One entry (R25) -/

theorem directionAdmits_iff (m : DirectionMatch) (d : Direction) :
    directionAdmits m d = true ↔ m = .both ∨ m = .read ∧ d = .read ∨ m = .write ∧ d = .write := by
  cases m <;> simp [directionAdmits]

theorem initiatorAdmits_iff (m : Option (Fin 16)) (i : Fin 16) :
    initiatorAdmits m i = true ↔ m = none ∨ m = some i := by
  cases m <;> simp [initiatorAdmits]

theorem entryMatches_iff (e : MapEntry) (q : Request) :
    entryMatches e q = true ↔
      e.valid = true
        ∧ (e.direction = .both ∨ e.direction = .read ∧ q.direction = .read
          ∨ e.direction = .write ∧ q.direction = .write)
        ∧ (e.initiator = none ∨ e.initiator = some q.key.initiator)
        ∧ e.base ≤ q.address.toNat / 4096 ∧ q.address.toNat / 4096 ≤ e.limit := by
  simp only [entryMatches, Bool.and_eq_true, decide_eq_true_eq, directionAdmits_iff, initiatorAdmits_iff, and_assoc]
  rfl

/-! ## The search through the map (R26) -/

theorem classify_of_lowest_match {s : State} {q : Request} {i : Fin 32} (hit : entryMatches (s.map[i]) q = true)
    (lowest : ∀ j : Fin 32, j < i → ¬ entryMatches (s.map[j]) q = true) : classify s q = (s.map[i]).target := by
  have found : s.map.toList.find? (fun e => entryMatches e q) = some s.map[i] := by
    refine List.find?_eq_some_iff_getElem.mpr ⟨hit, i, by simp, by simp, fun j hj => ?_⟩
    simpa using lowest ⟨j, hj.trans i.isLt⟩ hj
  rw [classify, found]

theorem classify_of_no_match {s : State} {q : Request}
    (miss : ∀ i : Fin 32, ¬ entryMatches (s.map[i]) q = true) : classify s q = s.defaultTarget := by
  have notFound : s.map.toList.find? (fun e => entryMatches e q) = none := by
    refine List.find?_eq_none.mpr fun e he => ?_
    obtain ⟨i, hi, rfl⟩ := Vector.mem_iff_getElem.mp (Vector.mem_toList_iff.mp he)
    exact miss ⟨i, hi⟩
  rw [classify, notFound]

/-- Settles O7: the four conditions are `entryMatches`, and the search stops at the first entry that meets them. -/
theorem lowestMatchingEntryClassifies : Obligations.LowestMatchingEntryClassifies := by
  intro s q
  simp only [← entryMatches_iff]
  exact ⟨fun _ hit lowest => classify_of_lowest_match hit lowest, classify_of_no_match⟩

end Sys2Proof.Machine
end

