-- ==== Sys2Proof/Proofs/RegulatorCommands.lean ====
section
/-! REGULATOR COMMAND: the reply of its frame with the took-effect mask (R193), DISABLE at several regulators as one
event (R43, R51), and the obligation O45. -/

namespace Sys2Proof.Machine

/-! ## The frame of a regulator command (R193) -/

theorem decodeKind_kindCode (k : CommandKind) : decodeKind (kindCode k) = some k := by
  cases k <;> rfl

theorem receive_of_portReady {s : State} (ready : PortReady s) (c : FrameCommand) : receive c s = performReply c s := by
  obtain ⟨quiet, por, port⟩ := ready
  have isOpen : portOpen s = true := by simp [portOpen, por, port]
  rw [receive, settleTick_of_quiet quiet]
  exact if_pos isOpen

theorem exec_rowOfKind (k : CommandKind) (mask : BitVec 16) (s : State) :
    exec (rowOfKind k mask) s = .next (receive (.regulatorCommand (kindCode k) mask) s) := by
  cases k <;> rfl

theorem exec_rowOfKind_of_portReady {s : State} (ready : PortReady s) (k : CommandKind) (mask : BitVec 16) :
    exec (rowOfKind k mask) s =
      .next { reconsiderStates s (actAll k mask s) with
              sel := true
              port := .reply (replyPart (if tookMask k mask s = mask.toNat then .done else .noEffect)
                (bytesOfNat 2 (tookMask k mask s))) } := by
  rw [exec_rowOfKind, receive_of_portReady ready]
  simp only [performReply, perform, decodeKind_kindCode, commandRegulators, enterReply]

/-! ## The took-effect mask (R43, R193) -/

/-- Powers of two added up for the indices that meet p are the number whose bits p gives; c scales every power, for the
induction. -/
theorem foldl_add_two_pow {n : Nat} (p : Fin n → Bool) (c a : Nat) :
    (List.finRange n).foldl (fun m i => if p i then m + c * 2 ^ i.val else m) a = a + c * Nat.ofBits p := by
  induction n generalizing c a with
  | zero => simp
  | succ n ih =>
    have scaled : ∀ i : Fin n, c * 2 ^ i.succ.val = 2 * c * 2 ^ i.val := fun i => by
      rw [Fin.val_succ, Nat.pow_succ]; ring
    rw [List.finRange_succ, List.foldl_cons, List.foldl_map]
    simp only [scaled]
    have rest := ih (p ∘ Fin.succ)
    simp only [Function.comp_apply] at rest
    rw [rest, Nat.ofBits_succ]
    cases p 0 <;> simp <;> ring

theorem tookMask_eq_ofBits (k : CommandKind) (mask : BitVec 16) (s : State) :
    tookMask k mask s = Nat.ofBits fun r : RegNo => mask.getLsbD r.val && takesEffect k (reg s r) := by
  simpa [tookMask] using
    foldl_add_two_pow (fun r : RegNo => mask.getLsbD r.val && takesEffect k (reg s r)) 1 0

theorem tookMask_lt (k : CommandKind) (mask : BitVec 16) (s : State) : tookMask k mask s < 2 ^ 16 := by
  rw [tookMask_eq_ofBits]
  exact Nat.ofBits_lt_two_pow _

theorem testBit_tookMask (k : CommandKind) (mask : BitVec 16) (s : State) (r : RegNo) :
    (tookMask k mask s).testBit r.val = (mask.getLsbD r.val && takesEffect k (reg s r)) := by
  rw [tookMask_eq_ofBits, Nat.testBit_ofBits_lt _ _ r.isLt]

/-! ## DISABLE at a set of regulators (R51, R107, R164) -/

/-- A pool entry when the lanes of a set of regulators are merged into the bypass lane. -/
def mergeLanes (off : RegNo → Bool) (e : PoolEntry) : PoolEntry :=
  match e.lane with
  | .regulator r => if off r then { e with lane := .bypass } else e
  | .bypass => e

/-- An outstanding entry when the LIVE entries charged to a set of regulators are uncharged. -/
def unchargeAll (off : RegNo → Bool) (e : OutEntry) : OutEntry :=
  match e.state, e.charged with
  | .live, some r => if off r then { e with charged := none } else e
  | _, _ => e

/-- A marker line when a set of regulators takes DISABLE. -/
def quietAll (off : RegNo → Bool) (m : Marker) : Marker :=
  if off m.source then { m with pulseLeft := 0 } else m

/-- DISABLE at a set of regulators at one event. -/
def disableSet (off : RegNo → Bool) (s : State) : State :=
  { s with
    pool := s.pool.map (mergeLanes off)
    outstanding := mapSlots (Option.map (unchargeAll off)) s.outstanding
    regs := Vector.ofFn fun r => if off r then disabled (reg s r) else reg s r
    markers := mapSlots (quietAll off) s.markers }

@[simp] theorem reg_disableSet (off : RegNo → Bool) (s : State) (r : RegNo) :
    reg (disableSet off s) r = if off r then disabled (reg s r) else reg s r := by
  simp [disableSet, reg]

theorem state_bne_off_disableSet (off : RegNo → Bool) (s : State) (r : RegNo) :
    ((reg (disableSet off s) r).state != .off) = (!off r && (reg s r).state != .off) := by
  rw [reg_disableSet]
  cases off r <;> rfl

theorem disableSet_none (s : State) : disableSet (fun _ => false) s = s := by
  have pools : mergeLanes (fun _ => false) = id := by
    funext ⟨_, lane, _, _, _⟩
    cases lane <;> rfl
  have tables : unchargeAll (fun _ => false) = id := by
    funext ⟨state, _, _, _, charged, _, _⟩
    cases state <;> cases charged <;> rfl
  have lines : quietAll (fun _ => false) = fun m => m := rfl
  have contexts : (Vector.ofFn fun r => reg s r) = s.regs := slots_ext fun r => by simp [reg]
  have slots : mapSlots id s.outstanding = s.outstanding := mapSlots_id _
  simp [disableSet, pools, tables, lines, contexts, slots]

/-! Two sets one after the other are their union. -/

theorem mergeLanes_mergeLanes (p q : RegNo → Bool) (e : PoolEntry) :
    mergeLanes p (mergeLanes q e) = mergeLanes (fun r => q r || p r) e := by
  obtain ⟨kind, lane, place, request, target⟩ := e
  cases lane with
  | bypass => rfl
  | regulator r => cases hq : q r <;> simp [mergeLanes, hq]

theorem unchargeAll_unchargeAll (p q : RegNo → Bool) (e : OutEntry) :
    unchargeAll p (unchargeAll q e) = unchargeAll (fun r => q r || p r) e := by
  obtain ⟨state, key, direction, length, charged, age, place⟩ := e
  cases state with
  | abandoned => rfl
  | live =>
    cases charged with
    | none => rfl
    | some r => cases hq : q r <;> simp [unchargeAll, hq]

theorem quietAll_quietAll (p q : RegNo → Bool) (m : Marker) :
    quietAll p (quietAll q m) = quietAll (fun r => q r || p r) m := by
  cases hq : q m.source <;> simp [quietAll, hq]

theorem disableSet_disableSet (p q : RegNo → Bool) (s : State) :
    disableSet p (disableSet q s) = disableSet (fun r => q r || p r) s := by
  have pools : (disableSet q s).pool.map (mergeLanes p) = s.pool.map (mergeLanes fun r => q r || p r) := by
    simp [disableSet, mergeLanes_mergeLanes]
  have tables : mapSlots (Option.map (unchargeAll p)) (disableSet q s).outstanding =
      mapSlots (Option.map (unchargeAll fun r => q r || p r)) s.outstanding := by
    simp [disableSet, mapSlots_mapSlots, Function.comp_def, unchargeAll_unchargeAll]
  have contexts : ∀ r, (if p r then disabled (reg (disableSet q s) r) else reg (disableSet q s) r) =
      if q r || p r then disabled (reg s r) else reg s r := fun r => by
    rw [reg_disableSet]
    cases q r <;> cases p r <;> rfl
  have lines : mapSlots (quietAll p) (disableSet q s).markers =
      mapSlots (quietAll fun r => q r || p r) s.markers := by
    simp [disableSet, mapSlots_mapSlots, quietAll_quietAll]
  unfold disableSet at pools tables contexts lines ⊢
  simp only [pools, tables, contexts, lines]

/-! One regulator is a set of one, or of none when it is OFF. -/

theorem mergeEntry_eq_mergeLanes (r : RegNo) : mergeEntry r = mergeLanes (fun q => decide (q = r)) := by
  funext e
  obtain ⟨kind, lane, place, request, target⟩ := e
  cases lane <;> simp [mergeEntry, mergeLanes]

theorem unchargeEntry_eq_unchargeAll (r : RegNo) : unchargeEntry r = unchargeAll (fun q => decide (q = r)) := by
  funext e
  obtain ⟨state, key, direction, length, charged, age, place⟩ := e
  cases state <;> cases charged <;> simp [unchargeEntry, unchargeAll]

theorem quietLine_eq_quietAll (r : RegNo) : quietLine r = quietAll (fun q => decide (q = r)) := by
  funext m
  simp [quietLine, quietAll]

theorem disableReg_of_off {s : State} {r : RegNo} (h : (reg s r).state = .off) : disableReg r s = s := by
  rw [disableReg, h]

theorem disableReg_of_ne_off {s : State} {r : RegNo} (h : (reg s r).state ≠ .off) :
    disableReg r s = disableSet (fun q => decide (q = r)) s := by
  have contexts : s.regs.set r (disabled (reg s r)) =
      Vector.ofFn fun q => if decide (q = r) then disabled (reg s q) else reg s q := slots_ext fun q => by
    rw [set_get]
    by_cases hq : q = r
    · simp [hq]
    · simp [hq, reg]
  unfold disableReg
  split
  · contradiction
  · rw [mergeEntry_eq_mergeLanes, unchargeEntry_eq_unchargeAll, quietLine_eq_quietAll, contexts]
    rfl

theorem disableReg_eq_disableSet (r : RegNo) (s : State) :
    disableReg r s = disableSet (fun q => decide (q = r) && (reg s r).state != .off) s := by
  by_cases h : (reg s r).state = .off
  · simp [h, disableReg_of_off, disableSet_none]
  · have on : ((reg s r).state != .off) = true := bne_iff_ne.mpr h
    simp [on, disableReg_of_ne_off h]

/-! ## DISABLE at the regulators of a mask (R43, R51) -/

/-- The named regulators among a list are disabled one after the other: those that were not OFF are disabled at once.
One that comes again is OFF by then. -/
theorem foldl_disableReg (named : RegNo → Bool) (l : List RegNo) (s : State) :
    l.foldl (fun t r => if named r then disableReg r t else t) s =
      disableSet (fun r => decide (r ∈ l) && named r && (reg s r).state != .off) s := by
  induction l generalizing s with
  | nil => simp [disableSet_none]
  | cons r l ih =>
    have head : (if named r then disableReg r s else s) =
        disableSet (fun q => decide (q = r) && (named r && (reg s r).state != .off)) s := by
      cases named r with
      | false => simp [disableSet_none]
      | true => simp [disableReg_eq_disableSet]
    rw [List.foldl_cons, head, ih, disableSet_disableSet]
    congr 1
    funext q
    rw [state_bne_off_disableSet]
    by_cases hq : q = r
    · subst hq
      cases named q <;> simp
    · simp [hq]

/-- DISABLE leaves every named regulator that is not OFF disabled, and nothing else changed. -/
theorem actAll_disable (mask : BitVec 16) (s : State) :
    actAll .disable mask s = disableSet (fun r => mask.getLsbD r.val && (reg s r).state != .off) s := by
  have := foldl_disableReg (fun r => mask.getLsbD r.val) (List.finRange 16) s
  simpa [actAll, act] using this

/-- Settles O45: the state after DISABLE is `disableSet` at the named regulators that are not OFF. -/
theorem disableMergesAndUncharges : Obligations.DisableMergesAndUncharges := by
  intro s mask ready off
  have reached := actAll_disable mask s
  have iff_off : ∀ r : RegNo, (mask.getLsbD r.val && (reg s r).state != .off) = decide (off r) := fun r => by
    rw [Bool.eq_iff_iff]
    simp [off]
  simp only [iff_off] at reached
  refine ⟨actAll .disable mask s, tookMask .disable mask s, exec_rowOfKind_of_portReady ready .disable mask,
    fun r => ?took, tookMask_lt .., actAll_frame .., ?_⟩
  case took => rw [testBit_tookMask]; simp [takesEffect, off]
  rw [reached]
  refine ⟨by simp [disableSet], fun n e h => ?pool, fun i => ?table, fun r => ?context, fun l => ?line⟩
  case pool =>
    obtain ⟨kind, lane, place, request, target⟩ := e
    cases lane <;> simp [disableSet, h, mergeLanes]
  case table =>
    simp only [disableSet, mapSlots_get]
    cases s.outstanding[i] with
    | none => rfl
    | some e =>
      obtain ⟨state, key, direction, length, charged, age, place⟩ := e
      cases state <;> cases charged <;> simp [unchargeAll]
  case context => simp [disabled]
  case line => simp [disableSet, quietAll]

end Sys2Proof.Machine
end

