-- ==== Sys2Proof/Proofs/WindowEnds.lean ====
section
/-! A window end by the steps of R68: the carry, the context it leaves, the causes it sets and the lines that pulse for
them, and the obligation O23. -/

namespace Sys2Proof.Machine

/-! ## The context after a window end (R68 steps 1 to 5) -/

/-- Natural subtraction makes 0 of a window that ends within its BUDGET, so only an overshoot is carried (R69). -/
theorem carry_eq (g : Regulator) :
    carry g =
      if g.setup.mode = .count then 0
      else if g.active.budget < g.consumed then g.consumed - g.active.budget
      else 0 := by
  have overshoot : g.consumed - g.active.budget =
      if g.active.budget < g.consumed then g.consumed - g.active.budget else 0 := by
    split
    · rfl
    · omega
  unfold carry
  cases g.setup.mode with
  | count => rfl
  | window => exact overshoot
  | shape => exact overshoot

theorem windowClosed_eq (g : Regulator) :
    windowClosed g =
      { g with
        priorSample := if g.setup.autoSample then g.sample else g.priorSample
        sample := if g.setup.autoSample then g.consumed else g.sample
        sampleWindow := if g.setup.autoSample then g.windowsCompleted else g.sampleWindow
        consumed := carry g
        windowsCompleted := g.windowsCompleted + 1#16
        active := if g.exchangePending then g.standby else g.active
        standby := if g.exchangePending then g.active else g.standby
        exchangePending := false
        position := 0 } := by
  cases sampling : g.setup.autoSample <;> cases pending : g.exchangePending <;>
    simp [windowClosed, pendingApplied, exchanged, sampled, sampling, pending]

@[simp] theorem windowClosed_state (g : Regulator) : (windowClosed g).state = g.state := by
  rw [windowClosed_eq]

/-! ## The causes and their pulses (R68 steps 1, 4 and 6) -/

theorem mem_windowEndCauses (g : Regulator) (c : Cause) :
    c ∈ windowEndCauses g ↔
      c = .windowEnd ∨ c = .sampled ∧ g.setup.autoSample = true ∨ c = .exchanged ∧ g.exchangePending = true := by
  simp only [windowEndCauses, exchangeCause, List.mem_append, List.mem_ite_nil_right, List.mem_singleton]
  tauto

theorem causeBits_windowEndCauses (g : Regulator) :
    causeBits (windowEndCauses g) =
      (if g.setup.autoSample then 0x20#7 else 0x00#7) ||| (if g.exchangePending then 0x40#7 else 0x00#7) ||| 0x01#7 := by
  cases sampling : g.setup.autoSample <;> cases pending : g.exchangePending <;>
    simp [windowEndCauses, exchangeCause, causeBit, sampling, pending]

theorem pulseKind_windowEndCauses (g : Regulator) (kind : MarkerKind) :
    (∃ c ∈ windowEndCauses g, some kind = pulseKind c) ↔
      kind = .windowEnd ∨ kind = .sampled ∧ g.setup.autoSample = true
        ∨ kind = .exchanged ∧ g.exchangePending = true := by
  simp [mem_windowEndCauses, or_and_right, exists_or, pulseKind, and_comm]

/-! ## The window end of one regulator -/

theorem finishWindowEnd_of_due {s : State} {r : RegNo} (due : r ∈ s.windowEndDue) :
    finishWindowEnd r s = { windowEndReg r s with windowEndDue := s.windowEndDue.filter (· ≠ r) } :=
  if_pos due

theorem reg_finishWindowEnd {s : State} {r : RegNo} (due : r ∈ s.windowEndDue) (q : RegNo) :
    reg (finishWindowEnd r s) q =
      if q = r then addCauses (windowClosed (reg s r)) (causeBits (windowEndCauses (reg s r))) else reg s q := by
  rw [finishWindowEnd_of_due due]
  exact reg_regulatorEvent r _ _ s q

theorem markers_finishWindowEnd {s : State} {r : RegNo} (due : r ∈ s.windowEndDue) (l : Fin 4) :
    (finishWindowEnd r s).markers[l] =
      if (reg s r).state ≠ .off ∧ (s.markers[l]).source = r
          ∧ ∃ c ∈ windowEndCauses (reg s r), some (s.markers[l]).kind = pulseKind c then
        pulsed s.markers[l]
      else s.markers[l] := by
  rw [finishWindowEnd_of_due due, ← windowClosed_state]
  exact markers_regulatorEvent r _ _ s l

/-- Settles O23, from the context, the causes and the pulses of the window end that is due. -/
theorem windowEndClosesTheWindow : Obligations.WindowEndClosesTheWindow := by
  intro s r due running g
  have on : (reg s r).state ≠ .off := by simp [running]
  refine ⟨finishWindowEnd r s, rfl, ?frame, fun q other => ?others, ?context, fun l => ?line⟩
  case frame =>
    rw [finishWindowEnd_of_due due]
    exact congrArg (fun t : State => { t with windowEndDue := s.windowEndDue.filter (· ≠ r) })
      (windowEndReg_frame r s)
  case others => rw [reg_finishWindowEnd due, if_neg other]
  case context =>
    rw [reg_finishWindowEnd due, if_pos rfl, windowClosed_eq, carry_eq, causeBits_windowEndCauses]
    simp only [addCauses, BitVec.or_assoc, g]
  case line => simp [markers_finishWindowEnd due, pulseKind_windowEndCauses, on, g]

end Sys2Proof.Machine
end

