-- ==== Sys2Proof/Proofs/DownstreamGrant.lean ====
section
/-! The downstream grant: its candidates, the choice as a maximum in a lexicographic order (R115 to R119), what a
charge does (R79 to R81), and the obligations O14, O15 and O16. -/

namespace Sys2Proof.Machine

/-! ## Candidates (R88, R115, R116) -/

theorem lane_of_laneHead {s : State} {l : Lane} {e : PoolEntry} (h : laneHead s l = some e) : e.lane = l := by
  simpa using List.find?_some h

@[simp] theorem mem_lanes (l : Lane) : l ∈ lanes := by
  cases l <;> simp [lanes]

theorem running_of_gateOpen {g : Regulator} (h : gateOpen g = true) : g.state = .running := by
  rw [gateOpen, Bool.and_eq_true] at h
  exact beq_iff_eq.mp h.1

theorem admitted_iff (s : State) (l : Lane) :
    admitted s l = true ↔
      ∀ r : RegNo, l = .regulator r →
        (reg s r).state = .running ∧ gateOpen (reg s r) = true
          ∧ ((reg s r).setup.outstandingLimit = 0
            ∨ (reg s r).outstandingCount < (reg s r).setup.outstandingLimit) := by
  cases l with
  | bypass => simp [admitted]
  | regulator r =>
    have gate : (reg s r).state = .running ∧ gateOpen (reg s r) = true ↔ gateOpen (reg s r) = true :=
      and_iff_right_of_imp running_of_gateOpen
    simp [admitted, ← and_assoc, gate]

theorem candidate_iff (s : State) (e : PoolEntry) : candidate s e = true ↔ Candidate s e := by
  simp only [candidate, orderEligible, Bool.and_eq_true, beq_iff_eq, admitted_iff, and_assoc]

theorem mem_candidates (s : State) (e : PoolEntry) :
    e ∈ candidates s ↔ laneHead s e.lane = some e ∧ Candidate s e := by
  have heads : e ∈ lanes.filterMap (laneHead s) ↔ laneHead s e.lane = some e := by
    rw [List.mem_filterMap]
    constructor
    · rintro ⟨l, -, h⟩
      rwa [lane_of_laneHead h]
    · exact fun h => ⟨e.lane, mem_lanes _, h⟩
  rw [candidates, List.mem_filter, heads, candidate_iff]

/-! ## The best candidate (R118) -/

/-- Where a head stands in the choice: by priority, and at equal priority the earlier place above the later. -/
def headRank (s : State) (e : PoolEntry) : ℕ ×ₗ ℕᵒᵈ := toLex (lanePriority s e.lane, OrderDual.toDual e.place)

theorem headRank_le_iff (s : State) (e f : PoolEntry) :
    headRank s f ≤ headRank s e ↔
      lanePriority s f.lane < lanePriority s e.lane
        ∨ lanePriority s f.lane = lanePriority s e.lane ∧ e.place ≤ f.place :=
  Prod.Lex.toLex_le_toLex

theorem headRank_lt_iff (s : State) (b e : PoolEntry) :
    headRank s b < headRank s e ↔
      lanePriority s b.lane < lanePriority s e.lane
        ∨ lanePriority s b.lane = lanePriority s e.lane ∧ e.place < b.place :=
  Prod.Lex.toLex_lt_toLex

theorem foldl_betterHead (s : State) (l : List PoolEntry) : l.foldl (betterHead s) none = l.argmax (headRank s) := by
  have better : betterHead s = List.argAux fun b c => headRank s c < headRank s b := by
    funext best e
    cases best with
    | none => rfl
    | some b => simp only [betterHead, List.argAux, headRank_lt_iff]
  rw [better, List.argmax]

/-! ## The free place (R129) -/

theorem freePlace_eq_some_iff (s : State) (i : Fin 64) :
    freePlace s = some i ↔ s.outstanding[i] = none ∧ ∀ j : Fin 64, j < i → s.outstanding[j] ≠ none := by
  rw [freePlace, ← Fin.find?_eq_find?_finRange, Fin.find?_eq_some_iff]
  simp [Option.isSome_iff_ne_none]

theorem freePlace_eq_none_iff (s : State) : freePlace s = none ↔ ∀ i : Fin 64, s.outstanding[i] ≠ none := by
  simp [freePlace]

/-! ## The choice (R117 to R119) -/

theorem choice_eq_some_iff (s : State) (e : PoolEntry) (i : Fin 64) :
    choice s = some (e, i) ↔
      flowing s = true ∧ s.held = none ∧ freePlace s = some i ∧ (candidates s).argmax (headRank s) = some e := by
  rw [choice, foldl_betterHead]
  constructor
  · intro chosen
    split at chosen
    next idle place best =>
      by_cases flows : flowing s = true
      · rw [if_pos flows] at chosen
        cases chosen
        exact ⟨flows, idle, place, best⟩
      · simp [flows] at chosen
    next => cases chosen
  · rintro ⟨flows, idle, place, best⟩
    simp [flows, idle, place, best]

theorem wanting_of_choice_eq_none {s : State} (failed : choice s = none) :
    flowing s = false ∨ s.held ≠ none ∨ freePlace s = none ∨ candidates s = [] := by
  by_contra! standing
  obtain ⟨flows, idle, free, someone⟩ := standing
  obtain ⟨i, place⟩ := Option.ne_none_iff_exists'.mp free
  obtain ⟨e, best⟩ := Option.ne_none_iff_exists'.mp (List.argmax_eq_none (f := headRank s) |>.not.mpr someone)
  have chosen := (choice_eq_some_iff s e i).mpr ⟨by simpa using flows, idle, place, best⟩
  simp [failed] at chosen

theorem candidate_of_choice {s : State} {e : PoolEntry} {i : Fin 64} (chosen : choice s = some (e, i)) :
    laneHead s e.lane = some e ∧ Candidate s e := by
  obtain ⟨-, -, -, best⟩ := (choice_eq_some_iff s e i).mp chosen
  exact (mem_candidates s e).mp (List.argmax_mem best)

/-- Settles O14: the chosen head is the maximum of the candidates in `headRank`. -/
theorem grantChoosesHighestPriorityThenOldest : Obligations.GrantChoosesHighestPriorityThenOldest := by
  intro s priority
  have priority_eq : priority = lanePriority s := funext fun l => by cases l <;> rfl
  simp only [priority_eq, ← headRank_le_iff]
  refine ⟨fun e i chosen => ?made, fun failed => ?fails⟩
  case made =>
    obtain ⟨flows, idle, place, best⟩ := (choice_eq_some_iff s e i).mp chosen
    obtain ⟨free, lowest⟩ := (freePlace_eq_some_iff s i).mp place
    obtain ⟨head, eligible⟩ := candidate_of_choice chosen
    refine ⟨flows, idle, free, lowest, head, eligible, fun f l headOf able => ?_⟩
    have among : f ∈ candidates s := (mem_candidates s f).mpr ⟨by rwa [lane_of_laneHead headOf], able⟩
    exact List.le_of_mem_argmax among best
  case fails =>
    have nobody : candidates s = [] → ∀ l e, laneHead s l = some e → ¬ Candidate s e := by
      intro empty l e head able
      have among : e ∈ candidates s := (mem_candidates s e).mpr ⟨by rwa [lane_of_laneHead head], able⟩
      simp [empty] at among
    rcases wanting_of_choice_eq_none failed with stopped | offering | full | empty
    · exact .inl stopped
    · exact .inr (.inl offering)
    · exact .inr (.inr (.inl ((freePlace_eq_none_iff s).mp full)))
    · exact .inr (.inr (.inr (nobody empty)))

/-! ## The charge (R79 to R81) -/

/-- A charge of n bytes brings CONSUMED to BUDGET, where WINDOW and SHAPE set EXHAUSTED (R80). -/
abbrev Exhausts (g : Regulator) (n : Nat) : Prop :=
  g.setup.mode ≠ .count ∧ g.consumed < g.active.budget ∧ g.active.budget ≤ g.consumed + n

theorem chargedContext_of_count {g : Regulator} (count : g.setup.mode = .count) (n : Nat) :
    chargedContext g n =
      { g with consumed := min (g.consumed + n) 4294967295, outstandingCount := g.outstandingCount + 1 } := by
  rw [chargedContext, count]
  rfl

theorem chargedContext_of_ne_count {g : Regulator} (other : g.setup.mode ≠ .count) (n : Nat) :
    chargedContext g n = { g with consumed := g.consumed + n, outstandingCount := g.outstandingCount + 1 } := by
  cases mode : g.setup.mode with
  | count => contradiction
  | window => rw [chargedContext, mode]
  | shape => rw [chargedContext, mode]

theorem chargeCauses_of_count {g : Regulator} (count : g.setup.mode = .count) (n : Nat) :
    chargeCauses g n =
      if g.consumed ≤ g.active.budget ∧ g.active.budget < min (g.consumed + n) 4294967295 then [.overBudget]
      else [] := by
  rw [chargeCauses, count, chargedContext_of_count count]

theorem chargeCauses_of_ne_count {g : Regulator} (other : g.setup.mode ≠ .count) (n : Nat) :
    chargeCauses g n =
      if g.consumed < g.active.budget ∧ g.active.budget ≤ g.consumed + n then [.exhausted] else [] := by
  rw [chargeCauses, chargedContext_of_ne_count other]
  cases mode : g.setup.mode with
  | count => contradiction
  | window => rfl
  | shape => rfl

theorem reg_chargeLane (l : Lane) (n : Nat) (s : State) (r : RegNo) :
    reg (chargeLane l n s) r =
      if l = .regulator r then addCauses (chargedContext (reg s r) n) (causeBits (chargeCauses (reg s r) n))
      else reg s r := by
  cases l with
  | bypass => rfl
  | regulator q =>
    rw [chargeLane, reg_regulatorEvent]
    by_cases h : r = q
    · simp [h]
    · simp [h, Ne.symm h]

theorem addCauses_chargedContext (g : Regulator) (n : Nat) :
    addCauses (chargedContext g n) (causeBits (chargeCauses g n)) =
      if g.setup.mode = .count then
        { g with
          consumed := min (g.consumed + n) 4294967295
          outstandingCount := g.outstandingCount + 1
          causes :=
            if g.consumed ≤ g.active.budget ∧ g.active.budget < min (g.consumed + n) 4294967295 then
              g.causes ||| 0x04#7
            else g.causes }
      else
        { g with
          consumed := g.consumed + n
          outstandingCount := g.outstandingCount + 1
          causes :=
            if g.consumed < g.active.budget ∧ g.active.budget ≤ g.consumed + n then g.causes ||| 0x02#7
            else g.causes } := by
  by_cases count : g.setup.mode = .count
  · rw [if_pos count, chargedContext_of_count count, chargeCauses_of_count count]
    split <;> simp [addCauses, causeBit]
  · rw [if_neg count, chargedContext_of_ne_count count, chargeCauses_of_ne_count count]
    split <;> simp [addCauses, causeBit]

/-- A charge pulses the lines of kind EXHAUSTED where it sets that cause; OVER BUDGET has no kind (R161). -/
theorem pulseKind_chargeCauses (g : Regulator) (n : Nat) (kind : MarkerKind) :
    (∃ c ∈ chargeCauses g n, some kind = pulseKind c) ↔ kind = .exhausted ∧ Exhausts g n := by
  by_cases count : g.setup.mode = .count
  · simp [chargeCauses_of_count count, count, pulseKind]
  · simp [Exhausts, chargeCauses_of_ne_count count, count, pulseKind, and_comm]

theorem markers_chargeLane (l : Lane) (n : Nat) (s : State) (k : Fin 4) :
    (chargeLane l n s).markers[k] =
      if (reg s (s.markers[k]).source).state ≠ .off ∧ (s.markers[k]).kind = .exhausted
          ∧ l = .regulator (s.markers[k]).source ∧ Exhausts (reg s (s.markers[k]).source) n then
        pulsed s.markers[k]
      else s.markers[k] := by
  cases l with
  | bypass => simp [chargeLane]
  | regulator r =>
    rw [chargeLane, markers_regulatorEvent]
    generalize s.markers[k] = m
    simp only [pulseKind_chargeCauses, Lane.regulator.injEq]
    by_cases source : r = m.source
    · simp [source, chargedContext, pulsed, Config.pulsePeriods]
    · simp [source, Ne.symm source]

/-! ## The grant (R120) and the takes of the partners (R121, R147) -/

/-- The state that a grant of the head e into the place i leaves to the reconsideration. -/
def grantMoved (e : PoolEntry) (i : Fin 64) (s : State) : State :=
  chargeLane e.lane e.request.length.val
    (openEntry i (grantedEntry e) (leavePool e { s with held := some e.request }))

theorem grant_of_choice {s : State} {e : PoolEntry} {i : Fin 64} (chosen : choice s = some (e, i)) :
    grant s = consider (grantMoved e i s) := by
  rw [grant, chosen, grantMoved]

theorem exec_grant (s : State) : exec .grant s = .next (grant (settleTick s)) := rfl

theorem exec_memoryTakesRequest (s : State) :
    exec .memoryTakesRequest s = .next (memoryTakes (settleTick s)) := rfl

theorem exec_interconnectTakesResponse (s : State) :
    exec .interconnectTakesResponse s = .next (interconnectTakes (settleTick s)) := rfl

theorem reg_grantMoved (e : PoolEntry) (i : Fin 64) (s : State) (r : RegNo) :
    reg (grantMoved e i s) r =
      if e.lane = .regulator r then
        addCauses (chargedContext (reg s r) e.request.length.val)
          (causeBits (chargeCauses (reg s r) e.request.length.val))
      else reg s r :=
  reg_chargeLane ..

theorem markers_grantMoved (e : PoolEntry) (i : Fin 64) (s : State) (k : Fin 4) :
    (grantMoved e i s).markers[k] =
      if (reg s (s.markers[k]).source).state ≠ .off ∧ (s.markers[k]).kind = .exhausted
          ∧ e.lane = .regulator (s.markers[k]).source
          ∧ Exhausts (reg s (s.markers[k]).source) e.request.length.val then
        pulsed s.markers[k]
      else s.markers[k] :=
  markers_chargeLane ..

theorem grantMoved_frame (e : PoolEntry) (i : Fin 64) (s : State) :
    grantMoved e i s =
      { s with
        held := some e.request
        pool := s.pool.erase e
        outstanding := s.outstanding.set i (some (grantedEntry e))
        tracker := (grantMoved e i s).tracker
        regs := (grantMoved e i s).regs
        markers := (grantMoved e i s).markers } := by
  have charged := chargeLane_frame e.lane e.request.length.val
    (openEntry i (grantedEntry e) (leavePool e { s with held := some e.request }))
  exact charged.trans (by simp [grantMoved, openEntry, leavePool])

theorem counts_grantMoved (e : PoolEntry) (i : Fin 64) (s : State) (k : Key) :
    counts (grantMoved e i s) k =
      if k = e.request.key then
        { counts s k with pooled := (counts s k).pooled - 1, live := (counts s k).live + 1 }
      else counts s k := by
  have uncharged : counts (grantMoved e i s) k =
      counts (openEntry i (grantedEntry e) (leavePool e { s with held := some e.request })) k := by
    simp [counts, grantMoved]
  rw [uncharged, counts_openEntry]
  simp only [counts_leavePool, grantedEntry]
  by_cases same : k = e.request.key
  · subst same; simp [counts]
  · simp [same, counts]

/-- Settles O15: the regulator of a chosen head is RUNNING, so the lines of a charge that exhausts do pulse. -/
theorem grantMovesAndChargesTheChosenHead : Obligations.GrantMovesAndChargesTheChosenHead := by
  intro s e i quiet chosen
  obtain ⟨-, -, -, -, admits⟩ := candidate_of_choice chosen
  refine ⟨grantMoved e i s, ?done, grantMoved_frame e i s, counts_grantMoved e i s, fun r => ?context,
    fun l => ?line⟩
  case done => rw [exec_grant, settleTick_of_quiet quiet, grant_of_choice chosen]
  case context => rw [reg_grantMoved, addCauses_chargedContext]
  case line =>
    rw [markers_grantMoved]
    refine if_congr (and_iff_right_of_imp fun ⟨_, lane, _⟩ off => ?_) rfl rfl
    obtain ⟨running, -⟩ := admits _ lane
    cases running.symm.trans off

/-- Settles O16, from what each take does while the path flows. -/
theorem partnersTakeWhatIsOffered : Obligations.PartnersTakeWhatIsOffered := by
  intro s quiet flows
  refine ⟨?memory, fun u rest queue => ?interconnect⟩
  case memory => rw [exec_memoryTakesRequest, settleTick_of_quiet quiet, memoryTakes, if_pos flows]
  case interconnect =>
    rw [exec_interconnectTakesResponse, settleTick_of_quiet quiet, interconnectTakes, if_pos flows, queue]

end Sys2Proof.Machine
end

