-- ==== Sys2Proof/Proofs/AlertAndMarkers.lean ====
section
/-! ALERT and the marker lines: a cause whose mask bit is clear as an `↔` over the bits (R171, R172), the open gate by
MODE (R74), and the obligation O49. -/

namespace Sys2Proof.Machine

/-! ## Causes and ALERT (R171, R172) -/

theorem and_not_ne_zero_iff {w : Nat} (causes mask : BitVec w) :
    (causes &&& ~~~ mask != 0#w) = true ↔ ∃ c : Fin w, causes.getLsbD c = true ∧ mask.getLsbD c = false := by
  have bit (c : Fin w) : (causes &&& ~~~ mask).getLsbD c = false ↔
      ¬ (causes.getLsbD c = true ∧ mask.getLsbD c = false) := by
    simp
  rw [bne_iff_ne, ← not_iff_comm, not_exists]
  simp only [← bit]
  refine ⟨fun clear => BitVec.eq_of_getLsbD_eq fun i hi => ?_, fun zero c => ?_⟩
  · simpa using clear ⟨i, hi⟩
  · rw [zero, BitVec.getLsbD_zero]

theorem attention_iff (g : Regulator) :
    attention g = true ↔ ∃ c : Fin 7, g.causes.getLsbD c = true ∧ g.mask.getLsbD c = false :=
  and_not_ne_zero_iff g.causes g.mask

theorem any_regs_iff (s : State) (p : Regulator → Bool) :
    s.regs.toList.any p = true ↔ ∃ r : RegNo, p (reg s r) = true := by
  rw [List.any_eq_true]
  constructor
  · rintro ⟨g, mem, holds⟩
    obtain ⟨i, hi, rfl⟩ := Vector.mem_iff_getElem.mp (Vector.mem_toList_iff.mp mem)
    exact ⟨⟨i, hi⟩, holds⟩
  · rintro ⟨r, holds⟩
    exact ⟨reg s r, Vector.mem_toList_iff.mpr (Vector.getElem_mem r.isLt), holds⟩

theorem alertLow_of_por {s : State} (por : s.por = true) : alertLow s = false := by
  simp [alertLow, por]

theorem alertLow_iff {s : State} (por : s.por = false) :
    alertLow s = true ↔
      (∃ (r : RegNo) (c : Fin 7), (reg s r).causes.getLsbD c = true ∧ (reg s r).mask.getLsbD c = false)
        ∨ ∃ c : Fin 6, s.deviceCauses.getLsbD c = true ∧ s.deviceMask.getLsbD c = false := by
  simp only [alertLow, por, Bool.not_false, Bool.true_and, Bool.or_eq_true, any_regs_iff, attention_iff,
    and_not_ne_zero_iff]

/-! ## The gate (R74) and the marker lines (R161 to R163, R166) -/

theorem gateOpen_iff (g : Regulator) :
    gateOpen g = true ↔
      g.state = .running
        ∧ (g.setup.mode = .count
          ∨ g.setup.mode = .window ∧ g.consumed < g.active.budget
          ∨ g.setup.mode = .shape ∧ g.position < g.active.openLength ∧ g.consumed < g.active.budget) := by
  rw [gateOpen, Bool.and_eq_true, beq_iff_eq]
  refine and_congr_right fun _ => ?_
  cases g.setup.mode with
  | count => simp
  | window => simp
  | shape => simp

theorem markerHigh_of_por {s : State} (por : s.por = true) (l : Fin 4) : markerHigh s l = false := by
  simp [markerHigh, por]

section
variable {s : State} {l : Fin 4}

theorem markerHigh_of_gate (por : s.por = false) (kind : (s.markers[l]).kind = .gate) :
    markerHigh s l = gateOpen (reg s (s.markers[l]).source) := by
  simp only [markerHigh, por, kind, Bool.not_false, Bool.true_and]

theorem markerHigh_of_none (kind : (s.markers[l]).kind = .none) : markerHigh s l = false := by
  simp only [markerHigh, kind, Bool.and_false]

theorem markerHigh_of_pulse (por : s.por = false) (notGate : (s.markers[l]).kind ≠ .gate)
    (notNone : (s.markers[l]).kind ≠ .none) :
    markerHigh s l = decide (0 < (s.markers[l]).pulseLeft) := by
  cases kind : (s.markers[l]).kind with
  | none => exact absurd kind notNone
  | gate => exact absurd kind notGate
  | windowEnd | exhausted | sampled | exchanged | quotaHit =>
    simp only [markerHigh, por, kind, Bool.not_false, Bool.true_and]

end

/-- Settles O49: with POR released ALERT is the union of the unmasked causes, and each line follows its kind. -/
theorem alertAndGateLinesFollowState : Obligations.AlertAndGateLinesFollowState := by
  intro s
  refine ⟨fun por => ⟨alertLow_of_por por, markerHigh_of_por por⟩, fun por => ⟨alertLow_iff por, fun l => ?line⟩⟩
  refine ⟨fun kind => ?gate, fun kind => markerHigh_of_none kind, fun notGate notNone => ?pulse⟩
  case gate => rw [markerHigh_of_gate por kind, gateOpen_iff]
  case pulse => rw [markerHigh_of_pulse por notGate notNone, decide_eq_true_eq]

end Sys2Proof.Machine
end

