-- ==== Sys2Proof/Proofs/FrameErrors.lean ====
section
/-! Byte slots of the management port, command parts that are not performed (R186, R187), and the obligations O33 and
O34. -/

namespace Sys2Proof.Machine

/-! ## The reply FRAME (R184, R189) -/

@[simp] theorem replyPart_frame : replyPart .frame [] = [0x06#8, 0x12#8] := by decide

theorem badFrame_eq (s : State) :
    badFrame s =
      { s with deviceCauses := s.deviceCauses ||| 0x20#6, sel := true, port := .reply [0x06#8, 0x12#8] } := by
  rw [badFrame, enterReply, replyPart_frame]
  rfl

theorem unknownFrame_eq (s : State) :
    unknownFrame s = { s with sel := true, port := .reply [0x06#8, 0x12#8] } := by
  rw [unknownFrame, enterReply, replyPart_frame]

/-! ## Byte slots (R182) -/

theorem exec_byteSlot {s : State} (quiet : Quiet s) (por : s.por = false) (b : Byte) :
    exec (.byteSlot b) s = .next (slotDone b s) := by
  change execByteSlot b s = _
  simp [execByteSlot, settleTick_of_quiet quiet, por]

theorem slotDone_of_command {s : State} {received : List Byte} (port : s.port = .command received) (b : Byte) :
    slotDone b s = receiveByte received b s := by
  rw [slotDone, port]

theorem receiveByte_of_unknown {code : Byte} (unknown : commandPartLength code = none) (s : State) :
    receiveByte [] code s = unknownFrame s := by
  simp only [receiveByte, List.headD_nil, unknown]

/-- The last byte slot of a command part whose CRC does not match (R186). -/
theorem receiveByte_of_bad_crc {code : Byte} {params : List Byte} {b : Byte}
    (last : commandPartLength code = some (params.length + 2)) (mismatch : crc8 (code :: params) ≠ b) (s : State) :
    receiveByte (code :: params) b s = badFrame s := by
  simp only [receiveByte, List.headD_cons, last, List.length_cons, lt_irrefl, mismatch, if_false]

/-! ## Command parts that are not performed (R186, R187) -/

theorem exec_crcMismatch_of_portReady {s : State} (ready : PortReady s) : exec .crcMismatch s = .next (badFrame s) := by
  obtain ⟨quiet, por, port⟩ := ready
  change execCrcMismatch s = _
  simp [execCrcMismatch, settleTick_of_quiet quiet, portOpen, por, port]

theorem exec_unknownCode_of_portReady {s : State} (ready : PortReady s) {code : Byte}
    (unknown : commandPartLength code = none) : exec (.unknownCode code) s = .next (unknownFrame s) := by
  obtain ⟨quiet, por, port⟩ := ready
  change execUnknownCode code s = _
  simp [execUnknownCode, settleTick_of_quiet quiet, portOpen, por, port, receiveByte_of_unknown unknown,
    unknownFrame_eq]

/-- Settles O33: both the last byte slot of the frame and its row lead to `badFrame`. -/
theorem badCrcSetsFrameErrorOnly : Obligations.BadCrcSetsFrameErrorOnly := by
  intro s
  rw [← badFrame_eq]
  refine ⟨fun code params b quiet por port last mismatch => ?slot, exec_crcMismatch_of_portReady⟩
  rw [exec_byteSlot quiet por, slotDone_of_command port, receiveByte_of_bad_crc last mismatch]

/-- Settles O34: the row and the byte slot lead to `unknownFrame`, whose two reply bytes take one slot each. -/
theorem unknownCodeIsAnsweredAtOnce : Obligations.UnknownCodeIsAnsweredAtOnce := by
  intro s code a b unknown t
  have answered : unknownFrame s = t := unknownFrame_eq s
  refine ⟨fun ready => ?row, fun quiet por port => ⟨?slot, ?status, ?crc⟩⟩
  case row => rw [exec_unknownCode_of_portReady ready unknown, answered]
  case slot => rw [exec_byteSlot quiet por, slotDone_of_command port, receiveByte_of_unknown unknown, answered]
  case status => simp [sdoByte, t, por]
  case crc =>
    let u : State := { t with port := .reply [0x12#8] }
    have first : exec (.byteSlot a) t = .next u := exec_byteSlot (s := t) quiet por a
    have second : exec (.byteSlot b) u = .next { u with port := .after } := exec_byteSlot (s := u) quiet por b
    exact ⟨u, first, by simp [sdoByte, u, t, por], second⟩

end Sys2Proof.Machine
end

