-- ==== Sys2Proof/Proofs/PortCommands.lean ====
section
/-! The frames IDENTIFY, SUMMARY, CLEAR CAUSES and TAKE DENIAL of the management port, the bytes of their replies, and
the obligations O36, O46 and O47. -/

namespace Sys2Proof.Machine

/-- The row of a frame performs the frame's command and the port enters REPLY (R185). -/
theorem exec_rowOf_of_portReady {s : State} (ready : PortReady s) (c : FrameCommand) :
    exec (rowOf c) s = .next (performReply c s) := by
  rw [← receive_of_portReady ready c]
  cases c <;> rfl

/-! ## Bytes of a number (R183) -/

/-- A number of one byte is that byte. -/
theorem bytesOfNat_one_toNat {w : Nat} (v : BitVec w) : bytesOfNat 1 v.toNat = [v.setWidth 8] := by
  simp [bytesOfNat]

/-! ## SUMMARY: the attention mask (R172, R196) -/

theorem attentionMask_eq_ofBits (s : State) : attentionMask s = Nat.ofBits fun r : RegNo => attention (reg s r) := by
  simpa [attentionMask, indexed, List.foldl_map, reg] using
    foldl_add_two_pow (fun r : RegNo => attention (reg s r)) 1 0

theorem attentionMask_lt (s : State) : attentionMask s < 2 ^ 16 := by
  rw [attentionMask_eq_ofBits]
  exact Nat.ofBits_lt_two_pow _

theorem testBit_attentionMask (s : State) (r : RegNo) : (attentionMask s).testBit r.val = attention (reg s r) := by
  rw [attentionMask_eq_ofBits, Nat.testBit_ofBits_lt _ _ r.isLt]

/-- Settles O36: both replies are the model's bytes as they stand, and a bit of the mask is the attention of its
regulator. -/
theorem identifyAndSummaryReport : Obligations.IdentifyAndSummaryReport := by
  intro s ready reply
  refine ⟨exec_rowOf_of_portReady ready .identify, attentionMask s, attentionMask_lt s, fun r => ?bits,
    exec_rowOf_of_portReady ready .summary⟩
  rw [testBit_attentionMask, attention_iff]

/-! ## CLEAR CAUSES (R173, R194) -/

/-- The causes that are left when those named by a byte are cleared. -/
def causesLeft {w : Nat} (causes : BitVec w) (causeSet : Byte) : BitVec w :=
  causes &&& ~~~ BitVec.ofNat w causeSet.toNat

theorem getLsbD_causesLeft {w : Nat} (causes : BitVec w) (causeSet : Byte) (c : Fin w) :
    (causesLeft causes causeSet).getLsbD c = (causes.getLsbD c && !causeSet.getLsbD c) := by
  simp [causesLeft]

theorem clearCauses_of_regulator {target causeSet : Byte} {r : RegNo} (names : target.toNat = r.val)
    (known : causeSet.toNat < 128) (s : State) :
    clearCauses target causeSet s =
      (setReg s r { reg s r with causes := causesLeft (reg s r).causes causeSet }, .done,
        [(causesLeft (reg s r).causes causeSet).setWidth 8]) := by
  have isRegulator : target.toNat < 16 := names ▸ r.isLt
  obtain rfl : ⟨target.toNat, isRegulator⟩ = r := Fin.ext names
  rw [← bytesOfNat_one_toNat, clearCauses, dif_pos isRegulator, if_pos known]
  rfl

theorem clearCauses_of_device {causeSet : Byte} (known : causeSet.toNat < 64) (s : State) :
    clearCauses 0xFF#8 causeSet s =
      ({ s with deviceCauses := causesLeft s.deviceCauses causeSet }, .done,
        [(causesLeft s.deviceCauses causeSet).setWidth 8]) := by
  rw [← bytesOfNat_one_toNat, clearCauses, dif_neg (by decide), if_pos rfl, if_pos known]
  rfl

theorem clearCauses_of_unknown_cause {target causeSet : Byte}
    (beyond : target.toNat < 16 ∧ 128 ≤ causeSet.toNat ∨ target = 0xFF#8 ∧ 64 ≤ causeSet.toNat) (s : State) :
    clearCauses target causeSet s = (s, .range, [0x00#8]) := by
  obtain ⟨isRegulator, unknown⟩ | ⟨rfl, unknown⟩ := beyond
  · rw [clearCauses, dif_pos isRegulator, if_neg unknown.not_gt]
  · rw [clearCauses, dif_neg (by decide), if_pos rfl, if_neg unknown.not_gt]

theorem clearCauses_of_no_target {target : Byte} (notRegulator : 16 ≤ target.toNat) (notDevice : target ≠ 0xFF#8)
    (causeSet : Byte) (s : State) : clearCauses target causeSet s = (s, .index, [0x00#8]) := by
  rw [clearCauses, dif_neg notRegulator.not_gt, if_neg notDevice]

theorem exec_clearCauses_of_portReady {s t : State} {target causeSet left : Byte} {status : Status}
    (ready : PortReady s) (performed : clearCauses target causeSet s = (t, status, [left])) :
    exec (.clearCauses target causeSet) s =
      .next { t with sel := true, port := .reply (replyPart status [left]) } := by
  have row := exec_rowOf_of_portReady ready (.clearCauses target causeSet)
  rwa [performReply, perform, performed] at row

/-- Settles O46, one clause for each branch of `clearCauses`. -/
theorem clearCausesClearsTheNamedSet : Obligations.ClearCausesClearsTheNamedSet := by
  intro s target causeSet ready reply
  refine ⟨fun r names known => ?regulator, fun device known => ?device, fun beyond => ?range,
    fun notRegulator notDevice => ?index⟩
  case regulator =>
    exact ⟨causesLeft (reg s r).causes causeSet, getLsbD_causesLeft _ _,
      exec_clearCauses_of_portReady ready (clearCauses_of_regulator names known s)⟩
  case device =>
    subst device
    exact ⟨causesLeft s.deviceCauses causeSet, getLsbD_causesLeft _ _,
      exec_clearCauses_of_portReady ready (clearCauses_of_device known s)⟩
  case range => exact exec_clearCauses_of_portReady ready (clearCauses_of_unknown_cause beyond s)
  case index =>
    exact exec_clearCauses_of_portReady ready (clearCauses_of_no_target notRegulator notDevice causeSet s)

/-! ## TAKE DENIAL (R179, R195) -/

theorem directionCode_lt (d : Direction) : directionCode d < 256 := by cases d <;> decide

theorem reasonCode_lt (reason : DenyReason) : reasonCode reason < 256 := by cases reason <;> decide

theorem targetCode_lt (t : Target) : targetCode t < 256 := by
  cases t with
  | regulator r => exact r.isLt.trans (by decide)
  | bypass => decide

theorem length_recordBytes (d : DenialRecord) : (recordBytes d).length = 17 := rfl

theorem map_toNat_recordBytes (d : DenialRecord) :
    (recordBytes d).map BitVec.toNat =
      [1, d.key.initiator.val, d.key.tag.val, directionCode d.direction,
       d.address.toNat / 2 ^ 32, d.address.toNat / 2 ^ 24 % 256, d.address.toNat / 2 ^ 16 % 256,
       d.address.toNat / 2 ^ 8 % 256, d.address.toNat % 256,
       d.length.val / 256, d.length.val % 256, reasonCode d.reason, targetCode d.target,
       d.time.toNat / 2 ^ 24, d.time.toNat / 2 ^ 16 % 256, d.time.toNat / 2 ^ 8 % 256, d.time.toNat % 256] := by
  have direction := directionCode_lt d.direction
  have reason := reasonCode_lt d.reason
  have target := targetCode_lt d.target
  simp [recordBytes, bytesOfNat, Nat.mod_eq_of_lt direction, Nat.mod_eq_of_lt reason, Nat.mod_eq_of_lt target]
  omega

theorem takeDenial_of_nil {s : State} (empty : s.denials = []) :
    takeDenial s = (s, .done, List.replicate 17 0x00#8) := by
  rw [takeDenial, empty]

theorem takeDenial_of_cons {s : State} {d : DenialRecord} {rest : List DenialRecord} (oldest : s.denials = d :: rest) :
    takeDenial s = ({ s with denials := rest }, .done, recordBytes d) := by
  rw [takeDenial, oldest]

/-- The CRC register starts at zero and zero bytes leave it there (R184). -/
theorem crc8_replicate_zero (n : Nat) : crc8 (List.replicate n 0x00#8) = 0x00#8 := by
  induction n with
  | zero => rfl
  | succ n ih =>
    have unmoved : crcByte 0x00#8 0x00#8 = 0x00#8 := by decide
    rwa [crc8, List.replicate_succ, List.foldl_cons, unmoved]

theorem replyPart_done_replicate_zero (n : Nat) :
    replyPart .done (List.replicate n 0x00#8) = List.replicate (n + 2) 0x00#8 := by
  have body : statusCode .done :: List.replicate n 0x00#8 = List.replicate (n + 1) 0x00#8 := rfl
  rw [replyPart, body, crc8_replicate_zero, ← List.replicate_succ']

/-- Settles O47, one clause for each branch of `takeDenial`. -/
theorem takeDenialRemovesTheOldestRecord : Obligations.TakeDenialRemovesTheOldestRecord := by
  intro s ready
  have row : exec .takeDenial s = .next (performReply .takeDenial s) := exec_rowOf_of_portReady ready .takeDenial
  rw [performReply, perform] at row
  refine ⟨fun empty => ?empty, fun d rest oldest => ⟨0x00#8 :: recordBytes d, ?length, ?record, ?bytes⟩⟩
  case empty => rw [row, takeDenial_of_nil empty, enterReply, replyPart_done_replicate_zero]
  case length => rw [List.length_cons, length_recordBytes]
  case record =>
    rw [row, takeDenial_of_cons oldest]
    rfl
  case bytes =>
    rw [List.map_cons, map_toNat_recordBytes]
    rfl

end Sys2Proof.Machine
end

