-- ==== Sys2Proof/Proofs/ExpiryRuns.lean ====
section
/-! The outstanding table as expiry and matching read it: the entries in arrival order, the oldest entry of a key, the leaders
of the runs and the runs themselves (R132, R139, R140), and what abandoning a list of entries does to the table. -/

namespace Sys2Proof.Machine

/-! ## The entries in use -/

theorem nodup_inUse (s : State) : ((inUse s).map Prod.fst).Nodup := by
  have sub : ((inUse s).map Prod.fst).Sublist (List.finRange 64) := by
    have slots : (indexed s.outstanding).map Prod.fst = List.finRange 64 := by
      rw [indexed, List.map_map]
      exact List.map_id _
    rw [← slots, inUse]
    generalize indexed s.outstanding = l
    induction l with
    | nil => exact .slnil
    | cons p l ih =>
      obtain ⟨i, slot⟩ := p
      cases slot with
      | none => exact ih.cons i
      | some e => exact ih.cons_cons i
  exact sub.nodup (List.nodup_finRange 64)

theorem eq_of_mem_inUse {s : State} {p q : Fin 64 × OutEntry} (hp : p ∈ inUse s) (hq : q ∈ inUse s)
    (same : p.1 = q.1) : p = q :=
  List.inj_on_of_nodup_map (nodup_inUse s) hp hq same

/-! ## The oldest entry of a key (R132) -/

theorem foldl_olderEntry_eq_argmin (l : List (Fin 64 × OutEntry)) :
    l.foldl olderEntry none = l.argmin fun p => p.2.place := by
  have older : olderEntry = List.argAux fun b c => b.2.place < c.2.place := by
    funext best p
    cases best <;> rfl
  rw [older, List.argmin]

theorem oldestEntry_eq_argmin (s : State) (k : Key) :
    oldestEntry s k = ((inUse s).filter fun p => p.2.key == k).argmin fun p => p.2.place :=
  foldl_olderEntry_eq_argmin _

theorem mem_of_oldestEntry {s : State} {k : Key} {p : Fin 64 × OutEntry} (oldest : oldestEntry s k = some p) :
    p ∈ inUse s ∧ p.2.key = k := by
  rw [oldestEntry_eq_argmin] at oldest
  simpa using List.argmin_mem oldest

theorem outstanding_of_oldestEntry {s : State} {k : Key} {p : Fin 64 × OutEntry} (oldest : oldestEntry s k = some p) :
    s.outstanding[p.1] = some p.2 :=
  (mem_inUse s p).mp (mem_of_oldestEntry oldest).1

/-! ## Arrival order -/

theorem insertByPlace_eq_orderedInsert (p : Fin 64 × OutEntry) (l : List (Fin 64 × OutEntry)) :
    insertByPlace p l = l.orderedInsert (fun a b => a.2.place < b.2.place) p := by
  induction l with
  | nil => rfl
  | cons x xs ih => rw [insertByPlace, ih, List.orderedInsert]

theorem liveByPlace_perm (s : State) : (liveByPlace s).Perm ((inUse s).filter fun p => p.2.state == .live) := by
  rw [liveByPlace]
  induction (inUse s).filter fun p => p.2.state == .live with
  | nil => exact .nil
  | cons p l ih =>
    rw [List.foldr_cons, insertByPlace_eq_orderedInsert]
    exact (List.perm_orderedInsert _ _ _).trans (ih.cons p)

theorem mem_liveByPlace (s : State) (p : Fin 64 × OutEntry) : p ∈ liveByPlace s ↔ p ∈ inUse s ∧ p.2.state = .live := by
  rw [(liveByPlace_perm s).mem_iff, List.mem_filter, beq_iff_eq]

theorem nodup_liveByPlace (s : State) : ((liveByPlace s).map Prod.fst).Nodup :=
  ((liveByPlace_perm s).map Prod.fst).nodup_iff.mpr ((List.filter_sublist.map Prod.fst).nodup (nodup_inUse s))

theorem insertByPlace_sorted (p : Fin 64 × OutEntry) {l : List (Fin 64 × OutEntry)}
    (sorted : l.Pairwise fun a b => a.2.place ≤ b.2.place) :
    (insertByPlace p l).Pairwise fun a b => a.2.place ≤ b.2.place := by
  induction l with
  | nil => exact List.pairwise_singleton _ p
  | cons x xs ih =>
    obtain ⟨first, rest⟩ := List.pairwise_cons.mp sorted
    rw [insertByPlace]
    split
    next before =>
      refine List.pairwise_cons.mpr ⟨fun q hq => ?_, sorted⟩
      rcases List.mem_cons.mp hq with rfl | later
      · exact before.le
      · exact before.le.trans (first q later)
    next notBefore =>
      refine List.pairwise_cons.mpr ⟨fun q hq => ?_, ih rest⟩
      rw [insertByPlace_eq_orderedInsert, List.mem_orderedInsert] at hq
      rcases hq with rfl | later
      · exact not_lt.mp notBefore
      · exact first q later

theorem liveByPlace_sorted (s : State) : (liveByPlace s).Pairwise fun a b => a.2.place ≤ b.2.place := by
  rw [liveByPlace]
  induction (inUse s).filter fun p => p.2.state == .live with
  | nil => exact .nil
  | cons p l ih => exact insertByPlace_sorted p ih

/-! ## The leaders of the runs (R139, R140) -/

theorem firstOfKeys_concat (l : List (Fin 64 × OutEntry)) (p : Fin 64 × OutEntry) :
    firstOfKeys (l ++ [p]) =
      if (firstOfKeys l).any fun e => e.key == p.2.key then firstOfKeys l else firstOfKeys l ++ [p.2] := by
  rw [firstOfKeys, List.foldl_append]
  rfl

/-- The first entry of each key of a list in arrival order: one of each key, the oldest of it, in arrival order. -/
structure FirstOfKeys (l : List (Fin 64 × OutEntry)) (firsts : List OutEntry) : Prop where
  mem : ∀ e ∈ firsts, ∃ i, (i, e) ∈ l
  keys : firsts.Pairwise fun e f => e.key ≠ f.key
  sorted : firsts.Pairwise fun e f => e.place ≤ f.place
  covers : ∀ p ∈ l, ∃ e ∈ firsts, e.key = p.2.key
  oldest : ∀ e ∈ firsts, ∀ p ∈ l, p.2.key = e.key → e.place ≤ p.2.place

theorem firstOfKeys_spec {l : List (Fin 64 × OutEntry)} (sorted : l.Pairwise fun a b => a.2.place ≤ b.2.place) :
    FirstOfKeys l (firstOfKeys l) := by
  induction l using List.reverseRecOn with
  | nil => exact ⟨by simp [firstOfKeys], .nil, .nil, by simp, by simp⟩
  | append_singleton l p ih =>
    obtain ⟨before, -, last⟩ := List.pairwise_append.mp sorted
    obtain ⟨mem, keys, inOrder, covers, oldest⟩ := ih before
    have before_p : ∀ e ∈ firstOfKeys l, e.place ≤ p.2.place := fun e he => by
      obtain ⟨i, hi⟩ := mem e he
      exact last (i, e) hi p (by simp)
    rw [firstOfKeys_concat]
    split
    next known =>
      obtain ⟨f, hf, same⟩ : ∃ f ∈ firstOfKeys l, f.key = p.2.key := by simpa using known
      refine ⟨fun e he => ?_, keys, inOrder, fun q hq => ?_, fun e he q hq key => ?_⟩
      · obtain ⟨i, hi⟩ := mem e he
        exact ⟨i, by simp [hi]⟩
      · rcases List.mem_append.mp hq with hq | hq
        · exact covers q hq
        · rw [List.mem_singleton.mp hq]
          exact ⟨f, hf, same⟩
      · rcases List.mem_append.mp hq with hq | hq
        · exact oldest e he q hq key
        · rw [List.mem_singleton.mp hq]
          exact before_p e he
    next fresh =>
      have other : ∀ e ∈ firstOfKeys l, e.key ≠ p.2.key := by simpa using fresh
      refine ⟨fun e he => ?_, List.pairwise_append.mpr ⟨keys, List.pairwise_singleton _ _, ?_⟩,
        List.pairwise_append.mpr ⟨inOrder, List.pairwise_singleton _ _, ?_⟩, fun q hq => ?_, fun e he q hq key => ?_⟩
      · rcases List.mem_append.mp he with he | he
        · obtain ⟨i, hi⟩ := mem e he
          exact ⟨i, by simp [hi]⟩
        · exact ⟨p.1, by simp [List.mem_singleton.mp he]⟩
      · simpa using other
      · simpa using before_p
      · rcases List.mem_append.mp hq with hq | hq
        · obtain ⟨e, he, same⟩ := covers q hq
          exact ⟨e, by simp [he], same⟩
        · exact ⟨p.2, by simp, by rw [List.mem_singleton.mp hq]⟩
      · rcases List.mem_append.mp he with he | he
        · rcases List.mem_append.mp hq with hq | hq
          · exact oldest e he q hq key
          · rw [List.mem_singleton.mp hq]
            exact before_p e he
        · obtain rfl := List.mem_singleton.mp he
          rcases List.mem_append.mp hq with hq | hq
          · obtain ⟨f, hf, same⟩ := covers q hq
            exact absurd (same.trans key) (other f hf)
          · rw [List.mem_singleton.mp hq]

/-- The expiring entries in arrival order. -/
def expiringByPlace (s : State) : List (Fin 64 × OutEntry) :=
  (liveByPlace s).filter fun p => expiring s.responseTimeout p.2

theorem live_of_expiring {n : Nat} {e : OutEntry} (h : expiring n e = true) : e.state = .live := by
  simp only [expiring, Bool.and_eq_true, beq_iff_eq] at h
  exact h.1.1

theorem mem_expiringByPlace (s : State) (p : Fin 64 × OutEntry) :
    p ∈ expiringByPlace s ↔ p ∈ inUse s ∧ expiring s.responseTimeout p.2 = true := by
  rw [expiringByPlace, List.mem_filter, mem_liveByPlace, and_assoc]
  exact and_congr_right fun _ => and_iff_right_of_imp live_of_expiring

theorem leaders_spec (s : State) : FirstOfKeys (expiringByPlace s) (leaders s) :=
  firstOfKeys_spec ((liveByPlace_sorted s).filter _)

/-- An entry that leads the run of its key: the oldest expiring one (R139). -/
abbrev Leads (s : State) (lead : OutEntry) : Prop :=
  (∃ i : Fin 64, s.outstanding[i] = some lead) ∧ expiring s.responseTimeout lead = true
    ∧ ∀ (j : Fin 64) (f : OutEntry), s.outstanding[j] = some f → f.key = lead.key →
        expiring s.responseTimeout f = true → lead.place ≤ f.place

theorem leads_of_mem_leaders {s : State} {lead : OutEntry} (h : lead ∈ leaders s) : Leads s lead := by
  obtain ⟨i, hi⟩ := (leaders_spec s).mem lead h
  obtain ⟨used, expires⟩ := (mem_expiringByPlace s _).mp hi
  refine ⟨⟨i, (mem_inUse s _).mp used⟩, expires, fun j f found key expiresToo => ?_⟩
  exact (leaders_spec s).oldest lead h (j, f)
    ((mem_expiringByPlace s _).mpr ⟨(mem_inUse s (j, f)).mpr found, expiresToo⟩) key

/-! ## Runs and their abandonment (R139) -/

theorem mem_runOf (lead : OutEntry) (s : State) (p : Fin 64 × OutEntry) :
    p ∈ runOf lead s ↔ (p ∈ inUse s ∧ p.2.state = .live) ∧ p.2.key = lead.key ∧ lead.place ≤ p.2.place := by
  simp [runOf, mem_liveByPlace]

theorem nodup_runOf (lead : OutEntry) (s : State) : ((runOf lead s).map Prod.fst).Nodup :=
  (List.filter_sublist.map Prod.fst).nodup (nodup_liveByPlace s)

/-- An entry once it is abandoned (R139). -/
def abandoned (e : OutEntry) : OutEntry := { e with state := .abandoned, charged := none }

/-- A list of entries abandoned one after the other. -/
def abandonAll (l : List (Fin 64 × OutEntry)) (s : State) : State := l.foldl (fun t p => abandonEntry p t) s

theorem abandonAll_cons (p : Fin 64 × OutEntry) (l : List (Fin 64 × OutEntry)) (s : State) :
    abandonAll (p :: l) s = abandonAll l (abandonEntry p s) := rfl

theorem abandonRun_eq (lead : OutEntry) (s : State) :
    abandonRun lead s = if (runOf lead s).length + s.owed.length ≤ 64 then abandonAll (runOf lead s) s else s := rfl

theorem abandonEntry_outstanding (p : Fin 64 × OutEntry) (s : State) :
    (abandonEntry p s).outstanding = s.outstanding.set p.1 (some (abandoned p.2)) := by
  simp [abandonEntry, abandoned]

theorem outstanding_abandonAll_of_not_mem {l : List (Fin 64 × OutEntry)} {i : Fin 64} (other : ∀ p ∈ l, p.1 ≠ i)
    (s : State) : (abandonAll l s).outstanding[i] = s.outstanding[i] := by
  induction l generalizing s with
  | nil => rfl
  | cons p l ih =>
    rw [abandonAll_cons, ih (fun q hq => other q (List.mem_cons_of_mem p hq)), abandonEntry_outstanding, set_get,
      if_neg (other p List.mem_cons_self).symm]

theorem outstanding_abandonAll_of_mem {l : List (Fin 64 × OutEntry)} (distinct : (l.map Prod.fst).Nodup)
    {p : Fin 64 × OutEntry} (h : p ∈ l) (s : State) :
    (abandonAll l s).outstanding[p.1] = some (abandoned p.2) := by
  induction l generalizing s with
  | nil => cases h
  | cons q l ih =>
    obtain ⟨first, rest⟩ := List.nodup_cons.mp distinct
    rw [abandonAll_cons]
    rcases List.mem_cons.mp h with rfl | later
    · rw [outstanding_abandonAll_of_not_mem fun r hr same => first (List.mem_map.mpr ⟨r, hr, same⟩),
        abandonEntry_outstanding, set_get, if_pos rfl]
    · exact ih rest later _

/-- What holds through the abandonment of a list of LIVE entries: each is still LIVE at its place when its turn comes. -/
theorem keeps_abandonAll {P : State → Prop} {l : List (Fin 64 × OutEntry)} {s : State}
    (distinct : (l.map Prod.fst).Nodup) (live : ∀ p ∈ l, p ∈ inUse s ∧ p.2.state = .live)
    (keeps : ∀ p ∈ l, ∀ t, p ∈ inUse t → p.2.state = .live → P t → P (abandonEntry p t)) (h : P s) :
    P (abandonAll l s) := by
  induction l generalizing s with
  | nil => exact h
  | cons p l ih =>
    obtain ⟨first, rest⟩ := List.nodup_cons.mp distinct
    obtain ⟨used, alive⟩ := live p List.mem_cons_self
    rw [abandonAll_cons]
    refine ih rest (fun q hq => ⟨?_, (live q (List.mem_cons_of_mem p hq)).2⟩)
      (fun q hq => keeps q (List.mem_cons_of_mem p hq)) (keeps p List.mem_cons_self s used alive h)
    have apart : q.1 ≠ p.1 := fun same => first (List.mem_map.mpr ⟨q, hq, same⟩)
    rw [mem_inUse, abandonEntry_outstanding, set_get, if_neg apart]
    exact (mem_inUse s q).mp (live q (List.mem_cons_of_mem p hq)).1

end Sys2Proof.Machine
end

