-- ==== Sys2Proof/Proofs/Moves.lean ====
section
/-! What a step can do, as a chain of moves: each move is one change of the stores, of one regulator or of one block, with
the condition under which the part makes it. An invariant that every move keeps is kept by every step
(`keeps_of_moves`). -/

namespace Sys2Proof.Machine

/-! ## The moves -/

/-- The changes of one regulator context that touch no store and charge or release nothing. -/
inductive ContextStep (r : RegNo) : Regulator → Regulator → Prop
  | same (g) : ContextStep r g g
  | causes (g bits) : ContextStep r g { g with causes := bits }
  | enable (g) (off : g.state = .off) : ContextStep r g { g with state := .armed }
  | start (g) (armed : g.state = .armed) : ContextStep r g { newWindow g with state := .running }
  | goOn (g) (halted : g.state = .halted) : ContextStep r g { g with state := .running }
  | halt (g) (running : g.state = .running) : ContextStep r g { g with state := .halted }
  | restart (g) (inUse : laneInUse g.state = true) : ContextStep r g (newWindow (pendingApplied g))
  | sample (g) : ContextStep r g (sampled g)
  | pend (g) (inUse : laneInUse g.state = true) : ContextStep r g { g with exchangePending := true }
  | exchange (g) (rest : laneInUse g.state = false) : ContextStep r g (exchanged g)
  | window (g) : ContextStep r g (windowClosed g)
  | setup (g u v) (off : g.state = .off) (decoded : decodeSetup r v = some u) : ContextStep r g { g with setup := u }
  | triggers (g t) : ContextStep r g { g with triggers := t }
  | active (g p which v) (rest : laneInUse g.state = false) (written : writeProfile g.active which v = some p) :
      ContextStep r g { g with active := p }
  | standby (g p which v) (written : writeProfile g.standby which v = some p) : ContextStep r g { g with standby := p }
  | mask (g bits) : ContextStep r g { g with mask := bits }

/-- One move of the part. -/
inductive Move : State → State → Prop
  /-- The offers of the partners, the port, the device causes and mask, DEFAULT TARGET, and the model's own fields. -/
  | outside (s t : State)
      (frame : t = { s with
        offer := t.offer, memoryOffer := t.memoryOffer, sel := t.sel, port := t.port, deviceCauses := t.deviceCauses
        deviceMask := t.deviceMask, defaultTarget := t.defaultTarget, windowEndDue := t.windowEndDue
        expiryDue := t.expiryDue, pending := t.pending }) : Move s t
  | context (s r g cs) (change : ContextStep r (reg s r) g) : Move s (regulatorEvent r g cs s)
  | take (s q v) (found : considered s = some (q, v)) (forward : v.disposition = .forward) :
      Move s (joinPool .forward v.lane q v.target s)
  | takeDeny (s q v reason) (found : considered s = some (q, v)) (denied : v.disposition = .denyEntry reason) :
      Move s (joinPool (.deny reason) .bypass (withoutData q) v.target s)
  | skipPlace (s) : Move s { s with offer := none, nextPlace := s.nextPlace + 1 }
  | leave (s e) (pooled : e ∈ s.pool) : Move s (leavePool e s)
  | grant (s e i) (chosen : choice s = some (e, i)) : Move s (grantMoved e i s)
  | release (s) : Move s { s with held := none }
  | close (s) (i : Fin 64) (e) (found : s.outstanding[i] = some e) (live : e.state = .live) : Move s (closeEntry i e s)
  | drop (s) (i : Fin 64) (e) (found : s.outstanding[i] = some e) (abandoned : e.state = .abandoned) :
      Move s { s with memoryOffer := none, outstanding := s.outstanding.set i none }
  | enter (s u) (flows : flowing s = true) (room : s.responses.length < 16) : Move s (enterQueue u s)
  | taken (s u rest) (queue : s.responses = u :: rest) : Move s { s with responses := rest }
  | answered (s x rest) (owed : s.owed = x :: rest) :
      Move s (setCounts { s with owed := rest } x.key { counts s x.key with owed := (counts s x.key).owed - 1 })
  | records (s records) (room : records.length ≤ max s.denials.length 16) : Move s { s with denials := records }
  | abandon (s lead) (leads : Leads s lead) (room : (runOf lead s).length + s.owed.length ≤ 64) :
      Move s (abandonAll (runOf lead s) s)
  | pass (s n) (por : s.por = false) (room : s.divider + n ≤ s.interval) : Move s (passPeriods n s)
  | tick (s) (por : s.por = false) : Move s (takeTick s)
  | syn (s) (line : Fin 4) (level) (por : s.por = false) :
      Move s { s with syn := s.syn.set line { level := level, kept := some level } }
  | synHeld (s) (line : Fin 4) (level) (por : s.por = true) :
      Move s { s with syn := s.syn.set line { s.syn[line] with level := level } }
  | prescale (s v p) (decoded : decodePrescale v = some p) : Move s { s with prescale := p }
  | timeout (s v p) (decoded : decodeTimeout v = some p) : Move s { s with responseTimeout := p }
  | priority (s p) (inRange : p ≤ 3) : Move s { s with bypassPriority := p }
  | map (s) (i : Fin 32) (e) (sound : MapEntryOk s.map[i] → MapEntryOk e) : Move s { s with map := s.map.set i e }
  | markers (s v lines) (written : writeMarkers v s.markers = some lines) : Move s { s with markers := lines }
  | disable (s r) (on : (reg s r).state ≠ .off) : Move s (disableReg r s)
  | pathReset (s) : Move s (pathReset s)
  | resumeLink (s) (prst : s.prst = true) : Move s { s with prst := false }
  | porReset (s) : Move s { blocksReset s with por := true }
  | reset (s) : Move s (blocksReset s)

/-- A chain of moves. -/
abbrev Moves : State → State → Prop := Relation.ReflTransGen Move

theorem Move.moves {s t : State} (h : Move s t) : Moves s t := .single h

/-- What every move keeps a chain of moves keeps. -/
theorem keeps_of_moves {P : State → Prop} (keeps : ∀ s t, Move s t → P s → P t) {s t : State} (chain : Moves s t)
    (h : P s) : P t := by
  induction chain with
  | refl => exact h
  | tail _ move ih => exact keeps _ _ move ih

/-! ## The operations as chains of moves -/

theorem moves_outside {s t : State} (frame : t = { s with
    offer := t.offer, memoryOffer := t.memoryOffer, sel := t.sel, port := t.port, deviceCauses := t.deviceCauses
    deviceMask := t.deviceMask, defaultTarget := t.defaultTarget, windowEndDue := t.windowEndDue
    expiryDue := t.expiryDue, pending := t.pending }) : Moves s t :=
  (Move.outside s t frame).moves

theorem moves_regulatorEvent {s : State} {r : RegNo} {g : Regulator} (cs : List Cause)
    (change : ContextStep r (reg s r) g) : Moves s (regulatorEvent r g cs s) :=
  (Move.context s r g cs change).moves

theorem moves_setReg {s : State} {r : RegNo} {g : Regulator} (change : ContextStep r (reg s r) g) :
    Moves s (setReg s r g) :=
  moves_regulatorEvent [] change

theorem moves_raiseCause (r : RegNo) (c : Cause) (s : State) : Moves s (raiseCause r c s) := by
  have event : regulatorEvent r (reg s r) [c] s = raiseCause r c s := by
    rw [regulatorEvent, setReg_same]
    rfl
  exact event ▸ moves_regulatorEvent [c] (.same _)

theorem moves_raiseDevice (c : DeviceCause) (s : State) : Moves s (raiseDevice c s) := moves_outside rfl

theorem moves_quotaCause (v : Verdict) (o : Offer) (s : State) : Moves s (quotaCause v o s) := by
  unfold quotaCause
  split
  · split
    · exact .refl
    · exact moves_raiseCause ..
  · exact .refl

theorem moves_consider (s : State) : Moves s (consider s) := by
  unfold consider
  split
  · exact .refl
  · split
    next o _ _ =>
      refine (moves_quotaCause (judge s o.request) o s).trans (moves_outside ?_)
      dsimp only
      rw [fullCause_frame]
    · exact .refl

theorem moves_matchOffered (s : State) : Moves s (matchOffered s) := by
  obtain absent | ⟨u, offered⟩ := Option.eq_none_or_eq_some s.memoryOffer
  · rw [matchOffered_none absent]
  rw [matchOffered_some offered]
  split
  · split
    · exact moves_outside (by simp)
    next p oldest =>
      split
      next abandoned => exact (Move.drop s p.1 p.2 (outstanding_of_oldestEntry oldest) abandoned).moves
      next => exact .refl
  · exact .refl

theorem moves_resume (s : State) : Moves s (resume s) := (moves_matchOffered s).trans (moves_consider _)

theorem moves_malformedCause (reason : DenyReason) (s : State) : Moves s (malformedCause reason s) := by
  unfold malformedCause
  split
  · exact moves_raiseDevice ..
  · exact .refl

theorem moves_offerRecord (d : DenialRecord) (s : State) : Moves s (offerRecord d s) := by
  unfold offerRecord
  split
  next room =>
    have length : (s.denials ++ [d]).length ≤ max s.denials.length 16 := by
      rw [List.length_append, List.length_singleton]
      exact le_max_of_le_right room
    exact (Move.records s _ length).moves
  · exact moves_raiseDevice ..

theorem moves_attributeDenial (t : Target) (s : State) : Moves s (attributeDenial t s) := by
  unfold attributeDenial
  split
  · split
    · exact moves_raiseCause ..
    · exact .refl
  · exact .refl

theorem moves_deny {s : State} (q : Request) (reason : DenyReason) (t : Target) (flows : flowing s = true)
    (room : s.responses.length < 16) : Moves s (deny q reason t s) :=
  ((Move.enter s _ flows room).moves.trans (moves_offerRecord ..)).trans (moves_attributeDenial ..)

/-! ## The events of the path -/

theorem moves_forwardTake (s : State) : Moves s (forwardTake s) := by
  unfold forwardTake
  split
  next q v found =>
    split
    next forward => exact (Move.take s q v found forward).moves
    · exact .refl
  · exact .refl

theorem moves_denyEntryTake (s : State) : Moves s (denyEntryTake s) := by
  unfold denyEntryTake
  split
  next q v found =>
    split
    next reason denied => exact (Move.takeDeny s q v reason found denied).moves.trans (moves_malformedCause ..)
    · exact .refl
  · exact .refl

theorem room_of_award {s : State} {c : Claimant} (awarded : award s = some c) :
    flowing s = true ∧ s.responses.length < 16 := by
  unfold award at awarded
  split at awarded
  next standing =>
    rw [Bool.and_eq_true, decide_eq_true_eq] at standing
    exact standing
  · cases awarded

theorem moves_directDenial (s : State) : Moves s (directDenial s) := by
  unfold directDenial
  split
  next awarded =>
    obtain ⟨flows, room⟩ := room_of_award awarded
    split
    next q reason t _ =>
      refine ((Move.skipPlace s).moves.trans (moves_malformedCause reason _)).trans (moves_deny q reason t ?_ ?_)
      · simpa [flowing] using flows
      · simpa using room
    · exact .refl
  · exact .refl

theorem moves_grant (s : State) : Moves s (grant s) := by
  cases chosen : choice s with
  | none => rw [grant, chosen]
  | some p =>
    rw [grant_of_choice chosen]
    exact (Move.grant s p.1 p.2 chosen).moves.trans (moves_consider _)

theorem moves_memoryTakes (s : State) : Moves s (memoryTakes s) := by
  unfold memoryTakes
  split
  · exact (Move.release s).moves
  · exact .refl

theorem liveMatch_eq_some {s : State} {u : Response} {p : Fin 64 × OutEntry} (found : liveMatch s = some (u, p)) :
    s.memoryOffer = some u ∧ oldestEntry s u.key = some p ∧ p.2.state = .live := by
  unfold liveMatch at found
  split at found
  · cases found
  next v offered =>
    split at found
    · cases found
    next q oldest =>
      split at found
      next live =>
        cases found
        exact ⟨offered, oldest, live⟩
      · cases found

theorem moves_responseEntersQueue (s : State) : Moves s (responseEntersQueue s) := by
  unfold responseEntersQueue
  split
  next awarded =>
    obtain ⟨flows, room⟩ := room_of_award awarded
    split
    next u i e found =>
      obtain ⟨-, oldest, live⟩ := liveMatch_eq_some found
      have taken : Moves s { s with memoryOffer := none } := moves_outside rfl
      have entered := (Move.enter { s with memoryOffer := none } u flows room).moves
      have closed := (Move.close (enterQueue u { s with memoryOffer := none }) i e
        (outstanding_of_oldestEntry oldest) live).moves
      exact ((taken.trans entered).trans closed).trans (moves_consider _)
    · exact .refl
  · exact .refl

theorem denyClaim_eq_some {s : State} {e : PoolEntry} {reason : DenyReason} (claim : denyClaim s = some (e, reason)) :
    laneHead s .bypass = some e ∧ e.kind = .deny reason ∧ denyEligible s e = true := by
  unfold denyClaim at claim
  split at claim
  next f head =>
    split at claim
    next kind =>
      split at claim
      next eligible =>
        cases claim
        exact ⟨head, kind, eligible⟩
      · cases claim
    · cases claim
  · cases claim

theorem mem_of_laneHead {s : State} {l : Lane} {e : PoolEntry} (head : laneHead s l = some e) : e ∈ s.pool :=
  List.mem_of_find?_eq_some head

theorem moves_denyEmission (s : State) : Moves s (denyEmission s) := by
  unfold denyEmission
  split
  next awarded =>
    obtain ⟨flows, room⟩ := room_of_award awarded
    split
    next e reason claim =>
      obtain ⟨head, -, -⟩ := denyClaim_eq_some claim
      have left := (Move.leave s e (mem_of_laneHead head)).moves
      have denied : Moves (leavePool e s) (deny e.request reason e.target (leavePool e s)) :=
        moves_deny _ _ _ flows room
      exact (left.trans denied).trans (moves_consider _)
    · exact .refl
  · exact .refl

theorem moves_timeoutResponse (s : State) : Moves s (timeoutResponse s) := by
  unfold timeoutResponse
  split
  next awarded =>
    obtain ⟨flows, room⟩ := room_of_award awarded
    split
    next x rest owed =>
      have answered := (Move.answered s x rest owed).moves
      have entered := (Move.enter (setCounts { s with owed := rest } x.key
        { counts s x.key with owed := (counts s x.key).owed - 1 }) (timeoutUnit x) flows room).moves
      exact (answered.trans entered).trans (moves_consider _)
    · exact .refl
  · exact .refl

theorem moves_interconnectTakes (s : State) : Moves s (interconnectTakes s) := by
  unfold interconnectTakes
  split
  · split
    next u rest queue => exact (Move.taken s u rest queue).moves.trans (moves_consider _)
    · exact .refl
  · exact .refl

/-! ## The tick -/

/-- An abandonment of one run leaves the leaders of the other keys leading. -/
theorem leads_abandonAll {s : State} {lead other : OutEntry} (apart : lead.key ≠ other.key) (leads : Leads s other) :
    Leads (abandonAll (runOf lead s) s) other := by
  have timeout : (abandonAll (runOf lead s) s).responseTimeout = s.responseTimeout :=
    keeps_abandonAll (P := fun t => t.responseTimeout = s.responseTimeout) (nodup_runOf lead s)
      (fun p hp => ((mem_runOf lead s p).mp hp).1) (fun p _ t _ _ same => by simpa using same) rfl
  have same : ∀ (i : Fin 64) (f : OutEntry), f.key = other.key →
      ((abandonAll (runOf lead s) s).outstanding[i] = some f ↔ s.outstanding[i] = some f) := by
    intro i f key
    by_cases inRun : ∃ p ∈ runOf lead s, p.1 = i
    · obtain ⟨p, hp, rfl⟩ := inRun
      obtain ⟨⟨used, -⟩, keyP, -⟩ := (mem_runOf lead s p).mp hp
      have off : p.2.key ≠ f.key := fun h => apart ((keyP.symm.trans h).trans key)
      rw [outstanding_abandonAll_of_mem (nodup_runOf lead s) hp, (mem_inUse s p).mp used, Option.some.injEq,
        Option.some.injEq]
      exact ⟨fun h => absurd (congrArg OutEntry.key h) off, fun h => absurd (congrArg OutEntry.key h) off⟩
    · rw [outstanding_abandonAll_of_not_mem fun p hp h => inRun ⟨p, hp, h⟩]
  obtain ⟨⟨i, found⟩, expires, oldest⟩ := leads
  refine ⟨⟨i, (same i other rfl).mpr found⟩, timeout ▸ expires, fun j f there key expiresToo => ?_⟩
  exact oldest j f ((same j f key).mp there) key (timeout ▸ expiresToo)

theorem moves_abandonRun {s : State} {lead : OutEntry} (leads : Leads s lead) : Moves s (abandonRun lead s) := by
  rw [abandonRun_eq]
  split
  next room => exact (Move.abandon s lead leads room).moves
  · exact .refl

theorem leads_abandonRun {s : State} {lead other : OutEntry} (apart : lead.key ≠ other.key) (leads : Leads s other) :
    Leads (abandonRun lead s) other := by
  rw [abandonRun_eq]
  split
  · exact leads_abandonAll apart leads
  · exact leads

/-- The runs of leaders of different keys are abandoned by moves, one for each run that fits. -/
theorem moves_abandonRuns (s : State) : Moves s (abandonRuns s) := by
  have chain : ∀ (l : List OutEntry) (t : State), l.Pairwise (fun e f => e.key ≠ f.key) → (∀ e ∈ l, Leads t e) →
      Moves t (l.foldl (fun t lead => abandonRun lead t) t) := by
    intro l
    induction l with
    | nil => exact fun t _ _ => .refl
    | cons lead l ih =>
      intro t keys leads
      obtain ⟨apart, rest⟩ := List.pairwise_cons.mp keys
      have first := moves_abandonRun (leads lead List.mem_cons_self)
      refine first.trans (ih _ rest fun e he => ?_)
      exact leads_abandonRun (apart e he) (leads e (List.mem_cons_of_mem lead he))
  exact chain (leaders s) s (leaders_spec s).keys fun e he => leads_of_mem_leaders he

theorem moves_finishExpiry (s : State) : Moves s (finishExpiry s) := by
  unfold finishExpiry
  split
  · have raised : Moves (abandonRuns s) (timeoutCause s (abandonRuns s)) :=
      moves_outside (by rw [timeoutCause_frame])
    have expired : Moves s (expire s) := ((moves_abandonRuns s).trans raised).trans (moves_resume _)
    exact expired.trans (moves_outside rfl)
  · exact .refl

theorem moves_finishWindowEnd (r : RegNo) (s : State) : Moves s (finishWindowEnd r s) := by
  unfold finishWindowEnd
  split
  · exact (moves_regulatorEvent (windowEndCauses (reg s r)) (.window _)).trans (moves_outside rfl)
  · exact .refl

theorem moves_settleTick (s : State) : Moves s (settleTick s) := by
  have chain : ∀ (l : List RegNo) (t : State), Moves t (l.foldl (fun t r => finishWindowEnd r t) t) := by
    intro l
    induction l with
    | nil => exact fun t => .refl
    | cons r l ih => exact fun t => (moves_finishWindowEnd r t).trans (ih _)
  exact (moves_finishExpiry s).trans (chain _ _)

theorem moves_refclkPeriod (s : State) : Moves s (refclkPeriod s) := by
  refine (moves_settleTick s).trans ?_
  unfold refclkPeriod
  dsimp only
  split
  · exact .refl
  next por =>
    split
    next room => exact (Move.pass _ 1 (by simpa using por) room.le).moves
    · exact (Move.tick _ (by simpa using por)).moves.trans (moves_settleTick _)

/-! ## Commands at regulators -/

theorem moves_startReg (r : RegNo) (s : State) : Moves s (startReg r s) := by
  unfold startReg
  split
  next armed => exact moves_setReg (.start _ armed)
  next halted => exact moves_setReg (.goOn _ halted)
  · exact .refl

theorem moves_haltReg (r : RegNo) (s : State) : Moves s (haltReg r s) := by
  unfold haltReg
  split
  next running => exact moves_setReg (.halt _ running)
  · exact .refl

theorem moves_restartReg (r : RegNo) (s : State) : Moves s (restartReg r s) := by
  unfold restartReg
  split
  next inUse => exact moves_regulatorEvent _ (.restart _ inUse)
  · exact .refl

theorem moves_sampleReg (r : RegNo) (s : State) : Moves s (sampleReg r s) := by
  unfold sampleReg
  split
  · exact .refl
  · exact moves_regulatorEvent _ (.sample _)

theorem moves_exchangeReg (r : RegNo) (s : State) : Moves s (exchangeReg r s) := by
  unfold exchangeReg
  split
  next inUse => exact moves_setReg (.pend _ inUse)
  next rest => exact moves_regulatorEvent _ (.exchange _ (by simpa using rest))

theorem moves_act (k : CommandKind) (r : RegNo) (s : State) : Moves s (act k r s) := by
  cases k with
  | enable =>
    change Moves s (enableReg r s)
    unfold enableReg
    split
    next off => exact moves_setReg (.enable _ off)
    · exact .refl
  | disable =>
    by_cases off : (reg s r).state = .off
    · rw [act, disableReg_of_off off]
    · exact (Move.disable s r off).moves
  | start => exact moves_startReg r s
  | halt => exact moves_haltReg r s
  | restart => exact moves_restartReg r s
  | sample => exact moves_sampleReg r s
  | exchange => exact moves_exchangeReg r s

theorem moves_actAll (k : CommandKind) (mask : BitVec 16) (s : State) : Moves s (actAll k mask s) := by
  unfold actAll
  induction List.finRange 16 generalizing s with
  | nil => exact .refl
  | cons r l ih =>
    rw [List.foldl_cons]
    split
    · exact (moves_act k r s).trans (ih _)
    · exact ih s

theorem moves_reconsiderStates (before after : State) : Moves after (reconsiderStates before after) := by
  unfold reconsiderStates
  split
  · exact .refl
  · exact moves_consider after

/-! ## Edges -/

theorem moves_startHaltStep (a b : Bool) (r : RegNo) (s : State) : Moves s (startHaltStep a b r s) := by
  unfold startHaltStep
  split
  · unfold toggleReg
    split
    · exact moves_haltReg r s
    · exact moves_startReg r s
  · exact moves_startReg r s
  · exact moves_haltReg r s
  · exact .refl

theorem moves_ite {c : Bool} {s t : State} (h : Moves s t) : Moves s (if c then t else s) := by
  cases c
  · exact .refl
  · exact h

theorem moves_edgeAtReg (line : Fin 4) (rising : Bool) (r : RegNo) (s : State) : Moves s (edgeAtReg line rising r s) :=
  (((moves_ite (moves_sampleReg r s)).trans (moves_startHaltStep _ _ r _)).trans
    (moves_ite (moves_restartReg r _))).trans (moves_ite (moves_exchangeReg r _))

theorem moves_edgeAll (line : Fin 4) (rising : Bool) (s : State) : Moves s (edgeAll line rising s) := by
  unfold edgeAll
  induction List.finRange 16 generalizing s with
  | nil => exact .refl
  | cons r l ih => exact (moves_edgeAtReg line rising r s).trans (ih _)

theorem moves_synSample (line : Fin 4) (level : Bool) (s : State) : Moves s (synSample line level s) := by
  unfold synSample
  split
  next por => exact (Move.synHeld s line level por).moves
  next por =>
    have kept := (Move.syn s line level (by simpa using por)).moves
    dsimp only
    split
    · exact (kept.trans (moves_edgeAll line level _)).trans (moves_reconsiderStates _ _)
    · exact kept

/-! ## The management port -/

theorem moves_storeOrRange {α : Type} {s : State} {decoded : Option α} {store : α → State}
    (stored : ∀ a, decoded = some a → Moves s (store a)) : Moves s (storeOrRange s (decoded.map store)).2 := by
  cases decoded with
  | none => exact .refl
  | some a => exact stored a rfl

theorem moves_writeDevice (s : State) (word v : Nat) : Moves s (writeDevice s word v).2 := by
  unfold writeDevice
  split
  · unfold writePrescale
    split
    · exact .refl
    · exact moves_storeOrRange fun p decoded => (Move.prescale s v p decoded).moves
  · exact moves_storeOrRange fun t decoded => (Move.timeout s v t decoded).moves
  · refine moves_storeOrRange fun p decoded => ?_
    have inRange : p.2 ≤ 3 := by
      unfold decodeDefaultTarget at decoded
      split at decoded
      · split at decoded
        next small =>
          cases decoded
          exact small
        · cases decoded
      · cases decoded
    have named : Moves s { s with defaultTarget := p.1 } := moves_outside rfl
    exact (named.trans (Move.priority _ p.2 inRange).moves).trans (moves_consider _)
  · exact moves_storeOrRange fun m written => (Move.markers s v m written).moves
  · exact moves_outside rfl
  · exact .refl

theorem moves_writeActive (s : State) (r : RegNo) (which : ProfileWord) (v : Nat) :
    Moves s (writeActive s r which v).2 := by
  unfold writeActive
  split
  next rest =>
    exact moves_storeOrRange fun p written => moves_setReg (.active _ p which v (by simpa [activeWritable] using rest)
      written)
  · exact .refl

theorem moves_writeStandby (s : State) (r : RegNo) (which : ProfileWord) (v : Nat) :
    Moves s (writeStandby s r which v).2 :=
  moves_storeOrRange fun p written => moves_setReg (.standby _ p which v written)

theorem moves_writeRegulator (s : State) (r : RegNo) (word v : Nat) : Moves s (writeRegulator s r word v).2 := by
  unfold writeRegulator
  split
  · split
    next off =>
      exact moves_storeOrRange fun u decoded => (moves_setReg (.setup _ u v off decoded)).trans (moves_consider _)
    · exact .refl
  · split
    · exact moves_storeOrRange fun t _ => moves_setReg (.triggers _ t)
    · exact .refl
  · exact moves_writeActive ..
  · exact moves_writeActive ..
  · exact moves_writeStandby ..
  · exact moves_writeStandby ..
  · exact moves_setReg (.mask _ _)
  · exact .refl

theorem moves_storeEntry {s : State} {i : Fin 32} {e : MapEntry} (sound : MapEntryOk s.map[i] → MapEntryOk e) :
    Moves s (storeEntry s i e) :=
  (Move.map s i e sound).moves.trans (moves_consider _)

/-- MAP word 0 keeps BASE and LIMIT. -/
theorem bounds_of_decodeMapWord {e f : MapEntry} {v : Nat} (decoded : decodeMapWord e v = some f) :
    f.base = e.base ∧ f.limit = e.limit := by
  unfold decodeMapWord at decoded
  split at decoded
  · cases decoded
    exact ⟨rfl, rfl⟩
  · cases decoded

theorem mapEntryOk_of_writeBound {e f : MapEntry} {which : BoundWord} {v : Nat} (invalid : e.valid = false)
    (written : writeBound e which v = some f) (sound : MapEntryOk e) : MapEntryOk f := by
  obtain ⟨base, limit, -⟩ := sound
  unfold writeBound at written
  split at written
  next small =>
    cases which <;> cases written
    · exact ⟨small, limit, by simp [invalid]⟩
    · exact ⟨base, small, by simp [invalid]⟩
  · cases written

theorem moves_writeMap (s : State) (i : Fin 32) (word v : Nat) : Moves s (writeMap s i word v).2 := by
  have bound : ∀ which, Moves s (writeMapBound s i which v).2 := by
    intro which
    unfold writeMapBound
    split
    · exact .refl
    next invalid =>
      exact moves_storeOrRange fun e written =>
        moves_storeEntry (mapEntryOk_of_writeBound (by simpa using invalid) written)
  unfold writeMap
  split
  · unfold writeMapWord0
    split
    · exact .refl
    · split
      next e decoded =>
        split
        · exact .refl
        next ordered =>
          refine moves_storeEntry fun ⟨base, limit, _⟩ => ?_
          obtain ⟨sameBase, sameLimit⟩ := bounds_of_decodeMapWord decoded
          exact ⟨sameBase ▸ base, sameLimit ▸ limit, fun valid => by simpa [valid] using ordered⟩
      · exact .refl
  · exact bound .base
  · exact bound .limit
  · exact .refl

theorem moves_writeWord (s : State) (space index word v : Nat) : Moves s (writeWord s space index word v).2 := by
  unfold writeWord
  split
  · split
    · exact moves_writeDevice ..
    · exact .refl
  · split
    · exact moves_writeRegulator ..
    · exact .refl
  · split
    · exact moves_writeMap ..
    · exact .refl
  · exact .refl

theorem moves_clearCauses (target causeSet : Byte) (s : State) : Moves s (clearCauses target causeSet s).1 := by
  unfold clearCauses
  split
  · split
    · exact moves_setReg (.causes _ _)
    · exact .refl
  · split
    · split
      · exact moves_outside rfl
      · exact .refl
    · exact .refl

theorem moves_takeDenial (s : State) : Moves s (takeDenial s).1 := by
  unfold takeDenial
  split
  next d rest oldest => exact (Move.records s rest (by rw [oldest]; exact le_max_of_le_left (Nat.le_succ _))).moves
  · exact .refl

theorem moves_perform (c : FrameCommand) (s : State) : Moves s (perform c s).1 := by
  cases c with
  | identify => exact .refl
  | readField => exact .refl
  | writeField space index word value => exact moves_writeWord ..
  | regulatorCommand kind mask =>
    unfold perform
    dsimp only
    split
    next k _ => exact (moves_actAll k mask s).trans (moves_reconsiderStates _ _)
    · exact .refl
  | clearCauses target causeSet => exact moves_clearCauses ..
  | takeDenial => exact moves_takeDenial s
  | summary => exact .refl
  | fullReset =>
    change Moves s (fullReset s).1
    unfold fullReset
    split
    · exact (Move.reset s).moves.trans (moves_resume _)
    · exact .refl

theorem moves_performReply (c : FrameCommand) (s : State) : Moves s (performReply c s) :=
  (moves_perform c s).trans (moves_outside rfl)

theorem moves_receive (c : FrameCommand) (s : State) : Moves s (receive c s) := by
  refine (moves_settleTick s).trans ?_
  unfold receive
  dsimp only
  split
  · exact moves_performReply c _
  · exact .refl

theorem moves_receiveByte (received : List Byte) (b : Byte) (s : State) : Moves s (receiveByte received b s) := by
  unfold receiveByte
  dsimp only
  split
  · exact moves_outside rfl
  · split
    · exact moves_outside rfl
    · split
      · split
        · exact moves_performReply ..
        · exact moves_outside rfl
      · exact moves_outside rfl

theorem moves_slotDone (b : Byte) (s : State) : Moves s (slotDone b s) := by
  unfold slotDone
  split
  · exact .refl
  · exact moves_receiveByte ..
  · exact moves_outside rfl
  · exact moves_outside rfl
  · exact .refl
  · exact .refl

/-! ## Resets -/

theorem moves_prstAssert (s : State) : Moves s (prstAssert s) := by
  unfold prstAssert
  split
  · exact .refl
  · exact (Move.pathReset s).moves

theorem moves_prstDeassert (s : State) : Moves s (prstDeassert s) := by
  unfold prstDeassert
  split
  next prst =>
    have fresh : Moves { s with prst := false } { s with prst := false, offer := s.offer.map freshOffer } :=
      moves_outside rfl
    exact ((Move.resumeLink s prst).moves.trans fresh).trans (moves_resume _)
  · exact .refl

theorem moves_porDeassert (s : State) : Moves s (porDeassert s) := by
  unfold porDeassert
  split
  · have opened : Moves (blocksReset s) { blocksReset s with port := if s.sel then .barred else .idle } :=
      moves_outside rfl
    exact ((Move.reset s).moves.trans opened).trans (moves_resume _)
  · exact .refl

/-! ## Commands and steps -/

theorem moves_exec {c : Instr} {s t : State} (h : exec c s = .next t) : Moves s t := by
  have settled := moves_settleTick s
  cases c <;> cases h
  case requestOffered q =>
    have offered : Moves (settleTick s)
        { settleTick s with offer := some { request := q, quotaRun := none, poolRun := false } } := moves_outside rfl
    exact (settled.trans offered).trans (moves_consider _)
  case forwardTake => exact settled.trans (moves_forwardTake _)
  case denyEntryTake => exact settled.trans (moves_denyEntryTake _)
  case directDenial => exact settled.trans (moves_directDenial _)
  case grant => exact settled.trans (moves_grant _)
  case memoryTakesRequest => exact settled.trans (moves_memoryTakes _)
  case responseOffered u =>
    have offered : Moves (settleTick s) { settleTick s with memoryOffer := some u } := moves_outside rfl
    exact (settled.trans offered).trans (moves_matchOffered _)
  case responseEntersQueue => exact settled.trans (moves_responseEntersQueue _)
  case denyEmission => exact settled.trans (moves_denyEmission _)
  case timeoutResponse => exact settled.trans (moves_timeoutResponse _)
  case interconnectTakesResponse => exact settled.trans (moves_interconnectTakes _)
  case tick =>
    refine settled.trans ?_
    split
    · exact .refl
    next por => exact (Move.tick _ (by simpa using por)).moves
  case windowEnd r => exact moves_finishWindowEnd r s
  case markerPulseEnd line =>
    refine settled.trans ?_
    split
    next standing =>
      simp only [pulseEndsNext, Bool.and_eq_true, Bool.not_eq_true', decide_eq_true_eq] at standing
      obtain ⟨por, -, room⟩ := standing
      exact (Move.pass _ _ por room).moves
    · exact .refl
  case expiry => exact moves_finishExpiry s
  case synEdge line level => exact settled.trans (moves_synSample line level _)
  case prstAsserted => exact settled.trans (moves_prstAssert _)
  case prstDeasserted => exact settled.trans (moves_prstDeassert _)
  case porAsserted => exact settled.trans (Move.porReset _).moves
  case porDeasserted => exact settled.trans (moves_porDeassert _)
  case crcMismatch =>
    refine settled.trans ?_
    split
    · exact moves_outside rfl
    · exact .refl
  case unknownCode code =>
    refine settled.trans ?_
    split
    · have selected : Moves (settleTick s) { settleTick s with sel := true } := moves_outside rfl
      exact selected.trans (moves_receiveByte ..)
    · exact .refl
  case selDeasserted => exact settled.trans (moves_outside rfl)
  case selAsserted =>
    refine settled.trans ?_
    unfold selAssert
    split
    · exact moves_outside rfl
    · split <;> exact moves_outside rfl
  case byteSlot b =>
    refine settled.trans ?_
    split
    · exact .refl
    · exact moves_slotDone b _
  all_goals exact moves_receive _ s

theorem moves_idle (s : State) : Moves s (idle s) := by
  refine (moves_settleTick s).trans ?_
  unfold idle
  dsimp only
  split
  next u own =>
    unfold ownEvent at own
    split at own
    · cases own; exact moves_timeoutResponse _
    · cases own; exact moves_denyEmission _
    · cases own; exact moves_responseEntersQueue _
    · cases own; exact moves_directDenial _
    · split at own
      · cases own; exact moves_grant _
      · split at own
        · split at own
          · cases own; exact moves_forwardTake _
          · cases own; exact moves_denyEntryTake _
          · cases own
        · cases own
  · exact moves_refclkPeriod _

/-- A step is a chain of moves. -/
theorem moves_step {s t : State} (h : step s = .next t) : Moves s t := by
  unfold step at h
  split at h
  · cases h
    exact moves_idle s
  next c rest _ =>
    have shifted : Moves s { s with pending := rest } := moves_outside rfl
    exact shifted.trans (moves_exec h)

end Sys2Proof.Machine
end

