-- ==== Sys2Proof/Proofs/TakeDecision.lean ====
section
/-! The take decision and the intake: the rows of R91 one by one, what a consideration changes (R94), the takes and the
direct denial (R96 to R98), and the obligations O8 to O13. -/

namespace Sys2Proof.Machine

/-! ## The conditions of the table (R17, R89, R100) -/

theorem malformed_iff (q : Request) :
    malformed q = true ↔
      q.length.val = 0 ∨ 256 < q.length.val ∨ 4096 < q.address.toNat % 4096 + q.length.val := by
  simp only [malformed, Bool.or_eq_true, beq_iff_eq, decide_eq_true_eq, or_assoc]
  rfl

theorem poolFull_iff (s : State) : poolFull s = true ↔ 48 ≤ s.pool.length := by
  rw [poolFull, Bool.not_eq_true', decide_eq_false_iff_not, not_lt]
  rfl

theorem keyFree_iff (s : State) (k : Key) :
    keyFree s k = true ↔ (counts s k).pooled = 0 ∧ (counts s k).live = 0 ∧ (counts s k).owed = 0 := by
  rw [keyFree, beq_iff_eq]
  cases counts s k
  simp [freeKey]

theorem laneInUse_iff (x : RegState) : laneInUse x = true ↔ x = .running ∨ x = .halted := by
  cases x <;> simp [laneInUse]

theorem laneInUse_eq_false_iff (x : RegState) : laneInUse x = false ↔ x = .off ∨ x = .armed := by
  cases x <;> simp [laneInUse]

theorem effectiveLane_eq_regulator_iff (s : State) (t : Target) (r : RegNo) :
    effectiveLane s t = .regulator r ↔ t = .regulator r ∧ laneInUse (reg s r).state = true := by
  cases t with
  | bypass => simp [effectiveLane]
  | regulator q =>
    simp only [effectiveLane, Target.regulator.injEq]
    split
    next used =>
      rw [Lane.regulator.injEq]
      exact ⟨fun same => ⟨same, same ▸ used⟩, fun h => h.1⟩
    next rest =>
      refine ⟨fun h => (nomatch h), fun ⟨same, used⟩ => absurd (same ▸ used) rest⟩

/-! ## Deny disposal (R95) -/

theorem denyDisposal_of_free {s : State} {k : Key} (free : keyFree s k = true) (reason : DenyReason) :
    denyDisposal s k reason = .directDenial reason ∧ denyFoundFull s k = false := by
  simp [denyDisposal, denyFoundFull, free]

theorem denyDisposal_of_room {s : State} {k : Key} (busy : keyFree s k = false) (room : poolFull s = false)
    (reason : DenyReason) : denyDisposal s k reason = .denyEntry reason ∧ denyFoundFull s k = false := by
  simp [denyDisposal, denyFoundFull, busy, room]

theorem denyDisposal_of_full {s : State} {k : Key} (busy : keyFree s k = false) (full : poolFull s = true)
    (reason : DenyReason) : denyDisposal s k reason = .stall ∧ denyFoundFull s k = true := by
  simp [denyDisposal, denyFoundFull, busy, full]

/-! ## The rows of the table (R91) -/

section
variable {s : State} {q : Request}

theorem judge_target (s : State) (q : Request) : (judge s q).target = classify s q := by
  unfold judge
  dsimp only
  split
  · rfl
  · split
    · split
      · split <;> rfl
      · split <;> rfl
    · split <;> rfl

theorem judge_of_malformed (bad : malformed q = true) :
    judge s q =
      { target := classify s q, lane := effectiveLane s (classify s q), atQuota := none
        disposition := denyDisposal s q.key .malformed, foundFull := denyFoundFull s q.key } :=
  if_pos bad

theorem judge_of_bypass (good : malformed q = false) (lane : effectiveLane s (classify s q) = .bypass) :
    judge s q =
      { target := classify s q, lane := .bypass, atQuota := none
        disposition := if poolFull s then .stall else .forward, foundFull := poolFull s } := by
  simp only [judge, good, lane]
  cases poolFull s <;> rfl

theorem judge_of_room (good : malformed q = false) {r : RegNo} (lane : effectiveLane s (classify s q) = .regulator r)
    (below : laneLength s (.regulator r) < (reg s r).setup.holdQuota) :
    judge s q =
      { target := classify s q, lane := .regulator r, atQuota := none, foundFull := poolFull s
        disposition :=
          if poolFull s then
            match (reg s r).setup.policy with
            | .stall => .stall
            | .reject => denyDisposal s q.key .poolFull
          else .forward } := by
  simp only [judge, good, lane, below, if_true]
  cases poolFull s <;> rfl

theorem judge_of_quota (good : malformed q = false) {r : RegNo} (lane : effectiveLane s (classify s q) = .regulator r)
    (reached : ¬ laneLength s (.regulator r) < (reg s r).setup.holdQuota) :
    judge s q =
      { target := classify s q, lane := .regulator r, atQuota := some r
        disposition :=
          match (reg s r).setup.policy with
          | .stall => .stall
          | .reject => denyDisposal s q.key .quota
        foundFull :=
          match (reg s r).setup.policy with
          | .stall => false
          | .reject => denyFoundFull s q.key } := by
  simp only [judge, good, lane, reached, if_false]
  cases (reg s r).setup.policy <;> rfl

/-- A lane found at quota is in use. -/
theorem laneInUse_of_atQuota {r : RegNo} (found : (judge s q).atQuota = some r) : laneInUse (reg s r).state = true := by
  cases bad : malformed q with
  | true => simp [judge_of_malformed bad] at found
  | false =>
    cases lane : effectiveLane s (classify s q) with
    | bypass => simp [judge_of_bypass bad lane] at found
    | regulator x =>
      by_cases below : laneLength s (.regulator x) < (reg s x).setup.holdQuota
      · simp [judge_of_room bad lane below] at found
      · rw [judge_of_quota bad lane below] at found
        cases found
        exact ((effectiveLane_eq_regulator_iff s _ _).mp lane).2

/-- Rows 4 and 5: what a FORWARD take finds. -/
theorem forward_of_judge (forward : (judge s q).disposition = .forward) :
    malformed q = false ∧ poolFull s = false
      ∧ ∀ r, (judge s q).lane = .regulator r →
          laneInUse (reg s r).state = true ∧ laneLength s (.regulator r) < (reg s r).setup.holdQuota := by
  have never : ∀ reason, denyDisposal s q.key reason ≠ .forward := fun reason => by
    unfold denyDisposal
    split
    · simp
    · split <;> simp
  cases bad : malformed q with
  | true =>
    rw [judge_of_malformed bad] at forward
    exact absurd forward (never _)
  | false =>
    cases lane : effectiveLane s (classify s q) with
    | bypass =>
      rw [judge_of_bypass bad lane] at forward ⊢
      cases full : poolFull s with
      | true => simp [full] at forward
      | false => exact ⟨rfl, rfl, fun r h => nomatch h⟩
    | regulator x =>
      by_cases below : laneLength s (.regulator x) < (reg s x).setup.holdQuota
      · rw [judge_of_room bad lane below] at forward ⊢
        cases full : poolFull s with
        | true =>
          cases policy : (reg s x).setup.policy <;> simp only [full, policy, if_true] at forward
          · cases forward
          · exact absurd forward (never _)
        | false =>
          refine ⟨rfl, rfl, fun r h => ?_⟩
          cases h
          exact ⟨((effectiveLane_eq_regulator_iff s _ _).mp lane).2, below⟩
      · rw [judge_of_quota bad lane below] at forward
        cases policy : (reg s x).setup.policy <;> simp only [policy] at forward
        · cases forward
        · exact absurd forward (never _)

/-- A DENY entry is denied for MALFORMED or QUOTA, into a pool with room. -/
theorem denyEntry_of_judge {reason : DenyReason} (denied : (judge s q).disposition = .denyEntry reason) :
    poolFull s = false ∧ reason ≠ .poolFull := by
  have disposal : ∀ x, denyDisposal s q.key x = .denyEntry reason → poolFull s = false ∧ x = reason := by
    intro x h
    unfold denyDisposal at h
    split at h
    · cases h
    · split at h
      · cases h
      next room =>
        cases h
        exact ⟨by simpa using room, rfl⟩
  cases bad : malformed q with
  | true =>
    rw [judge_of_malformed bad] at denied
    obtain ⟨room, rfl⟩ := disposal _ denied
    exact ⟨room, by simp⟩
  | false =>
    cases lane : effectiveLane s (classify s q) with
    | bypass =>
      rw [judge_of_bypass bad lane] at denied
      cases full : poolFull s <;> simp [full] at denied
    | regulator x =>
      by_cases below : laneLength s (.regulator x) < (reg s x).setup.holdQuota
      · rw [judge_of_room bad lane below] at denied
        cases full : poolFull s with
        | false => simp [full] at denied
        | true =>
          cases policy : (reg s x).setup.policy <;> simp only [full, policy, if_true] at denied
          · cases denied
          · simp [(disposal _ denied).1] at full
      · rw [judge_of_quota bad lane below] at denied
        cases policy : (reg s x).setup.policy <;> simp only [policy] at denied
        · cases denied
        · obtain ⟨room, rfl⟩ := disposal _ denied
          exact ⟨room, by simp⟩

theorem considered_eq_some {v : Verdict} (found : considered s = some (q, v)) :
    flowing s = true ∧ v = judge s q ∧ ∃ o, s.offer = some o ∧ o.request = q := by
  unfold considered at found
  split at found
  next o offered =>
    split at found
    next flows =>
      cases found
      exact ⟨flows, rfl, o, offered, rfl⟩
    · cases found
  · cases found

end

/-- Settles O8, one clause for each row. -/
theorem takeDecisionFollowsTheTable : Obligations.TakeDecisionFollowsTheTable := by
  intro s q v full free bad denied
  have isFull : poolFull s = true ↔ full := poolFull_iff s
  have hasRoom : poolFull s = false ↔ ¬ full := by rw [← isFull, Bool.not_eq_true]
  have isFree : keyFree s q.key = true ↔ free := keyFree_iff s q.key
  have isBusy : keyFree s q.key = false ↔ ¬ free := by rw [← isFree, Bool.not_eq_true]
  have isBad : malformed q = true ↔ bad := malformed_iff q
  have isGood : malformed q = false ↔ ¬ bad := by rw [← isBad, Bool.not_eq_true]
  have disposal : ∀ reason, v.disposition = denyDisposal s q.key reason → v.foundFull = denyFoundFull s q.key →
      denied reason := by
    intro reason disposition foundFull
    dsimp only [denied]
    rw [disposition, foundFull]
    exact ⟨fun h => denyDisposal_of_free (isFree.mpr h) reason,
      fun h room => denyDisposal_of_room (isBusy.mpr h) (hasRoom.mpr room) reason,
      fun h h' => denyDisposal_of_full (isBusy.mpr h) (isFull.mpr h') reason⟩
  refine ⟨judge_target s q, fun wrong => ?malformed, fun good r target state => ?lane, fun good target => ?bypass⟩
  case malformed =>
    have row := judge_of_malformed (s := s) (isBad.mpr wrong)
    exact ⟨congrArg Verdict.atQuota row, disposal _ (congrArg Verdict.disposition row) (congrArg Verdict.foundFull row)⟩
  case lane =>
    have lane := (effectiveLane_eq_regulator_iff s _ r).mpr ⟨target, (laneInUse_iff _).mpr state⟩
    by_cases below : laneLength s (.regulator r) < (reg s r).setup.holdQuota
    · have row : v = _ := judge_of_room (isGood.mpr good) lane below
      refine ⟨congrArg Verdict.lane row, fun reached => absurd below reached.not_gt, fun _ isFull' => ?_, fun _ room => ?_⟩
      · rw [row, isFull.mpr isFull']
        refine ⟨rfl, rfl, fun policy => by simp [policy], fun policy => ?_⟩
        simp only [policy, if_true]
        exact ⟨fun h => (denyDisposal_of_free (isFree.mpr h) _).1,
          fun h => (denyDisposal_of_full (isBusy.mpr h) (isFull.mpr isFull') _).1⟩
      · rw [row, hasRoom.mpr room]
        exact ⟨rfl, rfl, rfl⟩
    · have row : v = _ := judge_of_quota (isGood.mpr good) lane below
      refine ⟨congrArg Verdict.lane row, fun _ => ⟨congrArg Verdict.atQuota row, fun policy => ?_, fun policy => ?_⟩,
        fun h => absurd h below, fun h => absurd h below⟩
      · rw [row, policy]
        exact ⟨rfl, rfl⟩
      · refine disposal _ ?_ ?_ <;> rw [row, policy]
  case bypass =>
    have lane : effectiveLane s (classify s q) = .bypass := by
      rcases target with target | ⟨r, target, state⟩
      · rw [target]; rfl
      · rw [target, effectiveLane, (laneInUse_eq_false_iff _).mpr state]; rfl
    have row : v = _ := judge_of_bypass (isGood.mpr good) lane
    refine ⟨congrArg Verdict.lane row, congrArg Verdict.atQuota row, fun room => ?_, fun isFull' => ?_⟩
    · rw [row, hasRoom.mpr room]
      exact ⟨rfl, rfl⟩
    · rw [row, isFull.mpr isFull']
      exact ⟨rfl, rfl⟩

/-! ## What a consideration changes (R94) -/

theorem consider_eq {s : State} {o : Offer} (offered : s.offer = some o) (flows : flowing s = true) :
    consider s =
      { fullCause (judge s o.request) o (quotaCause (judge s o.request) o s) with
        offer := some { o with quotaRun := (judge s o.request).atQuota, poolRun := (judge s o.request).foundFull } } := by
  rw [consider, offered]
  exact if_pos flows

theorem consider_of_held {s : State} (held : flowing s = false) : consider s = s := by
  unfold consider
  split
  · rfl
  · rw [held]; rfl

theorem markers_quotaCause {s : State} {o : Offer} (l : Fin 4) :
    (quotaCause (judge s o.request) o s).markers[l] =
      if (s.markers[l]).kind = .quotaHit ∧ (judge s o.request).atQuota = some (s.markers[l]).source
          ∧ o.quotaRun ≠ some (s.markers[l]).source then
        pulsed s.markers[l]
      else s.markers[l] := by
  unfold quotaCause
  cases found : (judge s o.request).atQuota with
  | none => simp
  | some r =>
    have on : (reg s r).state ≠ .off := by
      have used := laneInUse_of_atQuota found
      intro off
      simp [off, laneInUse] at used
    by_cases same : o.quotaRun = some r
    · rw [if_neg fun ⟨_, source, fresh⟩ => fresh (same.trans source)]
      simp only [same, if_true]
    · simp only [same, if_false, markers_raiseCause]
      refine if_congr ⟨fun ⟨_, source, kind⟩ => ?_, fun ⟨kind, source, _⟩ => ?_⟩ rfl rfl
      · subst source
        exact ⟨Option.some.inj kind, rfl, same⟩
      · exact ⟨on, (Option.some.inj source).symm, by rw [kind]; rfl⟩

/-- Settles O10: a consideration that finds what the one before found begins no run. -/
theorem reconsiderationSetsNothingAgain : Obligations.ReconsiderationSetsNothingAgain := by
  intro s
  have none_or_held : s.offer = none ∨ flowing s = false → consider s = s := by
    rintro (none | held)
    · exact consider_none none
    · exact consider_of_held held
  refine ⟨fun considered => ?same, none_or_held, ?run⟩
  case same =>
    cases offered : s.offer with
    | none => exact none_or_held (.inl offered)
    | some o =>
      cases flows : flowing s with
      | false => exact none_or_held (.inr flows)
      | true =>
        obtain ⟨quota, pool⟩ := considered o offered flows
        have quotaSame : quotaCause (judge s o.request) o s = s := by
          unfold quotaCause
          split
          next r found => rw [if_pos (quota.trans found)]
          · rfl
        have fullSame : fullCause (judge s o.request) o s = s := by simp [fullCause, pool]
        have kept : some { o with quotaRun := (judge s o.request).atQuota, poolRun := (judge s o.request).foundFull }
            = s.offer := by rw [offered, ← quota, ← pool]
        rw [consider_eq offered flows, quotaSame, fullSame, kept]
  case run =>
    intro o offered flows v newRun t
    have outcome := consider_eq offered flows
    refine ⟨?_, fun r => ?_, fun l => ?_, ?_⟩
    · refine (consider_frame s).trans ?_
      have left : (consider s).offer =
          some { request := o.request, quotaRun := v.atQuota, poolRun := v.foundFull } := by rw [outcome]
      rw [left]
    · have context : reg t r = if newRun r then withCauses (reg s r) 0x08#7 else reg s r := by
        refine (reg_consider s r).trans (if_congr ⟨fun ⟨_, p, same, found, fresh⟩ => ?_, fun ⟨found, fresh⟩ => ?_⟩ rfl rfl)
        · cases offered.symm.trans same
          exact ⟨found, fresh⟩
        · exact ⟨flows, o, offered, found, fresh⟩
      exact ⟨fun new => context.trans (if_pos new), fun old => context.trans (if_neg old)⟩
    · have line : t.markers[l] = (quotaCause (judge s o.request) o s).markers[l] := by
        change (consider s).markers[l] = _
        rw [outcome, fullCause_frame]
      rw [markers_quotaCause] at line
      exact ⟨fun new => line.trans (if_pos new), fun old => line.trans (if_neg old)⟩
    · change (consider s).deviceCauses = _
      rw [outcome]
      refine (deviceCauses_fullCause _ _ _).trans ?_
      rw [quotaCause_frame]

/-- Settles O9: a new offer has no run, so a consideration sets every cause of what it finds. -/
theorem requestOfferedIsConsidered : Obligations.RequestOfferedIsConsidered := by
  intro s q quiet
  let o : Offer := { request := q, quotaRun := none, poolRun := false }
  let u : State := { s with offer := some o }
  have row : exec (.requestOffered q) s = .next (consider u) := by
    change execRequestOffered q s = _
    rw [execRequestOffered, settleTick_of_quiet quiet]
  refine ⟨fun held => ?_, fun flows => ⟨consider u, row, ?_⟩⟩
  · rw [row, consider_of_held (s := u) held]
  · have sameVerdict : judge u q = judge s q := judge_congr ⟨rfl, rfl, rfl, rfl, fun _ => rfl, fun _ => rfl⟩ q
    obtain ⟨frame, contexts, lines, causes⟩ := (reconsiderationSetsNothingAgain u).2.2 o rfl flows
    have begun : ∀ r, ((judge u q).atQuota = some r ∧ (none : Option RegNo) ≠ some r) ↔ (judge s q).atQuota = some r :=
      fun r => by rw [sameVerdict]; simp
    simp only [o, begun] at contexts lines
    refine ⟨?_, fun r => ?_, fun l => ?_, ?_⟩
    · rw [← sameVerdict]
      exact frame
    · split
      next new => exact (contexts r).1 new
      next old => exact (contexts r).2 old
    · split
      next new => exact (lines l).1 new
      next old => exact (lines l).2 old
    · rw [causes, ← sameVerdict]
      simp [o, u]

/-! ## The takes (R96 to R98) -/

theorem exec_forwardTake (s : State) : exec .forwardTake s = .next (forwardTake (settleTick s)) := rfl

theorem exec_denyEntryTake (s : State) : exec .denyEntryTake s = .next (denyEntryTake (settleTick s)) := rfl

theorem exec_directDenial (s : State) : exec .directDenial s = .next (directDenial (settleTick s)) := rfl

theorem forwardTake_of_forward {s : State} {q : Request} {v : Verdict} (found : considered s = some (q, v))
    (forward : v.disposition = .forward) : forwardTake s = joinPool .forward v.lane q v.target s := by
  rw [forwardTake, found]
  simp only [forward]

theorem denyEntryTake_of_denied {s : State} {q : Request} {v : Verdict} {reason : DenyReason}
    (found : considered s = some (q, v)) (denied : v.disposition = .denyEntry reason) :
    denyEntryTake s = malformedCause reason (joinPool (.deny reason) .bypass (withoutData q) v.target s) := by
  rw [denyEntryTake, found]
  simp only [denied]

theorem malformedCause_eq (reason : DenyReason) (s : State) :
    malformedCause reason s =
      { s with deviceCauses := if reason = .malformed then s.deviceCauses ||| 0x10#6 else s.deviceCauses } := by
  unfold malformedCause
  split <;> rfl

theorem counts_of_joined (kind : EntryKind) (l : Lane) (q : Request) (t : Target) (s : State) (k : Key) :
    counts (joinPool kind l q t s) k =
      if k = q.key then { counts s k with pooled := (counts s k).pooled + 1 } else counts s k := by
  rw [counts_joinPool]
  split
  next same => rw [same]
  · rfl

/-- Settles O11. -/
theorem forwardTakeJoinsTheLane : Obligations.ForwardTakeJoinsTheLane := by
  intro s q v quiet found forward
  refine ⟨joinPool .forward v.lane q v.target s, ?_, rfl, fun k => counts_of_joined ..⟩
  rw [exec_forwardTake, settleTick_of_quiet quiet, forwardTake_of_forward found forward]

/-- Settles O12. -/
theorem denyEntryTakeJoinsTheBypassLane : Obligations.DenyEntryTakeJoinsTheBypassLane := by
  intro s q v reason quiet found denied
  refine ⟨denyEntryTake s, by rw [exec_denyEntryTake, settleTick_of_quiet quiet], ?_⟩
  rw [denyEntryTake_of_denied found denied, malformedCause_eq]
  exact ⟨rfl, counts_of_joined (.deny reason) .bypass (withoutData q) v.target s⟩

/-! ## Denials (R96, R104, R177, R178) -/

/-- A denial has no kind of marker line (R161). -/
theorem markers_raiseDenied (r : RegNo) (s : State) : (raiseCause r .denied s).markers = s.markers :=
  slots_ext fun l => by
    rw [markers_raiseCause]
    exact if_neg fun h => nomatch h.2.2

theorem markers_attributeDenial (t : Target) (s : State) : (attributeDenial t s).markers = s.markers := by
  unfold attributeDenial
  split
  · split
    · exact markers_raiseDenied ..
    · rfl
  · rfl

theorem reg_attributeDenial (t : Target) (s : State) (r : RegNo) :
    reg (attributeDenial t s) r =
      if t = .regulator r ∧ ((reg s r).state = .running ∨ (reg s r).state = .halted) then withCauses (reg s r) 0x10#7
      else reg s r := by
  simp only [← laneInUse_iff]
  cases t with
  | bypass => simp [attributeDenial]
  | regulator x =>
    simp only [attributeDenial, Target.regulator.injEq]
    by_cases same : x = r
    · subst same
      by_cases used : laneInUse (reg s x).state = true
      · rw [if_pos used, if_pos ⟨rfl, used⟩, reg_raiseCause, if_pos rfl]
        rfl
      · rw [if_neg used, if_neg fun h => used h.2]
    · simp only [same, false_and, if_false]
      split
      · rw [reg_raiseCause, if_neg (Ne.symm same)]
      · rfl

theorem markers_deny (q : Request) (reason : DenyReason) (t : Target) (s : State) :
    (deny q reason t s).markers = s.markers := by
  rw [deny, markers_attributeDenial]
  simp

theorem denialEffect_deny (q : Request) (reason : DenyReason) (t : Target) (s : State) :
    DenialEffect q reason t 0x00#6 s (deny q reason t s) := by
  have recorded : ∀ d : DenialRecord, ∀ u : State,
      (u.denials.length < 16 → (offerRecord d u).denials = u.denials ++ [d]
        ∧ (offerRecord d u).deviceCauses = u.deviceCauses)
      ∧ (16 ≤ u.denials.length → (offerRecord d u).denials = u.denials
        ∧ (offerRecord d u).deviceCauses = u.deviceCauses ||| 0x08#6) := by
    intro d u
    refine ⟨fun room => ?_, fun full => ?_⟩
    · rw [offerRecord, if_pos (show u.denials.length < Config.denialRecords from room)]
      exact ⟨rfl, rfl⟩
    · rw [offerRecord, if_neg (show ¬ u.denials.length < Config.denialRecords from full.not_gt)]
      exact ⟨rfl, rfl⟩
  obtain ⟨room, full⟩ := recorded (denialRecord q reason t s) (enterQueue (deniedResponse q) s)
  simp only [DenialEffect, deny, attributeDenial_responses, attributeDenial_denials, attributeDenial_deviceCauses,
    offerRecord_responses, BitVec.or_zero]
  refine ⟨rfl, room, full, fun r => ?_⟩
  have before : ∀ x, reg (offerRecord (denialRecord q reason t s) (enterQueue (deniedResponse q) s)) x = reg s x :=
    fun x => by simp [reg]
  rw [reg_attributeDenial, before]

theorem intakeClaim_eq_some {s : State} {q : Request} {reason : DenyReason} {t : Target}
    (claim : intakeClaim s = some (q, reason, t)) :
    ∃ v, considered s = some (q, v) ∧ v.disposition = .directDenial reason ∧ v.target = t := by
  unfold intakeClaim at claim
  split at claim
  next p v found =>
    split at claim
    next disposition =>
      cases claim
      exact ⟨v, found, disposition, rfl⟩
    · cases claim
  · cases claim

theorem claim_of_award {s : State} {c : Claimant} (awarded : award s = some c) :
    (c = .timeoutList → s.owed ≠ []) ∧ (c = .denyHead → (denyClaim s).isSome)
      ∧ (c = .memory → (liveMatch s).isSome) ∧ (c = .intake → (intakeClaim s).isSome) := by
  unfold award at awarded
  split at awarded
  · split at awarded
    next owed => cases awarded; simp [owed]
    · split at awarded
      next deny => cases awarded; simp [deny]
      · split at awarded
        next live => cases awarded; simp [live]
        · split at awarded
          next intake => cases awarded; simp [intake]
          · cases awarded
  · cases awarded

/-- Settles O13: the take sets MALFORMED, the denial all the rest. -/
theorem directDenialAnswersTheRequest : Obligations.DirectDenialAnswersTheRequest := by
  intro s quiet awarded
  obtain ⟨⟨q, reason, target⟩, claim⟩ := Option.isSome_iff_exists.mp ((claim_of_award awarded).2.2.2 rfl)
  obtain ⟨v, found, disposition, rfl⟩ := intakeClaim_eq_some claim
  let taken : State := { s with
    offer := none, nextPlace := s.nextPlace + 1
    deviceCauses := if reason = .malformed then s.deviceCauses ||| 0x10#6 else s.deviceCauses }
  have outcome : directDenial s = deny q reason v.target taken := by
    rw [directDenial, if_pos awarded, claim]
    simp only [malformedCause_eq]
    rfl
  refine ⟨q, v, reason, found, disposition, deny q reason v.target taken, ?_, ?_, ?_⟩
  · rw [exec_directDenial, settleTick_of_quiet quiet, outcome]
  · refine (deny_frame q reason v.target taken).trans ?_
    rw [markers_deny]
  · obtain ⟨responses, room, full, contexts⟩ := denialEffect_deny q reason v.target taken
    have also : taken.deviceCauses = s.deviceCauses ||| (if reason = .malformed then 0x10#6 else 0x00#6) := by
      cases reason <;> simp [taken]
    rw [BitVec.or_zero, also] at room full
    exact ⟨responses, room, full, contexts⟩

end Sys2Proof.Machine
end

