-- ==== Sys2Proof/Proofs/PoolAndRegulators.lean ====
section
/-! The pool and the regulator contexts through every move: the lanes in use, the quotas and the arrival order (R88, R89,
R92, R97), the ranges of the contexts (R39, R40, R42, R67, R82), and the obligations O54 and O55. -/

namespace Sys2Proof.Machine

/-! ## What a change of one context keeps -/

theorem ContextStep.laneInUse_keep {r : RegNo} {g h : Regulator} (change : ContextStep r g h)
    (used : laneInUse g.state = true) : laneInUse h.state = true := by
  cases change with
  | enable off => simp [off, laneInUse] at used
  | start => rfl
  | goOn => rfl
  | halt => rfl
  | restart => unfold pendingApplied; split <;> exact used
  | window => rwa [windowClosed_state]
  | _ => exact used

theorem ContextStep.setup_keep {r : RegNo} {g h : Regulator} (change : ContextStep r g h) :
    h.setup = g.setup ∨ g.state = .off := by
  cases change with
  | setup _ _ off => exact .inr off
  | restart => unfold pendingApplied; split <;> exact .inl rfl
  | window => exact .inl (by rw [windowClosed_eq])
  | _ => exact .inl rfl

theorem ContextStep.outstandingCount_keep {r : RegNo} {g h : Regulator} (change : ContextStep r g h) :
    h.outstandingCount = g.outstandingCount := by
  cases change with
  | restart => unfold pendingApplied; split <;> rfl
  | window => rw [windowClosed_eq]
  | _ => rfl

/-- No change of one context but DISABLE leaves a regulator OFF. -/
theorem ContextStep.off_keep {r : RegNo} {g h : Regulator} (change : ContextStep r g h) (off : h.state = .off) :
    g.state = .off := by
  cases change with
  | enable => cases off
  | start => cases off
  | goOn => cases off
  | halt => cases off
  | restart => unfold pendingApplied at off; split at off <;> exact off
  | window => rwa [windowClosed_state] at off
  | _ => exact off

/-! ## Contexts in other moves -/

theorem reg_abandonEntry (p : Fin 64 × OutEntry) (s : State) (q : RegNo) :
    reg (abandonEntry p s) q =
      if p.2.charged = some q then { reg s q with outstandingCount := (reg s q).outstandingCount - 1 } else reg s q := by
  unfold abandonEntry
  rw [reg_release]
  rfl

/-- A context after charges and releases of others: only OUTSTANDING COUNT falls. -/
abbrev Released (g h : Regulator) : Prop := ∃ n, n ≤ g.outstandingCount ∧ h = { g with outstandingCount := n }

theorem released_refl (g : Regulator) : Released g g := ⟨_, le_rfl, rfl⟩

theorem released_ite (c : Prop) [Decidable c] (g : Regulator) :
    Released g (if c then { g with outstandingCount := g.outstandingCount - 1 } else g) := by
  split
  · exact ⟨_, Nat.sub_le _ _, rfl⟩
  · exact released_refl g

theorem released_abandonAll {lead : OutEntry} (s : State) (q : RegNo) :
    Released (reg s q) (reg (abandonAll (runOf lead s) s) q) := by
  refine keeps_abandonAll (P := fun t => Released (reg s q) (reg t q)) (nodup_runOf lead s)
    (fun p hp => ((mem_runOf lead s p).mp hp).1) (fun p _ t _ _ ih => ?_) (released_refl _)
  obtain ⟨n, small, same⟩ := ih
  obtain ⟨m, smaller, next⟩ := released_ite (p.2.charged = some q) (reg t q)
  rw [reg_abandonEntry, next, same]
  rw [same] at smaller
  exact ⟨m, smaller.trans small, rfl⟩

@[simp] theorem reg_takeTick (s : State) (r : RegNo) : reg (takeTick s) r = tickReg (reg s r) :=
  mapSlots_get tickReg s.regs r

@[simp] theorem reg_pathReset (s : State) (r : RegNo) : reg (pathReset s) r = fallToArmed (reg s r) :=
  mapSlots_get fallToArmed s.regs r

@[simp] theorem reg_blocksReset (s : State) (r : RegNo) : reg (blocksReset s) r = resetRegulator :=
  Vector.getElem_replicate ..

theorem reg_disableReg {s : State} {r : RegNo} (on : (reg s r).state ≠ .off) (q : RegNo) :
    reg (disableReg r s) q = if q = r then disabled (reg s q) else reg s q := by
  rw [disableReg_of_ne_off on, reg_disableSet]
  simp

theorem tickReg_eq (g : Regulator) : tickReg g = g ∨ g.state = .running ∧ g.position + 1 < g.active.period
    ∧ tickReg g = { g with position := g.position + 1 } := by
  unfold tickReg
  split
  next h => exact .inr ⟨h.1, h.2, rfl⟩
  · exact .inl rfl

theorem tickReg_state (g : Regulator) : (tickReg g).state = g.state := by
  unfold tickReg; split <;> rfl

theorem tickReg_setup (g : Regulator) : (tickReg g).setup = g.setup := by
  unfold tickReg; split <;> rfl

theorem abandonAll_frame (lead : OutEntry) (s : State) :
    abandonAll (runOf lead s) s =
      { s with
        outstanding := (abandonAll (runOf lead s) s).outstanding, tracker := (abandonAll (runOf lead s) s).tracker
        owed := (abandonAll (runOf lead s) s).owed, regs := (abandonAll (runOf lead s) s).regs } := by
  generalize runOf lead s = l
  induction l generalizing s with
  | nil => rfl
  | cons p l ih => rw [abandonAll_cons, ih, abandonEntry_frame]

/-! ## The pool (R88, R89, R92, R97) -/

section
variable {s t : State}

/-- The pool stays sound where it and the order of places stay, every lane in use stays in use, and a HOLD QUOTA changes in
OFF only. -/
theorem poolOk_of_regs (ok : PoolOk s) (pool : t.pool = s.pool) (places : s.nextPlace ≤ t.nextPlace)
    (used : ∀ r, laneInUse (reg s r).state = true → laneInUse (reg t r).state = true)
    (quota : ∀ r, (reg t r).setup = (reg s r).setup ∨ (reg s r).state = .off) : PoolOk t := by
  obtain ⟨room, sorted, entries, quotas⟩ := ok
  refine ⟨pool ▸ room, pool ▸ sorted, fun e he => ?_, fun r => ?_⟩
  · rw [pool] at he
    obtain ⟨before, lane, forward, deny⟩ := entries e he
    exact ⟨before.trans_le places, fun r h => ⟨used r (lane r h).1, (lane r h).2⟩, forward, deny⟩
  · have length : laneLength t (.regulator r) = laneLength s (.regulator r) := by rw [laneLength, laneLength, pool]
    rw [length]
    rcases quota r with same | off
    · exact same ▸ quotas r
    · have empty : laneLength s (.regulator r) = 0 := by
        refine List.countP_eq_zero.mpr fun e he => ?_
        intro lane
        have inUse := ((entries e he).2.1 r (by simpa using lane)).1
        simp [off, laneInUse] at inUse
      rw [empty]
      exact Nat.zero_le _

theorem poolOk_of_same (ok : PoolOk s) (pool : t.pool = s.pool) (places : s.nextPlace ≤ t.nextPlace)
    (state : ∀ r, (reg t r).state = (reg s r).state) (setup : ∀ r, (reg t r).setup = (reg s r).setup) : PoolOk t :=
  poolOk_of_regs ok pool places (fun r h => by rwa [state r]) fun r => .inl (setup r)

theorem poolOk_of_empty (empty : t.pool = []) : PoolOk t := by
  refine ⟨by simp [empty], by simp [empty], by simp [empty], fun r => ?_⟩
  simp [laneLength, empty]

/-- An entry leaves the pool. -/
theorem poolOk_of_erase (ok : PoolOk s) (e : PoolEntry) (pool : t.pool = s.pool.erase e) (places : t.nextPlace = s.nextPlace)
    (state : ∀ r, (reg t r).state = (reg s r).state) (setup : ∀ r, (reg t r).setup = (reg s r).setup) : PoolOk t := by
  obtain ⟨room, sorted, entries, quotas⟩ := ok
  have sub : (s.pool.erase e).Sublist s.pool := List.erase_sublist
  have left : PoolOk { s with pool := s.pool.erase e } :=
    ⟨sub.length_le.trans room, sorted.sublist sub, fun f hf => entries f (sub.subset hf),
      fun r => (sub.countP_le).trans (quotas r)⟩
  exact poolOk_of_same left pool places.ge state setup

/-- An entry joins the tail of a lane that has room. -/
theorem poolOk_of_joinPool {kind : EntryKind} {l : Lane} {q : Request} {target : Target} (ok : PoolOk s)
    (room : poolFull s = false)
    (lane : ∀ r, l = .regulator r → laneInUse (reg s r).state = true ∧ kind = .forward
      ∧ laneLength s l < (reg s r).setup.holdQuota)
    (forward : kind = .forward → malformed q = false)
    (deny : kind ≠ .forward → kind ≠ .deny .poolFull ∧ q.data = []) : PoolOk (joinPool kind l q target s) := by
  obtain ⟨-, sorted, entries, quotas⟩ := ok
  let e : PoolEntry := { kind := kind, lane := l, place := s.nextPlace, request := q, target := target }
  have free : s.pool.length < 48 := by
    rw [← not_le, ← poolFull_iff, room]
    simp
  have pool : (joinPool kind l q target s).pool = s.pool ++ [e] := rfl
  refine ⟨?_, ?_, fun f hf => ?_, fun r => ?_⟩
  · rw [pool, List.length_append]
    exact free
  · rw [pool, List.pairwise_append]
    refine ⟨sorted, List.pairwise_singleton _ _, fun f hf g hg => ?_⟩
    rw [List.mem_singleton.mp hg]
    exact (entries f hf).1
  · rcases List.mem_append.mp (pool ▸ hf) with old | new
    · obtain ⟨before, sound⟩ := entries f old
      exact ⟨before.trans (Nat.lt_succ_self _), sound⟩
    · rw [List.mem_singleton.mp new]
      exact ⟨Nat.lt_succ_self _, fun r h => ⟨(lane r h).1, (lane r h).2.1⟩, forward, deny⟩
  · have length : laneLength (joinPool kind l q target s) (.regulator r) =
        laneLength s (.regulator r) + if l = .regulator r then 1 else 0 := by
      simp only [laneLength, pool, List.countP_append, List.countP_singleton, beq_iff_eq, e]
    rw [length]
    split
    next same =>
      obtain ⟨-, -, below⟩ := lane r same
      exact same ▸ below
    · exact quotas r

theorem poolOk_of_disableReg {r : RegNo} (ok : PoolOk s) (on : (reg s r).state ≠ .off) : PoolOk (disableReg r s) := by
  obtain ⟨room, sorted, entries, quotas⟩ := ok
  have pool : (disableReg r s).pool = s.pool.map (mergeEntry r) := by
    rw [mergeEntry_eq_mergeLanes, disableReg_of_ne_off on]
    rfl
  have place : ∀ e, (mergeEntry r e).place = e.place := fun e => by unfold mergeEntry; split <;> rfl
  have merged : ∀ e q, (mergeEntry r e).lane = .regulator q → e.lane = .regulator q ∧ q ≠ r := by
    intro e q h
    unfold mergeEntry at h
    split at h
    · cases h
    next other => exact ⟨h, fun same => other (same ▸ h)⟩
  have rest : ∀ e, (mergeEntry r e).kind = e.kind ∧ (mergeEntry r e).request = e.request := fun e => by
    unfold mergeEntry
    split <;> exact ⟨rfl, rfl⟩
  have context : ∀ q, q ≠ r → reg (disableReg r s) q = reg s q := fun q other => by
    rw [reg_disableReg on, if_neg other]
  have next : (disableReg r s).nextPlace = s.nextPlace := by rw [disableReg_frame]
  refine ⟨by rw [pool, List.length_map]; exact room, ?_, fun f hf => ?_, fun q => ?_⟩
  · rw [pool, List.pairwise_map]
    simpa only [place] using sorted
  · rw [pool] at hf
    obtain ⟨e, he, rfl⟩ := List.mem_map.mp hf
    obtain ⟨before, lane, forward, deny⟩ := entries e he
    refine ⟨by rw [place, next]; exact before, fun q h => ?_, ?_, ?_⟩
    · obtain ⟨old, other⟩ := merged e q h
      rw [context q other, (rest e).1]
      exact lane q old
    · rw [(rest e).1, (rest e).2]
      exact forward
    · rw [(rest e).1, (rest e).2]
      exact deny
  · have fewer : laneLength (disableReg r s) (.regulator q) ≤ laneLength s (.regulator q) := by
      rw [laneLength, laneLength, pool, List.countP_map]
      exact List.countP_mono_left fun e _ h => by simpa using (merged e q (by simpa using h)).1
    by_cases same : q = r
    · subst same
      rw [reg_disableReg on, if_pos rfl]
      exact fewer.trans (quotas q)
    · rw [context q same]
      exact fewer.trans (quotas q)

end

theorem poolOk_of_move {s t : State} (move : Move s t) (ok : PoolOk s) : PoolOk t := by
  have same : ∀ {u : State}, u.pool = s.pool → s.nextPlace ≤ u.nextPlace → u.regs = s.regs → PoolOk u := by
    intro u pool places regs
    have context : ∀ r, reg u r = reg s r := fun r => by rw [reg, reg, regs]
    exact poolOk_of_same ok pool places (fun r => by rw [context]) fun r => by rw [context]
  have released : ∀ {u : State}, u.pool = s.pool → s.nextPlace ≤ u.nextPlace →
      (∀ r, Released (reg s r) (reg u r)) → PoolOk u := by
    intro u pool places regs
    refine poolOk_of_same ok pool places (fun r => ?_) fun r => ?_ <;> obtain ⟨n, -, h⟩ := regs r <;> rw [h]
  cases move with
  | outside _ frame => rw [frame]; exact same rfl le_rfl rfl
  | context r g cs change =>
    refine poolOk_of_regs ok (by simp) (by simp) (fun q h => ?_) fun q => ?_ <;> rw [reg_regulatorEvent] <;> split
    next here => exact change.laneInUse_keep (here ▸ h)
    · exact h
    next here => exact here ▸ change.setup_keep
    · exact .inl rfl
  | take q v found forward =>
    obtain ⟨-, rfl, -⟩ := considered_eq_some found
    obtain ⟨good, room, lane⟩ := forward_of_judge forward
    refine poolOk_of_joinPool ok room (fun r h => ?_) (fun _ => good) fun h => absurd rfl h
    obtain ⟨used, below⟩ := lane r h
    exact ⟨used, rfl, h ▸ below⟩
  | takeDeny q v reason found denied =>
    obtain ⟨-, rfl, -⟩ := considered_eq_some found
    obtain ⟨room, notFull⟩ := denyEntry_of_judge denied
    exact poolOk_of_joinPool ok room (fun r h => nomatch h) (fun h => nomatch h)
      fun _ => ⟨fun h => notFull (EntryKind.deny.inj h), rfl⟩
  | skipPlace => exact same rfl (Nat.le_succ _) rfl
  | leave e _ => exact poolOk_of_erase ok e rfl rfl (fun _ => rfl) fun _ => rfl
  | grant e i chosen =>
    have context : ∀ r, (reg (grantMoved e i s) r).state = (reg s r).state
        ∧ (reg (grantMoved e i s) r).setup = (reg s r).setup := fun r => by
      rw [reg_grantMoved]
      split <;> exact ⟨rfl, rfl⟩
    refine poolOk_of_erase ok e ?_ ?_ (fun r => (context r).1) fun r => (context r).2 <;> rw [grantMoved_frame]
  | release => exact same rfl le_rfl rfl
  | close i e found live =>
    exact released (by simp) (by simp) fun r => by rw [reg_closeEntry]; exact released_ite _ _
  | drop i e found _ => exact same rfl le_rfl rfl
  | enter u _ _ => exact same rfl le_rfl rfl
  | taken u rest _ => exact same rfl le_rfl rfl
  | answered x rest _ => exact same rfl le_rfl rfl
  | records l _ => exact same rfl le_rfl rfl
  | abandon lead _ _ =>
    exact released (by rw [abandonAll_frame]) (by rw [abandonAll_frame]) fun r => released_abandonAll s r
  | pass n _ _ => exact same rfl le_rfl rfl
  | tick _ =>
    exact poolOk_of_same ok rfl le_rfl (fun r => by rw [reg_takeTick, tickReg_state]) fun r => by
      rw [reg_takeTick, tickReg_setup]
  | syn line level _ => exact same rfl le_rfl rfl
  | synHeld line level _ => exact same rfl le_rfl rfl
  | prescale v p _ => exact same rfl le_rfl rfl
  | timeout v p _ => exact same rfl le_rfl rfl
  | priority p _ => exact same rfl le_rfl rfl
  | map i e _ => exact same rfl le_rfl rfl
  | markers v lines _ => exact same rfl le_rfl rfl
  | disable r on => exact poolOk_of_disableReg ok on
  | pathReset => exact poolOk_of_empty rfl
  | resumeLink _ => exact same rfl le_rfl rfl
  | porReset => exact poolOk_of_empty rfl
  | reset => exact poolOk_of_empty rfl

/-- Settles O54: every move keeps the pool sound. -/
theorem stepKeepsThePoolSound : Obligations.StepKeepsThePoolSound := fun _ _ ok stepped =>
  keeps_of_moves (fun _ _ => poolOk_of_move) (moves_step stepped) ok

/-! ## The ranges of a regulator context (R39, R40, R42, R67, R82) -/

theorem setupOk_of_decodeSetup {r : RegNo} {v : Nat} {u : Setup} (decoded : decodeSetup r v = some u) : SetupOk r u := by
  unfold decodeSetup at decoded
  split at decoded
  · split at decoded
    next inRange =>
      cases decoded
      obtain ⟨shape, priority, least, most, limit⟩ := inRange
      exact ⟨priority, least, most, limit, shape⟩
    · cases decoded
  · cases decoded

theorem profileOk_of_writeProfile {p f : Profile} {which : ProfileWord} {v : Nat}
    (written : writeProfile p which v = some f) (ok : ProfileOk p) : ProfileOk f := by
  obtain ⟨least, within, period, budget⟩ := ok
  unfold writeProfile at written
  cases which with
  | timing =>
    dsimp only at written
    split at written
    next inRange =>
      cases written
      have small : field v 0 16 < 65536 := Nat.mod_lt _ (by decide)
      exact ⟨inRange.2.1, inRange.2.2, Nat.lt_succ_iff.mp small, budget⟩
    · cases written
  | budget =>
    dsimp only at written
    split at written
    next small =>
      cases written
      exact ⟨least, within, period, small⟩
    · cases written

/-- A context whose window stands at zero is in range for any sound profile. -/
theorem windowOk_of_zero {g : Regulator} (active : ProfileOk g.active) (position : g.position = 0)
    (consumed : g.consumed = 0) : WindowOk g := by
  obtain ⟨least, within, -, -⟩ := active
  refine ⟨?_, ?_, fun _ => ?_⟩
  · rw [position]; exact least.trans within
  · rw [consumed]; exact Nat.zero_le _
  · rw [consumed]; exact Nat.zero_le _

theorem restOk_of_inUse {g : Regulator} (used : laneInUse g.state = true) : RestOk g :=
  fun rest => nomatch used.symm.trans rest

theorem carry_le {g : Regulator} (window : WindowOk g) : carry g ≤ 255 := by
  obtain ⟨-, -, bound⟩ := window
  by_cases count : g.setup.mode = .count
  · simp [carry, count]
  · have small := bound count
    cases mode : g.setup.mode with
    | count => exact absurd mode count
    | window => simp only [carry, mode]; omega
    | shape => simp only [carry, mode]; omega

theorem regulatorOk_windowClosed {r : RegNo} {g : Regulator} (ok : RegulatorOk r g) : RegulatorOk r (windowClosed g) := by
  obtain ⟨setup, active, standby, window, rest, sample, prior⟩ := ok
  have carried := carry_le window
  obtain ⟨-, bound, -⟩ := window
  rw [windowClosed_eq]
  have profile : ProfileOk (if g.exchangePending then g.standby else g.active) := by
    split
    · exact standby
    · exact active
  refine ⟨setup, profile, ?_, ⟨profile.1.trans profile.2.1, ?_, fun _ => ?_⟩, fun h => ?_, ?_, ?_⟩
  · dsimp only
    split
    · exact active
    · exact standby
  · exact carried.trans (by decide)
  · exact carried.trans (Nat.le_add_left _ _)
  · obtain ⟨-, consumed, count, -⟩ := rest h
    refine ⟨rfl, ?_, count, rfl⟩
    change carry g = 0
    simp [carry_eq, consumed]
  · dsimp only
    split
    · exact bound
    · exact sample
  · dsimp only
    split
    · exact sample
    · exact prior

theorem regulatorOk_of_change {r : RegNo} {g h : Regulator} (change : ContextStep r g h) (ok : RegulatorOk r g) :
    RegulatorOk r h := by
  have all := ok
  obtain ⟨setup, active, standby, window, rest, sample, prior⟩ := ok
  cases change with
  | same => exact all
  | causes bits => exact all
  | mask bits => exact all
  | triggers t => exact all
  | enable off => exact ⟨setup, active, standby, window, fun _ => rest (by simp [off, laneInUse]), sample, prior⟩
  | start _ => exact ⟨setup, active, standby, windowOk_of_zero active rfl rfl, (nomatch ·), sample, prior⟩
  | goOn _ => exact ⟨setup, active, standby, window, (nomatch ·), sample, prior⟩
  | halt _ => exact ⟨setup, active, standby, window, (nomatch ·), sample, prior⟩
  | restart used =>
    unfold pendingApplied
    split
    · exact ⟨setup, standby, active, windowOk_of_zero standby rfl rfl, restOk_of_inUse used, sample, prior⟩
    · exact ⟨setup, active, standby, windowOk_of_zero active rfl rfl, restOk_of_inUse used, sample, prior⟩
  | sample => exact ⟨setup, active, standby, window, rest, window.2.1, sample⟩
  | pend used => exact ⟨setup, active, standby, window, restOk_of_inUse used, sample, prior⟩
  | exchange resting =>
    obtain ⟨position, consumed, count, -⟩ := rest resting
    exact ⟨setup, standby, active, windowOk_of_zero standby position consumed, fun _ => ⟨position, consumed, count, rfl⟩,
      sample, prior⟩
  | window => exact regulatorOk_windowClosed all
  | setup u v off decoded =>
    obtain ⟨position, consumed, -⟩ := rest (by simp [off, laneInUse])
    exact ⟨setupOk_of_decodeSetup decoded, active, standby, windowOk_of_zero active position consumed, rest, sample,
      prior⟩
  | active p which v resting written =>
    obtain ⟨position, consumed, -⟩ := rest resting
    have profile := profileOk_of_writeProfile written active
    exact ⟨setup, profile, standby, windowOk_of_zero profile position consumed, rest, sample, prior⟩
  | standby p which v written =>
    exact ⟨setup, active, profileOk_of_writeProfile written standby, window, rest, sample, prior⟩

theorem regulatorOk_released {r : RegNo} {g h : Regulator} (released : Released g h) (ok : RegulatorOk r g) :
    RegulatorOk r h := by
  obtain ⟨n, small, rfl⟩ := released
  obtain ⟨setup, active, standby, window, rest, sample, prior⟩ := ok
  refine ⟨setup, active, standby, window, fun h => ?_, sample, prior⟩
  obtain ⟨position, consumed, count, pending⟩ := rest h
  exact ⟨position, consumed, Nat.le_zero.mp (count ▸ small), pending⟩

/-- A regulator that is put to rest at zero. -/
theorem regulatorOk_of_rest {r : RegNo} {g : Regulator} (ok : RegulatorOk r g) (x : RegState) (bits : BitVec 7) :
    RegulatorOk r { g with
      state := x, position := 0, consumed := 0, outstandingCount := 0, exchangePending := false, causes := bits } := by
  obtain ⟨setup, active, standby, -, -, sample, prior⟩ := ok
  exact ⟨setup, active, standby, windowOk_of_zero active rfl rfl, fun _ => ⟨rfl, rfl, rfl, rfl⟩, sample, prior⟩

theorem regulatorOk_resetRegulator (r : RegNo) : RegulatorOk r resetRegulator := by
  have profile : ProfileOk resetProfile := by decide
  refine ⟨?_, profile, profile, windowOk_of_zero profile rfl rfl, fun _ => ⟨rfl, rfl, rfl, rfl⟩, ?_, ?_⟩
  · exact ⟨by decide, by decide, by decide, by decide, (nomatch ·)⟩
  · exact Nat.zero_le _
  · exact Nat.zero_le _

/-- A charge keeps CONSUMED within its bound, because the gate was open and no request is longer than 256 bytes (R17, R82). -/
theorem regulatorOk_charged {r : RegNo} {g : Regulator} {n : Nat} (ok : RegulatorOk r g) (isOpen : gateOpen g = true)
    (short : n ≤ 256) : RegulatorOk r (addCauses (chargedContext g n) (causeBits (chargeCauses g n))) := by
  obtain ⟨setup, active, standby, ⟨position, -, -⟩, -, sample, prior⟩ := ok
  have budget := active.2.2.2
  obtain ⟨running, gate⟩ := (gateOpen_iff g).mp isOpen
  have used : laneInUse g.state = true := by rw [running]; rfl
  rw [addCauses_chargedContext]
  split
  next count =>
    exact ⟨setup, active, standby, ⟨position, min_le_right _ _, fun h => absurd count h⟩,
      restOk_of_inUse used, sample, prior⟩
  next other =>
    have below : g.consumed < g.active.budget := by
      rcases gate with count | ⟨-, h⟩ | ⟨-, -, h⟩
      · exact absurd count other
      · exact h
      · exact h
    refine ⟨setup, active, standby, ⟨position, ?_, fun _ => ?_⟩, restOk_of_inUse used, sample, prior⟩
    · change g.consumed + n ≤ 4294967295
      omega
    · change g.consumed + n ≤ g.active.budget + 255
      omega

/-- No FORWARD entry of a sound pool is longer than 256 bytes (R17). -/
theorem length_of_forward {s : State} {e : PoolEntry} (ok : PoolOk s) (pooled : e ∈ s.pool) (forward : e.kind = .forward) :
    1 ≤ e.request.length.val ∧ e.request.length.val ≤ 256 := by
  obtain ⟨-, -, entries, -⟩ := ok
  have good := (entries e pooled).2.2.1 forward
  rw [← Bool.not_eq_true, malformed_iff] at good
  omega

theorem mem_of_choice {s : State} {e : PoolEntry} {i : Fin 64} (chosen : choice s = some (e, i)) : e ∈ s.pool :=
  mem_of_laneHead (candidate_of_choice chosen).1

theorem regulatorsOk_of_move {s t : State} (move : Move s t) (ok : RegulatorsOk s) (pool : PoolOk s) :
    RegulatorsOk t := by
  have same : ∀ {u : State}, u.regs = s.regs → RegulatorsOk u := by
    intro u regs r
    have context : reg u r = reg s r := by rw [reg, reg, regs]
    rw [context]
    exact ok r
  have released : ∀ {u : State}, (∀ r, Released (reg s r) (reg u r)) → RegulatorsOk u :=
    fun regs r => regulatorOk_released (regs r) (ok r)
  cases move with
  | outside _ frame => rw [frame]; exact same rfl
  | context r g cs change =>
    intro q
    rw [reg_regulatorEvent]
    split
    next here =>
      subst here
      exact regulatorOk_of_change (.causes g _) (regulatorOk_of_change change (ok q))
    · exact ok q
  | take q v _ _ => exact same rfl
  | takeDeny q v reason _ _ => exact same rfl
  | skipPlace => exact same rfl
  | leave e _ => exact same rfl
  | grant e i chosen =>
    intro r
    obtain ⟨-, forward, -, -, admits⟩ := candidate_of_choice chosen
    rw [reg_grantMoved]
    split
    next lane =>
      exact regulatorOk_charged (ok r) (admits r lane).2.1 (length_of_forward pool (mem_of_choice chosen) forward).2
    · exact ok r
  | release => exact same rfl
  | close i e _ _ => exact released fun r => by rw [reg_closeEntry]; exact released_ite _ _
  | drop i e _ _ => exact same rfl
  | enter u _ _ => exact same rfl
  | taken u rest _ => exact same rfl
  | answered x rest _ => exact same rfl
  | records l _ => exact same rfl
  | abandon lead _ _ => exact released fun r => released_abandonAll s r
  | pass n _ _ => exact same rfl
  | tick _ =>
    intro r
    rw [reg_takeTick]
    rcases tickReg_eq (reg s r) with still | ⟨running, below, moved⟩
    · rw [still]
      exact ok r
    · obtain ⟨setup, active, standby, ⟨-, consumed⟩, -, sample, prior⟩ := ok r
      rw [moved]
      exact ⟨setup, active, standby, ⟨below, consumed⟩, fun h => by simp [running, laneInUse] at h, sample, prior⟩
  | syn line level _ => exact same rfl
  | synHeld line level _ => exact same rfl
  | prescale v p _ => exact same rfl
  | timeout v p _ => exact same rfl
  | priority p _ => exact same rfl
  | map i e _ => exact same rfl
  | markers v lines _ => exact same rfl
  | disable r on =>
    intro q
    rw [reg_disableReg on]
    split
    · exact regulatorOk_of_rest (ok q) .off 0#7
    · exact ok q
  | pathReset =>
    intro r
    rw [reg_pathReset]
    unfold fallToArmed
    split
    · exact regulatorOk_of_rest (ok r) .armed _
    · exact ok r
  | resumeLink _ => exact same rfl
  | porReset => exact fun r => (reg_blocksReset s r).symm ▸ regulatorOk_resetRegulator r
  | reset => exact fun r => (reg_blocksReset s r).symm ▸ regulatorOk_resetRegulator r

/-- Settles O55: every move keeps the contexts in range while the pool is sound. -/
theorem stepKeepsRegulatorsInRange : Obligations.StepKeepsRegulatorsInRange := fun _ _ ok pool stepped =>
  (keeps_of_moves (P := fun u => RegulatorsOk u ∧ PoolOk u)
    (fun _ _ move h => ⟨regulatorsOk_of_move move h.1 h.2, poolOk_of_move move h.2⟩) (moves_step stepped)
    ⟨ok, pool⟩).1

end Sys2Proof.Machine
end

