-- ==== Sys2Proof/Proofs/StoresAndCounts.lean ====
section
/-! The outstanding table and the counts that stand for its entries, for the pool entries and for the owed responses (R84,
R100, R129), through every move, and the obligation O56. -/

namespace Sys2Proof.Machine

/-! ## Counting the slots of the table -/

/-- A count over all indices when one index changes. -/
theorem countP_finRange_of_single {n : Nat} {f g : Fin n → Bool} {i : Fin n} (same : ∀ j, j ≠ i → g j = f j) :
    (List.finRange n).countP g + (f i).toNat = (List.finRange n).countP f + (g i).toNat := by
  have split : ∀ h : Fin n → Bool, (List.finRange n).countP h =
      ((List.finRange n).erase i).countP h + (h i).toNat := fun h => by
    rw [(List.perm_cons_erase (List.mem_finRange i)).countP_eq, List.countP_cons]
    cases h i <;> rfl
  have rest : ((List.finRange n).erase i).countP g = ((List.finRange n).erase i).countP f :=
    List.countP_congr fun j hj => by
      rw [same j ((List.nodup_finRange n).mem_erase_iff.mp hj).1]
  rw [split f, split g, rest]
  omega

theorem countP_inUse (s : State) (p : Fin 64 × OutEntry → Bool) :
    (inUse s).countP p = (List.finRange 64).countP fun i => (s.outstanding[i]).any fun e => p (i, e) := by
  rw [inUse, List.countP_filterMap, indexed, List.countP_map]
  refine List.countP_congr fun i _ => ?_
  dsimp only [Function.comp_apply]
  cases s.outstanding[i] <;> simp

section
variable {s t : State}

/-- A count of the table when one place changes. -/
theorem countP_inUse_set {i : Fin 64} {x : Option OutEntry} (table : t.outstanding = s.outstanding.set i x)
    (p : OutEntry → Bool) :
    (inUse t).countP (fun q => p q.2) + ((s.outstanding[i]).any p).toNat =
      (inUse s).countP (fun q => p q.2) + (x.any p).toNat := by
  rw [countP_inUse, countP_inUse]
  have here : t.outstanding[i] = x := by rw [table, set_get, if_pos rfl]
  have := countP_finRange_of_single (n := 64) (i := i) (g := fun j => (t.outstanding[j]).any p)
    (f := fun j => (s.outstanding[j]).any p) fun j other => by rw [table, set_get, if_neg other]
  rwa [here] at this

/-- A count of the table when every entry is passed through a function. -/
theorem countP_inUse_map {f : OutEntry → OutEntry} (table : t.outstanding = mapSlots (Option.map f) s.outstanding)
    (p : OutEntry → Bool) :
    (inUse t).countP (fun q => p q.2) = (inUse s).countP fun q => p (f q.2) := by
  rw [countP_inUse, countP_inUse]
  refine List.countP_congr fun i _ => ?_
  rw [table, mapSlots_get, Option.any_map]

theorem inUse_congr (table : t.outstanding = s.outstanding) : inUse t = inUse s := by rw [inUse, inUse, table]

theorem counts_congr (tracker : t.tracker = s.tracker) (k : Key) : counts t k = counts s k := by
  rw [counts, counts, tracker]

end

/-! ## The timeout list -/

theorem insertOwed_eq_orderedInsert (x : OwedItem) (l : List OwedItem) :
    insertOwed x l = l.orderedInsert (fun a b => a.place < b.place) x := by
  induction l with
  | nil => rfl
  | cons y ys ih => rw [insertOwed, ih, List.orderedInsert]

theorem insertOwed_perm (x : OwedItem) (l : List OwedItem) : (insertOwed x l).Perm (x :: l) := by
  rw [insertOwed_eq_orderedInsert]
  exact List.perm_orderedInsert ..

/-- The owed TIMEOUT of an entry (R139). -/
def owedOf (e : OutEntry) : OwedItem := { key := e.key, direction := e.direction, place := e.place }

theorem abandonEntry_owed (p : Fin 64 × OutEntry) (s : State) :
    (abandonEntry p s).owed = insertOwed (owedOf p.2) s.owed := by
  simp [abandonEntry, owedOf]

theorem counts_abandonEntry (p : Fin 64 × OutEntry) (s : State) (k : Key) :
    counts (abandonEntry p s) k =
      if k = p.2.key then { counts s k with live := (counts s k).live - 1, owed := (counts s k).owed + 1 }
      else counts s k := by
  have tracker : (abandonEntry p s).tracker = s.tracker.set (keyIndex p.2.key)
      { counts s p.2.key with live := (counts s p.2.key).live - 1, owed := (counts s p.2.key).owed + 1 } := by
    simp [abandonEntry]
  rw [counts_of_tracker tracker]
  split
  next same => rw [same]
  · rfl

/-! ## The table (R6, R129) -/

section
variable {s t : State}

theorem outEntryOk_of_same {e : OutEntry} (ok : OutEntryOk s e) (places : s.nextPlace ≤ t.nextPlace)
    (used : ∀ r, laneInUse (reg s r).state = true → laneInUse (reg t r).state = true) : OutEntryOk t e := by
  obtain ⟨age, least, most, place, none, charged⟩ := ok
  exact ⟨age, least, most, place.trans_le places, none, fun r h => used r (charged r h)⟩

/-- The table stays sound where every entry comes of one at its place in the table and in arrival order, and every pool entry
has a place of before or a new one. -/
theorem tableOk_of_entries (ok : TableOk s)
    (entries : ∀ (i : Fin 64) (e : OutEntry), t.outstanding[i] = some e →
      ∃ f, s.outstanding[i] = some f ∧ e.place = f.place ∧ (OutEntryOk s f → OutEntryOk t e))
    (pool : ∀ e ∈ t.pool, (∃ f ∈ s.pool, f.place = e.place) ∨ s.nextPlace ≤ e.place) : TableOk t := by
  obtain ⟨sound, unique, apart⟩ := ok
  have source : ∀ p ∈ inUse t, ∃ q ∈ inUse s, q.1 = p.1 ∧ p.2.place = q.2.place ∧ (OutEntryOk s q.2 → OutEntryOk t p.2) := by
    intro p hp
    obtain ⟨f, found, place, keep⟩ := entries p.1 p.2 ((mem_inUse t p).mp hp)
    exact ⟨(p.1, f), (mem_inUse s _).mpr found, rfl, place, keep⟩
  refine ⟨fun p hp => ?_, fun p hp q hq same => ?_, fun p hp e he => ?_⟩
  · obtain ⟨p', hp', -, -, keep⟩ := source p hp
    exact keep (sound p' hp')
  · obtain ⟨p', hp', index, place, -⟩ := source p hp
    obtain ⟨q', hq', index', place', -⟩ := source q hq
    rw [← index, ← index']
    exact unique p' hp' q' hq' (place.symm.trans (same.trans place'))
  · obtain ⟨p', hp', -, place, -⟩ := source p hp
    rw [place]
    rcases pool e he with ⟨f, hf, same⟩ | new
    · exact same ▸ apart p' hp' f hf
    · have before := (sound p' hp').2.2.2.1
      exact (before.trans_le new).ne

theorem tableOk_of_same (ok : TableOk s) (table : t.outstanding = s.outstanding) (pool : t.pool ⊆ s.pool)
    (places : s.nextPlace ≤ t.nextPlace)
    (used : ∀ r, laneInUse (reg s r).state = true → laneInUse (reg t r).state = true) : TableOk t :=
  tableOk_of_entries ok (fun _ e found => ⟨e, table ▸ found, rfl, fun h => outEntryOk_of_same h places used⟩)
    fun e he => .inl ⟨e, pool he, rfl⟩

theorem tableOk_of_empty (empty : ∀ i : Fin 64, t.outstanding[i] = none) : TableOk t := by
  have nobody : inUse t = [] := List.eq_nil_iff_forall_not_mem.mpr fun p hp => by
    have found := (mem_inUse t p).mp hp
    rw [empty p.1] at found
    cases found
  refine ⟨?_, ?_, ?_⟩ <;> simp [nobody]

/-- An entry is taken off the table. -/
theorem tableOk_of_free (ok : TableOk s) {i : Fin 64} (table : t.outstanding = s.outstanding.set i none)
    (pool : t.pool = s.pool) (places : t.nextPlace = s.nextPlace)
    (state : ∀ r, (reg t r).state = (reg s r).state) : TableOk t := by
  refine tableOk_of_entries ok (fun j e found => ?_) fun e he => .inl ⟨e, pool ▸ he, rfl⟩
  rw [table, set_get] at found
  split at found
  · cases found
  · exact ⟨e, found, rfl, fun h => outEntryOk_of_same h places.ge fun r => by rw [state r]; exact id⟩

/-- Entries of the pool have different places (R6). -/
theorem eq_of_place {l : List PoolEntry} (sorted : l.Pairwise fun a b => a.place < b.place) {e f : PoolEntry}
    (he : e ∈ l) (hf : f ∈ l) (same : e.place = f.place) : e = f := by
  have distinct : (l.map PoolEntry.place).Nodup :=
    (List.pairwise_map.mpr sorted).imp fun h => Nat.ne_of_lt h
  exact List.inj_on_of_nodup_map distinct he hf same

theorem tableOk_of_grantMoved {e : PoolEntry} {i : Fin 64} (pool : PoolOk s) (ok : TableOk s)
    (chosen : choice s = some (e, i)) : TableOk (grantMoved e i s) := by
  obtain ⟨head, forward, -, -, admits⟩ := candidate_of_choice chosen
  have pooled := mem_of_laneHead head
  obtain ⟨least, most⟩ := length_of_forward pool pooled forward
  obtain ⟨-, sorted, places, -⟩ := pool
  obtain ⟨sound, unique, apart⟩ := ok
  have frame := grantMoved_frame e i s
  have table : (grantMoved e i s).outstanding = s.outstanding.set i (some (grantedEntry e)) := by rw [frame]
  have left : (grantMoved e i s).pool = s.pool.erase e := by rw [frame]
  have next : (grantMoved e i s).nextPlace = s.nextPlace := by rw [frame]
  have state : ∀ r, (reg (grantMoved e i s) r).state = (reg s r).state := fun r => by
    rw [reg_grantMoved]
    split <;> rfl
  have source : ∀ p ∈ inUse (grantMoved e i s), p = (i, grantedEntry e) ∨ p ∈ inUse s ∧ p.1 ≠ i := by
    intro p hp
    rw [mem_inUse, table, set_get] at hp
    split at hp
    next same => exact .inl (Prod.ext same (Option.some.inj hp).symm)
    next other => exact .inr ⟨(mem_inUse s p).mpr hp, other⟩
  refine ⟨fun p hp => ?_, fun p hp q hq same => ?_, fun p hp f hf => ?_⟩
  · rcases source p hp with rfl | ⟨old, -⟩
    · refine ⟨Nat.zero_le _, least, most, next ▸ (places e pooled).1, (nomatch ·), fun r charged => ?_⟩
      rw [state r]
      have lane : e.lane = .regulator r := by
        cases here : e.lane with
        | bypass => simp [grantedEntry, chargedRegulator, here] at charged
        | regulator x => simpa [grantedEntry, chargedRegulator, here] using charged
      exact ((places e pooled).2.1 r lane).1
    · exact outEntryOk_of_same (sound p old) next.ge fun r => by rw [state r]; exact id
  · rcases source p hp with rfl | ⟨old, -⟩ <;> rcases source q hq with rfl | ⟨old', -⟩
    · rfl
    · exact absurd same.symm (apart q old' e pooled)
    · exact absurd same (apart p old e pooled)
    · exact unique p old q old' same
  · rw [left] at hf
    rcases source p hp with rfl | ⟨old, -⟩
    · have distinct : s.pool.Nodup := sorted.imp fun h => by rintro rfl; exact lt_irrefl _ h
      obtain ⟨other, there⟩ := distinct.mem_erase_iff.mp hf
      intro same
      exact other (eq_of_place sorted there pooled same.symm)
    · exact apart p old f (List.mem_of_mem_erase hf)

theorem tableOk_of_abandonEntry {p : Fin 64 × OutEntry} (ok : TableOk s) (used : p ∈ inUse s) :
    TableOk (abandonEntry p s) := by
  have sound := ok.1 p used
  have state : ∀ r, (reg (abandonEntry p s) r).state = (reg s r).state := fun r => by
    rw [reg_abandonEntry]
    split <;> rfl
  refine tableOk_of_entries ok (fun j e found => ?_) fun e he => .inl ⟨e, by simpa using he, rfl⟩
  rw [abandonEntry_outstanding, set_get] at found
  split at found
  next same =>
    cases found
    obtain ⟨age, least, most, place, -, -⟩ := sound
    exact ⟨p.2, same ▸ (mem_inUse s p).mp used, rfl, fun _ => ⟨age, least, most, by simpa [abandoned] using place, fun _ => rfl, by
      simp [abandoned]⟩⟩
  · exact ⟨e, found, rfl, fun h => outEntryOk_of_same h (by simp) fun r => by rw [state r]; exact id⟩

theorem outstanding_takeTick (s : State) (i : Fin 64) :
    (takeTick s).outstanding[i] = (s.outstanding[i]).map ageEntry :=
  mapSlots_get (Option.map ageEntry) s.outstanding i

theorem tableOk_takeTick (ok : TableOk s) : TableOk (takeTick s) := by
  refine tableOk_of_entries ok (fun i e found => ?_) fun e he => .inl ⟨e, he, rfl⟩
  rw [outstanding_takeTick] at found
  obtain ⟨f, there, rfl⟩ := Option.map_eq_some_iff.mp found
  refine ⟨f, there, rfl, fun ⟨age, least, most, place, uncharged, charged⟩ =>
    ⟨?_, least, most, place, uncharged, fun r h => ?_⟩⟩
  · change (if f.age < Config.ageMax then f.age + 1 else f.age) ≤ Config.ageMax
    split
    next young => exact young
    · exact age
  · rw [reg_takeTick, tickReg_state]
    exact charged r h

theorem outstanding_disableReg {r : RegNo} (on : (reg s r).state ≠ .off) :
    (disableReg r s).outstanding = mapSlots (Option.map (unchargeEntry r)) s.outstanding := by
  rw [disableReg_of_ne_off on, unchargeEntry_eq_unchargeAll]
  rfl

theorem tableOk_disableReg {r : RegNo} (ok : TableOk s) (on : (reg s r).state ≠ .off) : TableOk (disableReg r s) := by
  have pool : (disableReg r s).pool = s.pool.map (mergeEntry r) := by
    rw [mergeEntry_eq_mergeLanes, disableReg_of_ne_off on]
    rfl
  refine tableOk_of_entries ok (fun i e found => ?_) fun e he => .inl ?_
  · rw [outstanding_disableReg on, mapSlots_get] at found
    obtain ⟨f, there, rfl⟩ := Option.map_eq_some_iff.mp found
    refine ⟨f, there, by unfold unchargeEntry; split <;> rfl, fun ⟨age, least, most, place, uncharged, charged⟩ => ?_⟩
    have next : (disableReg r s).nextPlace = s.nextPlace := by rw [disableReg_frame]
    unfold unchargeEntry
    split
    next h => exact ⟨age, least, most, next ▸ place, fun _ => rfl, by simp⟩
    next other =>
      refine ⟨age, least, most, next ▸ place, uncharged, fun q h => ?_⟩
      have apart : q ≠ r := by
        rintro rfl
        cases state : f.state with
        | live => exact other ⟨state, h⟩
        | abandoned => simp [uncharged state] at h
      rw [reg_disableReg on, if_neg apart]
      exact charged q h
  · rw [pool] at he
    obtain ⟨f, hf, rfl⟩ := List.mem_map.mp he
    exact ⟨f, hf, by unfold mergeEntry; split <;> rfl⟩

end

theorem outstanding_closeEntry (i : Fin 64) (e : OutEntry) (s : State) :
    (closeEntry i e s).outstanding = s.outstanding.set i none := by
  simp [closeEntry]

/-- What holds through the abandonment of a run. -/
theorem keeps_abandonRun {P : State → Prop} {lead : OutEntry} {s : State}
    (keeps : ∀ p ∈ runOf lead s, ∀ t, p ∈ inUse t → p.2.state = .live → P t → P (abandonEntry p t)) (h : P s) :
    P (abandonAll (runOf lead s) s) :=
  keeps_abandonAll (nodup_runOf lead s) (fun p hp => ((mem_runOf lead s p).mp hp).1) keeps h

theorem tableOk_of_move {s t : State} (move : Move s t) (pool : PoolOk s) (ok : TableOk s) : TableOk t := by
  have same : ∀ {u : State}, u.outstanding = s.outstanding → u.pool ⊆ s.pool → s.nextPlace ≤ u.nextPlace →
      u.regs = s.regs → TableOk u := by
    intro u table pool places regs
    have context : ∀ r, reg u r = reg s r := fun r => by rw [reg, reg, regs]
    exact tableOk_of_same ok table pool places fun r => by rw [context]; exact id
  have joined : ∀ kind l q target, TableOk (joinPool kind l q target s) := by
    intro kind l q target
    refine tableOk_of_entries ok (fun _ e found => ⟨e, found, rfl, fun h => outEntryOk_of_same h (Nat.le_succ _)
      fun _ => id⟩) fun e he => ?_
    rcases List.mem_append.mp he with old | new
    · exact .inl ⟨e, old, rfl⟩
    · exact .inr (by rw [List.mem_singleton.mp new])
  have all : s.pool ⊆ s.pool := fun _ h => h
  cases move with
  | outside _ frame => rw [frame]; exact same rfl all le_rfl rfl
  | context r g cs change =>
    refine tableOk_of_same ok (by simp) (by simp) (by simp) fun q h => ?_
    rw [reg_regulatorEvent]
    split
    next here => exact change.laneInUse_keep (here ▸ h)
    · exact h
  | take q v _ _ => exact joined ..
  | takeDeny q v reason _ _ => exact joined ..
  | skipPlace => exact same rfl all (Nat.le_succ _) rfl
  | leave e _ => exact same rfl List.erase_subset le_rfl rfl
  | grant e i chosen => exact tableOk_of_grantMoved pool ok chosen
  | release => exact same rfl all le_rfl rfl
  | close i e _ _ =>
    refine tableOk_of_free ok (outstanding_closeEntry i e s) (by simp) (by simp) fun r => ?_
    rw [reg_closeEntry]
    split <;> rfl
  | drop i e _ _ => exact tableOk_of_free ok rfl rfl rfl fun _ => rfl
  | enter u _ _ => exact same rfl all le_rfl rfl
  | taken u rest _ => exact same rfl all le_rfl rfl
  | answered x rest _ => exact same rfl all le_rfl rfl
  | records l _ => exact same rfl all le_rfl rfl
  | abandon lead _ _ => exact keeps_abandonRun (fun _ _ _ used _ h => tableOk_of_abandonEntry h used) ok
  | pass n _ _ => exact same rfl all le_rfl rfl
  | tick _ => exact tableOk_takeTick ok
  | syn line level _ => exact same rfl all le_rfl rfl
  | synHeld line level _ => exact same rfl all le_rfl rfl
  | prescale v p _ => exact same rfl all le_rfl rfl
  | timeout v p _ => exact same rfl all le_rfl rfl
  | priority p _ => exact same rfl all le_rfl rfl
  | map i e _ => exact same rfl all le_rfl rfl
  | markers v lines _ => exact same rfl all le_rfl rfl
  | disable r on => exact tableOk_disableReg ok on
  | pathReset => exact tableOk_of_empty fun i => Vector.getElem_replicate ..
  | resumeLink _ => exact same rfl all le_rfl rfl
  | porReset => exact tableOk_of_empty fun i => Vector.getElem_replicate ..
  | reset => exact tableOk_of_empty fun i => Vector.getElem_replicate ..

/-! ## The counts (R84, R100) -/

theorem liveCharged_of_rest {s : State} (ok : TableOk s) {r : RegNo} (rest : laneInUse (reg s r).state = false) :
    liveCharged s r = 0 := by
  refine List.countP_eq_zero.mpr fun p hp charged => ?_
  simp only [Bool.and_eq_true, beq_iff_eq] at charged
  exact nomatch rest.symm.trans ((ok.1 p hp).2.2.2.2.2 r charged.2)

section
variable {s t : State}

theorem keyCountsOk_of (ok : CountsOk s) (k : Key) : KeyCountsOk s k := ok.1 k.initiator k.tag

theorem countsOk_of (keys : ∀ k, KeyCountsOk t k) (charges : ∀ r, ChargeOk t r) : CountsOk t := ⟨fun _ _ => keys _, charges⟩

/-- The LIVE entries of a key when one place of the table changes. -/
theorem liveOfKey_set {i : Fin 64} {x : Option OutEntry} (table : t.outstanding = s.outstanding.set i x) (k : Key) :
    liveOfKey t k + ((s.outstanding[i]).any fun f => f.state == .live && f.key == k).toNat =
      liveOfKey s k + (x.any fun f => f.state == .live && f.key == k).toNat :=
  countP_inUse_set table fun f => f.state == .live && f.key == k

/-- The LIVE entries charged to a regulator when one place of the table changes. -/
theorem liveCharged_set {i : Fin 64} {x : Option OutEntry} (table : t.outstanding = s.outstanding.set i x) (r : RegNo) :
    liveCharged t r + ((s.outstanding[i]).any fun f => f.state == .live && f.charged == some r).toNat =
      liveCharged s r + (x.any fun f => f.state == .live && f.charged == some r).toNat :=
  countP_inUse_set table fun f => f.state == .live && f.charged == some r

/-- The counts stay sound where the stores stay and a setup changes in OFF only. -/
theorem countsOk_of_same (tables : TableOk s) (ok : CountsOk s) (tracker : t.tracker = s.tracker) (pool : t.pool = s.pool)
    (table : t.outstanding = s.outstanding) (owed : t.owed = s.owed)
    (count : ∀ r, (reg t r).outstandingCount = (reg s r).outstandingCount)
    (setup : ∀ r, (reg t r).setup = (reg s r).setup ∨ (reg s r).state = .off) : CountsOk t := by
  refine ⟨fun i g => ?_, fun r => ?_⟩
  · have sound := ok.1 i g
    rwa [KeyCountsOk, counts_congr tracker, pool, liveOfKey, inUse_congr table, owed]
  · obtain ⟨charged, limit⟩ := ok.2 r
    have same : liveCharged t r = liveCharged s r := by rw [liveCharged, liveCharged, inUse_congr table]
    rw [ChargeOk, same, count]
    refine ⟨charged, ?_⟩
    rcases setup r with same | off
    · rwa [same]
    · have rest := liveCharged_of_rest tables (r := r) (by simp [off, laneInUse])
      rw [charged, rest]
      exact fun _ => Nat.zero_le _

theorem countsOk_of_empty (tracker : ∀ k, counts t k = freeKey) (pool : t.pool = []) (table : ∀ i : Fin 64, t.outstanding[i] = none)
    (owed : t.owed = []) (count : ∀ r, (reg t r).outstandingCount = 0) : CountsOk t := by
  have nobody : inUse t = [] := List.eq_nil_iff_forall_not_mem.mpr fun p hp => by
    have found := (mem_inUse t p).mp hp
    rw [table p.1] at found
    cases found
  refine ⟨fun i g => ?_, fun r => ?_⟩
  · rw [KeyCountsOk, tracker, pool, owed, liveOfKey, nobody]
    rfl
  · rw [ChargeOk, count, liveCharged, nobody]
    exact ⟨rfl, fun _ => Nat.zero_le _⟩

/-- A change of one key's counts beside a change of the stores. -/
theorem keyCountsOk_of_parts {k : Key} (pooled : (counts t k).pooled = t.pool.countP fun e => e.request.key == k)
    (live : (counts t k).live = liveOfKey t k) (owed : (counts t k).owed = t.owed.countP fun x => x.key == k) :
    KeyCountsOk t k := by
  rw [KeyCountsOk, ← pooled, ← live, ← owed]

theorem countsOk_of_joinPool {kind : EntryKind} {l : Lane} {q : Request} {target : Target} (ok : CountsOk s) :
    CountsOk (joinPool kind l q target s) := by
  refine countsOk_of (fun k => ?_) fun r => ok.2 r
  have before := keyCountsOk_of ok k
  have pool : (joinPool kind l q target s).pool.countP (fun e => e.request.key == k) =
      s.pool.countP (fun e => e.request.key == k) + if k = q.key then 1 else 0 := by
    simp only [joinPool_pool, List.countP_append, List.countP_singleton, beq_iff_eq, eq_comm (a := k)]
  refine keyCountsOk_of_parts ?_ ?_ ?_ <;> rw [counts_of_joined, before]
  · rw [pool]
    split <;> rfl
  · split <;> rfl
  · split <;> rfl

/-- Removing an entry from the pool lowers the number of its key's entries by 1. -/
theorem countP_erase_key {l : List PoolEntry} {e : PoolEntry} (pooled : e ∈ l) (k : Key) :
    (l.erase e).countP (fun f => f.request.key == k) =
      l.countP (fun f => f.request.key == k) - if k = e.request.key then 1 else 0 := by
  rw [List.countP_erase]
  simp only [pooled, true_and, beq_iff_eq, eq_comm (a := k)]

theorem counts_of_left (e : PoolEntry) (s : State) (k : Key) :
    counts (leavePool e s) k =
      if k = e.request.key then { counts s k with pooled := (counts s k).pooled - 1 } else counts s k := by
  rw [counts_leavePool]
  split
  next same => rw [same]
  · rfl

theorem countsOk_of_leavePool {e : PoolEntry} (ok : CountsOk s) (pooled : e ∈ s.pool) : CountsOk (leavePool e s) := by
  refine countsOk_of (fun k => ?_) fun r => ok.2 r
  have before := keyCountsOk_of ok k
  refine keyCountsOk_of_parts ?_ ?_ ?_ <;> rw [counts_of_left, before]
  · rw [leavePool_pool, countP_erase_key pooled]
    split <;> rfl
  · split <;> rfl
  · split <;> rfl

theorem chargedRegulator_eq_some_iff (l : Lane) (r : RegNo) : chargedRegulator l = some r ↔ l = .regulator r := by
  cases l <;> simp [chargedRegulator]

theorem countsOk_of_grantMoved {e : PoolEntry} {i : Fin 64} (ok : CountsOk s) (chosen : choice s = some (e, i)) :
    CountsOk (grantMoved e i s) := by
  obtain ⟨head, -, -, -, admits⟩ := candidate_of_choice chosen
  obtain ⟨-, -, place, -⟩ := (choice_eq_some_iff s e i).mp chosen
  obtain ⟨free, -⟩ := (freePlace_eq_some_iff s i).mp place
  have pooled := mem_of_laneHead head
  have frame := grantMoved_frame e i s
  have table : (grantMoved e i s).outstanding = s.outstanding.set i (some (grantedEntry e)) := by rw [frame]
  refine countsOk_of (fun k => ?_) fun r => ?_
  · have before := keyCountsOk_of ok k
    have live : liveOfKey (grantMoved e i s) k = liveOfKey s k + if k = e.request.key then 1 else 0 := by
      have added := liveOfKey_set table k
      rw [free] at added
      refine added.trans ?_
      split
      next same => simp [grantedEntry, same]
      next other => simp [grantedEntry, Ne.symm other]
    refine keyCountsOk_of_parts ?_ ?_ ?_ <;> rw [counts_grantMoved, before]
    · have left : (grantMoved e i s).pool = s.pool.erase e := by rw [frame]
      rw [left, countP_erase_key pooled]
      split <;> rfl
    · rw [live]
      split <;> rfl
    · have owed : (grantMoved e i s).owed = s.owed := by rw [frame]
      rw [owed]
      split <;> rfl
  · obtain ⟨charged, limit⟩ := ok.2 r
    have live : liveCharged (grantMoved e i s) r = liveCharged s r + if e.lane = .regulator r then 1 else 0 := by
      have added := liveCharged_set table r
      rw [free] at added
      refine added.trans ?_
      simp only [grantedEntry, ← chargedRegulator_eq_some_iff]
      split
      next same => simp [same]
      next other => simp [other]
    rw [ChargeOk, live, reg_grantMoved]
    split
    next lane =>
      obtain ⟨-, -, room⟩ := admits r lane
      refine ⟨congrArg (· + 1) charged, fun nonzero => ?_⟩
      rcases room with none | below
      · exact absurd none nonzero
      · exact below
    · exact ⟨charged, limit⟩

/-- An entry that is not LIVE leaves the table: no count is of it. -/
theorem countsOk_of_drop {i : Fin 64} {e : OutEntry} (ok : CountsOk s) (found : s.outstanding[i] = some e)
    (dead : e.state = .abandoned) (table : t.outstanding = s.outstanding.set i none) (tracker : t.tracker = s.tracker)
    (pool : t.pool = s.pool) (owed : t.owed = s.owed) (regs : t.regs = s.regs) : CountsOk t := by
  have notLive : (e.state == .live) = false := by rw [dead]; rfl
  refine countsOk_of (fun k => ?_) fun r => ?_
  · have live : liveOfKey t k = liveOfKey s k := by
      have removed := liveOfKey_set table k
      rw [found] at removed
      simpa [notLive] using removed
    have before := keyCountsOk_of ok k
    rwa [KeyCountsOk, counts_congr tracker, pool, owed, live]
  · have live : liveCharged t r = liveCharged s r := by
      have removed := liveCharged_set table r
      rw [found] at removed
      simpa [notLive] using removed
    have context : reg t r = reg s r := by rw [reg, reg, regs]
    rw [ChargeOk, live, context]
    exact ok.2 r

theorem counts_of_closed (i : Fin 64) (e : OutEntry) (s : State) (k : Key) :
    counts (closeEntry i e s) k =
      if k = e.key then { counts s k with live := (counts s k).live - 1 } else counts s k := by
  rw [counts_closeEntry]
  split
  next same => rw [same]
  · rfl

/-- A LIVE entry leaves its key's LIVE entries, by leaving the table or by being abandoned. -/
theorem liveOfKey_of_unlive {i : Fin 64} {e : OutEntry} {x : Option OutEntry} (found : s.outstanding[i] = some e)
    (alive : e.state = .live) (table : t.outstanding = s.outstanding.set i x) (dead : ∀ f ∈ x, f.state = .abandoned)
    (k : Key) : liveOfKey t k = liveOfKey s k - if k = e.key then 1 else 0 := by
  have removed := liveOfKey_set table k
  have none : (x.any fun f => f.state == .live && f.key == k) = false := by
    cases x with
    | none => rfl
    | some f => simp [dead f rfl]
  rw [found, none] at removed
  by_cases same : k = e.key
  · simp only [Option.any_some, alive, same, beq_self_eq_true, Bool.and_self, Bool.toNat_true, Bool.toNat_false] at removed
    rw [if_pos same, same]
    omega
  · simp only [Option.any_some, alive, beq_eq_false_iff_ne.mpr (Ne.symm same), Bool.and_false, Bool.toNat_false] at removed
    rw [if_neg same]
    omega

theorem liveCharged_of_unlive {i : Fin 64} {e : OutEntry} {x : Option OutEntry} (found : s.outstanding[i] = some e)
    (alive : e.state = .live) (table : t.outstanding = s.outstanding.set i x) (dead : ∀ f ∈ x, f.state = .abandoned)
    (r : RegNo) : liveCharged t r = liveCharged s r - if e.charged = some r then 1 else 0 := by
  have removed := liveCharged_set table r
  have none : (x.any fun f => f.state == .live && f.charged == some r) = false := by
    cases x with
    | none => rfl
    | some f => simp [dead f rfl]
  rw [found, none] at removed
  by_cases same : e.charged = some r
  · simp only [Option.any_some, alive, same, beq_self_eq_true, Bool.and_self, Bool.toNat_true, Bool.toNat_false] at removed
    rw [if_pos same]
    omega
  · simp only [Option.any_some, beq_eq_false_iff_ne.mpr same, Bool.and_false, Bool.toNat_false] at removed
    rw [if_neg same]
    omega

theorem chargeOk_of_released {r : RegNo} {c : Option RegNo} (ok : ChargeOk s r)
    (live : liveCharged t r = liveCharged s r - if c = some r then 1 else 0)
    (context : reg t r =
      if c = some r then { reg s r with outstandingCount := (reg s r).outstandingCount - 1 } else reg s r) :
    ChargeOk t r := by
  obtain ⟨charged, limit⟩ := ok
  rw [ChargeOk, live, context]
  split
  · exact ⟨congrArg (· - 1) charged, fun nonzero => (Nat.sub_le _ _).trans (limit nonzero)⟩
  · exact ⟨charged, limit⟩

theorem countsOk_of_closeEntry {i : Fin 64} {e : OutEntry} (ok : CountsOk s) (found : s.outstanding[i] = some e)
    (alive : e.state = .live) : CountsOk (closeEntry i e s) := by
  have table := outstanding_closeEntry i e s
  refine countsOk_of (fun k => ?_) fun r => chargeOk_of_released (ok.2 r)
    (liveCharged_of_unlive found alive table (by simp) r) (reg_closeEntry i e s r)
  have before := keyCountsOk_of ok k
  refine keyCountsOk_of_parts ?_ ?_ ?_ <;> rw [counts_of_closed, before]
  · rw [closeEntry_pool]
    split <;> rfl
  · rw [liveOfKey_of_unlive found alive table (by simp)]
    split <;> rfl
  · rw [closeEntry_owed]
    split <;> rfl

theorem countsOk_of_abandonEntry {p : Fin 64 × OutEntry} (ok : CountsOk s) (used : p ∈ inUse s)
    (alive : p.2.state = .live) : CountsOk (abandonEntry p s) := by
  have found := (mem_inUse s p).mp used
  have table := abandonEntry_outstanding p s
  have dead : ∀ f ∈ some (abandoned p.2), f.state = .abandoned := by simp [abandoned]
  refine countsOk_of (fun k => ?_) fun r => chargeOk_of_released (ok.2 r)
    (liveCharged_of_unlive found alive table dead r) (reg_abandonEntry p s r)
  have before := keyCountsOk_of ok k
  refine keyCountsOk_of_parts ?_ ?_ ?_ <;> rw [counts_abandonEntry, before]
  · rw [abandonEntry_pool]
    split <;> rfl
  · rw [liveOfKey_of_unlive found alive table dead]
    split <;> rfl
  · rw [abandonEntry_owed, (insertOwed_perm _ _).countP_eq, List.countP_cons]
    by_cases same : k = p.2.key
    · simp [same, owedOf]
    · simp [same, Ne.symm same, owedOf]

theorem countsOk_of_answered {x : OwedItem} {rest : List OwedItem} (ok : CountsOk s) (owed : s.owed = x :: rest) :
    CountsOk (setCounts { s with owed := rest } x.key { counts s x.key with owed := (counts s x.key).owed - 1 }) := by
  refine countsOk_of (fun k => ?_) fun r => ok.2 r
  have before := keyCountsOk_of ok k
  have key : counts (setCounts { s with owed := rest } x.key { counts s x.key with owed := (counts s x.key).owed - 1 }) k =
      if k = x.key then { counts s k with owed := (counts s k).owed - 1 } else counts s k := by
    rw [counts_setCounts]
    split
    next same => rw [same]
    · rfl
  refine keyCountsOk_of_parts ?_ ?_ ?_ <;> rw [key, before]
  · split <;> rfl
  · split <;> rfl
  · rw [owed, List.countP_cons]
    by_cases same : k = x.key
    · simp [same]
    · simp [same, Ne.symm same]

/-- The entries of the table are passed through a function that keeps state and key. -/
theorem liveOfKey_map {f : OutEntry → OutEntry} (table : t.outstanding = mapSlots (Option.map f) s.outstanding)
    (same : ∀ e, (f e).state = e.state ∧ (f e).key = e.key) (k : Key) : liveOfKey t k = liveOfKey s k := by
  refine (countP_inUse_map table fun e => e.state == .live && e.key == k).trans ?_
  simp only [(same _).1, (same _).2]
  rfl

theorem countsOk_takeTick (ok : CountsOk s) : CountsOk (takeTick s) := by
  have table : (takeTick s).outstanding = mapSlots (Option.map ageEntry) s.outstanding := rfl
  refine countsOk_of (fun k => ?_) fun r => ?_
  · have before := keyCountsOk_of ok k
    rwa [KeyCountsOk, liveOfKey_map table (fun _ => ⟨rfl, rfl⟩)]
  · have live : liveCharged (takeTick s) r = liveCharged s r :=
      countP_inUse_map table fun e => e.state == .live && e.charged == some r
    obtain ⟨charged, limit⟩ := ok.2 r
    have context : (tickReg (reg s r)).outstandingCount = (reg s r).outstandingCount := by
      unfold tickReg
      split <;> rfl
    rw [ChargeOk, live, reg_takeTick, tickReg_setup, context]
    exact ⟨charged, limit⟩

theorem countsOk_disableReg {r : RegNo} (ok : CountsOk s) (on : (reg s r).state ≠ .off) : CountsOk (disableReg r s) := by
  have table := outstanding_disableReg on
  have pool : (disableReg r s).pool = s.pool.map (mergeEntry r) := by
    rw [mergeEntry_eq_mergeLanes, disableReg_of_ne_off on]
    rfl
  have request : ∀ e, (mergeEntry r e).request = e.request := fun e => by unfold mergeEntry; split <;> rfl
  refine countsOk_of (fun k => ?_) fun q => ?_
  · have before := keyCountsOk_of ok k
    have pooled : (disableReg r s).pool.countP (fun e => e.request.key == k) =
        s.pool.countP fun e => e.request.key == k := by
      rw [pool, List.countP_map]
      exact List.countP_congr fun e _ => by rw [Function.comp_apply, request]
    have tracker : (disableReg r s).tracker = s.tracker := by rw [disableReg_frame]
    have owed : (disableReg r s).owed = s.owed := by rw [disableReg_frame]
    rwa [KeyCountsOk, counts_congr tracker, pooled, owed,
      liveOfKey_map table fun e => by unfold unchargeEntry; split <;> exact ⟨rfl, rfl⟩]
  · have live : liveCharged (disableReg r s) q = if q = r then 0 else liveCharged s q := by
      refine (countP_inUse_map table fun e => e.state == .live && e.charged == some q).trans ?_
      split
      next same =>
        subst same
        refine List.countP_eq_zero.mpr fun p _ h => ?_
        unfold unchargeEntry at h
        split at h
        · simp at h
        next other =>
          simp only [Bool.and_eq_true, beq_iff_eq] at h
          exact other h
      next other =>
        refine List.countP_congr fun p _ => ?_
        unfold unchargeEntry
        split
        next h => simp [h.2, Ne.symm other]
        · exact Iff.rfl
    rw [ChargeOk, live, reg_disableReg on]
    split
    · exact ⟨rfl, fun _ => Nat.zero_le _⟩
    · exact ok.2 q

end

theorem countsOk_of_move {s t : State} (move : Move s t) (stores : StoresOk s) : CountsOk t := by
  obtain ⟨-, tables, ok⟩ := stores
  have same : ∀ {u : State}, u.tracker = s.tracker → u.pool = s.pool → u.outstanding = s.outstanding →
      u.owed = s.owed → u.regs = s.regs → CountsOk u := by
    intro u tracker pool table owed regs
    have context : ∀ r, reg u r = reg s r := fun r => by rw [reg, reg, regs]
    exact countsOk_of_same tables ok tracker pool table owed (fun r => by rw [context]) fun r => .inl (by rw [context])
  cases move with
  | outside _ frame => rw [frame]; exact same rfl rfl rfl rfl rfl
  | context r g cs change =>
    refine countsOk_of_same tables ok (by simp) (by simp) (by simp) (by simp) (fun q => ?_) fun q => ?_ <;>
      rw [reg_regulatorEvent] <;> split
    next here => exact here ▸ change.outstandingCount_keep
    · rfl
    next here => exact here ▸ change.setup_keep
    · exact .inl rfl
  | take q v _ _ => exact countsOk_of_joinPool ok
  | takeDeny q v reason _ _ => exact countsOk_of_joinPool ok
  | skipPlace => exact same rfl rfl rfl rfl rfl
  | leave e pooled => exact countsOk_of_leavePool ok pooled
  | grant e i chosen => exact countsOk_of_grantMoved ok chosen
  | release => exact same rfl rfl rfl rfl rfl
  | close i e found live => exact countsOk_of_closeEntry ok found live
  | drop i e found dead => exact countsOk_of_drop ok found dead rfl rfl rfl rfl rfl
  | enter u _ _ => exact same rfl rfl rfl rfl rfl
  | taken u rest _ => exact same rfl rfl rfl rfl rfl
  | answered x rest owed => exact countsOk_of_answered ok owed
  | records l _ => exact same rfl rfl rfl rfl rfl
  | abandon lead _ _ => exact keeps_abandonRun (fun _ _ _ used live h => countsOk_of_abandonEntry h used live) ok
  | pass n _ _ => exact same rfl rfl rfl rfl rfl
  | tick _ => exact countsOk_takeTick ok
  | syn line level _ => exact same rfl rfl rfl rfl rfl
  | synHeld line level _ => exact same rfl rfl rfl rfl rfl
  | prescale v p _ => exact same rfl rfl rfl rfl rfl
  | timeout v p _ => exact same rfl rfl rfl rfl rfl
  | priority p _ => exact same rfl rfl rfl rfl rfl
  | map i e _ => exact same rfl rfl rfl rfl rfl
  | markers v lines _ => exact same rfl rfl rfl rfl rfl
  | disable r on => exact countsOk_disableReg ok on
  | pathReset =>
    refine countsOk_of_empty (fun k => Vector.getElem_replicate ..) rfl (fun i => Vector.getElem_replicate ..) rfl
      fun r => ?_
    rw [reg_pathReset]
    unfold fallToArmed
    split
    · rfl
    next rest =>
      rw [(ok.2 r).1]
      exact liveCharged_of_rest tables (by simpa using rest)
  | resumeLink _ => exact same rfl rfl rfl rfl rfl
  | porReset =>
    exact countsOk_of_empty (fun k => Vector.getElem_replicate ..) rfl (fun i => Vector.getElem_replicate ..) rfl
      fun r => congrArg Regulator.outstandingCount (reg_blocksReset s r)
  | reset =>
    exact countsOk_of_empty (fun k => Vector.getElem_replicate ..) rfl (fun i => Vector.getElem_replicate ..) rfl
      fun r => congrArg Regulator.outstandingCount (reg_blocksReset s r)

theorem storesOk_of_move {s t : State} (move : Move s t) (stores : StoresOk s) : StoresOk t := by
  obtain ⟨pool, tables, _⟩ := id stores
  exact ⟨poolOk_of_move move pool, tableOk_of_move move pool tables, countsOk_of_move move stores⟩

/-- Settles O56: every move keeps the stores and their counts sound. -/
theorem stepKeepsCountsOfEntries : Obligations.StepKeepsCountsOfEntries := fun _ _ ok stepped =>
  keeps_of_moves (fun _ _ => storesOk_of_move) (moves_step stepped) ok

end Sys2Proof.Machine
end

