-- ==== Sys2Proof/Proofs/KeyOrder.lean ====
section
/-! The order of each key through pool, table and timeout list (R6, R102, R131, R139, R142) in every move, and the
obligation O57. A run is abandoned entry by entry, so the rule that a key has no LIVE entry while it is owed a response is
suspended for the run's key until the run is through. -/

namespace Sys2Proof.Machine

/-- The order of each key, where keys that meet `but` may have LIVE entries while they are owed a response. -/
structure KeyOrderBut (but : Key → Prop) (s : State) : Prop where
  tableBeforePool : ∀ p ∈ inUse s, ∀ e ∈ s.pool, p.2.key = e.request.key → p.2.place < e.place
  owedBeforePool : ∀ x ∈ s.owed, ∀ e ∈ s.pool, x.place ≠ e.place ∧ (x.key = e.request.key → x.place < e.place)
  ages : ∀ p ∈ inUse s, ∀ q ∈ inUse s, p.2.key = q.2.key → p.2.place < q.2.place → q.2.age ≤ p.2.age
  live : ∀ p ∈ inUse s, p.2.state = .live → ∀ x ∈ s.owed, (x.key ≠ p.2.key ∨ but p.2.key) ∧ x.place ≠ p.2.place
  owedSorted : s.owed.Pairwise fun x y => x.place < y.place
  owedPlaces : ∀ x ∈ s.owed, x.place < s.nextPlace

section
variable {s t : State}

/-! ## Moves that make no entry and owe nothing -/

/-- The order stays where every table entry, pool entry and owed item comes of one with its key and place, ages go through a
monotone function, and new pool entries have new places. -/
theorem keyOrderOk_of_entries (tables : TableOk s) (ok : KeyOrderOk s) {age : Nat → Nat} (mono : Monotone age)
    (entries : ∀ (i : Fin 64) (e : OutEntry), t.outstanding[i] = some e →
      ∃ f, s.outstanding[i] = some f ∧ e.key = f.key ∧ e.place = f.place ∧ e.age = age f.age
        ∧ (e.state = .live → f.state = .live))
    (pool : ∀ e ∈ t.pool, (∃ f ∈ s.pool, f.place = e.place ∧ f.request.key = e.request.key) ∨ s.nextPlace ≤ e.place)
    (owed : t.owed.Sublist s.owed) (places : s.nextPlace ≤ t.nextPlace) : KeyOrderOk t := by
  obtain ⟨tableBefore, owedBefore, ages, live, sorted, owedPlaces⟩ := ok
  have source : ∀ p ∈ inUse t, ∃ q ∈ inUse s, p.2.key = q.2.key ∧ p.2.place = q.2.place ∧ p.2.age = age q.2.age
      ∧ (p.2.state = .live → q.2.state = .live) := by
    intro p hp
    obtain ⟨f, found, kept⟩ := entries p.1 p.2 ((mem_inUse t p).mp hp)
    exact ⟨(p.1, f), (mem_inUse s _).mpr found, kept⟩
  refine ⟨fun p hp e he key => ?_, fun x hx e he => ?_, fun p hp q hq key before => ?_, fun p hp alive x hx => ?_,
    sorted.sublist owed, fun x hx => (owedPlaces x (owed.subset hx)).trans_le places⟩
  · obtain ⟨q, hq, sameKey, place, -, -⟩ := source p hp
    rw [place]
    rcases pool e he with ⟨f, hf, samePlace, fKey⟩ | new
    · exact samePlace ▸ tableBefore q hq f hf (sameKey.symm.trans (key.trans fKey.symm))
    · exact (tables.1 q hq).2.2.2.1.trans_le new
  · rcases pool e he with ⟨f, hf, samePlace, fKey⟩ | new
    · obtain ⟨apart, before⟩ := owedBefore x (owed.subset hx) f hf
      exact ⟨samePlace ▸ apart, fun key => samePlace ▸ before (key.trans fKey.symm)⟩
    · have before := (owedPlaces x (owed.subset hx)).trans_le new
      exact ⟨before.ne, fun _ => before⟩
  · obtain ⟨p', hp', key', place', age', -⟩ := source p hp
    obtain ⟨q', hq', key'', place'', age'', -⟩ := source q hq
    rw [age', age'']
    refine mono (ages p' hp' q' hq' (key'.symm.trans (key.trans key'')) ?_)
    rwa [place', place''] at before
  · obtain ⟨q, hq, key, place, -, alive'⟩ := source p hp
    rw [key, place]
    exact live q hq (alive' alive) x (owed.subset hx)

theorem keyOrderOk_of_same (tables : TableOk s) (ok : KeyOrderOk s) (table : t.outstanding = s.outstanding)
    (pool : t.pool ⊆ s.pool) (owed : t.owed.Sublist s.owed) (places : s.nextPlace ≤ t.nextPlace) : KeyOrderOk t :=
  keyOrderOk_of_entries tables ok monotone_id (fun _ e found => ⟨e, table ▸ found, rfl, rfl, rfl, id⟩)
    (fun e he => .inl ⟨e, pool he, rfl, rfl⟩) owed places

theorem keyOrderOk_of_free (tables : TableOk s) (ok : KeyOrderOk s) {i : Fin 64}
    (table : t.outstanding = s.outstanding.set i none) (pool : t.pool = s.pool) (owed : t.owed = s.owed)
    (places : t.nextPlace = s.nextPlace) : KeyOrderOk t := by
  refine keyOrderOk_of_entries tables ok monotone_id (fun j e found => ?_) (fun e he => .inl ⟨e, pool ▸ he, rfl, rfl⟩)
    (owed ▸ .refl _) places.ge
  rw [table, set_get] at found
  split at found
  · cases found
  · exact ⟨e, found, rfl, rfl, rfl, id⟩

theorem keyOrderOk_of_empty (table : ∀ i : Fin 64, t.outstanding[i] = none) (owed : t.owed = []) : KeyOrderOk t := by
  have nobody : inUse t = [] := List.eq_nil_iff_forall_not_mem.mpr fun p hp => by
    have found := (mem_inUse t p).mp hp
    rw [table p.1] at found
    cases found
  refine ⟨?_, ?_, ?_, ?_, ?_, ?_⟩ <;> simp [nobody, owed]

/-! ## The grant (R102, R120) -/

/-- The oldest pooled entry of a key has the earliest place of the key's pool entries (R101). -/
theorem place_le_of_oldestPooled {k : Key} {e f : PoolEntry} (sorted : s.pool.Pairwise fun a b => a.place < b.place)
    (oldest : oldestPooled s k = some e) (pooled : f ∈ s.pool) (key : f.request.key = k) : e.place ≤ f.place := by
  obtain ⟨-, before, after, split, others⟩ := List.find?_eq_some_iff_append.mp oldest
  rw [split] at pooled sorted
  rcases List.mem_append.mp pooled with early | late
  · simpa [key] using others f early
  · rcases List.mem_cons.mp late with rfl | later
    · exact le_rfl
    · exact ((List.pairwise_cons.mp (List.pairwise_append.mp sorted).2.1).1 f later).le

theorem keyOrderOk_grantMoved {e : PoolEntry} {i : Fin 64} (stores : StoresOk s) (ok : KeyOrderOk s)
    (chosen : choice s = some (e, i)) : KeyOrderOk (grantMoved e i s) := by
  obtain ⟨pool, tables, counts⟩ := stores
  obtain ⟨tableBefore, owedBefore, ages, live, sorted, owedPlaces⟩ := ok
  obtain ⟨head, -, oldest, none, -⟩ := candidate_of_choice chosen
  have pooled := mem_of_laneHead head
  have poolSorted := pool.2.1
  have frame := grantMoved_frame e i s
  have table : (grantMoved e i s).outstanding = s.outstanding.set i (some (grantedEntry e)) := by rw [frame]
  have left : (grantMoved e i s).pool = s.pool.erase e := by rw [frame]
  have owed : (grantMoved e i s).owed = s.owed := by rw [frame]
  have next : (grantMoved e i s).nextPlace = s.nextPlace := by rw [frame]
  have unowed : ∀ x ∈ s.owed, x.key ≠ e.request.key := by
    have zero : (s.owed.countP fun x => x.key == e.request.key) = 0 := by
      rw [keyCountsOk_of counts e.request.key] at none
      exact none
    intro x hx same
    exact List.countP_eq_zero.mp zero x hx (beq_iff_eq.mpr same)
  have source : ∀ p ∈ inUse (grantMoved e i s), p = (i, grantedEntry e) ∨ p ∈ inUse s := by
    intro p hp
    rw [mem_inUse, table, set_get] at hp
    split at hp
    next same => exact .inl (Prod.ext same (Option.some.inj hp).symm)
    · exact .inr ((mem_inUse s p).mpr hp)
  rw [KeyOrderOk, left, owed, next]
  refine ⟨fun p hp f hf key => ?_, fun x hx f hf => owedBefore x hx f (List.mem_of_mem_erase hf),
    fun p hp q hq key before => ?_, fun p hp alive x hx => ?_, sorted, owedPlaces⟩
  · rcases source p hp with rfl | old
    · have distinct : s.pool.Nodup := poolSorted.imp fun h => by rintro rfl; exact lt_irrefl _ h
      obtain ⟨other, there⟩ := distinct.mem_erase_iff.mp hf
      refine lt_of_le_of_ne (place_le_of_oldestPooled poolSorted oldest there key.symm) fun same => ?_
      exact other (eq_of_place poolSorted there pooled same.symm)
    · exact tableBefore p old f (List.mem_of_mem_erase hf) key
  · rcases source q hq with rfl | old
    · exact Nat.zero_le _
    · rcases source p hp with rfl | old'
      · exact absurd (tableBefore q old e pooled key.symm) before.not_gt
      · exact ages p old' q old key before
  · rcases source p hp with rfl | old
    · exact ⟨unowed x hx, (owedBefore x hx e pooled).1⟩
    · exact live p old alive x hx

/-! ## The abandonment of a run (R139, R142) -/

/-- An item goes to its place in the timeout list. -/
theorem insertOwed_sorted {x : OwedItem} {l : List OwedItem} (sorted : l.Pairwise fun a b => a.place < b.place)
    (apart : ∀ y ∈ l, y.place ≠ x.place) : (insertOwed x l).Pairwise fun a b => a.place < b.place := by
  induction l with
  | nil => exact List.pairwise_singleton _ x
  | cons y ys ih =>
    obtain ⟨first, rest⟩ := List.pairwise_cons.mp sorted
    rw [insertOwed]
    split
    next before =>
      refine List.pairwise_cons.mpr ⟨fun z hz => ?_, sorted⟩
      rcases List.mem_cons.mp hz with rfl | later
      · exact before
      · exact before.trans (first z later)
    next notBefore =>
      refine List.pairwise_cons.mpr ⟨fun z hz => ?_, ih rest fun z hz => apart z (List.mem_cons_of_mem y hz)⟩
      rcases List.mem_cons.mp ((insertOwed_perm x ys).mem_iff.mp hz) with rfl | later
      · exact lt_of_le_of_ne (not_lt.mp notBefore) (apart y List.mem_cons_self)
      · exact first z later

theorem keyOrderBut_abandonEntry {k : Key} {p : Fin 64 × OutEntry} (tables : TableOk s) (ok : KeyOrderBut (· = k) s)
    (used : p ∈ inUse s) (alive : p.2.state = .live) (key : p.2.key = k) : KeyOrderBut (· = k) (abandonEntry p s) := by
  have mem_owed : ∀ x, x ∈ (abandonEntry p s).owed ↔ x = owedOf p.2 ∨ x ∈ s.owed := fun x => by
    rw [abandonEntry_owed, (insertOwed_perm _ _).mem_iff, List.mem_cons]
  have pool : (abandonEntry p s).pool = s.pool := abandonEntry_pool p s
  have source : ∀ q ∈ inUse (abandonEntry p s), (q.1 = p.1 ∧ q.2 = abandoned p.2) ∨ q ∈ inUse s ∧ q.1 ≠ p.1 := by
    intro q hq
    rw [mem_inUse, abandonEntry_outstanding, set_get] at hq
    split at hq
    next same => exact .inl ⟨same, (Option.some.inj hq).symm⟩
    next other => exact .inr ⟨(mem_inUse s q).mpr hq, other⟩
  have kept : ∀ q ∈ inUse (abandonEntry p s), ∃ f ∈ inUse s, f.2.key = q.2.key ∧ f.2.place = q.2.place ∧ f.2.age = q.2.age := by
    intro q hq
    rcases source q hq with ⟨-, same⟩ | ⟨old, -⟩
    · exact ⟨p, used, by rw [same]; exact ⟨rfl, rfl, rfl⟩⟩
    · exact ⟨q, old, rfl, rfl, rfl⟩
  refine ⟨fun q hq e he same => ?_, fun x hx e he => ?_, fun q hq r hr same before => ?_, fun q hq live x hx => ?_, ?_,
    fun x hx => ?_⟩
  · obtain ⟨f, hf, fKey, place, -⟩ := kept q hq
    exact place ▸ ok.tableBeforePool f hf e (pool ▸ he) (fKey.trans same)
  · rw [pool] at he
    rcases (mem_owed x).mp hx with rfl | old
    · exact ⟨tables.2.2 p used e he, ok.tableBeforePool p used e he⟩
    · exact ok.owedBeforePool x old e he
  · obtain ⟨f, hf, fKey, place, age⟩ := kept q hq
    obtain ⟨g, hg, gKey, place', age'⟩ := kept r hr
    rw [← age, ← age']
    exact ok.ages f hf g hg (fKey.trans (same.trans gKey.symm)) (by rwa [place, place'])
  · rcases source q hq with ⟨-, same⟩ | ⟨old, other⟩
    · rw [same] at live
      cases live
    · rcases (mem_owed x).mp hx with rfl | there
      · refine ⟨?_, fun place => other (tables.2.1 p used q old place).symm⟩
        by_cases here : q.2.key = k
        · exact .inr here
        · exact .inl fun same => here (same.symm.trans key)
      · exact ok.live q old live x there
  · rw [abandonEntry_owed]
    exact insertOwed_sorted ok.owedSorted fun y hy => (ok.live p used alive y hy).2
  · rw [abandonEntry_nextPlace]
    rcases (mem_owed x).mp hx with rfl | old
    · exact (tables.1 p used).2.2.2.1
    · exact ok.owedPlaces x old

/-- The run of a key is all its LIVE entries: one older than the leader is at least as old in ticks, and expires too. -/
theorem mem_runOf_of_live {lead : OutEntry} (ok : KeyOrderOk s) (leads : Leads s lead) {p : Fin 64 × OutEntry}
    (used : p ∈ inUse s) (alive : p.2.state = .live) (key : p.2.key = lead.key) : p ∈ runOf lead s := by
  obtain ⟨-, -, ages, -⟩ := ok
  obtain ⟨⟨i, found⟩, expires, oldest⟩ := leads
  refine (mem_runOf lead s p).mpr ⟨⟨used, alive⟩, key, ?_⟩
  by_contra younger
  have old : lead.age ≤ p.2.age := ages p used (i, lead) ((mem_inUse s _).mpr found) key (not_le.mp younger)
  have expiresToo : expiring s.responseTimeout p.2 = true := by
    simp only [expiring, Bool.and_eq_true, decide_eq_true_eq] at expires ⊢
    exact ⟨⟨by rw [alive]; rfl, expires.1.2⟩, expires.2.trans old⟩
  exact younger (oldest p.1 p.2 ((mem_inUse s p).mp used) key expiresToo)

theorem live_of_abandonAll {lead : OutEntry} {p : Fin 64 × OutEntry} (used : p ∈ inUse (abandonAll (runOf lead s) s))
    (alive : p.2.state = .live) : p ∈ inUse s ∧ p ∉ runOf lead s := by
  have found := (mem_inUse _ p).mp used
  by_cases inRun : ∃ q ∈ runOf lead s, q.1 = p.1
  · obtain ⟨q, hq, same⟩ := inRun
    have dead : ∀ i, q.1 = i → (abandonAll (runOf lead s) s).outstanding[i] = some (abandoned q.2) := by
      rintro i rfl
      exact outstanding_abandonAll_of_mem (nodup_runOf lead s) hq s
    rw [dead p.1 same] at found
    rw [← Option.some.inj found] at alive
    cases alive
  · rw [outstanding_abandonAll_of_not_mem fun q hq same => inRun ⟨q, hq, same⟩] at found
    exact ⟨(mem_inUse s p).mpr found, fun h => inRun ⟨p, h, rfl⟩⟩

theorem keyOrderOk_abandonRun {lead : OutEntry} (tables : TableOk s) (ok : KeyOrderOk s) (leads : Leads s lead) :
    KeyOrderOk (abandonAll (runOf lead s) s) := by
  have start : KeyOrderBut (· = lead.key) s := by
    obtain ⟨table, owed, ages, live, sorted, places⟩ := ok
    exact ⟨table, owed, ages, fun p hp h x hx => ⟨.inl (live p hp h x hx).1, (live p hp h x hx).2⟩, sorted, places⟩
  have through : TableOk (abandonAll (runOf lead s) s) ∧ KeyOrderBut (· = lead.key) (abandonAll (runOf lead s) s) := by
    refine keeps_abandonRun (P := fun t => TableOk t ∧ KeyOrderBut (· = lead.key) t)
      (fun p hp t used alive h => ⟨tableOk_of_abandonEntry h.1 used, ?_⟩) ⟨tables, start⟩
    exact keyOrderBut_abandonEntry h.1 h.2 used alive ((mem_runOf lead s p).mp hp).2.1
  obtain ⟨-, table, owed, ages, live, sorted, places⟩ := through
  refine ⟨table, owed, ages, fun p hp alive x hx => ?_, sorted, places⟩
  obtain ⟨apart | here, place⟩ := live p hp alive x hx
  · exact ⟨apart, place⟩
  · obtain ⟨used, notInRun⟩ := live_of_abandonAll hp alive
    exact absurd (mem_runOf_of_live ok leads used alive here) notInRun

end

/-! ## Every move -/

theorem monotone_age : Monotone fun n => if n < Config.ageMax then n + 1 else n := by
  intro m n h
  dsimp only
  split <;> split <;> omega

theorem keyOrderOk_of_move {s t : State} (move : Move s t) (stores : StoresOk s) (ok : KeyOrderOk s) : KeyOrderOk t := by
  have tables := stores.2.1
  have same : ∀ {u : State}, u.outstanding = s.outstanding → u.pool ⊆ s.pool → u.owed.Sublist s.owed →
      s.nextPlace ≤ u.nextPlace → KeyOrderOk u := keyOrderOk_of_same tables ok
  have joined : ∀ kind l q target, KeyOrderOk (joinPool kind l q target s) := by
    intro kind l q target
    refine keyOrderOk_of_entries tables ok monotone_id (fun _ e found => ⟨e, found, rfl, rfl, rfl, id⟩) (fun e he => ?_)
      (.refl _) (Nat.le_succ _)
    rcases List.mem_append.mp he with old | new
    · exact .inl ⟨e, old, rfl, rfl⟩
    · exact .inr (by rw [List.mem_singleton.mp new])
  have all : s.pool ⊆ s.pool := fun _ h => h
  cases move with
  | outside _ frame => rw [frame]; exact same rfl all (.refl _) le_rfl
  | context r g cs _ => exact same (by simp) (by simp) (by simp) (by simp)
  | take q v _ _ => exact joined ..
  | takeDeny q v reason _ _ => exact joined ..
  | skipPlace => exact same rfl all (.refl _) (Nat.le_succ _)
  | leave e _ => exact same rfl List.erase_subset (.refl _) le_rfl
  | grant e i chosen => exact keyOrderOk_grantMoved stores ok chosen
  | release => exact same rfl all (.refl _) le_rfl
  | close i e _ _ => exact keyOrderOk_of_free tables ok (outstanding_closeEntry i e s) (by simp) (by simp) (by simp)
  | drop i e _ _ => exact keyOrderOk_of_free tables ok rfl rfl rfl rfl
  | enter u _ _ => exact same rfl all (.refl _) le_rfl
  | taken u rest _ => exact same rfl all (.refl _) le_rfl
  | answered x rest owed => exact same rfl all (owed ▸ List.sublist_cons_self x rest) le_rfl
  | records l _ => exact same rfl all (.refl _) le_rfl
  | abandon lead leads _ => exact keyOrderOk_abandonRun tables ok leads
  | pass n _ _ => exact same rfl all (.refl _) le_rfl
  | tick _ =>
    refine keyOrderOk_of_entries tables ok monotone_age (fun i e found => ?_) (fun e he => .inl ⟨e, he, rfl, rfl⟩)
      (.refl _) le_rfl
    rw [outstanding_takeTick] at found
    obtain ⟨f, there, rfl⟩ := Option.map_eq_some_iff.mp found
    exact ⟨f, there, rfl, rfl, rfl, id⟩
  | syn line level _ => exact same rfl all (.refl _) le_rfl
  | synHeld line level _ => exact same rfl all (.refl _) le_rfl
  | prescale v p _ => exact same rfl all (.refl _) le_rfl
  | timeout v p _ => exact same rfl all (.refl _) le_rfl
  | priority p _ => exact same rfl all (.refl _) le_rfl
  | map i e _ => exact same rfl all (.refl _) le_rfl
  | markers v lines _ => exact same rfl all (.refl _) le_rfl
  | disable r on =>
    have pool : (disableReg r s).pool = s.pool.map (mergeEntry r) := by
      rw [mergeEntry_eq_mergeLanes, disableReg_of_ne_off on]
      rfl
    refine keyOrderOk_of_entries tables ok monotone_id (fun i e found => ?_) (fun e he => .inl ?_)
      (by rw [disableReg_frame]) (by rw [disableReg_frame])
    · rw [outstanding_disableReg on, mapSlots_get] at found
      obtain ⟨f, there, rfl⟩ := Option.map_eq_some_iff.mp found
      refine ⟨f, there, ?_⟩
      unfold unchargeEntry
      split <;> exact ⟨rfl, rfl, rfl, id⟩
    · rw [pool] at he
      obtain ⟨f, hf, rfl⟩ := List.mem_map.mp he
      refine ⟨f, hf, ?_⟩
      unfold mergeEntry
      split <;> exact ⟨rfl, rfl⟩
  | pathReset => exact keyOrderOk_of_empty (fun i => Vector.getElem_replicate ..) rfl
  | resumeLink _ => exact same rfl all (.refl _) le_rfl
  | porReset => exact keyOrderOk_of_empty (fun i => Vector.getElem_replicate ..) rfl
  | reset => exact keyOrderOk_of_empty (fun i => Vector.getElem_replicate ..) rfl

/-- Settles O57: every move keeps the order of each key while the stores are sound. -/
theorem stepKeepsOrderPerKey : Obligations.StepKeepsOrderPerKey := fun _ _ stores ok stepped =>
  (keeps_of_moves (P := fun u => StoresOk u ∧ KeyOrderOk u)
    (fun _ _ move h => ⟨storesOk_of_move move h.1, keyOrderOk_of_move move h.1 h.2⟩) (moves_step stepped)
    ⟨stores, ok⟩).2

end Sys2Proof.Machine
end

