-- ==== Sys2Proof/Proofs/RegulatorEvents.lean ====
section
/-! Commands and edges at the regulators: each acts at one regulator by its state and on the lines of that regulator (R43 to
R50, R155, R156, R161), all regulators one after the other are all at one event, and the obligations O44 and O25. -/

namespace Sys2Proof.Machine

/-! ## Events that reach one regulator and its lines -/

/-- What an operation at regulator r does: a function of r's context, and pulses on lines of r at a condition on that
context. -/
structure ActsAt (F : RegNo → State → State) (context : RegNo → Regulator → Regulator)
    (pulses : RegNo → Regulator → MarkerKind → Prop) : Prop where
  here : ∀ r s, reg (F r s) r = context r (reg s r)
  others : ∀ r s q, q ≠ r → reg (F r s) q = reg s q
  line : ∀ r s (l : Fin 4),
    ((s.markers[l]).source = r ∧ pulses r (reg s r) (s.markers[l]).kind → (F r s).markers[l] = pulsed s.markers[l])
    ∧ (¬ ((s.markers[l]).source = r ∧ pulses r (reg s r) (s.markers[l]).kind) → (F r s).markers[l] = s.markers[l])

section
variable {F : RegNo → State → State} {context : RegNo → Regulator → Regulator}
  {pulses : RegNo → Regulator → MarkerKind → Prop}

theorem ActsAt.source (acts : ActsAt F context pulses) (r : RegNo) (s : State) (l : Fin 4) :
    ((F r s).markers[l]).source = (s.markers[l]).source ∧ ((F r s).markers[l]).kind = (s.markers[l]).kind := by
  obtain ⟨yes, no⟩ := acts.line r s l
  by_cases h : (s.markers[l]).source = r ∧ pulses r (reg s r) (s.markers[l]).kind
  · rw [yes h]; exact ⟨rfl, rfl⟩
  · rw [no h]; exact ⟨rfl, rfl⟩

theorem ActsAt.reg_foldl (acts : ActsAt F context pulses) {l : List RegNo} (distinct : l.Nodup) (s : State) (q : RegNo) :
    reg (l.foldl (fun t r => F r t) s) q = if q ∈ l then context q (reg s q) else reg s q := by
  induction l generalizing s with
  | nil => rfl
  | cons r l ih =>
    obtain ⟨first, rest⟩ := List.nodup_cons.mp distinct
    rw [List.foldl_cons, ih rest]
    by_cases same : q = r
    · subst same
      rw [if_neg first, if_pos List.mem_cons_self, acts.here]
    · rw [acts.others r s q same]
      simp [same]

theorem ActsAt.markers_foldl (acts : ActsAt F context pulses) {l : List RegNo} (distinct : l.Nodup) (s : State)
    (k : Fin 4) :
    (((s.markers[k]).source ∈ l ∧ pulses (s.markers[k]).source (reg s (s.markers[k]).source) (s.markers[k]).kind →
        (l.foldl (fun t r => F r t) s).markers[k] = pulsed s.markers[k])
      ∧ (¬ ((s.markers[k]).source ∈ l ∧ pulses (s.markers[k]).source (reg s (s.markers[k]).source) (s.markers[k]).kind) →
        (l.foldl (fun t r => F r t) s).markers[k] = s.markers[k])) := by
  induction l generalizing s with
  | nil => simp
  | cons r l ih =>
    obtain ⟨first, rest⟩ := List.nodup_cons.mp distinct
    obtain ⟨later, notLater⟩ := ih rest (F r s)
    obtain ⟨yes, no⟩ := acts.line r s k
    obtain ⟨source, kind⟩ := acts.source r s k
    rw [source, kind] at later notLater
    rw [List.foldl_cons]
    by_cases same : (s.markers[k]).source = r
    · have gone : (s.markers[k]).source ∉ l := same ▸ first
      rw [notLater fun h => gone h.1]
      refine ⟨fun h => yes ⟨same, same ▸ h.2⟩, fun h => no fun h' => h ⟨?_, ?_⟩⟩
      · exact same ▸ List.mem_cons_self
      · rw [same]
        exact h'.2
    · rw [acts.others r s _ same] at later notLater
      rw [no fun h => same h.1] at later notLater
      refine ⟨fun h => later ⟨?_, h.2⟩, fun h => notLater fun h' => h ⟨List.mem_cons_of_mem r h'.1, h'.2⟩⟩
      exact (List.mem_cons.mp h.1).resolve_left same

/-- An operation made at the regulators of a set only. -/
theorem ActsAt.masked (acts : ActsAt F context pulses) (named : RegNo → Bool) :
    ActsAt (fun r s => if named r then F r s else s) (fun r g => if named r then context r g else g)
      (fun r g kind => named r = true ∧ pulses r g kind) := by
  refine ⟨fun r s => ?_, fun r s q other => ?_, fun r s l => ?_⟩
  · cases named r
    · rfl
    · exact acts.here r s
  · cases named r
    · rfl
    · exact acts.others r s q other
  · cases named r
    · simp
    · simpa using acts.line r s l

end

/-- An event at one regulator. -/
theorem actsAt_line_regulatorEvent {r : RegNo} {g : Regulator} {cs : List Cause} {s : State} {p : MarkerKind → Prop}
    (pulses : ∀ kind, (g.state ≠ .off ∧ ∃ c ∈ cs, some kind = pulseKind c) ↔ p kind) (l : Fin 4) :
    ((s.markers[l]).source = r ∧ p (s.markers[l]).kind → (regulatorEvent r g cs s).markers[l] = pulsed s.markers[l])
    ∧ (¬ ((s.markers[l]).source = r ∧ p (s.markers[l]).kind) → (regulatorEvent r g cs s).markers[l] = s.markers[l]) := by
  rw [markers_regulatorEvent, ← pulses]
  refine ⟨fun h => if_pos ⟨h.2.1, h.1, h.2.2⟩, fun h => if_neg fun h' => h ⟨h'.2.1, h'.1, h'.2.2⟩⟩

/-! ## Commands (R43 to R50) -/

/-- Whether a command at a regulator makes the lines of a kind pulse (R161). -/
def commandPulses (k : CommandKind) (g : Regulator) (kind : MarkerKind) : Prop :=
  kind = .sampled ∧ k = .sample ∧ g.state ≠ .off
    ∨ kind = .exchanged
      ∧ (k = .restart ∧ (g.state = .running ∨ g.state = .halted) ∧ g.exchangePending = true
        ∨ k = .exchange ∧ g.state = .armed)

theorem commandPulses_of_quiet {k : CommandKind} {g : Regulator} (quiet : k = .enable ∨ k = .start ∨ k = .halt)
    (kind : MarkerKind) : ¬ commandPulses k g kind := by
  rcases quiet with rfl | rfl | rfl <;> simp [commandPulses]

section
variable (r : RegNo) (s : State)

/-- An operation that sets a context and no cause. -/
theorem line_of_markers {F : State} {p : Prop} (same : F.markers = s.markers) (never : ¬ p) (l : Fin 4) :
    ((s.markers[l]).source = r ∧ p → F.markers[l] = pulsed s.markers[l])
    ∧ (¬ ((s.markers[l]).source = r ∧ p) → F.markers[l] = s.markers[l]) :=
  ⟨fun h => absurd h.2 never, fun _ => by rw [same]⟩

theorem act_others (k : CommandKind) (other : k ≠ .disable) (q : RegNo) (apart : q ≠ r) : reg (act k r s) q = reg s q := by
  have set : ∀ g, reg (setReg s r g) q = reg s q := fun g => by rw [reg_setReg, if_neg apart]
  have event : ∀ g cs, reg (regulatorEvent r g cs s) q = reg s q := fun g cs => by
    rw [reg_regulatorEvent, if_neg apart]
  cases k with
  | enable => unfold act enableReg; dsimp only; split <;> simp only [set]
  | disable => contradiction
  | start => unfold act startReg; dsimp only; split <;> simp only [set]
  | halt => unfold act haltReg; dsimp only; split <;> simp only [set]
  | restart => unfold act restartReg; dsimp only; split <;> simp only [event]
  | sample => unfold act sampleReg; dsimp only; split <;> simp only [event]
  | exchange => unfold act exchangeReg; dsimp only; split <;> simp only [set, event]

theorem act_here (k : CommandKind) (other : k ≠ .disable) : reg (act k r s) r = contextAfter k (reg s r) := by
  have event : ∀ g cs, reg (regulatorEvent r g cs s) r = addCauses g (causeBits cs) := fun g cs => by
    rw [reg_regulatorEvent, if_pos rfl]
  cases k with
  | disable => contradiction
  | enable => cases state : (reg s r).state <;> simp [act, enableReg, contextAfter, state]
  | start => cases state : (reg s r).state <;> simp [act, startReg, contextAfter, newWindow, state]
  | halt => cases state : (reg s r).state <;> simp [act, haltReg, contextAfter, state]
  | restart =>
    cases state : (reg s r).state <;> cases pending : (reg s r).exchangePending <;>
      simp [act, restartReg, contextAfter, contextAfter.restarted, laneInUse, event, addCauses, exchangeCause, causeBit,
        newWindow, pendingApplied, exchanged, state, pending]
  | sample =>
    cases state : (reg s r).state <;>
      simp [act, sampleReg, contextAfter, contextAfter.sampledWith, event, addCauses, causeBit, sampled, state]
  | exchange =>
    cases state : (reg s r).state <;>
      simp [act, exchangeReg, contextAfter, contextAfter.exchangedWith, laneInUse, event, addCauses, causeBit, exchanged,
        state]

theorem act_line (k : CommandKind) (other : k ≠ .disable) (l : Fin 4) :
    ((s.markers[l]).source = r ∧ commandPulses k (reg s r) (s.markers[l]).kind →
        (act k r s).markers[l] = pulsed s.markers[l])
    ∧ (¬ ((s.markers[l]).source = r ∧ commandPulses k (reg s r) (s.markers[l]).kind) →
        (act k r s).markers[l] = s.markers[l]) := by
  cases k with
  | disable => contradiction
  | enable =>
    refine line_of_markers r s ?_ (commandPulses_of_quiet (.inl rfl) _) l
    unfold act enableReg; dsimp only; split <;> rfl
  | start =>
    refine line_of_markers r s ?_ (commandPulses_of_quiet (.inr (.inl rfl)) _) l
    unfold act startReg; dsimp only; split <;> rfl
  | halt =>
    refine line_of_markers r s ?_ (commandPulses_of_quiet (.inr (.inr rfl)) _) l
    unfold act haltReg; dsimp only; split <;> rfl
  | restart =>
    unfold act restartReg
    dsimp only
    split
    next used =>
      refine actsAt_line_regulatorEvent (p := commandPulses .restart (reg s r)) (fun kind => ?_) l
      have kept : (newWindow (pendingApplied (reg s r))).state = (reg s r).state := by
        unfold pendingApplied
        split <;> rfl
      rw [kept]
      have on : (reg s r).state ≠ .off := fun off => by simp [off, laneInUse] at used
      cases pending : (reg s r).exchangePending <;>
        simp [commandPulses, exchangeCause, pulseKind, pending, on, (laneInUse_iff _).mp used]
    next rest =>
      refine line_of_markers r s rfl ?_ l
      simp [commandPulses, ← laneInUse_iff, rest]
  | sample =>
    unfold act sampleReg
    dsimp only
    split
    next off => exact line_of_markers r s rfl (by simp [commandPulses, off]) l
    next on =>
      refine actsAt_line_regulatorEvent (p := commandPulses .sample (reg s r)) (fun kind => ?_) l
      simp [commandPulses, sampled, pulseKind, and_comm]
  | exchange =>
    unfold act exchangeReg
    dsimp only
    split
    next used =>
      refine line_of_markers r s rfl ?_ l
      have notArmed : (reg s r).state ≠ .armed := fun armed => by simp [armed, laneInUse] at used
      simp [commandPulses, notArmed]
    next rest =>
      refine actsAt_line_regulatorEvent (p := commandPulses .exchange (reg s r)) (fun kind => ?_) l
      cases state : (reg s r).state <;> simp [state, laneInUse] at rest <;>
        simp [commandPulses, exchanged, pulseKind, state]

end

theorem actsAt_act {k : CommandKind} (other : k ≠ .disable) :
    ActsAt (act k) (fun _ => contextAfter k) (fun _ => commandPulses k) :=
  ⟨fun r s => act_here r s k other, fun r s => act_others r s k other, fun r s => act_line r s k other⟩

theorem mem_finRange16 (r : RegNo) : r ∈ List.finRange 16 := List.mem_finRange r

theorem reg_actAll {k : CommandKind} (other : k ≠ .disable) (mask : BitVec 16) (s : State) (r : RegNo) :
    reg (actAll k mask s) r = if mask.getLsbD r.val then contextAfter k (reg s r) else reg s r := by
  have all := ((actsAt_act other).masked fun r => mask.getLsbD r.val).reg_foldl (List.nodup_finRange 16) s r
  rwa [if_pos (mem_finRange16 r)] at all

/-- A command other than DISABLE leaves the pool and the table. -/
theorem actAll_frame_of_other {k : CommandKind} (other : k ≠ .disable) (mask : BitVec 16) (s : State) :
    actAll k mask s = { s with regs := (actAll k mask s).regs, markers := (actAll k mask s).markers } := by
  have one : ∀ r t, act k r t = { t with regs := (act k r t).regs, markers := (act k r t).markers } := by
    intro r t
    cases k with
    | disable => contradiction
    | enable => exact enableReg_frame r t
    | start => exact startReg_frame r t
    | halt => exact haltReg_frame r t
    | restart => exact restartReg_frame r t
    | sample => exact sampleReg_frame r t
    | exchange => exact exchangeReg_frame r t
  unfold actAll
  induction List.finRange 16 generalizing s with
  | nil => rfl
  | cons r l ih =>
    rw [List.foldl_cons]
    split
    · rw [ih, one r s]
    · exact ih s

theorem takesEffect_iff (k : CommandKind) (other : k ≠ .disable) (g : Regulator) :
    takesEffect k g = true ↔
      k = .enable ∧ g.state = .off
        ∨ k = .start ∧ (g.state = .armed ∨ g.state = .halted)
        ∨ k = .halt ∧ g.state = .running
        ∨ k = .restart ∧ (g.state = .running ∨ g.state = .halted)
        ∨ k = .sample ∧ g.state ≠ .off
        ∨ k = .exchange ∧ (g.state = .off ∨ g.state = .armed ∨ g.exchangePending = false) := by
  cases k with
  | disable => contradiction
  | enable => simp [takesEffect]
  | start => simp [takesEffect]
  | halt => simp [takesEffect]
  | restart => simp [takesEffect, laneInUse_iff]
  | sample => simp [takesEffect]
  | exchange => cases state : g.state <;> simp [takesEffect, laneInUse, state]

theorem decodeKind_of_unknown {kind : Byte} (unknown : 0 = kind.toNat ∨ 7 < kind.toNat) : decodeKind kind = none := by
  unfold decodeKind
  split <;> simp_all

/-- Settles O44: what one regulator takes and what its lines do, for all regulators of the mask at once. -/
theorem regulatorCommandsFollowTheTable : Obligations.RegulatorCommandsFollowTheTable := by
  intro s mask ready
  refine ⟨fun kind unknown => ?_, fun k => ⟨?_, fun other => ?_⟩⟩
  · have row := exec_rowOf_of_portReady ready (.regulatorCommand kind mask)
    rw [performReply, perform, decodeKind_of_unknown unknown] at row
    exact row
  · rw [exec_rowOfKind, receive_of_portReady ready]
    exact exec_rowOf_of_portReady ready (.regulatorCommand (kindCode k) mask)
  · refine ⟨actAll k mask s, tookMask k mask s, exec_rowOfKind_of_portReady ready k mask,
      actAll_frame_of_other other mask s, reg_actAll other mask s, tookMask_lt k mask s, fun r => ?_, fun l => ?_⟩
    · rw [testBit_tookMask, Bool.and_eq_true, takesEffect_iff k other]
    · obtain ⟨yes, no⟩ :=
        ((actsAt_act other).masked fun r => mask.getLsbD r.val).markers_foldl (List.nodup_finRange 16) s l
      simp only [mem_finRange16, true_and] at yes no
      intro m g
      by_cases h : mask.getLsbD m.source.val = true ∧ commandPulses k g m.kind
      · exact (yes h).trans (if_pos h).symm
      · exact (no h).trans (if_neg h).symm

/-! ## Edges (R153 to R157) -/

/-- Two operations at one regulator, one after the other. -/
theorem ActsAt.comp {F G : RegNo → State → State} {f g : RegNo → Regulator → Regulator}
    {p q : RegNo → Regulator → MarkerKind → Prop} (first : ActsAt F f p) (second : ActsAt G g q) :
    ActsAt (fun r s => G r (F r s)) (fun r x => g r (f r x)) (fun r x kind => p r x kind ∨ q r (f r x) kind) := by
  refine ⟨fun r s => ?_, fun r s x other => ?_, fun r s l => ?_⟩
  · rw [second.here, first.here]
  · rw [second.others r _ x other, first.others r s x other]
  · obtain ⟨yes, no⟩ := first.line r s l
    obtain ⟨yes', no'⟩ := second.line r (F r s) l
    obtain ⟨source, kind⟩ := first.source r s l
    rw [source, kind, first.here] at yes' no'
    by_cases h : (s.markers[l]).source = r ∧ p r (reg s r) (s.markers[l]).kind
    · refine ⟨fun _ => ?_, fun h' => absurd ⟨h.1, .inl h.2⟩ h'⟩
      by_cases h' : (s.markers[l]).source = r ∧ q r (f r (reg s r)) (s.markers[l]).kind
      · rw [yes' h', yes h]
        rfl
      · rw [no' h', yes h]
    · by_cases h' : (s.markers[l]).source = r ∧ q r (f r (reg s r)) (s.markers[l]).kind
      · exact ⟨fun _ => by rw [yes' h', no h], fun h'' => absurd ⟨h'.1, .inr h'.2⟩ h''⟩
      · refine ⟨fun ⟨here, either⟩ => ?_, fun _ => by rw [no' h', no h]⟩
        rcases either with one | two
        · exact absurd ⟨here, one⟩ h
        · exact absurd ⟨here, two⟩ h'

/-- The context after step 2 of R155, with the toggle of R156. -/
def afterStartHalt (start halt : Bool) (g : Regulator) : Regulator :=
  if start && halt then if g.state = .running then { g with state := .halted } else contextAfter .start g
  else if start then contextAfter .start g
  else if halt then contextAfter .halt g
  else g

theorem toggleReg_eq (r : RegNo) (s : State) :
    toggleReg r s = if (reg s r).state = .running then act .halt r s else act .start r s := by
  unfold toggleReg
  cases (reg s r).state <;> rfl

theorem contextAfter_halt_of_running {g : Regulator} (running : g.state = .running) :
    contextAfter .halt g = { g with state := .halted } := by
  simp [contextAfter, running]

theorem actsAt_startHaltStep (start halt : RegNo → Bool) :
    ActsAt (fun r s => startHaltStep (start r) (halt r) r s) (fun r g => afterStartHalt (start r) (halt r) g)
      (fun _ _ _ => False) := by
  have starts : CommandKind.start ≠ .disable := by decide
  have halts : CommandKind.halt ≠ .disable := by decide
  have quiet : ∀ k, k = .start ∨ k = .halt → ∀ r s (l : Fin 4), (act k r s).markers[l] = s.markers[l] := by
    intro k hk r s l
    refine (act_line r s k ?_ l).2 fun h => commandPulses_of_quiet (.inr hk) _ h.2
    rcases hk with rfl | rfl <;> decide
  refine ⟨fun r s => ?_, fun r s q apart => ?_, fun r s l => ⟨fun h => h.2.elim, fun _ => ?_⟩⟩
  · cases start r <;> cases halt r
    · rfl
    · exact act_here r s .halt halts
    · exact act_here r s .start starts
    · simp only [startHaltStep, afterStartHalt, toggleReg_eq, Bool.and_self, if_true]
      split
      next running => rw [act_here r s .halt halts, contextAfter_halt_of_running running]
      next => exact act_here r s .start starts
  · cases start r <;> cases halt r
    · rfl
    · exact act_others r s .halt halts q apart
    · exact act_others r s .start starts q apart
    · simp only [startHaltStep, toggleReg_eq]
      split
      · exact act_others r s .halt halts q apart
      · exact act_others r s .start starts q apart
  · cases start r <;> cases halt r
    · rfl
    · exact quiet .halt (.inr rfl) r s l
    · exact quiet .start (.inl rfl) r s l
    · simp only [startHaltStep, toggleReg_eq]
      split
      · exact quiet .halt (.inr rfl) r s l
      · exact quiet .start (.inl rfl) r s l

section
variable (line : Fin 4) (rising : Bool)

/-- The context after step 1 of R155. -/
def afterSample (t : Triggers) (g : Regulator) : Regulator :=
  if selects t.sample line rising then contextAfter .sample g else g

/-- The context after steps 1 and 2 of R155, for given trigger selections. -/
def afterStart (t : Triggers) (g : Regulator) : Regulator :=
  afterStartHalt (selects t.start line rising) (selects t.halt line rising) (afterSample line rising t g)

/-- The context after steps 1 to 3 of R155. -/
def afterRestart (t : Triggers) (g : Regulator) : Regulator :=
  if selects t.restart line rising then contextAfter .restart (afterStart line rising t g) else afterStart line rising t g

/-- Whether an edge makes the lines of a kind pulse (R161). -/
def edgePulses (g : Regulator) (kind : MarkerKind) : Prop :=
  g.state ≠ .off
    ∧ (kind = .sampled ∧ selects g.triggers.sample line rising = true
      ∨ kind = .exchanged
        ∧ (selects g.triggers.restart line rising = true
            ∧ ((contextAfterStartHalt line rising g).state = .running ∨ (contextAfterStartHalt line rising g).state = .halted)
            ∧ (contextAfterStartHalt line rising g).exchangePending = true
          ∨ selects g.triggers.exchange line rising = true ∧ (contextAfterStartHalt line rising g).state = .armed))

theorem contextAfterStartHalt_eq (g : Regulator) :
    contextAfterStartHalt line rising g = afterStart line rising g.triggers g := rfl

theorem off_afterStart_iff (t : Triggers) (g : Regulator) :
    (afterStart line rising t g).state = .off ↔ g.state = .off := by
  have sample : ∀ x : Regulator, (contextAfter .sample x).state = x.state := by
    intro x
    cases state : x.state <;> simp [contextAfter, contextAfter.sampledWith, state]
  have step2 : ∀ a b (x : Regulator), (afterStartHalt a b x).state = .off ↔ x.state = .off := by
    intro a b x
    cases a <;> cases b <;> cases state : x.state <;> simp [afterStartHalt, contextAfter, state]
  rw [afterStart, step2, afterSample]
  split
  · rw [sample]
  · rfl

theorem state_afterRestart (t : Triggers) (g : Regulator) :
    (afterRestart line rising t g).state = (afterStart line rising t g).state := by
  unfold afterRestart
  split
  · generalize afterStart line rising t g = x
    cases state : x.state <;> cases pending : x.exchangePending <;>
      simp [contextAfter, contextAfter.restarted, state, pending]
  · rfl

theorem edgePulses_iff (g : Regulator) (kind : MarkerKind) :
    edgePulses line rising g kind ↔
      (((selects g.triggers.sample line rising = true ∧ commandPulses .sample g kind) ∨ False)
        ∨ selects g.triggers.restart line rising = true
          ∧ commandPulses .restart (afterStart line rising g.triggers g) kind)
      ∨ selects g.triggers.exchange line rising = true
        ∧ commandPulses .exchange (afterRestart line rising g.triggers g) kind := by
  have on := off_afterStart_iff line rising g.triggers g
  unfold edgePulses commandPulses
  rw [contextAfterStartHalt_eq, state_afterRestart]
  cases kind <;> cases state : (afterStart line rising g.triggers g).state <;> simp [state] at on ⊢ <;> simp [on]

/-- The functions of an edge for given trigger selections of every regulator, one after the other (R155). -/
theorem actsAt_edge (t : RegNo → Triggers) :
    ActsAt
      (fun r s =>
        let s1 := if selects (t r).sample line rising then sampleReg r s else s
        let s2 := startHaltStep (selects (t r).start line rising) (selects (t r).halt line rising) r s1
        let s3 := if selects (t r).restart line rising then restartReg r s2 else s2
        if selects (t r).exchange line rising then exchangeReg r s3 else s3)
      (fun r g =>
        let g3 := afterRestart line rising (t r) g
        if selects (t r).exchange line rising then contextAfter .exchange g3 else g3)
      (fun r g kind =>
        (((selects (t r).sample line rising = true ∧ commandPulses .sample g kind) ∨ False)
          ∨ selects (t r).restart line rising = true ∧ commandPulses .restart (afterStart line rising (t r) g) kind)
        ∨ selects (t r).exchange line rising = true
          ∧ commandPulses .exchange (afterRestart line rising (t r) g) kind) :=
  ((((actsAt_act (k := .sample) (by decide)).masked fun r => selects (t r).sample line rising).comp
    (actsAt_startHaltStep (fun r => selects (t r).start line rising) fun r => selects (t r).halt line rising)).comp
    ((actsAt_act (k := .restart) (by decide)).masked fun r => selects (t r).restart line rising)).comp
    ((actsAt_act (k := .exchange) (by decide)).masked fun r => selects (t r).exchange line rising)

theorem actsAt_edgeAtReg :
    ActsAt (edgeAtReg line rising) (fun _ => contextAfterEdge line rising) (fun _ => edgePulses line rising) := by
  have given : ∀ s, ActsAt _ _ _ := fun s => actsAt_edge line rising fun q => (reg s q).triggers
  refine ⟨fun r s => (given s).here r s, fun r s => (given s).others r s, fun r s l => ?_⟩
  rw [edgePulses_iff]
  exact (given s).line r s l

end

/-- Settles O25: what one regulator takes at an edge and what its lines do, for all regulators one after the other. -/
theorem synEdgeDeliversFunctionsInOrder : Obligations.SynEdgeDeliversFunctionsInOrder := by
  intro s line level quiet sampled
  have run : exec (.synEdge line level) s = .next (synSample line level s) := by
    show Host.Outcome.next (synSample line level (settleTick s)) = _
    rw [settleTick_of_quiet quiet]
  rw [run]
  refine ⟨fun por => ?_, fun por kept => ?_, fun por kept => ?_⟩
  · rw [synSample, if_pos por]
  · rw [synSample, if_neg (by rw [por]; decide), if_neg kept]
  · refine ⟨edgeAll line level { s with syn := sampled }, ?_, edgeAll_frame line level { s with syn := sampled },
      fun r => ?_, fun l => ?_⟩
    · rw [synSample, if_neg (by rw [por]; decide), if_pos kept]
      rfl
    · exact ((actsAt_edgeAtReg line level).reg_foldl (List.nodup_finRange 16) { s with syn := sampled } r).trans
        (if_pos (mem_finRange16 r))
    · obtain ⟨yes, no⟩ :=
        (actsAt_edgeAtReg line level).markers_foldl (List.nodup_finRange 16) { s with syn := sampled } l
      simp only [mem_finRange16, true_and] at yes no
      intro m g h
      by_cases pulses : edgePulses line level g m.kind
      · exact (yes pulses).trans (if_pos pulses).symm
      · exact (no pulses).trans (if_neg pulses).symm

end Sys2Proof.Machine
end

