-- ==== Sys2Proof/Proofs/OffersJudgedAfresh.lean ====
section
/-! The offers of the partners after every event: the offered request is considered against the state that the event leaves,
and the offered response is matched in it (R5, R91, R132), for O58. -/

namespace Sys2Proof.Machine

/-! ## The response of a key stays matched to a LIVE entry -/

/-- A key whose oldest entry is LIVE keeps a LIVE oldest entry. -/
def LiveStays (s t : State) : Prop :=
  ∀ k p, oldestEntry s k = some p → p.2.state = .live → ∃ q, oldestEntry t k = some q ∧ q.2.state = .live

theorem liveStays_of_same {s t : State} (table : t.outstanding = s.outstanding) : LiveStays s t := by
  intro k p oldest live
  have same : oldestEntry t k = oldestEntry s k := by rw [oldestEntry, oldestEntry, inUse_congr table]
  exact ⟨p, same.trans oldest, live⟩

theorem inUse_eq_filterMap (s : State) :
    inUse s = (List.finRange 64).filterMap fun i => (s.outstanding[i]).map fun e => (i, e) := by
  rw [inUse, indexed, List.filterMap_map]
  rfl

/-- The search for the oldest entry does not see what a function keeps. -/
theorem foldl_olderEntry_map {f : Fin 64 × OutEntry → Fin 64 × OutEntry} (place : ∀ p, (f p).2.place = p.2.place)
    (l : List (Fin 64 × OutEntry)) (best : Option (Fin 64 × OutEntry)) :
    (l.map f).foldl olderEntry (best.map f) = (l.foldl olderEntry best).map f := by
  induction l generalizing best with
  | nil => rfl
  | cons p l ih =>
    have step : olderEntry (best.map f) (f p) = (olderEntry best p).map f := by
      cases best with
      | none => rfl
      | some b =>
        simp only [olderEntry, Option.map_some, place]
        split <;> rfl
    rw [List.map_cons, List.foldl_cons, List.foldl_cons, step, ih]

theorem oldestEntry_of_map {s t : State} {f : OutEntry → OutEntry}
    (table : t.outstanding = mapSlots (Option.map f) s.outstanding) (key : ∀ e, (f e).key = e.key)
    (place : ∀ e, (f e).place = e.place) (k : Key) :
    oldestEntry t k = (oldestEntry s k).map fun p => (p.1, f p.2) := by
  have entries : inUse t = (inUse s).map fun p => (p.1, f p.2) := by
    rw [inUse_eq_filterMap, inUse_eq_filterMap, List.map_filterMap]
    refine List.filterMap_congr fun i _ => ?_
    rw [table, mapSlots_get, Option.map_map, Option.map_map]
    rfl
  have ofKey : (inUse t).filter (fun p => p.2.key == k) =
      ((inUse s).filter fun p => p.2.key == k).map fun p => (p.1, f p.2) := by
    rw [entries, List.filter_map]
    refine congrArg _ (List.filter_congr fun p _ => ?_)
    rw [Function.comp_apply, key]
  rw [oldestEntry, ofKey]
  exact foldl_olderEntry_map (f := fun p => (p.1, f p.2)) (fun p => place p.2) _ none

theorem liveStays_of_map {s t : State} {f : OutEntry → OutEntry}
    (table : t.outstanding = mapSlots (Option.map f) s.outstanding) (key : ∀ e, (f e).key = e.key)
    (place : ∀ e, (f e).place = e.place) (state : ∀ e, (f e).state = e.state) : LiveStays s t := by
  intro k p oldest live
  refine ⟨(p.1, f p.2), ?_, (state p.2).trans live⟩
  rw [oldestEntry_of_map table key place, oldest]
  rfl

/-- The best so far against an entry that is no younger: it stays the oldest, or the search goes on as without it. -/
theorem foldl_olderEntry_some (x : Fin 64 × OutEntry) (l : List (Fin 64 × OutEntry)) {best : Option (Fin 64 × OutEntry)}
    (older : ∀ b ∈ best, x.2.place ≤ b.2.place) :
    l.foldl olderEntry (some x) = some x ∨ l.foldl olderEntry (some x) = l.foldl olderEntry best := by
  induction l generalizing best with
  | nil => exact .inl rfl
  | cons y l ih =>
    rw [List.foldl_cons, List.foldl_cons]
    by_cases lt : y.2.place < x.2.place
    · right
      have first : olderEntry (some x) y = some y := if_pos lt
      have second : olderEntry best y = some y := by
        cases best with
        | none => rfl
        | some b => exact if_pos (lt.trans_le (older b rfl))
      rw [first, second]
    · have first : olderEntry (some x) y = some x := if_neg lt
      rw [first]
      refine ih fun b hb => ?_
      cases best with
      | none =>
        cases hb
        exact not_lt.mp lt
      | some a =>
        simp only [olderEntry] at hb
        split at hb
        · cases hb
          exact not_lt.mp lt
        · cases hb
          exact older _ rfl

/-- One entry more in the search: it is found, or what was found without it. -/
theorem foldl_olderEntry_insert (a b : List (Fin 64 × OutEntry)) (x : Fin 64 × OutEntry) :
    (a ++ x :: b).foldl olderEntry none = some x
      ∨ (a ++ x :: b).foldl olderEntry none = (a ++ b).foldl olderEntry none := by
  rw [List.foldl_append, List.foldl_append, List.foldl_cons]
  generalize a.foldl olderEntry none = best
  cases best with
  | none => exact foldl_olderEntry_some x b fun b hb => nomatch hb
  | some c =>
    by_cases lt : x.2.place < c.2.place
    · have first : olderEntry (some c) x = some x := if_pos lt
      rw [first]
      exact foldl_olderEntry_some x b fun d hd => by
        cases hd
        exact lt.le
    · have first : olderEntry (some c) x = some c := if_neg lt
      exact .inr (by rw [first])

/-- A LIVE entry made in a free place. -/
theorem liveStays_of_new {s t : State} {i : Fin 64} {e : OutEntry} (table : t.outstanding = s.outstanding.set i (some e))
    (free : s.outstanding[i] = none) (live : e.state = .live) : LiveStays s t := by
  intro k p oldest oldLive
  obtain ⟨a, b, split⟩ := List.append_of_mem (List.mem_finRange i)
  have distinct := split ▸ List.nodup_finRange 64
  have notA : ∀ j ∈ a, j ≠ i := fun j hj same =>
    (List.nodup_append.mp distinct).2.2 j hj i List.mem_cons_self same
  have notB : ∀ j ∈ b, j ≠ i := fun j hj same =>
    (List.nodup_cons.mp (List.nodup_append.mp distinct).2.1).1 (same ▸ hj)
  have apart : ∀ l : List (Fin 64), (∀ j ∈ l, j ≠ i) →
      l.filterMap (fun j => (t.outstanding[j]).map fun e => (j, e)) =
        l.filterMap fun j => (s.outstanding[j]).map fun e => (j, e) := fun l other =>
    List.filterMap_congr fun j hj => by rw [table, set_get, if_neg (other j hj)]
  have here : t.outstanding[i] = some e := by rw [table, set_get, if_pos rfl]
  rw [oldestEntry, inUse_eq_filterMap, split, List.filterMap_append, List.filterMap_cons, free,
    List.filter_append] at oldest
  rw [oldestEntry, inUse_eq_filterMap, split, List.filterMap_append, List.filterMap_cons, here, apart a notA,
    apart b notB, List.filter_append]
  dsimp only [Option.map_none, Option.map_some] at oldest ⊢
  rw [List.filter_cons]
  split
  · rcases foldl_olderEntry_insert (List.filter (fun p => p.2.key == k) (a.filterMap _))
      (List.filter (fun p => p.2.key == k) (b.filterMap _)) (i, e) with new | same
    · exact ⟨(i, e), new, live⟩
    · exact ⟨p, same.trans oldest, oldLive⟩
  · exact ⟨p, oldest, oldLive⟩

/-! ## What keeps the offers judged afresh -/

/-- From s to t the offers stay considered and matched. -/
structure Afresh (s t : State) : Prop where
  considered : ConsideredOk s → ConsideredOk t
  matched : OfferedResponseOk s → OfferedResponseOk t

theorem Afresh.refl (s : State) : Afresh s s := ⟨id, id⟩

theorem Afresh.trans {s t u : State} (first : Afresh s t) (second : Afresh t u) : Afresh s u :=
  ⟨fun h => second.considered (first.considered h), fun h => second.matched (first.matched h)⟩

theorem liveMatch_ne_none_iff (s : State) :
    liveMatch s ≠ none ↔ ∃ u p, s.memoryOffer = some u ∧ oldestEntry s u.key = some p ∧ p.2.state = .live := by
  refine ⟨fun standing => ?_, fun ⟨u, p, offered, oldest, live⟩ => ?_⟩
  · obtain ⟨⟨u, p⟩, found⟩ := Option.ne_none_iff_exists'.mp standing
    exact ⟨u, p, liveMatch_eq_some found⟩
  · simp [liveMatch, offered, oldest, live]

section
variable {s t : State}

theorem offeredResponseOk_of_none (memory : t.memoryOffer = none) : OfferedResponseOk t := fun offered =>
  absurd memory offered

theorem offeredResponseOk_of_live (memory : t.memoryOffer = s.memoryOffer) (stays : LiveStays s t)
    (flows : flowing t = true → flowing s = true) (ok : OfferedResponseOk s) : OfferedResponseOk t := by
  intro offered flowsT
  obtain ⟨u, p, found, oldest, live⟩ := (liveMatch_ne_none_iff s).mp (ok (memory ▸ offered) (flows flowsT))
  obtain ⟨q, oldestT, liveT⟩ := stays u.key p oldest live
  exact (liveMatch_ne_none_iff t).mpr ⟨u, q, memory.trans found, oldestT, liveT⟩

theorem offeredResponseOk_matchOffered (s : State) : OfferedResponseOk (matchOffered s) := by
  obtain absent | ⟨u, offered⟩ := Option.eq_none_or_eq_some s.memoryOffer
  · rw [matchOffered_none absent]
    exact offeredResponseOk_of_none absent
  rw [matchOffered_some offered]
  split
  · split
    · exact offeredResponseOk_of_none (by simp)
    next p oldest =>
      split
      · exact offeredResponseOk_of_none rfl
      next live => exact fun _ _ => (liveMatch_ne_none_iff s).mpr ⟨u, p, offered, oldest, live⟩
  next held => exact fun _ flows => absurd flows held

theorem consideredOk_of_no_offer (gone : t.offer = none) : ConsideredOk t := by
  intro o offered
  rw [gone] at offered
  cases offered

theorem consideredOk_of_held (held : flowing t = false) : ConsideredOk t := by
  intro o _ flows
  rw [held] at flows
  cases flows

theorem offeredResponseOk_of_held (held : flowing t = false) : OfferedResponseOk t := by
  intro _ flows
  rw [held] at flows
  cases flows

theorem consideredOk_consider (s : State) : ConsideredOk (consider s) := by
  intro o offered flows
  rw [flowing_consider] at flows
  rw [consider_offer, if_pos flows] at offered
  obtain ⟨before, -, rfl⟩ := Option.mem_map.mp offered
  rw [judge_congr (sameJudgement_consider s)]
  exact ⟨rfl, rfl⟩

theorem offeredResponseOk_consider (ok : OfferedResponseOk s) : OfferedResponseOk (consider s) :=
  offeredResponseOk_of_live (consider_memoryOffer s) (liveStays_of_same (consider_outstanding s))
    (by rw [flowing_consider]; exact id) ok

theorem consideredOk_of_same (judgement : SameJudgement s t) (offer : t.offer = s.offer)
    (flows : flowing t = true → flowing s = true) (ok : ConsideredOk s) : ConsideredOk t := by
  intro o offered flowsT
  rw [judge_congr judgement]
  exact ok o (offer ▸ offered) (flows flowsT)

/-- What a consideration reads is kept, and the response stays matched. -/
theorem afresh_of_same (judgement : SameJudgement s t) (offer : t.offer = s.offer) (memory : t.memoryOffer = s.memoryOffer)
    (stays : LiveStays s t) (flows : flowing t = flowing s) : Afresh s t :=
  ⟨consideredOk_of_same judgement offer (by rw [flows]; exact id),
    offeredResponseOk_of_live memory stays (by rw [flows]; exact id)⟩

/-- The intake reconsiders. -/
theorem afresh_consider (memory : t.memoryOffer = s.memoryOffer ∨ t.memoryOffer = none) (stays : LiveStays s t)
    (flows : flowing t = flowing s) : Afresh s (consider t) := by
  refine ⟨fun _ => consideredOk_consider t, fun ok => offeredResponseOk_consider ?_⟩
  rcases memory with same | gone
  · exact offeredResponseOk_of_live same stays (by rw [flows]; exact id) ok
  · exact offeredResponseOk_of_none gone

theorem afresh_resume (s t : State) : Afresh s (resume t) :=
  ⟨fun _ => consideredOk_consider _, fun _ => offeredResponseOk_consider (offeredResponseOk_matchOffered t)⟩

/-- The request is taken. -/
theorem afresh_of_taken (offer : t.offer = none) (memory : t.memoryOffer = s.memoryOffer)
    (table : t.outstanding = s.outstanding) (flows : flowing t = flowing s) : Afresh s t :=
  ⟨fun _ => consideredOk_of_no_offer offer,
    offeredResponseOk_of_live memory (liveStays_of_same table) (by rw [flows]; exact id)⟩

theorem afresh_of_held (held : flowing t = false) : Afresh s t :=
  ⟨fun _ => consideredOk_of_held held, fun _ => offeredResponseOk_of_held held⟩

end

/-- An event at one regulator that keeps its STATE and its setup. -/
theorem sameJudgement_regulatorEvent {s : State} {r : RegNo} {g : Regulator} {cs : List Cause}
    (state : g.state = (reg s r).state) (setup : g.setup = (reg s r).setup) :
    SameJudgement s (regulatorEvent r g cs s) := by
  refine ⟨by simp, by simp, by simp, by simp, fun q => ?_, fun q => ?_⟩
  · rw [reg_regulatorEvent]
    split
    next here => subst here; exact state
    · rfl
  · rw [reg_regulatorEvent]
    split
    next here => subst here; exact setup
    · rfl

theorem afresh_regulatorEvent {s : State} {r : RegNo} {g : Regulator} (cs : List Cause)
    (state : g.state = (reg s r).state) (setup : g.setup = (reg s r).setup) : Afresh s (regulatorEvent r g cs s) :=
  afresh_of_same (sameJudgement_regulatorEvent state setup) (by simp) (by simp) (liveStays_of_same (by simp))
    (by simp [flowing])

theorem afresh_setReg {s : State} {r : RegNo} {g : Regulator} (state : g.state = (reg s r).state)
    (setup : g.setup = (reg s r).setup) : Afresh s (setReg s r g) :=
  afresh_regulatorEvent [] state setup

/-! ## The events of the path -/

theorem afresh_forwardTake (s : State) : Afresh s (forwardTake s) := by
  unfold forwardTake
  split
  · split
    · exact afresh_of_taken rfl rfl rfl rfl
    · exact .refl s
  · exact .refl s

theorem afresh_denyEntryTake (s : State) : Afresh s (denyEntryTake s) := by
  unfold denyEntryTake
  split
  · split
    · exact afresh_of_taken (by simp [joinPool]) (by simp [joinPool]) (by simp [joinPool]) (by simp [flowing, joinPool])
    · exact .refl s
  · exact .refl s

theorem afresh_directDenial (s : State) : Afresh s (directDenial s) := by
  unfold directDenial
  split
  · split
    · exact afresh_of_taken (by simp) (by simp) (by simp) (by simp [flowing])
    · exact .refl s
  · exact .refl s

theorem afresh_grant (s : State) : Afresh s (grant s) := by
  cases chosen : choice s with
  | none =>
    rw [grant, chosen]
    exact .refl s
  | some p =>
    obtain ⟨e, i⟩ := p
    obtain ⟨-, -, place, -⟩ := (choice_eq_some_iff s e i).mp chosen
    obtain ⟨free, -⟩ := (freePlace_eq_some_iff s i).mp place
    rw [grant_of_choice chosen]
    rw [grantMoved_frame]
    exact afresh_consider (.inl rfl) (liveStays_of_new (i := i) (e := grantedEntry e) rfl free rfl) rfl

theorem afresh_memoryTakes (s : State) : Afresh s (memoryTakes s) := by
  unfold memoryTakes
  split
  · exact ⟨id, id⟩
  · exact .refl s

theorem afresh_responseEntersQueue (s : State) : Afresh s (responseEntersQueue s) := by
  unfold responseEntersQueue
  split
  · split
    · refine ⟨fun _ => consideredOk_consider _, fun _ => offeredResponseOk_consider (offeredResponseOk_of_none ?_)⟩
      simp [enterQueue]
    · exact .refl s
  · exact .refl s

theorem afresh_denyEmission (s : State) : Afresh s (denyEmission s) := by
  unfold denyEmission
  split
  · split
    · refine afresh_consider (.inl ?_) (liveStays_of_same ?_) ?_
      · simp [leavePool]
      · simp [leavePool]
      · simp [leavePool, flowing]
    · exact .refl s
  · exact .refl s

theorem afresh_timeoutResponse (s : State) : Afresh s (timeoutResponse s) := by
  unfold timeoutResponse
  split
  · split
    · exact afresh_consider (.inl rfl) (liveStays_of_same rfl) rfl
    · exact .refl s
  · exact .refl s

theorem afresh_interconnectTakes (s : State) : Afresh s (interconnectTakes s) := by
  unfold interconnectTakes
  split
  · split
    · exact afresh_consider (.inl rfl) (liveStays_of_same rfl) rfl
    · exact .refl s
  · exact .refl s

/-- A response is offered and matched: what the intake finds stays. -/
theorem afresh_responseOffered (u : Response) (s : State) : Afresh s (matchOffered { s with memoryOffer := some u }) := by
  refine ⟨consideredOk_of_same ?_ (by simp) (by simp [flowing]), fun _ => offeredResponseOk_matchOffered _⟩
  have regs : ∀ r, reg (matchOffered { s with memoryOffer := some u }) r = reg s r := fun r => by simp [reg]
  exact ⟨by simp, by simp, by simp, by simp, fun r => by rw [regs], fun r => by rw [regs]⟩

/-! ## The tick -/

theorem afresh_windowEndDue (s : State) (ends : List RegNo) (expiry : Bool) :
    Afresh s { s with windowEndDue := ends, expiryDue := expiry } :=
  ⟨id, id⟩

theorem afresh_finishExpiry (s : State) : Afresh s (finishExpiry s) := by
  unfold finishExpiry
  split
  · have expired : Afresh s (expire s) := afresh_resume s _
    exact expired.trans (afresh_windowEndDue _ _ _)
  · exact .refl s

theorem afresh_finishWindowEnd (r : RegNo) (s : State) : Afresh s (finishWindowEnd r s) := by
  unfold finishWindowEnd
  split
  · have closed : Afresh s (windowEndReg r s) := afresh_regulatorEvent _ (by simp [windowClosed_eq]) (by simp [windowClosed_eq])
    exact closed.trans (afresh_windowEndDue _ _ _)
  · exact .refl s

theorem afresh_settleTick (s : State) : Afresh s (settleTick s) := by
  have chain : ∀ (l : List RegNo) (t : State), Afresh t (l.foldl (fun t r => finishWindowEnd r t) t) := by
    intro l
    induction l with
    | nil => exact .refl
    | cons r l ih => exact fun t => (afresh_finishWindowEnd r t).trans (ih _)
  exact (afresh_finishExpiry s).trans (chain _ _)

theorem afresh_takeTick (s : State) : Afresh s (takeTick s) := by
  refine afresh_of_same ⟨rfl, rfl, rfl, rfl, fun r => ?_, fun r => ?_⟩ rfl rfl ?_ rfl
  · rw [reg_takeTick, tickReg_state]
  · rw [reg_takeTick, tickReg_setup]
  · exact liveStays_of_map (f := ageEntry) rfl (fun _ => rfl) (fun _ => rfl) fun _ => rfl

theorem afresh_refclkPeriod (s : State) : Afresh s (refclkPeriod s) := by
  refine (afresh_settleTick s).trans ?_
  unfold refclkPeriod
  dsimp only
  split
  · exact .refl _
  · split
    · exact ⟨id, id⟩
    · exact (afresh_takeTick _).trans (afresh_settleTick _)

/-! ## Changes of STATE (R43) -/

theorem state_of_regStates {s t : State} (same : regStates s = regStates t) (r : RegNo) :
    (reg t r).state = (reg s r).state := by
  have at_r := congrArg (fun l => l[r.val]?) same
  simpa [regStates, reg] using at_r.symm

/-- What a command or an edge at regulators leaves of the state. -/
structure AtRegulators (s t : State) : Prop where
  map : t.map = s.map
  defaultTarget : t.defaultTarget = s.defaultTarget
  tracker : t.tracker = s.tracker
  offer : t.offer = s.offer
  memoryOffer : t.memoryOffer = s.memoryOffer
  flows : flowing t = flowing s
  setup : ∀ r, (reg t r).setup = (reg s r).setup
  stays : LiveStays s t

/-- The intake reconsiders when some STATE changed; with the same states and the same pool nothing that it reads did. -/
theorem afresh_reconsiderStates {s t : State} (at_ : AtRegulators s t) (pool : regStates s = regStates t → t.pool = s.pool) :
    Afresh s (reconsiderStates s t) := by
  obtain ⟨map, defaultTarget, tracker, offer, memory, flows, setup, stays⟩ := at_
  unfold reconsiderStates
  split
  next same =>
    exact afresh_of_same ⟨map, defaultTarget, pool same, tracker, state_of_regStates same, setup⟩ offer memory stays flows
  · exact afresh_consider (.inl memory) stays flows

theorem contextAfter_setup (k : CommandKind) (g : Regulator) : (contextAfter k g).setup = g.setup := by
  cases k <;> cases state : g.state <;> cases pending : g.exchangePending <;>
    simp [contextAfter, contextAfter.restarted, contextAfter.sampledWith, contextAfter.exchangedWith, state, pending]

theorem contextAfterEdge_setup (line : Fin 4) (rising : Bool) (g : Regulator) :
    (contextAfterEdge line rising g).setup = g.setup := by
  have ite_setup : ∀ (c : Bool) (x y : Regulator), x.setup = g.setup → y.setup = g.setup →
      (if c then x else y).setup = g.setup := by
    intro c x y hx hy
    cases c
    · exact hy
    · exact hx
  have sampled : (afterSample line rising g.triggers g).setup = g.setup :=
    ite_setup _ _ _ (contextAfter_setup .sample g) rfl
  have startHalt : ∀ (a b : Bool) (x : Regulator), (afterStartHalt a b x).setup = x.setup := by
    intro a b x
    unfold afterStartHalt
    split
    · split
      · rfl
      · exact contextAfter_setup .start x
    · split
      · exact contextAfter_setup .start x
      · split
        · exact contextAfter_setup .halt x
        · rfl
  have started : (afterStart line rising g.triggers g).setup = g.setup := (startHalt _ _ _).trans sampled
  have restarted : (afterRestart line rising g.triggers g).setup = g.setup :=
    ite_setup _ _ _ ((contextAfter_setup .restart _).trans started) started
  exact ite_setup _ _ _ ((contextAfter_setup .exchange _).trans restarted) restarted

theorem unchargeAll_eq (off : RegNo → Bool) (e : OutEntry) : ∃ c, unchargeAll off e = { e with charged := c } := by
  unfold unchargeAll
  split
  · split
    · exact ⟨_, rfl⟩
    · exact ⟨_, rfl⟩
  · exact ⟨_, rfl⟩

theorem afresh_actAll (k : CommandKind) (mask : BitVec 16) (s : State) :
    Afresh s (reconsiderStates s (actAll k mask s)) := by
  by_cases disable : k = .disable
  · subst disable
    rw [actAll_disable]
    refine afresh_reconsiderStates ⟨rfl, rfl, rfl, rfl, rfl, rfl, fun r => ?_, ?_⟩ fun same => ?_
    · rw [reg_disableSet]
      split <;> rfl
    · refine liveStays_of_map (f := unchargeAll _) rfl ?_ ?_ ?_
      all_goals
        intro e
        obtain ⟨c, uncharged⟩ := unchargeAll_eq (fun r => mask.getLsbD r.val && (reg s r).state != .off) e
        rw [uncharged]
    · have none_off : (fun r : RegNo => mask.getLsbD r.val && (reg s r).state != .off) = fun _ => false := by
        funext r
        have kept := state_of_regStates same r
        rw [reg_disableSet] at kept
        cases named : mask.getLsbD r.val && (reg s r).state != .off with
        | false => rfl
        | true =>
          rw [named, if_pos rfl] at kept
          rw [← kept] at named
          simp [disabled] at named
      rw [none_off, disableSet_none]
  · have frame := actAll_frame_of_other disable mask s
    refine afresh_reconsiderStates
      ⟨by rw [frame], by rw [frame], by rw [frame], by rw [frame], by rw [frame], by rw [frame]; rfl, fun r => ?_,
        liveStays_of_same (by rw [frame])⟩ fun _ => by rw [frame]
    rw [reg_actAll disable]
    split
    · exact contextAfter_setup k _
    · rfl

theorem afresh_synSample (line : Fin 4) (level : Bool) (s : State) : Afresh s (synSample line level s) := by
  unfold synSample
  split
  · exact ⟨id, id⟩
  · dsimp only
    split
    · generalize sampled : s.syn.set line { level := level, kept := some level } = lines
      have before : Afresh s { s with syn := lines } := ⟨id, id⟩
      refine before.trans (afresh_reconsiderStates
        ⟨by simp, by simp, by simp, by simp, by simp, by simp [flowing], fun r => ?_, liveStays_of_same (by simp)⟩
        fun _ => by simp)
      rw [edgeAll, (actsAt_edgeAtReg line level).reg_foldl (List.nodup_finRange 16), if_pos (mem_finRange16 r)]
      exact contextAfterEdge_setup line level _
    · exact ⟨id, id⟩

/-! ## The management port -/

theorem afresh_storeOrRange {α : Type} {s : State} {decoded : Option α} {store : α → State}
    (stored : ∀ a, Afresh s (store a)) : Afresh s (storeOrRange s (decoded.map store)).2 := by
  cases decoded with
  | none => exact .refl s
  | some a => exact stored a

theorem afresh_writeDevice (s : State) (word v : Nat) : Afresh s (writeDevice s word v).2 := by
  unfold writeDevice
  split
  · unfold writePrescale
    split
    · exact .refl s
    · exact afresh_storeOrRange fun p => ⟨id, id⟩
  · exact afresh_storeOrRange fun t => ⟨id, id⟩
  · exact afresh_storeOrRange fun p => afresh_consider (.inl rfl) (liveStays_of_same rfl) rfl
  · exact afresh_storeOrRange fun m => ⟨id, id⟩
  · exact ⟨id, id⟩
  · exact .refl s

theorem afresh_writeRegulator (s : State) (r : RegNo) (word v : Nat) : Afresh s (writeRegulator s r word v).2 := by
  have active : ∀ which, Afresh s (writeActive s r which v).2 := by
    intro which
    unfold writeActive
    split
    · exact afresh_storeOrRange fun p => afresh_setReg rfl rfl
    · exact .refl s
  have standby : ∀ which, Afresh s (writeStandby s r which v).2 := fun which =>
    afresh_storeOrRange fun p => afresh_setReg rfl rfl
  unfold writeRegulator
  split
  · split
    · exact afresh_storeOrRange fun u => afresh_consider (.inl rfl) (liveStays_of_same rfl) rfl
    · exact .refl s
  · split
    · exact afresh_storeOrRange fun t => afresh_setReg rfl rfl
    · exact .refl s
  · exact active .timing
  · exact active .budget
  · exact standby .timing
  · exact standby .budget
  · exact afresh_setReg rfl rfl
  · exact .refl s

theorem afresh_storeEntry (s : State) (i : Fin 32) (e : MapEntry) : Afresh s (storeEntry s i e) :=
  afresh_consider (.inl rfl) (liveStays_of_same rfl) rfl

theorem afresh_writeMap (s : State) (i : Fin 32) (word v : Nat) : Afresh s (writeMap s i word v).2 := by
  have bound : ∀ which, Afresh s (writeMapBound s i which v).2 := by
    intro which
    unfold writeMapBound
    split
    · exact .refl s
    · exact afresh_storeOrRange fun e => afresh_storeEntry s i e
  unfold writeMap
  split
  · unfold writeMapWord0
    split
    · exact .refl s
    · split
      · split
        · exact .refl s
        · exact afresh_storeEntry ..
      · exact .refl s
  · exact bound .base
  · exact bound .limit
  · exact .refl s

theorem afresh_writeWord (s : State) (space index word v : Nat) : Afresh s (writeWord s space index word v).2 := by
  unfold writeWord
  split
  · split
    · exact afresh_writeDevice ..
    · exact .refl s
  · split
    · exact afresh_writeRegulator ..
    · exact .refl s
  · split
    · exact afresh_writeMap ..
    · exact .refl s
  · exact .refl s

theorem afresh_clearCauses (target causeSet : Byte) (s : State) : Afresh s (clearCauses target causeSet s).1 := by
  unfold clearCauses
  split
  · split
    · exact afresh_setReg rfl rfl
    · exact .refl s
  · split
    · split
      · exact ⟨id, id⟩
      · exact .refl s
    · exact .refl s

theorem afresh_perform (c : FrameCommand) (s : State) : Afresh s (perform c s).1 := by
  cases c with
  | identify => exact .refl s
  | readField => exact .refl s
  | writeField space index word value => exact afresh_writeWord ..
  | regulatorCommand kind mask =>
    unfold perform
    dsimp only
    split
    next k _ => exact afresh_actAll k mask s
    · exact .refl s
  | clearCauses target causeSet => exact afresh_clearCauses ..
  | takeDenial =>
    change Afresh s (takeDenial s).1
    unfold takeDenial
    split
    · exact ⟨id, id⟩
    · exact .refl s
  | summary => exact .refl s
  | fullReset =>
    change Afresh s (fullReset s).1
    unfold fullReset
    split
    · exact afresh_resume s _
    · exact .refl s

theorem afresh_port (s : State) (sel : Bool) (port : Port) (causes : BitVec 6) :
    Afresh s { s with sel := sel, port := port, deviceCauses := causes } :=
  ⟨id, id⟩

theorem afresh_performReply (c : FrameCommand) (s : State) : Afresh s (performReply c s) :=
  (afresh_perform c s).trans (afresh_port _ _ _ _)

theorem afresh_receive (c : FrameCommand) (s : State) : Afresh s (receive c s) := by
  refine (afresh_settleTick s).trans ?_
  unfold receive
  dsimp only
  split
  · exact afresh_performReply c _
  · exact .refl _

theorem afresh_receiveByte (received : List Byte) (b : Byte) (s : State) : Afresh s (receiveByte received b s) := by
  unfold receiveByte
  dsimp only
  split
  · exact afresh_port s _ _ _
  · split
    · exact afresh_port s _ _ _
    · split
      · split
        · exact afresh_performReply ..
        · exact afresh_port s _ _ _
      · exact afresh_port s _ _ _

theorem afresh_slotDone (b : Byte) (s : State) : Afresh s (slotDone b s) := by
  unfold slotDone
  split
  · exact .refl s
  · exact afresh_receiveByte ..
  · exact afresh_port s _ _ _
  · exact afresh_port s _ _ _
  · exact .refl s
  · exact .refl s

/-! ## Commands and steps -/

theorem afresh_exec {c : Instr} {s t : State} (h : exec c s = .next t) : Afresh s t := by
  have settled := afresh_settleTick s
  cases c <;> cases h
  case requestOffered q =>
    have stands := offeredResponseOk_consider
      (s := { settleTick s with offer := some { request := q, quotaRun := none, poolRun := false } })
    exact ⟨fun _ => consideredOk_consider _, fun ok => stands (settled.matched ok)⟩
  case forwardTake => exact settled.trans (afresh_forwardTake _)
  case denyEntryTake => exact settled.trans (afresh_denyEntryTake _)
  case directDenial => exact settled.trans (afresh_directDenial _)
  case grant => exact settled.trans (afresh_grant _)
  case memoryTakesRequest => exact settled.trans (afresh_memoryTakes _)
  case responseOffered u => exact settled.trans (afresh_responseOffered u _)
  case responseEntersQueue => exact settled.trans (afresh_responseEntersQueue _)
  case denyEmission => exact settled.trans (afresh_denyEmission _)
  case timeoutResponse => exact settled.trans (afresh_timeoutResponse _)
  case interconnectTakesResponse => exact settled.trans (afresh_interconnectTakes _)
  case tick =>
    refine settled.trans ?_
    split
    · exact .refl _
    · exact afresh_takeTick _
  case windowEnd r => exact afresh_finishWindowEnd r s
  case markerPulseEnd line =>
    refine settled.trans ?_
    split
    · exact ⟨id, id⟩
    · exact .refl _
  case expiry => exact afresh_finishExpiry s
  case synEdge line level => exact settled.trans (afresh_synSample line level _)
  case prstAsserted =>
    refine settled.trans ?_
    unfold prstAssert
    split
    · exact .refl _
    · exact afresh_of_held (by simp [flowing, pathReset])
  case prstDeasserted =>
    refine settled.trans ?_
    unfold prstDeassert
    split
    · exact afresh_resume _ _
    · exact .refl _
  case porAsserted => exact afresh_of_held (by simp [flowing])
  case porDeasserted =>
    refine settled.trans ?_
    unfold porDeassert
    split
    · exact afresh_resume _ _
    · exact .refl _
  case crcMismatch =>
    refine settled.trans ?_
    split
    · exact afresh_port _ _ _ _
    · exact .refl _
  case unknownCode code =>
    refine settled.trans ?_
    split
    · have selected : Afresh (settleTick s) { settleTick s with sel := true } := ⟨id, id⟩
      exact selected.trans (afresh_receiveByte ..)
    · exact .refl _
  case selDeasserted => exact settled.trans (afresh_port _ _ _ _)
  case selAsserted =>
    refine settled.trans ?_
    unfold selAssert
    split
    · exact ⟨id, id⟩
    · split <;> exact ⟨id, id⟩
  case byteSlot b =>
    refine settled.trans ?_
    split
    · exact .refl _
    · exact afresh_slotDone b _
  all_goals exact afresh_receive _ s

theorem afresh_idle (s : State) : Afresh s (idle s) := by
  refine (afresh_settleTick s).trans ?_
  unfold idle
  dsimp only
  split
  next u own =>
    unfold ownEvent at own
    split at own
    · cases own; exact afresh_timeoutResponse _
    · cases own; exact afresh_denyEmission _
    · cases own; exact afresh_responseEntersQueue _
    · cases own; exact afresh_directDenial _
    · split at own
      · cases own; exact afresh_grant _
      · split at own
        · split at own
          · cases own; exact afresh_forwardTake _
          · cases own; exact afresh_denyEntryTake _
          · cases own
        · cases own
  · exact afresh_refclkPeriod _

/-- Settles O58, event by event: the intake reconsiders and the response is matched again wherever what they find changes. -/
theorem stepKeepsOffersJudgedAfresh : Obligations.StepKeepsOffersJudgedAfresh := by
  intro s t stepped
  have kept : Afresh s t := by
    unfold step at stepped
    split at stepped
    · cases stepped
      exact afresh_idle s
    next c rest _ =>
      have shifted : Afresh s { s with pending := rest } := ⟨id, id⟩
      exact shifted.trans (afresh_exec stepped)
  exact ⟨kept.considered, kept.matched⟩

end Sys2Proof.Machine
end

