-- ==== Sys2Proof/Proofs/RangesAndLines.lean ====
section
/-! The ranges of the map, of the DEVICE fields and of the queues, the emptiness of a held path, the marker lines and the kept
SYN levels, each kept by every move (R20, R24, R63, R137, R140, R143, R152, R163, R164, R178), for O51, O52 and O59. -/

namespace Sys2Proof.Machine

/-! ## Map, DEVICE fields, queues -/

theorem mapEntryOk_reset : MapEntryOk resetMapEntry := by decide

theorem mapOk_of_move {s t : State} (move : Move s t) (ok : MapOk s) : MapOk t := by
  have same : ∀ {u : State}, u.map = s.map → MapOk u := fun map i => by rw [map]; exact ok i
  have reset : ∀ {u : State}, u.map = State.reset.map → MapOk u := fun map i => by
    rw [map]
    simpa [State.reset] using mapEntryOk_reset
  cases move with
  | outside _ frame => rw [frame]; exact same rfl
  | context r g cs _ => exact same (by simp)
  | grant e i _ => exact same (by rw [grantMoved_frame])
  | close i e _ _ => exact same (by simp)
  | abandon lead _ _ => exact same (by rw [abandonAll_frame])
  | disable r _ => exact same (by rw [disableReg_frame])
  | map i e sound =>
    intro j
    dsimp only
    rw [set_get]
    split
    next here => exact sound (ok i)
    · exact ok j
  | porReset => exact reset rfl
  | reset => exact reset rfl
  | _ => exact same rfl

theorem deviceOk_of_move {s t : State} (move : Move s t) (ok : DeviceOk s) : DeviceOk t := by
  have same : ∀ {u : State}, u.prescale = s.prescale → u.interval = s.interval → u.divider = s.divider →
      u.responseTimeout = s.responseTimeout → u.bypassPriority = s.bypassPriority → DeviceOk u := by
    intro u prescale interval divider timeout priority
    rwa [DeviceOk, prescale, interval, divider, timeout, priority]
  obtain ⟨low, high, positive, bounded, within, timeoutOk, priorityOk⟩ := ok
  cases move with
  | outside _ frame => rw [frame]; exact same rfl rfl rfl rfl rfl
  | context r g cs _ => exact same (by simp) (by simp) (by simp) (by simp) (by simp)
  | grant e i _ => rw [grantMoved_frame]; exact same rfl rfl rfl rfl rfl
  | close i e _ _ => exact same (by simp) (by simp) (by simp) (by simp) (by simp)
  | abandon lead _ _ => rw [abandonAll_frame]; exact same rfl rfl rfl rfl rfl
  | disable r _ => rw [disableReg_frame]; exact same rfl rfl rfl rfl rfl
  | pass n _ room => exact ⟨low, high, positive, bounded, room, timeoutOk, priorityOk⟩
  | tick _ => exact ⟨low, high, low, high, Nat.zero_le _, timeoutOk, priorityOk⟩
  | prescale v p decoded =>
    unfold decodePrescale at decoded
    split at decoded
    next inRange =>
      cases decoded
      exact ⟨inRange.1, inRange.2, positive, bounded, within, timeoutOk, priorityOk⟩
    · cases decoded
  | timeout v p decoded =>
    unfold decodeTimeout at decoded
    split at decoded
    next inRange =>
      cases decoded
      exact ⟨low, high, positive, bounded, within, inRange, priorityOk⟩
    · cases decoded
  | priority p inRange => exact ⟨low, high, positive, bounded, within, timeoutOk, inRange⟩
  | porReset => exact (by decide : DeviceOk State.reset)
  | reset => exact (by decide : DeviceOk State.reset)
  | _ => exact same rfl rfl rfl rfl rfl

theorem length_owed_abandonAll (l : List (Fin 64 × OutEntry)) (s : State) :
    (abandonAll l s).owed.length = l.length + s.owed.length := by
  induction l generalizing s with
  | nil => simp [abandonAll]
  | cons p l ih =>
    rw [abandonAll_cons, ih, abandonEntry_owed, (insertOwed_perm _ _).length_eq, List.length_cons, List.length_cons]
    omega

theorem queuesOk_of_move {s t : State} (move : Move s t) (ok : QueuesOk s) : QueuesOk t := by
  have same : ∀ {u : State}, u.responses = s.responses → u.owed = s.owed → u.denials = s.denials → QueuesOk u := by
    intro u responses owed denials
    rwa [QueuesOk, responses, owed, denials]
  obtain ⟨responsesOk, owedOk, denialsOk⟩ := ok
  cases move with
  | outside _ frame => rw [frame]; exact same rfl rfl rfl
  | context r g cs _ => exact same (by simp) (by simp) (by simp)
  | grant e i _ => rw [grantMoved_frame]; exact same rfl rfl rfl
  | close i e _ _ => exact same (by simp) (by simp) (by simp)
  | disable r _ => rw [disableReg_frame]; exact same rfl rfl rfl
  | abandon lead _ room =>
    refine ⟨by rw [abandonAll_frame]; exact responsesOk, ?_, by rw [abandonAll_frame]; exact denialsOk⟩
    rw [length_owed_abandonAll]
    exact room
  | enter u _ room =>
    refine ⟨?_, owedOk, denialsOk⟩
    rw [enterQueue, List.length_append, List.length_singleton]
    exact room
  | taken u rest queue =>
    rw [queue] at responsesOk
    exact ⟨(Nat.le_succ _).trans responsesOk, owedOk, denialsOk⟩
  | answered x rest owed =>
    rw [owed] at owedOk
    exact ⟨responsesOk, (Nat.le_succ _).trans owedOk, denialsOk⟩
  | records l room => exact ⟨responsesOk, owedOk, room.trans (max_le denialsOk le_rfl)⟩
  | pathReset => exact ⟨Nat.zero_le _, Nat.zero_le _, denialsOk⟩
  | porReset => exact (by decide : QueuesOk State.reset)
  | reset => exact (by decide : QueuesOk State.reset)
  | _ => exact same rfl rfl rfl

/-- Settles O51: every move keeps the three. -/
theorem stepKeepsRangesAndCapacities : Obligations.StepKeepsRangesAndCapacities := fun _ _ stepped =>
  ⟨keeps_of_moves (fun _ _ => mapOk_of_move) (moves_step stepped),
    keeps_of_moves (fun _ _ => deviceOk_of_move) (moves_step stepped),
    keeps_of_moves (fun _ _ => queuesOk_of_move) (moves_step stepped)⟩

/-! ## The held path (R20, R21) -/

theorem tableCount_eq_zero_iff (s : State) : tableCount s = 0 ↔ ∀ i : Fin 64, s.outstanding[i] = none := by
  rw [tableCount, List.countP_eq_zero]
  constructor
  · intro empty i
    have slot := empty s.outstanding[i] (by simp)
    simpa using slot
  · intro empty slot used
    obtain ⟨i, small, rfl⟩ := List.mem_iff_getElem.mp used
    have slot := empty ⟨i, by simpa using small⟩
    simpa using slot

theorem heldOk_of_move {s t : State} (move : Move s t) (ok : HeldOk s) : HeldOk t := by
  have same : ∀ {u : State}, (flowing u = false → flowing s = false) → u.held = s.held → u.responses = s.responses →
      u.owed = s.owed → u.pool = s.pool → u.outstanding = s.outstanding → HeldOk u := by
    intro u flows held responses owed pool table stopped
    rw [held, responses, owed, pool, tableCount, table]
    exact ok (flows stopped)
  have empty : ∀ i : Fin 64, flowing s = false → s.outstanding[i] = none := fun i stopped =>
    (tableCount_eq_zero_iff s).mp (ok stopped).2.2.2.2 i
  have mapped : ∀ {u : State} {f : OutEntry → OutEntry}, (flowing u = false → flowing s = false) → u.held = s.held →
      u.responses = s.responses → u.owed = s.owed → (s.pool = [] → u.pool = []) →
      u.outstanding = mapSlots (Option.map f) s.outstanding → HeldOk u := by
    intro u f flows held responses owed pool table stopped
    obtain ⟨noHeld, noResponses, noOwed, noPool, -⟩ := ok (flows stopped)
    refine ⟨held.trans noHeld, responses.trans noResponses, owed.trans noOwed, pool noPool, ?_⟩
    rw [tableCount_eq_zero_iff]
    intro i
    rw [table, mapSlots_get, empty i (flows stopped)]
    rfl
  have resets : ∀ {u : State}, u.held = none → u.responses = [] → u.owed = [] → u.pool = [] →
      u.outstanding = Vector.replicate 64 none → HeldOk u := by
    intro u held responses owed pool table _
    refine ⟨held, responses, owed, pool, (tableCount_eq_zero_iff u).mpr fun i => ?_⟩
    rw [table]
    simp
  have running : ∀ {u : State}, flowing s = true → flowing u = flowing s → HeldOk u := by
    intro u flows still stopped
    rw [still, flows] at stopped
    cases stopped
  cases move with
  | outside _ frame => rw [frame]; exact same id rfl rfl rfl rfl rfl
  | context r g cs _ => exact same (by simp [flowing]) (by simp) (by simp) (by simp) (by simp) (by simp)
  | take q v found _ =>
    obtain ⟨flows, -, -⟩ := considered_eq_some found
    exact running flows rfl
  | takeDeny q v reason found _ =>
    obtain ⟨flows, -, -⟩ := considered_eq_some found
    exact running flows rfl
  | leave e pooled =>
    intro stopped
    have noPool := (ok stopped).2.2.2.1
    rw [noPool] at pooled
    cases pooled
  | grant e i chosen =>
    obtain ⟨flows, -⟩ := (choice_eq_some_iff s e i).mp chosen
    rw [grantMoved_frame]
    exact running flows rfl
  | release => exact fun stopped => ⟨rfl, (ok stopped).2⟩
  | close i e found _ =>
    intro stopped
    have gone := empty i (by simpa [flowing] using stopped)
    rw [found] at gone
    cases gone
  | drop i e found _ =>
    intro stopped
    have gone := empty i stopped
    rw [found] at gone
    cases gone
  | enter u flows _ => exact running flows rfl
  | taken u rest queue =>
    intro stopped
    have gone := (ok stopped).2.1
    rw [queue] at gone
    cases gone
  | answered x rest owed =>
    intro stopped
    have gone := (ok stopped).2.2.1
    rw [owed] at gone
    cases gone
  | abandon lead leads _ =>
    obtain ⟨⟨i, found⟩, -⟩ := leads
    intro stopped
    have gone := empty i (by rw [abandonAll_frame] at stopped; exact stopped)
    rw [found] at gone
    cases gone
  | tick _ => exact mapped (f := ageEntry) id rfl rfl rfl id rfl
  | disable r on =>
    rw [disableReg_of_ne_off on]
    exact mapped (f := unchargeAll _) id rfl rfl rfl (fun noPool => by simp [disableSet, noPool]) rfl
  | pathReset => exact resets rfl rfl rfl rfl rfl
  | resumeLink prst => exact same (fun stopped => by simp [flowing, prst]) rfl rfl rfl rfl rfl
  | porReset => exact resets rfl rfl rfl rfl rfl
  | reset => exact resets rfl rfl rfl rfl rfl
  | _ => exact same id rfl rfl rfl rfl rfl

/-! ## Marker lines (R160, R163, R164) -/

theorem markerOk_configureLine {s t : State} {m : Marker} {c : RegNo × MarkerKind} (ok : MarkerOk s m)
    (regs : t.regs = s.regs) : MarkerOk t (configureLine m c) := by
  unfold configureLine
  split
  · rwa [MarkerOk, reg, regs]
  · exact ⟨Nat.zero_le _, fun _ => rfl⟩

theorem markersOk_of_writeMarkers {s : State} {v : Nat} {lines : Vector Marker 4} (ok : MarkersOk s)
    (written : writeMarkers v s.markers = some lines) : MarkersOk { s with markers := lines } := by
  unfold writeMarkers at written
  split at written
  next c0 c1 c2 c3 _ _ _ _ =>
    cases written
    have line : ∀ (l : Fin 4) (c : RegNo × MarkerKind),
        MarkerOk { s with markers := s.markers } (configureLine s.markers[l] c) := fun l c =>
      markerOk_configureLine (ok l) rfl
    intro l
    match l with
    | 0 => exact line 0 c0
    | 1 => exact line 1 c1
    | 2 => exact line 2 c2
    | 3 => exact line 3 c3
  · cases written

theorem markersOk_of_move {s t : State} (move : Move s t) (ok : MarkersOk s) : MarkersOk t := by
  have same : ∀ {u : State}, u.markers = s.markers →
      (∀ r, (reg u r).state = .off → (reg s r).state = .off) → MarkersOk u := by
    intro u markers off l
    obtain ⟨short, quiet⟩ := ok l
    rw [markers]
    exact ⟨short, fun h => quiet (off _ h)⟩
  have kept : ∀ {u : State}, u.markers = s.markers → u.regs = s.regs → MarkersOk u := by
    intro u markers regs
    exact same markers fun r off => by rwa [reg, regs] at off
  have resets : ∀ {u : State}, u.markers = State.reset.markers → MarkersOk u := by
    intro u markers l
    rw [markers]
    have reset : State.reset.markers[l] = resetMarker := by simp [State.reset]
    rw [reset]
    exact ⟨Nat.zero_le _, fun _ => rfl⟩
  have passed : ∀ {u : State} {n : Nat}, u.markers = mapSlots (runPulse n) s.markers →
      (∀ r, (reg u r).state = (reg s r).state) → MarkersOk u := by
    intro u n markers state l
    obtain ⟨short, quiet⟩ := ok l
    rw [markers, mapSlots_get]
    refine ⟨(Nat.sub_le _ _).trans short, fun off => ?_⟩
    have noPulse := quiet ((state _).symm.trans off)
    rw [runPulse, noPulse, Nat.zero_sub]
  cases move with
  | outside _ frame => rw [frame]; exact kept rfl rfl
  | context r g cs change =>
    intro l
    obtain ⟨short, quiet⟩ := ok l
    rw [markers_regulatorEvent]
    split
    next pulse =>
      obtain ⟨on, source, -⟩ := pulse
      refine ⟨le_rfl, fun off => ?_⟩
      have here : (reg (regulatorEvent r g cs s) (s.markers[l]).source).state = .off := off
      rw [reg_regulatorEvent, if_pos source] at here
      exact absurd here on
    next still =>
      refine ⟨short, fun off => quiet ?_⟩
      rw [reg_regulatorEvent] at off
      split at off
      next here => exact here ▸ change.off_keep off
      · exact off
  | grant e i chosen =>
    intro l
    obtain ⟨short, quiet⟩ := ok l
    have state : ∀ r, (reg (grantMoved e i s) r).state = (reg s r).state := fun r => by
      rw [reg_grantMoved]
      split <;> rfl
    rw [markers_grantMoved]
    split
    next pulse => exact ⟨le_rfl, fun off => absurd ((state _).symm.trans off) pulse.1⟩
    next still => exact ⟨short, fun off => quiet ((state _).symm.trans off)⟩
  | close i e _ _ =>
    refine same (by simp) fun r off => ?_
    rw [reg_closeEntry] at off
    split at off <;> exact off
  | abandon lead _ _ =>
    refine same (by rw [abandonAll_frame]) fun r off => ?_
    obtain ⟨n, -, released⟩ := released_abandonAll s r (lead := lead)
    rwa [released] at off
  | pass n _ _ => exact passed rfl fun r => rfl
  | tick _ => exact passed rfl fun r => by rw [reg_takeTick, tickReg_state]
  | markers v lines written => exact markersOk_of_writeMarkers ok written
  | disable r on =>
    rw [disableReg_of_ne_off on]
    intro l
    obtain ⟨short, quiet⟩ := ok l
    have line : (disableSet (fun q => decide (q = r)) s).markers[l] = quietAll (fun q => decide (q = r)) s.markers[l] :=
      mapSlots_get _ _ l
    rw [line]
    unfold quietAll
    split
    · exact ⟨Nat.zero_le _, fun _ => rfl⟩
    next other =>
      refine ⟨short, fun off => quiet ?_⟩
      rwa [reg_disableSet, if_neg other] at off
  | pathReset =>
    refine same rfl fun r off => ?_
    rw [reg_pathReset] at off
    unfold fallToArmed at off
    split at off
    · cases off
    · exact off
  | porReset => exact resets rfl
  | reset => exact resets rfl
  | _ => exact kept rfl rfl

/-! ## Kept SYN levels (R152) -/

theorem synOk_of_move {s t : State} (move : Move s t) (ok : SynOk s) : SynOk t := by
  have same : ∀ {u : State}, u.syn = s.syn → (u.por = true → s.por = true) → SynOk u := by
    intro u syn por l k kept
    rw [syn] at kept ⊢
    obtain ⟨level, noPor⟩ := ok l k kept
    exact ⟨level, by simpa [noPor] using por⟩
  have sampled : ∀ {u : State}, u.syn = mapSlots firstSample s.syn → u.por = false → SynOk u := by
    intro u syn por l k kept
    rw [syn, mapSlots_get] at kept ⊢
    simp only [firstSample, Option.mem_some_iff] at kept
    refine ⟨?_, por⟩
    cases before : (s.syn[l]).kept with
    | none => rw [before] at kept; exact kept.symm
    | some x =>
      rw [before] at kept
      exact kept ▸ (ok l x before).1
  have unkept : ∀ {u : State}, u.syn = mapSlots unsampled s.syn → SynOk u := by
    intro u syn l k kept
    rw [syn, mapSlots_get] at kept
    cases kept
  cases move with
  | outside _ frame => rw [frame]; exact same rfl id
  | context r g cs _ => exact same (by simp) (by simp)
  | grant e i _ => rw [grantMoved_frame]; exact same rfl id
  | close i e _ _ => exact same (by simp) (by simp)
  | abandon lead _ _ => rw [abandonAll_frame]; exact same rfl id
  | disable r _ => rw [disableReg_frame]; exact same rfl id
  | pass n por _ => exact sampled rfl por
  | tick por => exact sampled rfl por
  | syn line level por =>
    intro l k kept
    dsimp only at kept ⊢
    rw [set_get] at kept ⊢
    split at kept
    next here =>
      cases kept
      rw [if_pos here]
      exact ⟨rfl, por⟩
    next other =>
      rw [if_neg other]
      exact ok l k kept
  | synHeld line level por =>
    intro l k kept
    dsimp only at kept
    rw [set_get] at kept
    have before : k ∈ (s.syn[l]).kept := by
      split at kept
      next here => exact here ▸ kept
      · exact kept
    obtain ⟨-, noPor⟩ := ok l k before
    rw [por] at noPor
    cases noPor
  | porReset => exact unkept rfl
  | reset => exact unkept rfl
  | _ => exact same rfl id

end Sys2Proof.Machine
end

