-- ==== Sys2Proof/Proofs/LinesAndTick.lean ====
section
/-! What the events leave alone of the lines, the port, the tick in progress and the waiting commands, and what follows for every
step: O1, O2, O4, O50, O52, O53 and O59. -/

namespace Sys2Proof.Machine

/-! ## The events of the path leave the lines and the tick -/

/-- The lines, the port, the waiting commands and the tick in progress are those found. -/
structure Steady (s t : State) : Prop where
  por : t.por = s.por
  prst : t.prst = s.prst
  sel : t.sel = s.sel
  port : t.port = s.port
  pending : t.pending = s.pending
  windowEndDue : t.windowEndDue = s.windowEndDue
  expiryDue : t.expiryDue = s.expiryDue

theorem Steady.refl (s : State) : Steady s s := ⟨rfl, rfl, rfl, rfl, rfl, rfl, rfl⟩

theorem Steady.trans {s t u : State} (first : Steady s t) (second : Steady t u) : Steady s u :=
  ⟨second.por.trans first.por, second.prst.trans first.prst, second.sel.trans first.sel, second.port.trans first.port,
    second.pending.trans first.pending, second.windowEndDue.trans first.windowEndDue,
    second.expiryDue.trans first.expiryDue⟩

theorem Steady.quiet {s t : State} (steady : Steady s t) (quiet : Quiet s) : Quiet t :=
  ⟨steady.windowEndDue.trans quiet.1, steady.expiryDue.trans quiet.2⟩

theorem steady_consider (s : State) : Steady s (consider s) := by constructor <;> simp

theorem steady_matchOffered (s : State) : Steady s (matchOffered s) := by constructor <;> simp

theorem steady_resume (s : State) : Steady s (resume s) := (steady_matchOffered s).trans (steady_consider _)

theorem steady_setReg (r : RegNo) (g : Regulator) (s : State) : Steady s (setReg s r g) := ⟨rfl, rfl, rfl, rfl, rfl, rfl, rfl⟩

theorem steady_malformedCause (reason : DenyReason) (s : State) : Steady s (malformedCause reason s) := by
  constructor <;> simp

theorem steady_deny (q : Request) (reason : DenyReason) (t : Target) (s : State) : Steady s (deny q reason t s) := by
  constructor <;> simp

theorem steady_joinPool (kind : EntryKind) (l : Lane) (q : Request) (t : Target) (s : State) :
    Steady s (joinPool kind l q t s) :=
  ⟨rfl, rfl, rfl, rfl, rfl, rfl, rfl⟩

theorem steady_forwardTake (s : State) : Steady s (forwardTake s) := by
  unfold forwardTake
  split
  · split
    · exact steady_joinPool ..
    · exact .refl s
  · exact .refl s

theorem steady_denyEntryTake (s : State) : Steady s (denyEntryTake s) := by
  unfold denyEntryTake
  split
  · split
    · exact (steady_joinPool ..).trans (steady_malformedCause ..)
    · exact .refl s
  · exact .refl s

theorem steady_directDenial (s : State) : Steady s (directDenial s) := by
  unfold directDenial
  split
  · split
    · have taken : Steady s { s with offer := none, nextPlace := s.nextPlace + 1 } := ⟨rfl, rfl, rfl, rfl, rfl, rfl, rfl⟩
      exact (taken.trans (steady_malformedCause ..)).trans (steady_deny ..)
    · exact .refl s
  · exact .refl s

theorem steady_grant (s : State) : Steady s (grant s) := by
  cases chosen : choice s with
  | none =>
    rw [grant, chosen]
    exact .refl s
  | some p =>
    have moved : Steady s (grantMoved p.1 p.2 s) := by
      rw [grantMoved_frame]
      exact ⟨rfl, rfl, rfl, rfl, rfl, rfl, rfl⟩
    rw [grant_of_choice chosen]
    exact moved.trans (steady_consider _)

theorem steady_memoryTakes (s : State) : Steady s (memoryTakes s) := by
  unfold memoryTakes
  split
  · exact ⟨rfl, rfl, rfl, rfl, rfl, rfl, rfl⟩
  · exact .refl s

theorem steady_responseEntersQueue (s : State) : Steady s (responseEntersQueue s) := by
  unfold responseEntersQueue
  split
  · split
    next u i e _ =>
      have closed : Steady s (closeEntry i e (enterQueue u { s with memoryOffer := none })) := by
        constructor <;> simp [enterQueue]
      exact closed.trans (steady_consider _)
    · exact .refl s
  · exact .refl s

theorem steady_denyEmission (s : State) : Steady s (denyEmission s) := by
  unfold denyEmission
  split
  · split
    next e reason _ =>
      have left : Steady s (leavePool e s) := ⟨rfl, rfl, rfl, rfl, rfl, rfl, rfl⟩
      exact (left.trans (steady_deny ..)).trans (steady_consider _)
    · exact .refl s
  · exact .refl s

theorem steady_timeoutResponse (s : State) : Steady s (timeoutResponse s) := by
  unfold timeoutResponse
  split
  · split
    next x rest _ =>
      have answered : Steady s (setCounts (enterQueue (timeoutUnit x) { s with owed := rest }) x.key
          { counts s x.key with owed := (counts s x.key).owed - 1 }) := ⟨rfl, rfl, rfl, rfl, rfl, rfl, rfl⟩
      exact answered.trans (steady_consider _)
    · exact .refl s
  · exact .refl s

theorem steady_interconnectTakes (s : State) : Steady s (interconnectTakes s) := by
  unfold interconnectTakes
  split
  · split
    next u rest _ =>
      have taken : Steady s { s with responses := rest } := ⟨rfl, rfl, rfl, rfl, rfl, rfl, rfl⟩
      exact taken.trans (steady_consider _)
    · exact .refl s
  · exact .refl s

theorem steady_passPeriods (n : Nat) (s : State) : Steady s (passPeriods n s) := ⟨rfl, rfl, rfl, rfl, rfl, rfl, rfl⟩

theorem steady_reconsiderStates (s t : State) : Steady t (reconsiderStates s t) := by
  unfold reconsiderStates
  split
  · exact .refl t
  · exact steady_consider t

theorem steady_actAll (k : CommandKind) (mask : BitVec 16) (s : State) : Steady s (actAll k mask s) := by
  constructor <;> simp

theorem steady_synSample (line : Fin 4) (level : Bool) (s : State) : Steady s (synSample line level s) := by
  have sampled : ∀ lines, Steady s { s with syn := lines } := fun _ => ⟨rfl, rfl, rfl, rfl, rfl, rfl, rfl⟩
  unfold synSample
  split
  · exact sampled _
  · dsimp only
    split
    · refine (sampled (s.syn.set line { level := level, kept := some level })).trans (.trans ?_ (steady_reconsiderStates _ _))
      constructor <;> simp
    · exact sampled _

/-! ## Frames -/

theorem steady_storeOrRange {α : Type} {s : State} {decoded : Option α} {store : α → State}
    (stored : ∀ a, Steady s (store a)) : Steady s (storeOrRange s (decoded.map store)).2 := by
  cases decoded with
  | none => exact .refl s
  | some a => exact stored a

theorem steady_writeDevice (s : State) (word v : Nat) : Steady s (writeDevice s word v).2 := by
  unfold writeDevice
  split
  · unfold writePrescale
    split
    · exact .refl s
    · exact steady_storeOrRange fun p => ⟨rfl, rfl, rfl, rfl, rfl, rfl, rfl⟩
  · exact steady_storeOrRange fun t => ⟨rfl, rfl, rfl, rfl, rfl, rfl, rfl⟩
  · refine steady_storeOrRange fun p => ?_
    have named : Steady s { s with defaultTarget := p.1, bypassPriority := p.2 } := ⟨rfl, rfl, rfl, rfl, rfl, rfl, rfl⟩
    exact named.trans (steady_consider _)
  · exact steady_storeOrRange fun m => ⟨rfl, rfl, rfl, rfl, rfl, rfl, rfl⟩
  · exact ⟨rfl, rfl, rfl, rfl, rfl, rfl, rfl⟩
  · exact .refl s

theorem steady_writeRegulator (s : State) (r : RegNo) (word v : Nat) : Steady s (writeRegulator s r word v).2 := by
  have active : ∀ which, Steady s (writeActive s r which v).2 := by
    intro which
    unfold writeActive
    split
    · exact steady_storeOrRange fun p => steady_setReg ..
    · exact .refl s
  have standby : ∀ which, Steady s (writeStandby s r which v).2 := fun which =>
    steady_storeOrRange fun p => steady_setReg ..
  unfold writeRegulator
  split
  · split
    · exact steady_storeOrRange fun u => (steady_setReg ..).trans (steady_consider _)
    · exact .refl s
  · split
    · exact steady_storeOrRange fun t => steady_setReg ..
    · exact .refl s
  · exact active .timing
  · exact active .budget
  · exact standby .timing
  · exact standby .budget
  · exact steady_setReg ..
  · exact .refl s

theorem steady_storeEntry (s : State) (i : Fin 32) (e : MapEntry) : Steady s (storeEntry s i e) := by
  have stored : Steady s { s with map := s.map.set i e } := ⟨rfl, rfl, rfl, rfl, rfl, rfl, rfl⟩
  exact stored.trans (steady_consider _)

theorem steady_writeMap (s : State) (i : Fin 32) (word v : Nat) : Steady s (writeMap s i word v).2 := by
  have bound : ∀ which, Steady s (writeMapBound s i which v).2 := by
    intro which
    unfold writeMapBound
    split
    · exact .refl s
    · exact steady_storeOrRange fun e => steady_storeEntry s i e
  unfold writeMap
  split
  · unfold writeMapWord0
    split
    · exact .refl s
    · split
      · split
        · exact .refl s
        · exact steady_storeEntry ..
      · exact .refl s
  · exact bound .base
  · exact bound .limit
  · exact .refl s

theorem steady_writeWord (s : State) (space index word v : Nat) : Steady s (writeWord s space index word v).2 := by
  unfold writeWord
  split
  · split
    · exact steady_writeDevice ..
    · exact .refl s
  · split
    · exact steady_writeRegulator ..
    · exact .refl s
  · split
    · exact steady_writeMap ..
    · exact .refl s
  · exact .refl s

/-- Every frame command but FULL RESET leaves the lines and the tick; the port is the caller's. -/
theorem steady_perform {c : FrameCommand} (other : c ≠ .fullReset) (s : State) : Steady s (perform c s).1 := by
  cases c with
  | identify => exact .refl s
  | readField => exact .refl s
  | writeField space index word value => exact steady_writeWord ..
  | regulatorCommand kind mask =>
    unfold perform
    dsimp only
    split
    next k _ => exact (steady_actAll k mask s).trans (steady_reconsiderStates _ _)
    · exact .refl s
  | clearCauses target causeSet =>
    change Steady s (clearCauses target causeSet s).1
    unfold clearCauses
    split
    · split
      · exact steady_setReg ..
      · exact .refl s
    · split
      · split
        · exact ⟨rfl, rfl, rfl, rfl, rfl, rfl, rfl⟩
        · exact .refl s
      · exact .refl s
  | takeDenial =>
    change Steady s (takeDenial s).1
    unfold takeDenial
    split
    · exact ⟨rfl, rfl, rfl, rfl, rfl, rfl, rfl⟩
    · exact .refl s
  | summary => exact .refl s
  | fullReset => contradiction

/-! ## A finished tick -/

theorem expiryDue_finishExpiry (s : State) : (finishExpiry s).expiryDue = false := by
  unfold finishExpiry
  split
  · rfl
  next notDue => simpa using notDue

theorem windowEndDue_finishWindowEnd (r : RegNo) (s : State) :
    (finishWindowEnd r s).windowEndDue = s.windowEndDue.filter (· ≠ r) := by
  unfold finishWindowEnd
  split
  · rfl
  next notDue =>
    refine (List.filter_eq_self.mpr fun q due => ?_).symm
    simpa using fun same : q = r => notDue (same ▸ due)

theorem quiet_settleTick (s : State) : Quiet (settleTick s) := by
  have ends : ∀ (l : List RegNo) (t : State), (∀ r ∈ t.windowEndDue, r ∈ l) → t.expiryDue = false →
      Quiet (l.foldl (fun t r => finishWindowEnd r t) t) := by
    intro l
    induction l with
    | nil => exact fun t due notDue => ⟨List.eq_nil_iff_forall_not_mem.mpr fun r h => (nomatch due r h), notDue⟩
    | cons r l ih =>
      intro t due notDue
      refine ih _ (fun q hq => ?_) ?_
      · rw [windowEndDue_finishWindowEnd, List.mem_filter, decide_eq_true_eq] at hq
        exact (List.mem_cons.mp (due q hq.1)).resolve_left hq.2
      · dsimp only
        rw [finishWindowEnd_frame]
        exact notDue
  refine ends _ _ (fun r due => ?_) (expiryDue_finishExpiry s)
  rwa [finishExpiry_frame] at due

theorem settleTick_settleTick (s : State) : settleTick (settleTick s) = settleTick s :=
  settleTick_of_quiet (quiet_settleTick s)

/-- A command that begins by finishing the tick in progress acts on the state in which it is finished. -/
theorem acts_of_finished {c : Instr} {s : State} (event : State → State)
    (acts : ∀ s, exec c s = .next (event (settleTick s))) : exec c s = exec c (settleTick s) := by
  rw [acts, acts, settleTick_settleTick]

theorem receive_settleTick (c : FrameCommand) (s : State) : receive c (settleTick s) = receive c s := by
  rw [receive, settleTick_settleTick, receive]

/-- Settles O4: every other command begins by finishing the tick in progress. -/
theorem commandsMeetFinishedTick : Obligations.CommandsMeetFinishedTick := by
  intro c s notEnd notExpiry
  refine ⟨?_, quiet_settleTick s⟩
  cases c
  case windowEnd r => exact absurd rfl (notEnd r)
  case expiry => exact absurd rfl notExpiry
  case requestOffered q =>
    exact acts_of_finished
      (fun t => consider { t with offer := some { request := q, quotaRun := none, poolRun := false } }) fun _ => rfl
  case forwardTake => exact acts_of_finished forwardTake fun _ => rfl
  case denyEntryTake => exact acts_of_finished denyEntryTake fun _ => rfl
  case directDenial => exact acts_of_finished directDenial fun _ => rfl
  case grant => exact acts_of_finished grant fun _ => rfl
  case memoryTakesRequest => exact acts_of_finished memoryTakes fun _ => rfl
  case responseOffered u => exact acts_of_finished (fun t => matchOffered { t with memoryOffer := some u }) fun _ => rfl
  case responseEntersQueue => exact acts_of_finished responseEntersQueue fun _ => rfl
  case denyEmission => exact acts_of_finished denyEmission fun _ => rfl
  case timeoutResponse => exact acts_of_finished timeoutResponse fun _ => rfl
  case interconnectTakesResponse => exact acts_of_finished interconnectTakes fun _ => rfl
  case tick => exact acts_of_finished (fun t => if t.por then t else takeTick t) fun _ => rfl
  case markerPulseEnd l =>
    exact acts_of_finished
      (fun t => if !t.por && pulseEndsNext l t then passPeriods t.markers[l].pulseLeft t else t) fun _ => rfl
  case synEdge line level => exact acts_of_finished (synSample line level) fun _ => rfl
  case prstAsserted => exact acts_of_finished prstAssert fun _ => rfl
  case prstDeasserted => exact acts_of_finished prstDeassert fun _ => rfl
  case porAsserted => exact acts_of_finished (fun t => { blocksReset t with por := true }) fun _ => rfl
  case porDeasserted => exact acts_of_finished porDeassert fun _ => rfl
  case crcMismatch => exact acts_of_finished (fun t => if portOpen t then badFrame t else t) fun _ => rfl
  case unknownCode b =>
    exact acts_of_finished (fun t => if portOpen t then receiveByte [] b { t with sel := true } else t) fun _ => rfl
  case selDeasserted => exact acts_of_finished (fun t => { t with sel := false, port := .idle }) fun _ => rfl
  case selAsserted => exact acts_of_finished selAssert fun _ => rfl
  case byteSlot b => exact acts_of_finished (fun t => if t.por then t else slotDone b t) fun _ => rfl
  all_goals exact congrArg Host.Outcome.next (receive_settleTick _ s).symm

/-! ## The port (R182) -/

section
variable {s t : State}

theorem portOk_enterReply (status : Status) (bytes : List Byte) (s : State) : PortOk (enterReply status bytes s) := by
  refine ⟨fun _ => ⟨fun idle => (nomatch idle), fun deselected => (nomatch deselected)⟩, ?_⟩
  simp [enterReply, replyPart, portHolds]

theorem portOk_of_same (ok : PortOk s) (por : t.por = s.por) (port : t.port = s.port) (sel : t.sel = s.sel) : PortOk t := by
  rwa [PortOk, por, port, sel]

theorem selected_of_portOk (ok : PortOk s) (por : s.por = false) (busy : s.port ≠ .idle) : s.sel = true := by
  cases sel : s.sel with
  | true => rfl
  | false => exact absurd ((ok.1 por).mpr sel) busy

theorem receivedOk_append {received : List Byte} {b : Byte} {n : Nat}
    (known : commandPartLength (received.headD b) = some n) (short : received.length + 1 < n) :
    receivedOk (received ++ [b]) = true := by
  cases received with
  | nil =>
    rw [List.headD_nil] at known
    simpa [receivedOk, known] using short
  | cons code params =>
    rw [List.headD_cons] at known
    simpa [receivedOk, known] using short

theorem portOk_receiveByte {received : List Byte} {b : Byte} (selected : s.sel = true) :
    PortOk (receiveByte received b s) := by
  unfold receiveByte
  dsimp only
  split
  · exact portOk_enterReply ..
  next n known =>
    split
    next short =>
      refine ⟨fun _ => ⟨fun idle => (nomatch idle), fun deselected => ?_⟩, receivedOk_append known short⟩
      rw [selected] at deselected
      cases deselected
    · split
      · split <;> exact portOk_enterReply ..
      · exact portOk_enterReply ..

theorem portOk_slotDone {b : Byte} (por : s.por = false) (ok : PortOk s) : PortOk (slotDone b s) := by
  have selected := selected_of_portOk ok por
  have after : ∀ p, p ≠ .idle → portHolds p = true → s.port ≠ .idle → PortOk { s with port := p } := by
    intro p busy holds before
    refine ⟨fun _ => ⟨fun idle => absurd idle busy, fun deselected => ?_⟩, holds⟩
    rw [selected before] at deselected
    cases deselected
  unfold slotDone
  split
  · exact ok
  next received port => exact portOk_receiveByte (selected (by simp [port]))
  next x y rest port => exact after _ (by simp) rfl (by simp [port])
  next rest _ port => exact after _ (by simp) rfl (by simp [port])
  · exact ok
  · exact ok

/-! ## The tick in progress (R67) -/

theorem tickOk_of_quiet (quiet : Quiet t) : TickOk t := by
  obtain ⟨ends, expiry⟩ := quiet
  refine ⟨fun r due => ?_, ?_, fun _ => ⟨ends, expiry⟩⟩
  · rw [ends] at due
    cases due
  · rw [ends]
    exact List.nodup_nil

theorem atLastPosition_iff (g : Regulator) :
    atLastPosition g = true ↔ g.state = .running ∧ ¬ g.position + 1 < g.active.period := by
  simp [atLastPosition]

theorem tickOk_takeTick (por : s.por = false) : TickOk (takeTick s) := by
  refine ⟨fun r due => ?_, (List.nodup_finRange 16).filter fun r => atLastPosition (reg s r), fun asserted => ?_⟩
  · have last : atLastPosition (reg s r) = true := (List.mem_filter.mp due).2
    obtain ⟨-, stands⟩ := (atLastPosition_iff _).mp last
    rwa [reg_takeTick, tickReg, if_neg fun h => stands h.2]
  · have still : s.por = true := asserted
    rw [por] at still
    cases still

theorem tickOk_finishWindowEnd (r : RegNo) (ok : TickOk s) : TickOk (finishWindowEnd r s) := by
  obtain ⟨last, distinct, held⟩ := ok
  by_cases due : r ∈ s.windowEndDue
  · refine ⟨fun q hq => ?_, ?_, fun por => ?_⟩
    · rw [windowEndDue_finishWindowEnd, List.mem_filter, decide_eq_true_eq] at hq
      rw [reg_finishWindowEnd due, if_neg hq.2]
      exact last q hq.1
    · rw [windowEndDue_finishWindowEnd]
      exact distinct.filter _
    · rw [finishWindowEnd_frame] at por
      rw [(held por).1] at due
      cases due
  · rw [finishWindowEnd, if_neg due]
    exact ⟨last, distinct, held⟩

/-- Expiry leaves every context but OUTSTANDING COUNT and the causes. -/
theorem reg_finishExpiry (s : State) (r : RegNo) :
    ∃ n bits, reg (finishExpiry s) r = { reg s r with outstandingCount := n, causes := bits } := by
  have runs : ∀ (l : List OutEntry) (t : State), ∃ n, reg (l.foldl (fun t lead => abandonRun lead t) t) r =
      { reg t r with outstandingCount := n } := by
    intro l
    induction l with
    | nil => exact fun t => ⟨_, rfl⟩
    | cons lead l ih =>
      intro t
      obtain ⟨n, later⟩ := ih (abandonRun lead t)
      rw [List.foldl_cons, later, abandonRun_eq]
      split
      · obtain ⟨m, -, now⟩ := released_abandonAll t r (lead := lead)
        rw [now]
        exact ⟨n, rfl⟩
      · exact ⟨n, rfl⟩
  unfold finishExpiry
  split
  · obtain ⟨n, abandoned⟩ := runs (leaders s) s
    have before : reg (matchOffered (timeoutCause s (abandonRuns s))) r = reg (abandonRuns s) r := by simp [reg]
    change ∃ n bits, reg (consider (matchOffered (timeoutCause s (abandonRuns s)))) r = _
    rw [reg_consider, before, abandonRuns, abandoned]
    split
    · exact ⟨n, _, rfl⟩
    · exact ⟨n, _, rfl⟩
  · exact ⟨_, _, rfl⟩

theorem tickOk_finishExpiry (ok : TickOk s) : TickOk (finishExpiry s) := by
  obtain ⟨last, distinct, held⟩ := ok
  have ends : (finishExpiry s).windowEndDue = s.windowEndDue := by rw [finishExpiry_frame]
  refine ⟨fun r due => ?_, ends ▸ distinct, fun por => ⟨?_, expiryDue_finishExpiry s⟩⟩
  · obtain ⟨n, bits, context⟩ := reg_finishExpiry s r
    rw [context]
    exact last r (ends ▸ due)
  · rw [finishExpiry_frame] at por
    exact ends.trans (held por).1

/-! ## While POR is asserted (R23, R204) -/

/-- The state while POR is asserted, by the lines and the offers. -/
def heldAt (prst sel : Bool) (syn : Vector SynLine 4) (offer : Option Offer) (memory : Option Response)
    (pending : List Instr) : State :=
  { State.reset with
    por := true
    prst := prst
    sel := sel
    syn := mapSlots unsampled syn
    offer := offer.map freshOffer
    memoryOffer := memory
    pending := pending }

theorem porHeld_heldAt (prst sel : Bool) (syn : Vector SynLine 4) (offer : Option Offer) (memory : Option Response)
    (pending : List Instr) : PorHeld (heldAt prst sel syn offer memory pending) := by
  intro _
  have lines : mapSlots unsampled (mapSlots unsampled syn) = mapSlots unsampled syn := by
    rw [mapSlots_mapSlots]
    rfl
  have offers : (offer.map freshOffer).map freshOffer = offer.map freshOffer := by
    rw [Option.map_map]
    rfl
  simp only [heldAt, blocksReset, lines, offers]

theorem eq_heldAt_of_porHeld (held : PorHeld s) (por : s.por = true) :
    s = heldAt s.prst s.sel s.syn s.offer s.memoryOffer s.pending := held por

theorem flowing_of_por (por : s.por = true) : flowing s = false := by rw [flowing, por]; rfl

theorem considered_of_held (held : flowing s = false) : considered s = none := by
  unfold considered
  split
  · rw [held]
    rfl
  · rfl

theorem award_of_held (held : flowing s = false) : award s = none := by
  rw [award, held]
  rfl

theorem choice_of_held (held : flowing s = false) : choice s = none := by
  cases chosen : choice s with
  | none => rfl
  | some p =>
    obtain ⟨flows, -⟩ := (choice_eq_some_iff s p.1 p.2).mp chosen
    rw [held] at flows
    cases flows

/-! The events of the path in a state that has none of them. -/

theorem forwardTake_of_none (idle : considered s = none) : forwardTake s = s := by rw [forwardTake, idle]

theorem denyEntryTake_of_none (idle : considered s = none) : denyEntryTake s = s := by rw [denyEntryTake, idle]

theorem directDenial_of_not_award (other : award s ≠ some .intake) : directDenial s = s := if_neg other

theorem denyEmission_of_not_award (other : award s ≠ some .denyHead) : denyEmission s = s := if_neg other

theorem responseEntersQueue_of_not_award (other : award s ≠ some .memory) : responseEntersQueue s = s := if_neg other

theorem timeoutResponse_of_not_award (other : award s ≠ some .timeoutList) : timeoutResponse s = s := if_neg other

theorem grant_of_no_choice (idle : choice s = none) : grant s = s := by rw [grant, idle]

theorem memoryTakes_of_held (held : flowing s = false) : memoryTakes s = s := if_neg (by rw [held]; decide)

theorem interconnectTakes_of_held (held : flowing s = false) : interconnectTakes s = s := if_neg (by rw [held]; decide)

theorem matchOffered_of_held (held : flowing s = false) : matchOffered s = s := by
  cases offered : s.memoryOffer with
  | none => exact matchOffered_none offered
  | some u =>
    rw [matchOffered_some offered, if_neg (by rw [held]; decide)]

end

/-! ## What every command keeps -/

/-- The waiting commands stay, and the port, the tick in progress and the state held by POR stay sound. -/
structure Orderly (s t : State) : Prop where
  pending : t.pending = s.pending
  port : PortOk s → PortOk t
  tick : TickOk s → TickOk t
  held : PorHeld s → PorHeld t

theorem Orderly.refl (s : State) : Orderly s s := ⟨rfl, id, id, id⟩

theorem Orderly.trans {s t u : State} (first : Orderly s t) (second : Orderly t u) : Orderly s u :=
  ⟨second.pending.trans first.pending, fun h => second.port (first.port h), fun h => second.tick (first.tick h),
    fun h => second.held (first.held h)⟩

section
variable {s t : State}

theorem porHeld_of_deasserted (por : t.por = false) : PorHeld t := fun asserted => by
  rw [por] at asserted
  cases asserted

theorem porHeld_of_asserted (por : t.por = s.por) (asserted : s.por = true → PorHeld t) : PorHeld t := fun h =>
  asserted (por.symm.trans h) h

/-- An event of a flowing path on a finished tick; while POR is asserted it is none. -/
theorem orderly_of_steady (quiet : Quiet s) (steady : Steady s t) (still : s.por = true → t = s) : Orderly s t := by
  refine ⟨steady.pending, fun ok => portOk_of_same ok steady.por steady.port steady.sel,
    fun _ => tickOk_of_quiet (steady.quiet quiet), fun held => porHeld_of_asserted steady.por fun por => ?_⟩
  exact still por ▸ held

theorem unsampled_of_porHeld (held : PorHeld s) (por : s.por = true) : mapSlots unsampled s.syn = s.syn :=
  (congrArg State.syn (held por)).symm

theorem freshOffer_of_porHeld (held : PorHeld s) (por : s.por = true) : s.offer.map freshOffer = s.offer :=
  (congrArg State.offer (held por)).symm

/-- While POR is asserted only the lines and the offers move. -/
theorem porHeld_of_lines (held : PorHeld s) (por : s.por = true) (unkept : mapSlots unsampled t.syn = t.syn)
    (fresh : t.offer.map freshOffer = t.offer)
    (frame : t = { s with
      prst := t.prst, sel := t.sel, syn := t.syn, offer := t.offer, memoryOffer := t.memoryOffer }) : PorHeld t := by
  have after : t = heldAt t.prst t.sel t.syn t.offer t.memoryOffer s.pending := by
    rw [heldAt, unkept, fresh]
    refine frame.trans ?_
    rw [eq_heldAt_of_porHeld held por]
    rfl
  rw [after]
  exact porHeld_heldAt t.prst t.sel t.syn t.offer t.memoryOffer s.pending

theorem orderly_finishWindowEnd (r : RegNo) (s : State) : Orderly s (finishWindowEnd r s) := by
  have frame := finishWindowEnd_frame r s
  have por : (finishWindowEnd r s).por = s.por := by rw [frame]
  refine ⟨by rw [frame], fun ok => portOk_of_same ok por (by rw [frame]) (by rw [frame]), tickOk_finishWindowEnd r,
    fun held => ?_⟩
  cases asserted : s.por with
  | false => exact porHeld_of_deasserted (por.trans asserted)
  | true =>
    have noEnds : r ∉ s.windowEndDue := by
      rw [eq_heldAt_of_porHeld held asserted]
      exact List.not_mem_nil
    rwa [finishWindowEnd, if_neg noEnds]

theorem orderly_finishExpiry (s : State) : Orderly s (finishExpiry s) := by
  have frame := finishExpiry_frame s
  have por : (finishExpiry s).por = s.por := by rw [frame]
  refine ⟨by rw [frame], fun ok => portOk_of_same ok por (by rw [frame]) (by rw [frame]), tickOk_finishExpiry,
    fun held => ?_⟩
  cases asserted : s.por with
  | false => exact porHeld_of_deasserted (por.trans asserted)
  | true =>
    have noExpiry : s.expiryDue = false := by
      rw [eq_heldAt_of_porHeld held asserted]
      rfl
    rwa [finishExpiry, noExpiry]

theorem orderly_settleTick (s : State) : Orderly s (settleTick s) := by
  have ends : ∀ (l : List RegNo) (t : State), Orderly t (l.foldl (fun t r => finishWindowEnd r t) t) := by
    intro l
    induction l with
    | nil => exact .refl
    | cons r l ih => exact fun t => (orderly_finishWindowEnd r t).trans (ih _)
  exact (orderly_finishExpiry s).trans (ends _ _)

/-- An event of a part whose POR is deasserted before and after it. -/
theorem orderly_of_running (pending : t.pending = s.pending) (por : t.por = false) (quiet : Quiet t)
    (port : PortOk s → PortOk t) : Orderly s t :=
  ⟨pending, port, fun _ => tickOk_of_quiet quiet, fun _ => porHeld_of_deasserted por⟩

theorem orderly_takeTick (por : s.por = false) : Orderly s (takeTick s) :=
  ⟨rfl, id, fun _ => tickOk_takeTick por, fun _ => porHeld_of_deasserted por⟩

theorem orderly_refclkPeriod (s : State) : Orderly s (refclkPeriod s) := by
  have settled := orderly_settleTick s
  unfold refclkPeriod
  dsimp only
  split
  · exact settled
  next por =>
    have deasserted : (settleTick s).por = false := by simpa using por
    split
    · exact settled.trans (orderly_of_steady (quiet_settleTick s) (steady_passPeriods 1 _) fun asserted => absurd asserted por)
    · exact (settled.trans (orderly_takeTick deasserted)).trans (orderly_settleTick _)

/-- A frame leaves a part whose POR is deasserted, with no tick in progress and the waiting commands it found. -/
theorem running_performReply (c : FrameCommand) (quiet : Quiet s) (por : s.por = false) :
    (performReply c s).por = false ∧ Quiet (performReply c s) ∧ (performReply c s).pending = s.pending := by
  by_cases reset : c = .fullReset
  · subst reset
    change (fullReset s).1.por = false ∧ Quiet (fullReset s).1 ∧ (fullReset s).1.pending = s.pending
    unfold fullReset
    split
    · have steady := steady_resume (blocksReset s)
      exact ⟨steady.por, steady.quiet ⟨rfl, rfl⟩, steady.pending⟩
    · exact ⟨por, quiet, rfl⟩
  · have steady := steady_perform reset s
    exact ⟨steady.por.trans por, steady.quiet quiet, steady.pending⟩

theorem orderly_performReply (c : FrameCommand) (quiet : Quiet s) (por : s.por = false) : Orderly s (performReply c s) := by
  obtain ⟨stillRunning, stillQuiet, pending⟩ := running_performReply c quiet por
  exact orderly_of_running pending stillRunning stillQuiet fun _ => portOk_enterReply ..

theorem portReady_of_portOpen (isOpen : portOpen s = true) : s.por = false ∧ s.port ≠ .barred := by
  simpa [portOpen] using isOpen

theorem orderly_receive (c : FrameCommand) (s : State) : Orderly s (receive c s) := by
  refine (orderly_settleTick s).trans ?_
  unfold receive
  dsimp only
  split
  next isOpen => exact orderly_performReply c (quiet_settleTick s) (portReady_of_portOpen isOpen).1
  · exact .refl _

/-- A completed byte slot in COMMAND performs a command, or moves the port alone. -/
theorem receiveByte_cases (received : List Byte) (b : Byte) (s : State) :
    (∃ c, receiveByte received b s = performReply c s)
      ∨ ∃ sel port causes, receiveByte received b s = { s with sel := sel, port := port, deviceCauses := causes } := by
  unfold receiveByte
  dsimp only
  split
  · exact .inr ⟨_, _, _, unknownFrame_eq s⟩
  · split
    · exact .inr ⟨_, _, _, rfl⟩
    · split
      · split
        next c _ => exact .inl ⟨c, rfl⟩
        · exact .inr ⟨_, _, _, badFrame_eq s⟩
      · exact .inr ⟨_, _, _, badFrame_eq s⟩

theorem running_receiveByte (received : List Byte) (b : Byte) (quiet : Quiet s) (por : s.por = false) :
    (receiveByte received b s).por = false ∧ Quiet (receiveByte received b s)
      ∧ (receiveByte received b s).pending = s.pending := by
  rcases receiveByte_cases received b s with ⟨c, performed⟩ | ⟨sel, port, causes, moved⟩
  · rw [performed]
    exact running_performReply c quiet por
  · rw [moved]
    exact ⟨por, quiet, rfl⟩

theorem orderly_receiveByte {received : List Byte} {b : Byte} (quiet : Quiet s) (por : s.por = false)
    (selected : PortOk s → s.sel = true) : Orderly s (receiveByte received b s) := by
  obtain ⟨stillRunning, stillQuiet, pending⟩ := running_receiveByte received b quiet por
  exact orderly_of_running pending stillRunning stillQuiet fun ok => portOk_receiveByte (selected ok)

/-- A completed byte slot is received in COMMAND, or moves the port alone. -/
theorem slotDone_cases (b : Byte) (s : State) :
    (∃ received, s.port = .command received ∧ slotDone b s = receiveByte received b s)
      ∨ ∃ p, slotDone b s = { s with port := p } := by
  unfold slotDone
  split
  · exact .inr ⟨s.port, rfl⟩
  next received command => exact .inl ⟨received, command, rfl⟩
  · exact .inr ⟨_, rfl⟩
  · exact .inr ⟨_, rfl⟩
  · exact .inr ⟨s.port, rfl⟩
  · exact .inr ⟨s.port, rfl⟩

theorem orderly_slotDone (b : Byte) (quiet : Quiet s) (por : s.por = false) : Orderly s (slotDone b s) := by
  have port : PortOk s → PortOk (slotDone b s) := portOk_slotDone por
  rcases slotDone_cases b s with ⟨received, command, received_eq⟩ | ⟨p, moved⟩
  · rw [received_eq]
    exact orderly_receiveByte quiet por fun ok => selected_of_portOk ok por (by simp [command])
  · rw [moved] at port ⊢
    exact orderly_of_running rfl por quiet port

theorem orderly_selAssert (quiet : Quiet s) : Orderly s (selAssert s) := by
  unfold selAssert
  split
  next por =>
    refine ⟨rfl, fun ok => ⟨fun deasserted => ?_, ok.2⟩, fun _ => tickOk_of_quiet quiet, fun held => ?_⟩
    · have still : s.por = false := deasserted
      rw [por] at still
      cases still
    · have unkept := unsampled_of_porHeld held por
      have fresh := freshOffer_of_porHeld held por
      exact porHeld_of_lines held por unkept fresh rfl
  next por =>
    have deasserted : s.por = false := by simpa using por
    split
    · exact orderly_of_running rfl deasserted quiet fun _ =>
        ⟨fun _ => ⟨fun idle => (nomatch idle), fun deselected => (nomatch deselected)⟩, rfl⟩
    next busy =>
      refine orderly_of_running rfl deasserted quiet fun ok => ⟨fun _ => ⟨fun idle => absurd idle busy, fun h => (nomatch h)⟩, ok.2⟩

/-- POR and PRST. -/
theorem orderly_blocksReset (s : State) : Orderly s { blocksReset s with por := true } := by
  refine ⟨rfl, fun _ => ⟨fun deasserted => (nomatch deasserted), rfl⟩, fun _ => tickOk_of_quiet ⟨rfl, rfl⟩, fun _ => ?_⟩
  exact porHeld_heldAt s.prst s.sel s.syn s.offer s.memoryOffer s.pending

theorem orderly_porDeassert (s : State) : Orderly s (porDeassert s) := by
  unfold porDeassert
  split
  · have steady := steady_resume { blocksReset s with port := if s.sel then .barred else .idle }
    refine orderly_of_running steady.pending steady.por (steady.quiet ⟨rfl, rfl⟩) fun _ => ?_
    refine portOk_of_same ⟨fun _ => ?_, ?_⟩ steady.por steady.port steady.sel
    · show (if s.sel then Port.barred else .idle) = .idle ↔ s.sel = false
      cases s.sel <;> simp
    · show portHolds (if s.sel then Port.barred else .idle) = true
      cases s.sel <;> rfl
  · exact .refl s

theorem orderly_prstAssert (quiet : Quiet s) : Orderly s (prstAssert s) := by
  unfold prstAssert
  split
  · exact .refl s
  · refine ⟨rfl, id, fun _ => tickOk_of_quiet quiet, fun held => porHeld_of_asserted (s := s) rfl fun por => ?_⟩
    have unkept := unsampled_of_porHeld held por
    have fresh := freshOffer_of_porHeld held por
    refine porHeld_of_lines held por unkept fresh ?_
    rw [eq_heldAt_of_porHeld held por]
    have regs : mapSlots fallToArmed State.reset.regs = State.reset.regs := by decide
    simp only [pathReset, heldAt, regs]
    rfl

theorem orderly_prstDeassert (quiet : Quiet s) : Orderly s (prstDeassert s) := by
  unfold prstDeassert
  split
  · have steady := steady_resume { s with prst := false, offer := s.offer.map freshOffer }
    refine ⟨steady.pending, fun ok => portOk_of_same ok steady.por steady.port steady.sel,
      fun _ => tickOk_of_quiet (steady.quiet quiet), fun held => porHeld_of_asserted steady.por fun por => ?_⟩
    have stopped : flowing { s with prst := false, offer := s.offer.map freshOffer } = false := flowing_of_por por
    have unkept := unsampled_of_porHeld held por
    have fresh := freshOffer_of_porHeld held por
    rw [resume, matchOffered_of_held stopped, consider_of_held stopped]
    refine porHeld_of_lines held por unkept ?_ rfl
    show (s.offer.map freshOffer).map freshOffer = s.offer.map freshOffer
    rw [fresh, fresh]
  · exact .refl s

theorem orderly_synSample (line : Fin 4) (level : Bool) (quiet : Quiet s) : Orderly s (synSample line level s) := by
  have steady := steady_synSample line level s
  refine ⟨steady.pending, fun ok => portOk_of_same ok steady.por steady.port steady.sel,
    fun _ => tickOk_of_quiet (steady.quiet quiet), fun held => porHeld_of_asserted steady.por fun por => ?_⟩
  have unkept := unsampled_of_porHeld held por
  have fresh := freshOffer_of_porHeld held por
  have slot : ∀ k : Fin 4, unsampled s.syn[k] = s.syn[k] := fun k => by
    conv_rhs => rw [← unkept, mapSlots_get]
  rw [synSample, if_pos por]
  refine porHeld_of_lines held por (slots_ext fun l => ?_) fresh rfl
  rw [mapSlots_get, set_get]
  split
  · have noKept : (s.syn[line]).kept = none := (congrArg SynLine.kept (slot line)).symm
    exact congrArg (SynLine.mk level) noKept.symm
  · exact slot l

theorem orderly_requestOffered (q : Request) (quiet : Quiet s) :
    Orderly s (consider { s with offer := some { request := q, quotaRun := none, poolRun := false } }) := by
  have steady := steady_consider { s with offer := some { request := q, quotaRun := none, poolRun := false } }
  refine ⟨steady.pending, fun ok => portOk_of_same ok steady.por steady.port steady.sel,
    fun _ => tickOk_of_quiet (steady.quiet quiet), fun held => porHeld_of_asserted steady.por fun por => ?_⟩
  have unkept := unsampled_of_porHeld held por
  rw [consider_of_held (flowing_of_por por)]
  exact porHeld_of_lines held por unkept rfl rfl

theorem orderly_responseOffered (u : Response) (quiet : Quiet s) :
    Orderly s (matchOffered { s with memoryOffer := some u }) := by
  have steady := steady_matchOffered { s with memoryOffer := some u }
  refine ⟨steady.pending, fun ok => portOk_of_same ok steady.por steady.port steady.sel,
    fun _ => tickOk_of_quiet (steady.quiet quiet), fun held => porHeld_of_asserted steady.por fun por => ?_⟩
  have unkept := unsampled_of_porHeld held por
  have fresh := freshOffer_of_porHeld held por
  rw [matchOffered_of_held (flowing_of_por por)]
  exact porHeld_of_lines held por unkept fresh rfl

/-- The events of the path on a finished tick. -/
theorem orderly_ownEvents (quiet : Quiet s) :
    Orderly s (forwardTake s) ∧ Orderly s (denyEntryTake s) ∧ Orderly s (directDenial s) ∧ Orderly s (grant s)
      ∧ Orderly s (responseEntersQueue s) ∧ Orderly s (denyEmission s) ∧ Orderly s (timeoutResponse s) := by
  have noneConsidered : s.por = true → considered s = none := fun por => considered_of_held (flowing_of_por por)
  have noneAwarded : s.por = true → ∀ c, award s ≠ some c := fun por c => by simp [award_of_held (flowing_of_por por)]
  have noneChosen : s.por = true → choice s = none := fun por => choice_of_held (flowing_of_por por)
  exact ⟨orderly_of_steady quiet (steady_forwardTake s) fun por => forwardTake_of_none (noneConsidered por),
    orderly_of_steady quiet (steady_denyEntryTake s) fun por => denyEntryTake_of_none (noneConsidered por),
    orderly_of_steady quiet (steady_directDenial s) fun por => directDenial_of_not_award (noneAwarded por _),
    orderly_of_steady quiet (steady_grant s) fun por => grant_of_no_choice (noneChosen por),
    orderly_of_steady quiet (steady_responseEntersQueue s) fun por => responseEntersQueue_of_not_award (noneAwarded por _),
    orderly_of_steady quiet (steady_denyEmission s) fun por => denyEmission_of_not_award (noneAwarded por _),
    orderly_of_steady quiet (steady_timeoutResponse s) fun por => timeoutResponse_of_not_award (noneAwarded por _)⟩

end

theorem orderly_exec {c : Instr} {s t : State} (h : exec c s = .next t) : Orderly s t := by
  have settled := orderly_settleTick s
  have quiet := quiet_settleTick s
  obtain ⟨forwards, denies, direct, grants, enters, emits, owes⟩ := orderly_ownEvents quiet
  cases c <;> cases h
  case requestOffered q => exact settled.trans (orderly_requestOffered q quiet)
  case forwardTake => exact settled.trans forwards
  case denyEntryTake => exact settled.trans denies
  case directDenial => exact settled.trans direct
  case grant => exact settled.trans grants
  case memoryTakesRequest =>
    exact settled.trans (orderly_of_steady quiet (steady_memoryTakes _) fun por => memoryTakes_of_held (flowing_of_por por))
  case responseOffered u => exact settled.trans (orderly_responseOffered u quiet)
  case responseEntersQueue => exact settled.trans enters
  case denyEmission => exact settled.trans emits
  case timeoutResponse => exact settled.trans owes
  case interconnectTakesResponse =>
    exact settled.trans
      (orderly_of_steady quiet (steady_interconnectTakes _) fun por => interconnectTakes_of_held (flowing_of_por por))
  case tick =>
    refine settled.trans ?_
    split
    · exact .refl _
    next por => exact orderly_takeTick (by simpa using por)
  case windowEnd r => exact orderly_finishWindowEnd r s
  case markerPulseEnd l =>
    refine settled.trans ?_
    split
    next standing =>
      rw [Bool.and_eq_true, Bool.not_eq_true'] at standing
      refine orderly_of_steady quiet (steady_passPeriods _ _) fun por => ?_
      rw [standing.1] at por
      cases por
    · exact .refl _
  case expiry => exact orderly_finishExpiry s
  case synEdge line level => exact settled.trans (orderly_synSample line level quiet)
  case prstAsserted => exact settled.trans (orderly_prstAssert quiet)
  case prstDeasserted => exact settled.trans (orderly_prstDeassert quiet)
  case porAsserted => exact settled.trans (orderly_blocksReset _)
  case porDeasserted => exact settled.trans (orderly_porDeassert _)
  case crcMismatch =>
    refine settled.trans ?_
    split
    next isOpen =>
      have replied := portOk_enterReply .frame [] (raiseDevice .frameError (settleTick s))
      exact orderly_of_running rfl (portReady_of_portOpen isOpen).1 quiet fun _ => replied
    · exact .refl _
  case unknownCode code =>
    refine settled.trans ?_
    split
    next isOpen =>
      have por := (portReady_of_portOpen isOpen).1
      obtain ⟨stillRunning, stillQuiet, pending⟩ :=
        running_receiveByte [] code (s := { settleTick s with sel := true }) quiet por
      exact orderly_of_running pending stillRunning stillQuiet fun _ => portOk_receiveByte rfl
    · exact .refl _
  case selDeasserted =>
    refine settled.trans ⟨rfl, fun _ => ⟨fun _ => ⟨fun _ => rfl, fun _ => rfl⟩, rfl⟩, fun _ => tickOk_of_quiet quiet, fun held => ?_⟩
    refine porHeld_of_asserted (s := settleTick s) rfl fun por => ?_
    have unkept := unsampled_of_porHeld held por
    have fresh := freshOffer_of_porHeld held por
    refine porHeld_of_lines held por unkept fresh ?_
    rw [eq_heldAt_of_porHeld held por]
    rfl
  case selAsserted => exact settled.trans (orderly_selAssert quiet)
  case byteSlot b =>
    refine settled.trans ?_
    split
    · exact .refl _
    next por => exact orderly_slotDone b quiet (by simpa using por)
  all_goals exact orderly_receive _ s

theorem orderly_idle (s : State) : Orderly s (idle s) := by
  obtain ⟨forwards, denies, direct, grants, enters, emits, owes⟩ := orderly_ownEvents (quiet_settleTick s)
  refine (orderly_settleTick s).trans ?_
  unfold idle
  dsimp only
  split
  next u own =>
    unfold ownEvent at own
    split at own
    · cases own; exact owes
    · cases own; exact emits
    · cases own; exact enters
    · cases own; exact direct
    · split at own
      · cases own; exact grants
      · split at own
        · split at own
          · cases own; exact forwards
          · cases own; exact denies
          · cases own
        · cases own
  · exact orderly_refclkPeriod _

/-- What a step keeps; the waiting commands are those behind the one executed. -/
theorem step_keeps {s t : State} (stepped : step s = .next t) :
    (PortOk s → PortOk t) ∧ (TickOk s → TickOk t) ∧ (PorHeld s → PorHeld t) := by
  unfold step at stepped
  split at stepped
  · cases stepped
    have orderly := orderly_idle s
    exact ⟨orderly.port, orderly.tick, orderly.held⟩
  next c rest _ =>
    have orderly := orderly_exec stepped
    refine ⟨orderly.port, orderly.tick, fun held => orderly.held fun por => ?_⟩
    rw [eq_heldAt_of_porHeld held por]
    exact porHeld_heldAt s.prst s.sel s.syn s.offer s.memoryOffer rest rfl

/-! ## The obligations -/

/-- Settles O1: the step's own equation. -/
theorem stepExecutesFrontCommand : Obligations.StepExecutesFrontCommand := by
  intro s c rest front
  rw [step, front]

theorem exec_completes (c : Instr) (s : State) : ∃ t, exec c s = .next t := by
  cases c <;> exact ⟨_, rfl⟩

/-- Settles O2. -/
theorem everyCommandCompletesAndKeepsTheQueue : Obligations.EveryCommandCompletesAndKeepsTheQueue := by
  intro c s
  obtain ⟨t, next⟩ := exec_completes c s
  exact ⟨t, next, (orderly_exec next).pending⟩

/-- Settles O52: the lines by moves, the tick in progress event by event. -/
theorem stepKeepsMarkerLinesAndTickSound : Obligations.StepKeepsMarkerLinesAndTickSound := by
  intro s t stepped
  obtain ⟨-, tick, -⟩ := step_keeps stepped
  exact ⟨keeps_of_moves (fun _ _ => markersOk_of_move) (moves_step stepped), tick,
    keeps_of_moves (fun _ _ => synOk_of_move) (moves_step stepped)⟩

/-- Settles O53, event by event. -/
theorem stepKeepsThePortSound : Obligations.StepKeepsThePortSound := fun _ _ ok stepped => (step_keeps stepped).1 ok

/-- Settles O59: the held path by moves, the state under POR event by event. -/
theorem stepKeepsHeldPathEmpty : Obligations.StepKeepsHeldPathEmpty := by
  intro s t stepped
  obtain ⟨-, -, held⟩ := step_keeps stepped
  exact ⟨keeps_of_moves (fun _ _ => heldOk_of_move) (moves_step stepped), held⟩

end Sys2Proof.Machine
end

