-- ==== Sys2Proof/Proofs/TicksAndIdleSteps.lean ====
section
/-! The tick, the window ends of one tick, the end of a pulse, the events that cannot happen, and the step of a part with no
command waiting (R63 to R67, R131, R144, R152, R163), for O3, O5, O6, O22 and O26. -/

namespace Sys2Proof.Machine

/-- A command on a finished tick is its event. -/
theorem exec_of_quiet {c : Instr} {s : State} (event : State → State)
    (acts : ∀ s, exec c s = .next (event (settleTick s))) (quiet : Quiet s) : exec c s = .next (event s) := by
  rw [acts, settleTick_of_quiet quiet]

/-! ## Events that cannot happen (log 3) -/

section
variable {s : State}

theorem forwardTake_of_other (other : ∀ q v, considered s = some (q, v) → v.disposition ≠ .forward) :
    forwardTake s = s := by
  unfold forwardTake
  split
  next q v found =>
    split
    next forward => exact absurd forward (other q v found)
    · rfl
  · rfl

theorem denyEntryTake_of_other
    (other : ∀ q v reason, considered s = some (q, v) → v.disposition ≠ .denyEntry reason) : denyEntryTake s = s := by
  unfold denyEntryTake
  split
  next q v found =>
    split
    next reason denied => exact absurd denied (other q v reason found)
    · rfl
  · rfl

theorem interconnectTakes_of_empty (empty : s.responses = []) : interconnectTakes s = s := by
  rw [interconnectTakes, empty]
  exact ite_self s

theorem prstAssert_of_asserted (prst : s.prst = true) : prstAssert s = s := if_pos prst

theorem prstDeassert_of_deasserted (prst : s.prst = false) : prstDeassert s = s := if_neg (by rw [prst]; decide)

theorem porDeassert_of_deasserted (por : s.por = false) : porDeassert s = s := if_neg (by rw [por]; decide)

end

/-- Settles O6. -/
theorem impossibleEventsChangeNothing : Obligations.ImpossibleEventsChangeNothing := by
  intro s
  refine ⟨fun r notDue => congrArg Host.Outcome.next (if_neg notDue), fun notDue => ?_, fun quiet => ?_⟩
  · exact congrArg Host.Outcome.next (if_neg (by rw [notDue]; decide))
  have unchanged : ∀ {c : Instr} (event : State → State), (∀ s, exec c s = .next (event (settleTick s))) →
      event s = s → exec c s = .next s := fun event acts still => by rw [exec_of_quiet event acts quiet, still]
  exact ⟨fun other => unchanged forwardTake (fun _ => rfl) (forwardTake_of_other other),
    fun other => unchanged denyEntryTake (fun _ => rfl) (denyEntryTake_of_other other),
    fun other => unchanged directDenial (fun _ => rfl) (directDenial_of_not_award other),
    fun other => unchanged denyEmission (fun _ => rfl) (denyEmission_of_not_award other),
    fun other => unchanged responseEntersQueue (fun _ => rfl) (responseEntersQueue_of_not_award other),
    fun other => unchanged timeoutResponse (fun _ => rfl) (timeoutResponse_of_not_award other),
    fun failed => unchanged grant (fun _ => rfl) (grant_of_no_choice failed),
    fun empty => unchanged interconnectTakes (fun _ => rfl) (interconnectTakes_of_empty empty),
    fun prst => unchanged prstAssert (fun _ => rfl) (prstAssert_of_asserted prst),
    fun prst => unchanged prstDeassert (fun _ => rfl) (prstDeassert_of_deasserted prst),
    fun por => unchanged porDeassert (fun _ => rfl) (porDeassert_of_deasserted por)⟩

/-! ## Two window ends of one tick (R66) -/

section
variable {s : State} {r q : RegNo}

theorem finishWindowEnd_of_not_due (notDue : r ∉ s.windowEndDue) : finishWindowEnd r s = s := if_neg notDue

theorem due_after_other (due : q ∈ s.windowEndDue) (apart : q ≠ r) : q ∈ (finishWindowEnd r s).windowEndDue := by
  rw [windowEndDue_finishWindowEnd, List.mem_filter, decide_eq_true_eq]
  exact ⟨due, apart⟩

theorem source_finishWindowEnd (due : r ∈ s.windowEndDue) (l : Fin 4) :
    ((finishWindowEnd r s).markers[l]).source = (s.markers[l]).source
      ∧ ((finishWindowEnd r s).markers[l]).kind = (s.markers[l]).kind := by
  rw [markers_finishWindowEnd due]
  split <;> exact ⟨rfl, rfl⟩

/-- A line after two window ends: each reaches the lines of its own regulator. -/
theorem markers_finishWindowEnd_of_source (dueR : r ∈ s.windowEndDue) (dueQ : q ∈ s.windowEndDue) (apart : q ≠ r) (l : Fin 4)
    (notQ : (s.markers[l]).source ≠ q) :
    (finishWindowEnd q (finishWindowEnd r s)).markers[l] = (finishWindowEnd r s).markers[l]
      ∧ (finishWindowEnd r (finishWindowEnd q s)).markers[l] = (finishWindowEnd r s).markers[l] := by
  obtain ⟨sourceR, -⟩ := source_finishWindowEnd dueR l
  have still : (finishWindowEnd q s).markers[l] = s.markers[l] := by
    rw [markers_finishWindowEnd dueQ, if_neg fun h => notQ h.2.1]
  refine ⟨?_, ?_⟩
  · rw [markers_finishWindowEnd (due_after_other dueQ apart), if_neg fun h => notQ (sourceR.symm.trans h.2.1)]
  · rw [markers_finishWindowEnd (due_after_other dueR apart.symm), still, reg_finishWindowEnd dueQ, if_neg apart.symm,
      markers_finishWindowEnd dueR]

theorem finishWindowEnd_twice_frame (q r : RegNo) (s : State) :
    finishWindowEnd q (finishWindowEnd r s) =
      { s with
        regs := (finishWindowEnd q (finishWindowEnd r s)).regs
        markers := (finishWindowEnd q (finishWindowEnd r s)).markers
        windowEndDue := (finishWindowEnd q (finishWindowEnd r s)).windowEndDue } :=
  (finishWindowEnd_frame q _).trans
    (congrArg
      (fun t : State => { t with
        regs := (finishWindowEnd q (finishWindowEnd r s)).regs
        markers := (finishWindowEnd q (finishWindowEnd r s)).markers
        windowEndDue := (finishWindowEnd q (finishWindowEnd r s)).windowEndDue })
      (finishWindowEnd_frame r s))

theorem finishWindowEnd_comm (r q : RegNo) (s : State) :
    finishWindowEnd q (finishWindowEnd r s) = finishWindowEnd r (finishWindowEnd q s) := by
  by_cases same : q = r
  · rw [same]
  have absent : ∀ {a b : RegNo}, a ∉ s.windowEndDue → a ∉ (finishWindowEnd b s).windowEndDue := by
    intro a b notDue due
    rw [windowEndDue_finishWindowEnd, List.mem_filter] at due
    exact notDue due.1
  by_cases dueR : r ∈ s.windowEndDue
  · by_cases dueQ : q ∈ s.windowEndDue
    · have dueQ' := due_after_other dueQ same
      have dueR' := due_after_other dueR (Ne.symm same)
      have contexts : (finishWindowEnd q (finishWindowEnd r s)).regs = (finishWindowEnd r (finishWindowEnd q s)).regs := by
        refine slots_ext fun x => ?_
        change reg (finishWindowEnd q (finishWindowEnd r s)) x = reg (finishWindowEnd r (finishWindowEnd q s)) x
        rw [reg_finishWindowEnd dueQ', reg_finishWindowEnd dueR', reg_finishWindowEnd dueR, reg_finishWindowEnd dueQ,
          reg_finishWindowEnd dueQ, reg_finishWindowEnd dueR, if_neg same, if_neg (Ne.symm same)]
        by_cases isQ : x = q
        · rw [if_pos isQ, if_neg (isQ ▸ same), if_pos isQ]
        · rw [if_neg isQ, if_neg isQ]
      have lines : (finishWindowEnd q (finishWindowEnd r s)).markers = (finishWindowEnd r (finishWindowEnd q s)).markers := by
        refine slots_ext fun l => ?_
        by_cases notQ : (s.markers[l]).source ≠ q
        · obtain ⟨first, second⟩ := markers_finishWindowEnd_of_source dueR dueQ same l notQ
          rw [first, second]
        · have notR : (s.markers[l]).source ≠ r := fun isR => same ((not_not.mp notQ).symm.trans isR)
          obtain ⟨first, second⟩ := markers_finishWindowEnd_of_source dueQ dueR (Ne.symm same) l notR
          rw [first, second]
      have ends : (finishWindowEnd q (finishWindowEnd r s)).windowEndDue =
          (finishWindowEnd r (finishWindowEnd q s)).windowEndDue := by
        simp only [windowEndDue_finishWindowEnd, List.filter_filter, Bool.and_comm]
      rw [finishWindowEnd_twice_frame q r, finishWindowEnd_twice_frame r q, contexts, lines, ends]
    · rw [finishWindowEnd_of_not_due dueQ, finishWindowEnd_of_not_due (absent dueQ)]
  · rw [finishWindowEnd_of_not_due dueR, finishWindowEnd_of_not_due (absent dueR)]

end

/-- Settles O5: each window end reaches its own regulator and the lines of that regulator. -/
theorem windowEndsOfOneTickCommute : Obligations.WindowEndsOfOneTickCommute := by
  intro r q s a b first second
  cases first
  cases second
  exact congrArg Host.Outcome.next (finishWindowEnd_comm r q s)

/-! ## The tick (R63 to R67, R131, R138) -/

theorem anyExpiring_iff (s : State) :
    anyExpiring s = true ↔ s.responseTimeout ≠ 0 ∧ ∃ (i : Fin 64) (e : OutEntry),
      s.outstanding[i] = some e ∧ e.state = .live ∧ s.responseTimeout ≤ e.age := by
  simp only [anyExpiring, List.any_eq_true, Prod.exists, mem_inUse, expiring, Bool.and_eq_true, beq_iff_eq,
    bne_iff_ne, decide_eq_true_eq]
  constructor
  · rintro ⟨i, e, found, ⟨live, timeout⟩, old⟩
    exact ⟨timeout, i, e, found, live, old⟩
  · rintro ⟨timeout, i, e, found, live, old⟩
    exact ⟨i, e, found, ⟨live, timeout⟩, old⟩

/-- Settles O22, field by field of the tick. -/
theorem tickMovesWindowsAndAges : Obligations.TickMovesWindowsAndAges := by
  intro s quiet por
  have run : exec .tick s = .next (takeTick s) := by
    rw [exec_of_quiet (fun t => if t.por then t else takeTick t) (fun _ => rfl) quiet, if_neg (by rw [por]; decide)]
  refine ⟨takeTick s, run, rfl, fun l => ?_, fun l => ?_, ?_, fun r => reg_takeTick s r, fun r => ?_, fun i => ?_, ?_⟩
  · exact getElem_markers_passPeriods (s.interval - s.divider) s l
  · exact getElem_syn_passPeriods (s.interval - s.divider) s l
  · exact BitVec.toNat_add s.timebase 1
  · have due : r ∈ (takeTick s).windowEndDue ↔ atLastPosition (reg s r) = true := by
      simp [takeTick]
    rw [due, atLastPosition_iff, not_lt]
  · exact mapSlots_get (Option.map ageEntry) s.outstanding i
  · exact anyExpiring_iff (takeTick s)

/-! ## The end of a pulse (R163) -/

/-- Settles O26. -/
theorem markerPulseEndsLow : Obligations.MarkerPulseEndsLow := by
  intro s l quiet n
  have run := exec_of_quiet (c := .markerPulseEnd l)
    (fun t => if !t.por && pulseEndsNext l t then passPeriods t.markers[l].pulseLeft t else t) (fun _ => rfl) quiet
  refine ⟨fun por pulse room => ?_, fun impossible => ?_⟩
  · have next : (!s.por && pulseEndsNext l s) = true := by
      simp only [pulseEndsNext, por, Bool.not_false, Bool.true_and, Bool.and_eq_true, decide_eq_true_eq]
      exact ⟨pulse, room⟩
    rw [if_pos next] at run
    refine ⟨passPeriods n s, run, rfl, getElem_markers_passPeriods n s, getElem_syn_passPeriods n s, fun notGate => ?_⟩
    have line := getElem_markers_passPeriods n s l
    by_cases noKind : ((passPeriods n s).markers[l]).kind = .none
    · exact markerHigh_of_none noKind
    · have stillDeasserted : (passPeriods n s).por = false := por
      have pulseKind : ((passPeriods n s).markers[l]).kind ≠ .gate := by
        rw [line]
        exact notGate
      rw [markerHigh_of_pulse stillDeasserted pulseKind noKind, line]
      exact decide_eq_false (Nat.not_lt.mpr (Nat.sub_self n).le)
  · have none_next : ¬ (!s.por && pulseEndsNext l s) = true := by
      simp only [pulseEndsNext, Bool.and_eq_true, Bool.not_eq_true', decide_eq_true_eq]
      rintro ⟨por, pulse, room⟩
      rcases impossible with asserted | done | late
      · rw [por] at asserted
        cases asserted
      · exact absurd done pulse.ne'
      · exact absurd room late.not_ge
    rw [run, if_neg none_next]

/-! ## A step with no command waiting (R63, R144; log 2) -/

theorem step_of_no_command {s : State} (waiting : s.pending = []) (quiet : Quiet s) :
    step s = .next ((ownEvent s).getD (refclkPeriod s)) := by
  have body : idle s = (ownEvent s).getD (refclkPeriod s) := by
    unfold idle
    rw [settleTick_of_quiet quiet]
    dsimp only
    cases ownEvent s with
    | none => rfl
    | some u => rfl
  rw [step, waiting]
  exact congrArg _ body

/-- Settles O3, claim by claim. -/
theorem emptyQueueMakesOwnEventOrPassesRefclk : Obligations.EmptyQueueMakesOwnEventOrPassesRefclk := by
  intro s waiting quiet
  have run := step_of_no_command waiting quiet
  have own : ∀ {c : Instr} (event : State → State), (∀ s, exec c s = .next (event (settleTick s))) →
      ownEvent s = some (event s) → step s = exec c s := fun event acts found => by
    rw [run, found, exec_of_quiet event acts quiet, Option.getD_some]
  refine ⟨fun awarded => own timeoutResponse (fun _ => rfl) (by rw [ownEvent, awarded]),
    fun awarded => own denyEmission (fun _ => rfl) (by rw [ownEvent, awarded]),
    fun awarded => own responseEntersQueue (fun _ => rfl) (by rw [ownEvent, awarded]),
    fun awarded => own directDenial (fun _ => rfl) (by rw [ownEvent, awarded]), ?_, ?_, ?_⟩
  · intro noAward chosen
    refine own grant (fun _ => rfl) ?_
    rw [ownEvent, noAward]
    exact if_pos (Option.isSome_iff_ne_none.mpr chosen)
  · intro q v noAward noChoice found
    refine ⟨fun forward => own forwardTake (fun _ => rfl) ?_, fun reason denied => own denyEntryTake (fun _ => rfl) ?_⟩
    · simp only [ownEvent, noAward, noChoice, found, forward]
      rfl
    · simp only [ownEvent, noAward, noChoice, found, denied]
      rfl
  · intro noAward noChoice por noTake
    have idle : ownEvent s = none := by
      unfold ownEvent
      rw [noAward, noChoice]
      cases found : considered s with
      | none => rfl
      | some p =>
        obtain ⟨notForward, notDenied⟩ := noTake p.1 p.2 found
        cases disposition : p.2.disposition with
        | forward => exact absurd disposition notForward
        | denyEntry reason => exact absurd disposition (notDenied reason)
        | directDenial reason => simp [disposition]
        | stall => simp [disposition]
    have period : step s = .next (refclkPeriod s) := by rw [run, idle, Option.getD_none]
    have notAsserted : ¬ s.por = true := by rw [por]; decide
    refine ⟨fun within => ⟨passPeriods 1 s, ?_, rfl, getElem_markers_passPeriods 1 s, getElem_syn_passPeriods 1 s⟩,
      fun ends => ⟨takeTick s, ?_, ?_⟩⟩
    · rw [period, refclkPeriod, settleTick_of_quiet quiet]
      rw [if_neg notAsserted, if_pos within]
    · rw [exec_of_quiet (fun t => if t.por then t else takeTick t) (fun _ => rfl) quiet, if_neg notAsserted]
    · rw [period, refclkPeriod, settleTick_of_quiet quiet]
      rw [if_neg notAsserted, if_neg ends.not_gt]

end Sys2Proof.Machine
end

