-- ==== Sys2Proof/Proofs/ResponsesAndResets.lean ====
section
/-! The response path and the resets: matching, the claims of an award and the four awards (R104, R132 to R135, R142, R144),
and what PRST, POR and FULL RESET leave (R20 to R23, R197), for O17 to O21, O27 to O30, O48 and O50. -/

namespace Sys2Proof.Machine

/-! ## A response is offered (R132 to R135) -/

/-- The free values of log 25 for the statuses of R13. -/
theorem unexpectedSetsCause_eq_false_iff (status : ResponseStatus) :
    unexpectedSetsCause status = false ↔
      status = .denied ∧ Config.unexpectedDeniedSetsCause = false
        ∨ status = .timeout ∧ Config.unexpectedTimeoutSetsCause = false := by
  cases status <;> simp [unexpectedSetsCause]

/-- Settles O17, by what the key's oldest entry is. -/
theorem offeredResponseIsMatched : Obligations.OfferedResponseIsMatched := by
  intro s u quiet
  have run : exec (.responseOffered u) s = .next (matchOffered { s with memoryOffer := some u }) :=
    exec_of_quiet (fun t => matchOffered { t with memoryOffer := some u }) (fun _ => rfl) quiet
  refine ⟨fun held => ?_, fun flows => ⟨fun noEntry => ?_, fun i e oldest => ?_⟩⟩
  · rw [run, matchOffered_of_held (s := { s with memoryOffer := some u }) held]
  · have unmatched : oldestEntry { s with memoryOffer := some u } u.key = none := oldestEntry_eq_none noEntry
    rw [run, matchOffered_some rfl, if_pos (show flowing { s with memoryOffer := some u } = true from flows), unmatched,
      unexpectedCause_eq]
    have silent := unexpectedSetsCause_eq_false_iff u.status
    cases sets : unexpectedSetsCause u.status with
    | true => rw [if_neg fun h => absurd (silent.mpr h) (by rw [sets]; decide), if_pos rfl]
    | false => rw [if_pos (silent.mp sets), if_neg (by decide)]
  · have matched : oldestEntry { s with memoryOffer := some u } u.key = some (i, e) := oldestEntry_of_oldestAt oldest
    have outcome := matchOffered_some (s := { s with memoryOffer := some u }) rfl
    rw [if_pos (show flowing { s with memoryOffer := some u } = true from flows), matched] at outcome
    refine ⟨fun abandoned => ?_, fun live => ?_⟩
    · simp only [abandoned] at outcome
      rw [run, outcome]
    · simp only [live] at outcome
      rw [run, outcome]

/-! ## The claims of an award (R144) -/

section
variable {s : State}

theorem denyEligible_iff (e : PoolEntry) :
    denyEligible s e = true ↔ oldestPooled s e.request.key = some e ∧ (counts s e.request.key).live = 0
      ∧ (counts s e.request.key).owed = 0 := by
  simp [denyEligible, and_assoc]

theorem denyClaim_isSome_iff :
    (denyClaim s).isSome ↔ ∃ e reason, laneHead s .bypass = some e ∧ e.kind = .deny reason
      ∧ oldestPooled s e.request.key = some e ∧ (counts s e.request.key).live = 0 ∧ (counts s e.request.key).owed = 0 := by
  rw [Option.isSome_iff_exists, Prod.exists]
  refine exists_congr fun e => exists_congr fun reason => ⟨fun claim => ?_, fun ⟨head, kind, eligible⟩ => ?_⟩
  · obtain ⟨head, kind, eligible⟩ := denyClaim_eq_some claim
    exact ⟨head, kind, (denyEligible_iff e).mp eligible⟩
  · rw [denyClaim, head]
    simp only [kind]
    exact if_pos ((denyEligible_iff e).mpr eligible)

/-- With distinct places the oldest entry of a key is older than all others. -/
theorem oldestAt_of_oldestEntry (places : ∀ p ∈ inUse s, ∀ q ∈ inUse s, p.2.place = q.2.place → p.1 = q.1) {k : Key}
    {p : Fin 64 × OutEntry} (oldest : oldestEntry s k = some p) : OldestAt s k p.1 p.2 := by
  obtain ⟨used, key⟩ := mem_of_oldestEntry oldest
  refine ⟨(mem_inUse s p).mp used, key, fun j f found sameKey other => ?_⟩
  have usedF : (j, f) ∈ inUse s := (mem_inUse s (j, f)).mpr found
  rw [oldestEntry_eq_argmin] at oldest
  have least : p.2.place ≤ f.place :=
    List.le_of_mem_argmin (a := (j, f)) (List.mem_filter.mpr ⟨usedF, by simpa using sameKey⟩) oldest
  exact lt_of_le_of_ne least fun same => other (places p used (j, f) usedF same).symm

theorem liveMatch_isSome_iff (places : ∀ p ∈ inUse s, ∀ q ∈ inUse s, p.2.place = q.2.place → p.1 = q.1) :
    (liveMatch s).isSome ↔ ∃ u i e, s.memoryOffer = some u ∧ OldestAt s u.key i e ∧ e.state = .live := by
  rw [Option.isSome_iff_ne_none, liveMatch_ne_none_iff]
  constructor
  · rintro ⟨u, p, offered, oldest, live⟩
    exact ⟨u, p.1, p.2, offered, oldestAt_of_oldestEntry places oldest, live⟩
  · rintro ⟨u, i, e, offered, oldest, live⟩
    exact ⟨u, (i, e), offered, oldestEntry_of_oldestAt oldest, live⟩

theorem intakeClaim_isSome_iff :
    (intakeClaim s).isSome ↔ ∃ q v reason, considered s = some (q, v) ∧ v.disposition = .directDenial reason := by
  constructor
  · intro claim
    obtain ⟨⟨q, reason, t⟩, claim⟩ := Option.isSome_iff_exists.mp claim
    obtain ⟨v, found, disposition, -⟩ := intakeClaim_eq_some claim
    exact ⟨q, v, reason, found, disposition⟩
  · rintro ⟨q, v, reason, found, disposition⟩
    rw [intakeClaim, found]
    simp only [disposition]
    rfl

end

/-- Settles O18: each claim of the model's chain is the claim of the spec. -/
theorem awardGoesToFirstStandingClaim : Obligations.AwardGoesToFirstStandingClaim := by
  classical
  intro s places place deny memory intake
  have chain : award s =
      if place then
        if s.owed ≠ [] then some .timeoutList
        else if deny then some .denyHead
        else if memory then some .memory
        else if intake then some .intake
        else none
      else none := by
    unfold award
    refine if_congr ?_ (if_congr Iff.rfl rfl (if_congr denyClaim_isSome_iff rfl
      (if_congr (liveMatch_isSome_iff places) rfl (if_congr intakeClaim_isSome_iff rfl rfl)))) rfl
    rw [Bool.and_eq_true, decide_eq_true_eq]
    rfl
  rw [chain]
  by_cases free : place
  · by_cases owed : s.owed = []
    · by_cases denies : deny
      · simp [free, owed, denies]
      · by_cases answers : memory
        · simp [free, owed, denies, answers]
        · by_cases claims : intake
          · simp [free, owed, denies, answers, claims]
          · simp [free, owed, denies, answers, claims]
    · simp [free, owed]
  · simp [free]

/-! ## The awards -/

section
variable {s : State}

/-- Settles O19. -/
theorem memoryResponseEntersTheQueue : Obligations.MemoryResponseEntersTheQueue := by
  intro s m i e quiet awarded offered oldest
  obtain ⟨⟨u, p⟩, found⟩ := Option.isSome_iff_exists.mp ((claim_of_award awarded).2.2.1 rfl)
  obtain ⟨offeredU, oldestU, -⟩ := liveMatch_eq_some found
  cases offered.symm.trans offeredU
  cases (oldestEntry_of_oldestAt oldest).symm.trans oldestU
  obtain ⟨-, key, -⟩ := oldest
  have outcome : responseEntersQueue s = consider (closeEntry i e (enterQueue m { s with memoryOffer := none })) := by
    rw [responseEntersQueue, if_pos awarded, found]
  refine ⟨closeEntry i e (enterQueue m { s with memoryOffer := none }), ?_, ?_, fun k => ?_, fun r => ?_⟩
  · rw [exec_of_quiet responseEntersQueue (fun _ => rfl) quiet, outcome]
  · rw [closeEntry_frame]
    simp [enterQueue, closeEntry]
  · rw [counts_closeEntry, key]
    split
    next same =>
      subst same
      rfl
    · rfl
  · rw [reg_closeEntry]
    rfl

/-- Settles O20. -/
theorem denyEmissionAnswersTheHead : Obligations.DenyEmissionAnswersTheHead := by
  intro s quiet awarded
  obtain ⟨⟨e, reason⟩, claim⟩ := Option.isSome_iff_exists.mp ((claim_of_award awarded).2.1 rfl)
  obtain ⟨head, kind, -⟩ := denyClaim_eq_some claim
  have outcome : denyEmission s = consider (deny e.request reason e.target (leavePool e s)) := by
    rw [denyEmission, if_pos awarded, claim]
  refine ⟨e, reason, head, kind, deny e.request reason e.target (leavePool e s), ?_, ?_, fun k => ?_, ?_⟩
  · rw [exec_of_quiet denyEmission (fun _ => rfl) quiet, outcome]
  · refine (deny_frame ..).trans ?_
    rw [markers_deny, deny_tracker]
    rfl
  · have counted : counts (deny e.request reason e.target (leavePool e s)) k = counts (leavePool e s) k :=
      counts_congr (by simp) k
    rw [counted, counts_leavePool]
    split
    next same =>
      subst same
      rfl
    · rfl
  · exact denialEffect_deny e.request reason e.target (leavePool e s)

/-- Settles O21. -/
theorem timeoutResponseEntersTheQueue : Obligations.TimeoutResponseEntersTheQueue := by
  intro s quiet awarded
  obtain ⟨x, rest, owed⟩ := List.exists_cons_of_ne_nil ((claim_of_award awarded).1 rfl)
  have outcome : timeoutResponse s = consider (setCounts (enterQueue (timeoutUnit x) { s with owed := rest }) x.key
      { counts s x.key with owed := (counts s x.key).owed - 1 }) := by
    rw [timeoutResponse, if_pos awarded, owed]
  refine ⟨x, rest, owed, _, (exec_of_quiet timeoutResponse (fun _ => rfl) quiet).trans (congrArg _ outcome), rfl,
    fun k => ?_⟩
  rw [counts_setCounts]
  split
  next same =>
    subst same
    rfl
  · rfl

end

/-! ## PRST (R20, R22) -/

/-- Settles O27. -/
theorem prstEmptiesThePath : Obligations.PrstEmptiesThePath := by
  intro s quiet prst
  have outcome : prstAssert s = pathReset s := if_neg (by rw [prst]; decide)
  refine ⟨pathReset s, ?_, rfl, fun k => ?_, fun i => ?_, fun r => ?_⟩
  · rw [exec_of_quiet prstAssert (fun _ => rfl) quiet, outcome]
  · exact Vector.getElem_replicate ..
  · exact Vector.getElem_replicate ..
  · rw [reg_pathReset, fallToArmed]
    exact if_congr (laneInUse_iff _) rfl rfl

theorem with_offer {t : State} {offer : Option Offer} (stands : t.offer = offer) : { t with offer := offer } = t := by
  subst stands
  rfl

theorem with_memoryOffer {t : State} {unit : Option Response} (stands : t.memoryOffer = unit) :
    { t with memoryOffer := unit } = t := by
  subst stands
  rfl

section
variable {b : State}

/-- The link resumes with the offers that stand: the response is matched as offered now, and then the request is
considered as offered now. -/
theorem resume_eq_offers (quiet : Quiet b) :
    (resume { b with offer := none, memoryOffer := none } = { b with offer := none, memoryOffer := none })
    ∧ (∀ u, .next (resume { b with offer := none, memoryOffer := some u }) =
        exec (.responseOffered u) { b with offer := none })
    ∧ (∀ o : Offer, .next (resume { b with offer := some (freshOffer o), memoryOffer := none }) =
        exec (.requestOffered o.request) { b with memoryOffer := none })
    ∧ ∀ (o : Offer) u, ∃ m, exec (.responseOffered u) { b with offer := none } = .next m
        ∧ .next (resume { b with offer := some (freshOffer o), memoryOffer := some u }) =
          exec (.requestOffered o.request) m := by
  have offered : ∀ u, exec (.responseOffered u) { b with offer := none } =
      .next (matchOffered { b with offer := none, memoryOffer := some u }) := fun u =>
    exec_of_quiet (s := { b with offer := none }) (fun t => matchOffered { t with memoryOffer := some u }) (fun _ => rfl) quiet
  have requested : ∀ (q : Request) (t : State), Quiet t → exec (.requestOffered q) t =
      .next (consider { t with offer := some { request := q, quotaRun := none, poolRun := false } }) := fun q t =>
    exec_of_quiet (fun t => consider { t with offer := some { request := q, quotaRun := none, poolRun := false } })
      fun _ => rfl
  refine ⟨?_, fun u => ?_, fun o => ?_, fun o u => ⟨_, offered u, ?_⟩⟩
  · rw [resume, matchOffered_none rfl, consider_none rfl]
  · rw [offered, resume, consider_none]
    simp
  · rw [requested _ { b with memoryOffer := none } quiet, resume, matchOffered_none rfl]
    rfl
  · have steady := steady_matchOffered { b with offer := none, memoryOffer := some u }
    rw [requested _ _ (steady.quiet quiet), resume, ← matchOffered_offer_comm]
    rfl

end

/-- Settles O28: the resumption of the link at the part as PRST leaves it. -/
theorem prstDeassertionResumesTheLink : Obligations.PrstDeassertionResumesTheLink := by
  intro s quiet prst t
  have run : exec .prstDeasserted s = .next (resume { t with offer := s.offer.map freshOffer }) := by
    rw [exec_of_quiet prstDeassert (fun _ => rfl) quiet, prstDeassert, if_pos prst]
  obtain ⟨nothing, response, request, both⟩ := resume_eq_offers (b := t) quiet
  have unit : ∀ (offer : Option Offer) {m : Option Response}, s.memoryOffer = m →
      { t with offer := offer, memoryOffer := m } = { t with offer := offer } := fun offer _ stands =>
    with_memoryOffer (t := { t with offer := offer }) stands
  refine ⟨fun noOffer noResponse => ?_, fun u noOffer offered => ?_, fun o offer noResponse => ?_,
    fun o u offer offered => ?_⟩
  · rw [unit _ noResponse, with_offer (t := t) noOffer] at nothing
    rw [run, noOffer, Option.map_none, with_offer (t := t) noOffer, nothing]
  · rw [run, noOffer, Option.map_none, ← unit _ offered, response, with_offer (t := t) noOffer]
  · rw [run, offer, Option.map_some, ← unit _ noResponse, request, with_memoryOffer (t := t) noResponse]
  · obtain ⟨m, matched, considered⟩ := both o u
    exact ⟨m, matched, by rw [run, offer, Option.map_some, ← unit _ offered, considered]⟩

/-! ## POR (R23) -/

/-- Settles O29: the values of the model's reset. -/
theorem porResetsEveryBlock : Obligations.PorResetsEveryBlock := fun _ quiet =>
  exec_of_quiet (fun t => { blocksReset t with por := true }) (fun _ => rfl) quiet

/-- A reset that leaves b and takes up the offers that stood. -/
theorem resumes_as_offered {c : Instr} {s b : State} (quiet : Quiet b) (noOffer : b.offer = none)
    (noResponse : b.memoryOffer = none)
    (run : exec c s = .next (resume { b with offer := s.offer.map freshOffer, memoryOffer := s.memoryOffer })) :
    (s.offer = none → s.memoryOffer = none → exec c s = .next b)
    ∧ (∀ u, s.offer = none → s.memoryOffer = some u → exec c s = exec (.responseOffered u) b)
    ∧ (∀ o, s.offer = some o → s.memoryOffer = none → exec c s = exec (.requestOffered o.request) b)
    ∧ ∀ o u, s.offer = some o → s.memoryOffer = some u →
        ∃ m, exec (.responseOffered u) b = .next m ∧ exec c s = exec (.requestOffered o.request) m := by
  obtain ⟨nothing, response, request, both⟩ := resume_eq_offers quiet
  rw [with_offer noOffer] at response both
  rw [with_memoryOffer noResponse] at request
  refine ⟨fun gone absent => ?_, fun u gone offered => ?_, fun o offer absent => ?_, fun o u offer offered => ?_⟩
  · rw [run, gone, absent, Option.map_none, nothing]
    exact congrArg _ ((with_memoryOffer (t := { b with offer := none }) noResponse).trans (with_offer noOffer))
  · rw [run, gone, offered, Option.map_none, response]
  · rw [run, offer, absent, Option.map_some, request]
  · obtain ⟨m, matched, considered⟩ := both o u
    exact ⟨m, matched, by rw [run, offer, offered, Option.map_some, considered]⟩

/-- Settles O30: the resumption of the link at the reset values. -/
theorem porDeassertionStartsThePart : Obligations.PorDeassertionStartsThePart := by
  intro s quiet por t
  have run : exec .porDeasserted s =
      .next (resume { t with offer := s.offer.map freshOffer, memoryOffer := s.memoryOffer }) := by
    rw [exec_of_quiet porDeassert (fun _ => rfl) quiet, porDeassert, if_pos por]
    rfl
  exact resumes_as_offered ⟨rfl, rfl⟩ rfl rfl run

/-! ## FULL RESET (R197, R198) -/

/-- The link resumes whatever the port holds. -/
theorem consider_port_comm (s : State) (sel : Bool) (port : Port) :
    consider { s with sel := sel, port := port } = { consider s with sel := sel, port := port } := by
  have quota : ∀ (v : Verdict) (o : Offer), quotaCause v o { s with sel := sel, port := port } =
      { quotaCause v o s with sel := sel, port := port } := by
    intro v o
    unfold quotaCause
    split
    · split <;> rfl
    · rfl
  have full : ∀ (v : Verdict) (o : Offer) (t : State), fullCause v o { t with sel := sel, port := port } =
      { fullCause v o t with sel := sel, port := port } := by
    intro v o t
    unfold fullCause
    split <;> rfl
  obtain absent | ⟨o, offered⟩ := Option.eq_none_or_eq_some s.offer
  · rw [consider_none absent, consider_none (s := { s with sel := sel, port := port }) absent]
  · cases flows : flowing s with
    | false => rw [consider_of_held flows, consider_of_held (s := { s with sel := sel, port := port }) flows]
    | true =>
      have judged : judge { s with sel := sel, port := port } o.request = judge s o.request := rfl
      rw [consider_eq offered flows, consider_eq (s := { s with sel := sel, port := port }) offered flows, judged, quota, full]

theorem matchOffered_port_comm (s : State) (sel : Bool) (port : Port) :
    matchOffered { s with sel := sel, port := port } = { matchOffered s with sel := sel, port := port } := by
  obtain absent | ⟨u, offered⟩ := Option.eq_none_or_eq_some s.memoryOffer
  · rw [matchOffered_none absent, matchOffered_none (s := { s with sel := sel, port := port }) absent]
  · have flows : flowing { s with sel := sel, port := port } = flowing s := rfl
    have oldest : oldestEntry { s with sel := sel, port := port } u.key = oldestEntry s u.key := rfl
    rw [matchOffered_some offered, matchOffered_some (s := { s with sel := sel, port := port }) offered, flows, oldest]
    split
    · split
      · simp
      · split <;> rfl
    · rfl

theorem resume_port_comm (s : State) (sel : Bool) (port : Port) :
    resume { s with sel := sel, port := port } = { resume s with sel := sel, port := port } := by
  rw [resume, matchOffered_port_comm, consider_port_comm, resume]

theorem pathEmpty_iff (s : State) :
    pathEmpty s = true ↔
      s.pool = [] ∧ (∀ i : Fin 64, s.outstanding[i] = none) ∧ s.responses = [] ∧ s.owed = [] ∧ s.held = none := by
  rw [← tableCount_eq_zero_iff]
  simp [pathEmpty, and_assoc]

/-- Settles O48: the resumption of the link at the reset values, with the reply kept. -/
theorem fullResetNeedsAnEmptyPath : Obligations.FullResetNeedsAnEmptyPath := by
  intro s ready empty
  have run : exec .fullReset s = .next (enterReply (fullReset s).2.1 (fullReset s).2.2 (fullReset s).1) :=
    exec_rowOf_of_portReady ready .fullReset
  refine ⟨fun busy => ?_, fun isEmpty => ?_⟩
  · have refused : fullReset s = (s, .busy, []) := if_neg fun h => busy ((pathEmpty_iff s).mp h)
    have reply : replyPart .busy [] = [0x05#8, 0x1B#8] := by decide
    rw [run, refused, enterReply, reply]
  · have taken : fullReset s = (resume (blocksReset s), .done, []) := if_pos ((pathEmpty_iff s).mpr isEmpty)
    have reply : replyPart .done [] = [0x00#8, 0x00#8] := by decide
    refine resumes_as_offered ⟨rfl, rfl⟩ rfl rfl ?_
    rw [run, taken, enterReply, reply]
    exact congrArg Host.Outcome.next (resume_port_comm (blocksReset s) true (.reply [0x00#8, 0x00#8])).symm

/-! ## The reset state -/

theorem inUse_reset : inUse State.reset = [] := by decide

/-- Settles O50. -/
theorem resetMeetsEveryInvariant : Obligations.ResetMeetsEveryInvariant := by
  have context : ∀ r, reg State.reset r = resetRegulator := fun r => Vector.getElem_replicate ..
  have nobody : ∀ p, p ∉ inUse State.reset := fun p used => by
    rw [inUse_reset] at used
    cases used
  have pool : PoolOk State.reset := poolOk_of_empty rfl
  have table : TableOk State.reset :=
    ⟨fun p used => absurd used (nobody p), fun p used => absurd used (nobody p), fun p used => absurd used (nobody p)⟩
  have counts : CountsOk State.reset :=
    countsOk_of_empty (fun k => Vector.getElem_replicate ..) rfl (fun i => Vector.getElem_replicate ..) rfl
      fun r => by rw [context]; rfl
  have regulators : RegulatorsOk State.reset := fun r => by
    rw [context]
    exact regulatorOk_resetRegulator r
  have order : KeyOrderOk State.reset := keyOrderOk_of_empty (fun i => Vector.getElem_replicate ..) rfl
  exact ⟨by decide, by decide, by decide, by decide, by decide, pool, regulators, ⟨pool, table, counts⟩, order,
    consideredOk_of_no_offer rfl, offeredResponseOk_of_none rfl, fun _ => by decide, porHeld_of_deasserted rfl,
    tickOk_of_quiet ⟨rfl, rfl⟩, by decide⟩

end Sys2Proof.Machine
end

