-- ==== Sys2Proof/Proofs/WholeRuns.lean ====
section
/-! Expiry in a state whose stores are sound: the keys whose runs are abandoned, chosen one after the other in the arrival order
of their leaders, and what the abandonment of all their runs leaves (R138 to R140), for O24. -/

namespace Sys2Proof.Machine

/-! ## The keys whose runs are abandoned -/

/-- A LIVE entry of one of the keys. -/
def liveIn (keys : List Key) (e : OutEntry) : Bool := e.state == .live && decide (e.key ∈ keys)

/-- An entry once the runs of the keys are abandoned. -/
def afterRuns (keys : List Key) (e : OutEntry) : OutEntry := if liveIn keys e then abandoned e else e

/-- The LIVE entries of some keys. -/
def liveOfKeys (s : State) (keys : List Key) : Nat := (inUse s).countP fun p => liveIn keys p.2

/-- The keys whose runs are abandoned, leader by leader: each that fits in the room of 64 that is left (R140). -/
def takenKeys (s : State) : List OutEntry → List Key → List Key
  | [], keys => keys
  | lead :: rest, keys =>
    if liveOfKey s lead.key + liveOfKeys s keys + s.owed.length ≤ 64 then takenKeys s rest (lead.key :: keys)
    else takenKeys s rest keys

theorem liveIn_iff (keys : List Key) (e : OutEntry) : liveIn keys e = true ↔ e.state = .live ∧ e.key ∈ keys := by
  simp [liveIn]

theorem afterRuns_eq_self_iff (keys : List Key) (e : OutEntry) : afterRuns keys e = e ↔ ¬ liveIn keys e = true := by
  unfold afterRuns
  split
  next taken =>
    refine ⟨fun same => ?_, fun h => absurd taken h⟩
    have live := ((liveIn_iff keys e).mp taken).1
    rw [← same] at live
    cases live
  next kept => exact ⟨fun _ => kept, fun _ => rfl⟩

section
variable {s : State} {l : List OutEntry} {keys : List Key}

theorem takenKeys_append (a b : List OutEntry) (keys : List Key) :
    takenKeys s (a ++ b) keys = takenKeys s b (takenKeys s a keys) := by
  induction a generalizing keys with
  | nil => rfl
  | cons lead a ih =>
    rw [List.cons_append, takenKeys, takenKeys]
    split <;> exact ih _

theorem mem_takenKeys_of_mem {k : Key} (known : k ∈ keys) : k ∈ takenKeys s l keys := by
  induction l generalizing keys with
  | nil => exact known
  | cons lead l ih =>
    rw [takenKeys]
    split
    · exact ih (List.mem_cons_of_mem _ known)
    · exact ih known

theorem of_mem_takenKeys {k : Key} (taken : k ∈ takenKeys s l keys) : k ∈ keys ∨ ∃ e ∈ l, e.key = k := by
  induction l generalizing keys with
  | nil => exact .inl taken
  | cons lead l ih =>
    rw [takenKeys] at taken
    split at taken
    · rcases ih taken with known | ⟨e, he, same⟩
      · rcases List.mem_cons.mp known with rfl | known
        · exact .inr ⟨lead, List.mem_cons_self, rfl⟩
        · exact .inl known
      · exact .inr ⟨e, List.mem_cons_of_mem _ he, same⟩
    · rcases ih taken with known | ⟨e, he, same⟩
      · exact .inl known
      · exact .inr ⟨e, List.mem_cons_of_mem _ he, same⟩

end

/-! ## What the abandonment of the runs of some keys leaves -/

/-- The state t that the abandonment of the runs of some keys leaves of s. -/
structure Abandoned (s : State) (keys : List Key) (t : State) : Prop where
  frame : t = { s with outstanding := t.outstanding, tracker := t.tracker, owed := t.owed, regs := t.regs }
  table : t.outstanding = mapSlots (Option.map (afterRuns keys)) s.outstanding
  owed : t.owed.Perm ((((inUse s).filter fun p => liveIn keys p.2).map fun p => owedOf p.2) ++ s.owed)
  regs : ∀ r, ∃ n, reg t r = { reg s r with outstandingCount := n }
  stores : StoresOk t
  order : KeyOrderOk t

theorem Abandoned.length_owed {s t : State} {keys : List Key} (done : Abandoned s keys t) :
    t.owed.length = liveOfKeys s keys + s.owed.length := by
  rw [done.owed.length_eq, List.length_append, List.length_map, liveOfKeys, List.countP_eq_length_filter]

theorem Abandoned.outstanding {s t : State} {keys : List Key} (done : Abandoned s keys t) (i : Fin 64) :
    t.outstanding[i] = (s.outstanding[i]).map (afterRuns keys) := by
  rw [done.table, mapSlots_get]

theorem abandoned_nil {s : State} (stores : StoresOk s) (order : KeyOrderOk s) : Abandoned s [] s := by
  have none : ∀ e, liveIn [] e = false := fun e => by simp [liveIn]
  have same : afterRuns [] = id := by
    funext e
    rw [afterRuns, none]
    rfl
  refine ⟨rfl, ?_, ?_, fun r => ⟨_, rfl⟩, stores, order⟩
  · rw [same, Option.map_id]
    exact (mapSlots_id _).symm
  · simp [none]

theorem owed_abandonAll (l : List (Fin 64 × OutEntry)) (t : State) :
    (abandonAll l t).owed.Perm ((l.map fun p => owedOf p.2) ++ t.owed) := by
  induction l generalizing t with
  | nil => exact .refl _
  | cons p l ih =>
    rw [abandonAll_cons, List.map_cons, List.cons_append]
    refine (ih _).trans ?_
    rw [abandonEntry_owed]
    exact ((insertOwed_perm _ _).append_left _).trans List.perm_middle

section
variable {s t : State} {keys : List Key} {lead : OutEntry}

/-- The entries of a key that was not taken are those of s. -/
theorem Abandoned.found_iff (done : Abandoned s keys t) {i : Fin 64} {f : OutEntry} (fresh : f.key ∉ keys) :
    t.outstanding[i] = some f ↔ s.outstanding[i] = some f := by
  rw [done.outstanding, Option.map_eq_some_iff]
  constructor
  · rintro ⟨e, found, rfl⟩
    have notTaken : ¬ liveIn keys e = true := fun taken => by
      rw [afterRuns, if_pos taken] at fresh
      exact fresh ((liveIn_iff keys e).mp taken).2
    rwa [(afterRuns_eq_self_iff keys e).mpr notTaken]
  · intro found
    exact ⟨f, found, (afterRuns_eq_self_iff keys f).mpr fun taken => fresh ((liveIn_iff keys f).mp taken).2⟩

theorem Abandoned.leads (done : Abandoned s keys t) (fresh : lead.key ∉ keys) (leads : Leads s lead) : Leads t lead := by
  have timeout : t.responseTimeout = s.responseTimeout := by rw [done.frame]
  obtain ⟨⟨i, found⟩, expires, oldest⟩ := leads
  refine ⟨⟨i, (done.found_iff fresh).mpr found⟩, timeout ▸ expires, fun j f there key expiresToo => ?_⟩
  exact oldest j f ((done.found_iff (key ▸ fresh)).mp there) key (timeout ▸ expiresToo)

/-- The run of a key that was not taken is its LIVE entries in s. -/
theorem Abandoned.mem_runOf (done : Abandoned s keys t) (fresh : lead.key ∉ keys) (leads : Leads s lead)
    (p : Fin 64 × OutEntry) : p ∈ runOf lead t ↔ p ∈ inUse s ∧ p.2.state = .live ∧ p.2.key = lead.key := by
  constructor
  · intro inRun
    obtain ⟨⟨used, live⟩, key, -⟩ := (Machine.mem_runOf lead t p).mp inRun
    exact ⟨(mem_inUse s p).mpr ((done.found_iff (key ▸ fresh)).mp ((mem_inUse t p).mp used)), live, key⟩
  · rintro ⟨used, live, key⟩
    have usedT := (mem_inUse t p).mpr ((done.found_iff (key ▸ fresh)).mpr ((mem_inUse s p).mp used))
    exact mem_runOf_of_live done.order (done.leads fresh leads) usedT live key

theorem Abandoned.runOf_perm (done : Abandoned s keys t) (fresh : lead.key ∉ keys) (leads : Leads s lead) :
    (runOf lead t).Perm ((inUse s).filter fun p => p.2.state == .live && p.2.key == lead.key) := by
  refine (List.perm_ext_iff_of_nodup (nodup_runOf lead t).of_map ((nodup_inUse s).of_map.filter _)).mpr fun p => ?_
  rw [done.mem_runOf fresh leads, List.mem_filter, Bool.and_eq_true, beq_iff_eq, beq_iff_eq]

theorem liveIn_cons (key : Key) (keys : List Key) (e : OutEntry) :
    liveIn (key :: keys) e = (liveIn keys e || e.state == .live && e.key == key) := by
  rw [Bool.eq_iff_iff, Bool.or_eq_true, liveIn_iff, liveIn_iff, Bool.and_eq_true, beq_iff_eq, beq_iff_eq, List.mem_cons]
  tauto

/-- The table when the run of one key more is abandoned. -/
theorem Abandoned.outstanding_abandonAll (done : Abandoned s keys t) (fresh : lead.key ∉ keys) (leads : Leads s lead)
    (i : Fin 64) :
    (abandonAll (runOf lead t) t).outstanding[i] = (s.outstanding[i]).map (afterRuns (lead.key :: keys)) := by
  by_cases inRun : ∃ p ∈ runOf lead t, p.1 = i
  · obtain ⟨p, hp, rfl⟩ := inRun
    obtain ⟨used, live, key⟩ := (done.mem_runOf fresh leads p).mp hp
    have taken : liveIn (lead.key :: keys) p.2 = true := (liveIn_iff _ _).mpr ⟨live, key ▸ List.mem_cons_self⟩
    rw [outstanding_abandonAll_of_mem (nodup_runOf lead t) hp, (mem_inUse s p).mp used, Option.map_some, afterRuns,
      if_pos taken]
  · rw [outstanding_abandonAll_of_not_mem fun p hp h => inRun ⟨p, hp, h⟩, done.outstanding]
    cases found : s.outstanding[i] with
    | none => rfl
    | some e =>
      have notLead : ¬ (e.state = .live ∧ e.key = lead.key) := fun ⟨live, key⟩ =>
        inRun ⟨(i, e), (done.mem_runOf fresh leads _).mpr ⟨(mem_inUse s (i, e)).mpr found, live, key⟩, rfl⟩
      have same : liveIn (lead.key :: keys) e = liveIn keys e := by
        rw [liveIn_cons, Bool.or_eq_left_iff_imp, Bool.and_eq_true, beq_iff_eq, beq_iff_eq]
        exact fun h => absurd h notLead
      rw [Option.map_some, Option.map_some, afterRuns, afterRuns, same]

theorem filter_liveIn_cons_perm (fresh : lead.key ∉ keys) (l : List (Fin 64 × OutEntry)) :
    (l.filter fun p => liveIn (lead.key :: keys) p.2).Perm
      ((l.filter fun p => p.2.state == .live && p.2.key == lead.key) ++ l.filter fun p => liveIn keys p.2) := by
  refine (List.filter_append_perm (fun p => p.2.state == .live && p.2.key == lead.key) _).symm.trans ?_
  rw [List.filter_filter, List.filter_filter]
  refine .of_eq (congrArg₂ _ (List.filter_congr fun p _ => ?_) (List.filter_congr fun p _ => ?_))
  · rw [liveIn_cons]
    cases liveIn keys p.2 <;> simp
  · rw [liveIn_cons]
    by_cases key : p.2.key = lead.key
    · have notTaken : liveIn keys p.2 = false := by simp [liveIn, key, fresh]
      simp [notTaken, key]
    · have off : (p.2.key == lead.key) = false := by simpa using key
      simp [off]

/-- One run more. -/
theorem Abandoned.step (done : Abandoned s keys t) (fresh : lead.key ∉ keys) (leads : Leads s lead) :
    Abandoned s (if liveOfKey s lead.key + liveOfKeys s keys + s.owed.length ≤ 64 then lead.key :: keys else keys)
      (abandonRun lead t) := by
  have length : (runOf lead t).length = liveOfKey s lead.key := by
    rw [(done.runOf_perm fresh leads).length_eq, liveOfKey, List.countP_eq_length_filter]
  rw [abandonRun_eq, length, done.length_owed, ← Nat.add_assoc]
  split
  next room =>
    have move : Move t (abandonAll (runOf lead t) t) :=
      .abandon t lead (done.leads fresh leads) (by rw [length, done.length_owed, ← Nat.add_assoc]; exact room)
    refine ⟨?_, slots_ext fun i => ?_, ?_, fun r => ?_, storesOk_of_move move done.stores,
      keyOrderOk_of_move move done.stores done.order⟩
    · exact (abandonAll_frame lead t).trans (congrArg
        (fun u : State => { u with
          outstanding := (abandonAll (runOf lead t) t).outstanding, tracker := (abandonAll (runOf lead t) t).tracker
          owed := (abandonAll (runOf lead t) t).owed, regs := (abandonAll (runOf lead t) t).regs }) done.frame)
    · rw [mapSlots_get, done.outstanding_abandonAll fresh leads]
    · refine (owed_abandonAll _ t).trans ?_
      refine (((done.runOf_perm fresh leads).map _).append done.owed).trans ?_
      rw [← List.append_assoc, ← List.map_append]
      exact ((filter_liveIn_cons_perm fresh (inUse s)).map _).symm.append_right _
    · obtain ⟨n, before⟩ := done.regs r
      obtain ⟨m, -, after⟩ := released_abandonAll t r (lead := lead)
      rw [after, before]
      exact ⟨m, rfl⟩
  · exact done

/-- All runs, leader by leader. -/
theorem abandoned_abandonRuns (stores : StoresOk s) (order : KeyOrderOk s) :
    Abandoned s (takenKeys s (leaders s) []) (abandonRuns s) := by
  have chain : ∀ (l : List OutEntry) (keys : List Key) (t : State), l.Pairwise (fun e f => e.key ≠ f.key) →
      (∀ e ∈ l, Leads s e ∧ e.key ∉ keys) → Abandoned s keys t →
      Abandoned s (takenKeys s l keys) (l.foldl (fun t lead => abandonRun lead t) t) := by
    intro l
    induction l with
    | nil => exact fun keys t _ _ done => done
    | cons lead l ih =>
      intro keys t apart leads done
      obtain ⟨first, rest⟩ := List.pairwise_cons.mp apart
      obtain ⟨leadsFirst, fresh⟩ := leads lead List.mem_cons_self
      have next := done.step fresh leadsFirst
      rw [List.foldl_cons, takenKeys]
      split
      next room =>
        rw [if_pos room] at next
        refine ih _ _ rest (fun e he => ?_) next
        obtain ⟨leadsE, freshE⟩ := leads e (List.mem_cons_of_mem _ he)
        exact ⟨leadsE, fun h => (List.mem_cons.mp h).elim (fun same => first e he same.symm) freshE⟩
      next full =>
        rw [if_neg full] at next
        exact ih _ _ rest (fun e he => leads e (List.mem_cons_of_mem _ he)) next
  exact chain _ _ _ (leaders_spec s).keys (fun e he => ⟨leads_of_mem_leaders he, List.not_mem_nil⟩)
    (abandoned_nil stores order)

/-- The run of a leader is abandoned exactly when it fits in what the runs abandoned before it leave (R140). -/
theorem mem_takenKeys_iff {a b : List OutEntry} (split : leaders s = a ++ lead :: b) :
    lead.key ∈ takenKeys s (leaders s) [] ↔
      liveOfKey s lead.key + liveOfKeys s (takenKeys s a []) + s.owed.length ≤ 64 := by
  have apart := (leaders_spec s).keys
  rw [split] at apart
  obtain ⟨-, ofLead, before⟩ := List.pairwise_append.mp apart
  obtain ⟨after, -⟩ := List.pairwise_cons.mp ofLead
  have fresh : lead.key ∉ takenKeys s a [] := fun taken => by
    rcases of_mem_takenKeys taken with known | ⟨e, he, same⟩
    · cases known
    · exact before e he lead List.mem_cons_self same
  rw [split, takenKeys_append, takenKeys]
  refine ⟨fun taken => ?_, fun room => ?_⟩
  · by_contra full
    rw [if_neg full] at taken
    rcases of_mem_takenKeys taken with known | ⟨e, he, same⟩
    · exact fresh known
    · exact after e he same.symm
  · rw [if_pos room]
    exact mem_takenKeys_of_mem List.mem_cons_self

/-- The keys taken before a leader are those of the taken keys that have an expiring entry before it. -/
theorem mem_takenKeys_before_iff {a b : List OutEntry} (tables : TableOk s) (split : leaders s = a ++ lead :: b) (k : Key) :
    k ∈ takenKeys s a [] ↔ k ∈ takenKeys s (leaders s) []
      ∧ ∃ q ∈ inUse s, q.2.key = k ∧ expiring s.responseTimeout q.2 = true ∧ q.2.place < lead.place := by
  have firsts := leaders_spec s
  have member : ∀ e ∈ leaders s, ∃ i, (i, e) ∈ inUse s ∧ expiring s.responseTimeout e = true := fun e he => by
    obtain ⟨i, hi⟩ := firsts.mem e he
    exact ⟨i, (mem_expiringByPlace s (i, e)).mp hi⟩
  have sorted := firsts.sorted
  have apart := firsts.keys
  rw [split] at sorted apart
  obtain ⟨-, laterSorted, inOrder⟩ := List.pairwise_append.mp sorted
  obtain ⟨-, -, before⟩ := List.pairwise_append.mp apart
  constructor
  · intro taken
    refine ⟨by rw [split, takenKeys_append]; exact mem_takenKeys_of_mem taken, ?_⟩
    obtain known | ⟨e, he, rfl⟩ := of_mem_takenKeys taken
    · cases known
    obtain ⟨i, used, expires⟩ := member e (by rw [split]; exact List.mem_append_left _ he)
    obtain ⟨j, usedLead, -⟩ := member lead (by rw [split]; exact List.mem_append_right _ List.mem_cons_self)
    refine ⟨(i, e), used, rfl, expires, lt_of_le_of_ne (inOrder e he lead List.mem_cons_self) fun same => ?_⟩
    have here : i = j := tables.2.1 (i, e) used (j, lead) usedLead same
    have entry : e = lead := congrArg Prod.snd (eq_of_mem_inUse used usedLead here)
    exact before e he lead List.mem_cons_self (by rw [entry])
  · rintro ⟨taken, q, used, rfl, expires, earlier⟩
    rw [split, takenKeys_append] at taken
    rcases of_mem_takenKeys taken with known | ⟨e, he, same⟩
    · exact known
    · have inLeaders : e ∈ leaders s := by rw [split]; exact List.mem_append_right _ he
      have oldest := firsts.oldest e inLeaders q ((mem_expiringByPlace s q).mpr ⟨used, expires⟩) same.symm
      have later : lead.place ≤ e.place := by
        rcases List.mem_cons.mp he with rfl | inRest
        · exact le_rfl
        · exact (List.pairwise_cons.mp laterSorted).1 e inRest
      omega

end

theorem mem_owed_iff {s t : State} {keys : List Key} (done : Abandoned s keys t) (x : OwedItem) :
    x ∈ t.owed ↔ x ∈ s.owed ∨ ∃ (i : Fin 64) (e : OutEntry), s.outstanding[i] = some e ∧ t.outstanding[i] ≠ some e
      ∧ x = { key := e.key, direction := e.direction, place := e.place } := by
  have changed : ∀ (i : Fin 64) (e : OutEntry), s.outstanding[i] = some e →
      (t.outstanding[i] ≠ some e ↔ liveIn keys e = true) := fun i e found => by
    rw [done.outstanding, found, Option.map_some, Ne, Option.some.injEq, afterRuns_eq_self_iff, not_not]
  rw [done.owed.mem_iff, List.mem_append, or_comm, List.mem_map]
  refine or_congr_right ⟨?_, ?_⟩
  · rintro ⟨p, hp, rfl⟩
    obtain ⟨used, taken⟩ := List.mem_filter.mp hp
    have found := (mem_inUse s p).mp used
    exact ⟨p.1, p.2, found, (changed p.1 p.2 found).mpr taken, rfl⟩
  · rintro ⟨i, e, found, differs, rfl⟩
    exact ⟨(i, e), List.mem_filter.mpr ⟨(mem_inUse s (i, e)).mpr found, (changed i e found).mp differs⟩, rfl⟩

/-- TIMEOUT is set exactly when the timeout list has changed. -/
theorem owed_grows_iff {s t : State} {keys : List Key} (done : Abandoned s keys t) (order : KeyOrderOk s) :
    s.owed.length < t.owed.length ↔ t.owed ≠ s.owed := by
  refine ⟨fun longer same => absurd longer (by rw [same]; exact lt_irrefl _), fun differs => ?_⟩
  by_contra notLonger
  have nobody : liveOfKeys s keys = 0 := by
    have := done.length_owed
    omega
  have none : (inUse s).filter (fun p => liveIn keys p.2) = [] := by
    rwa [liveOfKeys, List.countP_eq_length_filter, List.length_eq_zero_iff] at nobody
  have perm : t.owed.Perm s.owed := by simpa [none] using done.owed
  obtain ⟨-, -, -, -, sortedT, -⟩ := done.order
  obtain ⟨-, -, -, -, sortedS, -⟩ := order
  exact differs (perm.eq_of_pairwise (fun x y _ _ first second => absurd first second.not_gt) sortedT sortedS)

/-- Settles O24: the table, the list and the counts after the runs of the taken keys. -/
theorem expiryAbandonsWholeRuns : Obligations.ExpiryAbandonsWholeRuns := by
  intro s due stores order
  obtain ⟨-, tables, -⟩ := id stores
  let keys := takenKeys s (leaders s) []
  have done : Abandoned s keys (abandonRuns s) := abandoned_abandonRuns stores order
  let u := timeoutCause s (abandonRuns s)
  have uframe : u = { abandonRuns s with deviceCauses := u.deviceCauses } := timeoutCause_frame s (abandonRuns s)
  have table : ∀ i : Fin 64, u.outstanding[i] = (s.outstanding[i]).map (afterRuns keys) := fun i => by
    rw [uframe]
    exact done.outstanding i
  have changed : ∀ (i : Fin 64) (e : OutEntry), s.outstanding[i] = some e →
      (u.outstanding[i] ≠ some e ↔ liveIn keys e = true) := fun i e found => by
    rw [table, found, Option.map_some, Ne, Option.some.injEq, afterRuns_eq_self_iff, not_not]
  have owedU : u.owed = (abandonRuns s).owed := by rw [uframe]
  have tableU : u.outstanding = (abandonRuns s).outstanding := by rw [uframe]
  have causes : (abandonRuns s).deviceCauses = s.deviceCauses := by rw [done.frame]
  have raised : Move (abandonRuns s) u := .outside _ _ (by rw [uframe])
  refine ⟨u, ?run, ?frame, fun i free => ?free, fun i e found => ?entry, fun i j e f foundE foundF liveE liveF same => ?whole,
    fun i e found expires oldest => ?fits, fun x => ?owed, ?sorted, ?quiet, ?raises, fun r => ?regs,
    storesOk_of_move raised done.stores, keyOrderOk_of_move raised done.stores done.order⟩
  case run => exact congrArg Host.Outcome.next (if_pos due)
  case frame =>
    refine uframe.trans ?_
    rw [done.frame]
    exact congrArg (fun v : State => { s with
      outstanding := v.outstanding, tracker := v.tracker, owed := v.owed, regs := v.regs, deviceCauses := v.deviceCauses })
      uframe.symm
  case free => rw [table, free, Option.map_none]
  case entry =>
    by_cases taken : liveIn keys e = true
    · obtain ⟨live, inKeys⟩ := (liveIn_iff keys e).mp taken
      refine .inr ⟨live, ?_, by rw [table, found, Option.map_some, afterRuns, if_pos taken]; rfl⟩
      obtain known | ⟨lead, inLeaders, key⟩ := of_mem_takenKeys inKeys
      · cases known
      obtain ⟨⟨j, there⟩, expires, -⟩ := leads_of_mem_leaders inLeaders
      rw [keyExpiring, List.any_eq_true]
      exact ⟨(j, lead), (mem_inUse s (j, lead)).mpr there, by rw [expires, key, beq_self_eq_true, Bool.and_self]⟩
    · exact .inl (not_not.mp fun differs => taken ((changed i e found).mp differs))
  case whole =>
    rw [← not_iff_not, ← Ne, ← Ne, changed i e foundE, changed j f foundF, liveIn_iff, liveIn_iff, same]
    exact ⟨fun h => ⟨liveF, h.2⟩, fun h => ⟨liveE, h.2⟩⟩
  case fits =>
    intro before
    have used : (i, e) ∈ expiringByPlace s := (mem_expiringByPlace s (i, e)).mpr ⟨(mem_inUse s (i, e)).mpr found, expires⟩
    obtain ⟨lead, inLeaders, key⟩ := (leaders_spec s).covers _ used
    obtain ⟨⟨j, there⟩, leadExpires, -⟩ := leads_of_mem_leaders inLeaders
    have place : lead.place = e.place :=
      le_antisymm ((leaders_spec s).oldest lead inLeaders _ used key.symm) (oldest j lead there key leadExpires)
    obtain ⟨a, b, split⟩ := List.append_of_mem inLeaders
    have beforeLead : before = liveOfKeys s (takenKeys s a []) := by
      refine List.countP_congr fun p inTable => ?_
      rw [Bool.and_eq_true, bne_iff_ne, changed p.1 p.2 ((mem_inUse s p).mp inTable), liveIn_iff, liveIn_iff,
        mem_takenKeys_before_iff tables split p.2.key, and_assoc, List.any_eq_true, place]
      simp only [Bool.and_eq_true, beq_iff_eq, decide_eq_true_eq, and_assoc]
      rfl
    rw [changed i e found, liveIn_iff, beforeLead, ← key]
    refine (and_iff_right (live_of_expiring expires)).trans (mem_takenKeys_iff split)
  case owed =>
    rw [owedU, mem_owed_iff done]
    simp only [tableU]
  case sorted => exact owedU ▸ done.order.2.2.2.2.1
  case quiet =>
    intro same
    have notLonger : ¬ s.owed.length < (abandonRuns s).owed.length := fun longer =>
      (owed_grows_iff done order).mp longer (owedU ▸ same)
    rw [← causes]
    exact congrArg State.deviceCauses (if_neg notLonger)
  case raises =>
    intro differs
    have longer := (owed_grows_iff done order).mpr (owedU ▸ differs)
    rw [← causes]
    exact congrArg State.deviceCauses (if_pos longer)
  case regs =>
    obtain ⟨n, context⟩ := done.regs r
    exact ⟨n, by rw [← context, uframe]; rfl⟩

end Sys2Proof.Machine
end

