-- ==== Sys2Proof/Proofs/PortFrames.lean ====
section
/-! The management port: the five states of the port (R181, R182, R188), the command part and its bytes (R183), and a frame sent
byte by byte, which does what its row does (R185), for O31, O32 and O35. -/

namespace Sys2Proof.Machine

/-! ## The five states (R182) -/

theorem exec_selAsserted {s : State} (quiet : Quiet s) : exec .selAsserted s = .next (selAssert s) :=
  exec_of_quiet selAssert (fun _ => rfl) quiet

/-- A byte of a command part that is not its last is stored. -/
theorem receiveByte_of_short {received : List Byte} {b : Byte} {n : Nat}
    (known : commandPartLength (received.headD b) = some n) (short : received.length + 1 < n) (s : State) :
    receiveByte received b s = { s with port := .command (received ++ [b]) } := by
  unfold receiveByte
  dsimp only
  rw [known]
  exact if_pos short

theorem length_commandPart {code : Byte} {n : Nat} (known : commandPartLength code = some n) : 2 ≤ n := by
  unfold commandPartLength at known
  split at known <;> cases known <;> decide

/-- Settles O35. -/
theorem portStatesFollowSelAndSlots : Obligations.PortStatesFollowSelAndSlots := by
  intro s quiet
  refine ⟨?_, fun por idle => ?_, fun por b => ⟨?_, ?_, ?_⟩, fun por b => ?_⟩
  · exact exec_of_quiet (fun t => { t with sel := false, port := .idle }) (fun _ => rfl) quiet
  · rw [exec_selAsserted quiet, selAssert, if_neg (by rw [por]; decide), idle]
  · rw [exec_selAsserted quiet, selAssert, if_pos por]
  · rw [exec_of_quiet (fun t => if t.por then t else slotDone b t) (fun _ => rfl) quiet, if_pos por]
  · exact if_pos por
  · have slot := exec_byteSlot quiet por b
    refine ⟨fun n port known => ?_, fun code params n port known short => ?_, fun x y rest port => ⟨?_, ?_⟩,
      fun x port => ⟨?_, ?_⟩, fun received port => ?_, fun port => ?_, fun port => ⟨?_, ?_⟩⟩
    · rw [slot, slotDone_of_command port, receiveByte_of_short (received := []) known (length_commandPart known),
        List.nil_append]
    · rw [slot, slotDone_of_command port, receiveByte_of_short (received := code :: params) known short]
    · simp [sdoByte, por, port]
    · rw [slot, slotDone, port]
    · simp [sdoByte, por, port]
    · rw [slot, slotDone, port]
    · simp [sdoByte, por, port]
    · rcases port with port | port
      · exact ⟨by simp [sdoByte, por, port], by rw [slot, slotDone, port]⟩
      · exact ⟨by simp [sdoByte, por, port], by rw [slot, slotDone, port]⟩
    · simp [sdoByte, por, port]
    · rw [slot, slotDone, port]

/-! ## The command part (R183) -/

theorem toNat_append_byte {w : Nat} (x : BitVec w) (y : Byte) : (x ++ y).toNat = x.toNat * 256 + y.toNat := by
  rw [BitVec.toNat_append, ← Nat.shiftLeft_add_eq_or_of_lt y.isLt, Nat.shiftLeft_eq]

theorem wordOfBytes_bytes (v : Word) :
    wordOfBytes (BitVec.ofNat 8 (v.toNat / 256 ^ 3)) (BitVec.ofNat 8 (v.toNat / 256 ^ 2))
      (BitVec.ofNat 8 (v.toNat / 256 ^ 1)) (BitVec.ofNat 8 (v.toNat / 256 ^ 0)) = v := by
  refine BitVec.eq_of_toNat_eq ?_
  have small := v.isLt
  unfold wordOfBytes
  rw [toNat_append_byte, toNat_append_byte, toNat_append_byte]
  simp only [BitVec.toNat_ofNat]
  omega

theorem maskOfBytes_bytes (v : BitVec 16) :
    maskOfBytes (BitVec.ofNat 8 (v.toNat / 256 ^ 1)) (BitVec.ofNat 8 (v.toNat / 256 ^ 0)) = v := by
  refine BitVec.eq_of_toNat_eq ?_
  have small := v.isLt
  unfold maskOfBytes
  rw [toNat_append_byte]
  simp only [BitVec.toNat_ofNat]
  omega

/-- Settles O32. -/
theorem commandPartsDecodeBack : Obligations.CommandPartsDecodeBack := by
  intro c
  cases c with
  | identify => exact ⟨_, _, rfl, rfl, rfl⟩
  | readField space index word => exact ⟨_, _, rfl, rfl, rfl⟩
  | writeField space index word value =>
    exact ⟨_, _, rfl, congrArg (fun v => some (FrameCommand.writeField space index word v)) (wordOfBytes_bytes value), rfl⟩
  | regulatorCommand kind mask =>
    exact ⟨_, _, rfl, congrArg (fun v => some (FrameCommand.regulatorCommand kind v)) (maskOfBytes_bytes mask), rfl⟩
  | clearCauses target causeSet => exact ⟨_, _, rfl, rfl, rfl⟩
  | takeDenial => exact ⟨_, _, rfl, rfl, rfl⟩
  | summary => exact ⟨_, _, rfl, rfl, rfl⟩
  | fullReset => exact ⟨_, _, rfl, rfl, rfl⟩

/-! ## A command finds and leaves the port alone (R185) -/

/-- The state with the port and SEL as given. -/
def withPort (sel : Bool) (port : Port) (s : State) : State := { s with sel := sel, port := port }

section
variable (sel : Bool) (port : Port)

/-- A write whose effect does not depend on the port. -/
theorem storeOrRange_withPort {α : Type} {f g : α → State} (same : ∀ a, f a = withPort sel port (g a)) (s : State)
    (decoded : Option α) :
    storeOrRange (withPort sel port s) (decoded.map f) =
      ((storeOrRange s (decoded.map g)).1, withPort sel port (storeOrRange s (decoded.map g)).2) := by
  cases decoded with
  | none => rfl
  | some a => exact congrArg (Prod.mk Status.done) (same a)

theorem writeDevice_withPort (s : State) (word v : Nat) :
    writeDevice (withPort sel port s) word v =
      ((writeDevice s word v).1, withPort sel port (writeDevice s word v).2) := by
  unfold writeDevice
  split
  · unfold writePrescale
    have used : anyInUse (withPort sel port s) = anyInUse s := rfl
    rw [used]
    split
    · rfl
    · exact storeOrRange_withPort sel port (by exact fun _ => rfl) s _
  · exact storeOrRange_withPort sel port (by exact fun _ => rfl) s _
  · exact storeOrRange_withPort sel port
      (by exact fun p => consider_port_comm { s with defaultTarget := p.1, bypassPriority := p.2 } sel port) s _
  · exact storeOrRange_withPort sel port (by exact fun _ => rfl) s _
  · rfl
  · rfl

theorem writeRegulator_withPort (s : State) (r : RegNo) (word v : Nat) :
    writeRegulator (withPort sel port s) r word v =
      ((writeRegulator s r word v).1, withPort sel port (writeRegulator s r word v).2) := by
  have context : reg (withPort sel port s) r = reg s r := rfl
  have active : ∀ which, writeActive (withPort sel port s) r which v =
      ((writeActive s r which v).1, withPort sel port (writeActive s r which v).2) := by
    intro which
    unfold writeActive
    rw [context]
    split
    · exact storeOrRange_withPort sel port (by exact fun _ => rfl) s _
    · rfl
  unfold writeRegulator
  split
  · rw [context]
    split
    · exact storeOrRange_withPort sel port
        (by exact fun u => consider_port_comm (setReg s r { reg s r with setup := u }) sel port) s _
    · rfl
  · rw [context]
    split
    · exact storeOrRange_withPort sel port (by exact fun _ => rfl) s _
    · rfl
  · exact active .timing
  · exact active .budget
  · exact storeOrRange_withPort sel port (by exact fun _ => rfl) s _
  · exact storeOrRange_withPort sel port (by exact fun _ => rfl) s _
  · rfl
  · rfl

theorem storeEntry_withPort (s : State) (i : Fin 32) (e : MapEntry) :
    storeEntry (withPort sel port s) i e = withPort sel port (storeEntry s i e) :=
  consider_port_comm { s with map := s.map.set i e } sel port

theorem writeMap_withPort (s : State) (i : Fin 32) (word v : Nat) :
    writeMap (withPort sel port s) i word v = ((writeMap s i word v).1, withPort sel port (writeMap s i word v).2) := by
  have entry : (withPort sel port s).map = s.map := rfl
  have bound : ∀ which, writeMapBound (withPort sel port s) i which v =
      ((writeMapBound s i which v).1, withPort sel port (writeMapBound s i which v).2) := by
    intro which
    unfold writeMapBound
    rw [entry]
    split
    · rfl
    · exact storeOrRange_withPort sel port (storeEntry_withPort sel port s i) s _
  unfold writeMap
  split
  · unfold writeMapWord0
    rw [entry]
    split
    · rfl
    · split
      · split
        · rfl
        · rw [storeEntry_withPort]
      · rfl
  · exact bound .base
  · exact bound .limit
  · rfl

theorem writeWord_withPort (s : State) (space index word v : Nat) :
    writeWord (withPort sel port s) space index word v =
      ((writeWord s space index word v).1, withPort sel port (writeWord s space index word v).2) := by
  unfold writeWord
  split
  · split
    · exact writeDevice_withPort sel port s word v
    · rfl
  · split
    · exact writeRegulator_withPort sel port s _ word v
    · rfl
  · split
    · exact writeMap_withPort sel port s _ word v
    · rfl
  · rfl

theorem regulatorEvent_withPort (r : RegNo) (g : Regulator) (causes : List Cause) (s : State) :
    regulatorEvent r g causes (withPort sel port s) = withPort sel port (regulatorEvent r g causes s) :=
  List.foldl_hom (f := withPort sel port) (g₁ := fun t c => raiseCause r c t) (g₂ := fun t c => raiseCause r c t)
    (l := causes) (init := setReg s r g) (H := fun _ _ => rfl)

theorem act_withPort {k : CommandKind} (other : k ≠ .disable) (r : RegNo) (s : State) :
    act k r (withPort sel port s) = withPort sel port (act k r s) := by
  have context : reg (withPort sel port s) r = reg s r := rfl
  cases k with
  | enable => unfold act enableReg; dsimp only; rw [context]; split <;> rfl
  | disable => contradiction
  | start => unfold act startReg; dsimp only; rw [context]; split <;> rfl
  | halt => unfold act haltReg; dsimp only; rw [context]; split <;> rfl
  | restart =>
    unfold act restartReg
    dsimp only
    rw [context]
    split
    · exact regulatorEvent_withPort sel port r _ _ s
    · rfl
  | sample =>
    unfold act sampleReg
    dsimp only
    rw [context]
    split
    · rfl
    · exact regulatorEvent_withPort sel port r _ _ s
  | exchange =>
    unfold act exchangeReg
    dsimp only
    rw [context]
    split
    · rfl
    · exact regulatorEvent_withPort sel port r _ _ s

theorem actAll_withPort (k : CommandKind) (mask : BitVec 16) (s : State) :
    actAll k mask (withPort sel port s) = withPort sel port (actAll k mask s) := by
  by_cases disable : k = .disable
  · subst disable
    rw [actAll_disable, actAll_disable]
    rfl
  · refine List.foldl_hom (withPort sel port) fun t r => ?_
    split
    · exact act_withPort sel port disable r t
    · rfl

theorem commandRegulators_withPort (k : CommandKind) (mask : BitVec 16) (s : State) :
    commandRegulators k mask (withPort sel port s) =
      (withPort sel port (commandRegulators k mask s).1, (commandRegulators k mask s).2) := by
  have judged : ∀ t : State, reconsiderStates (withPort sel port s) (withPort sel port t) =
      withPort sel port (reconsiderStates s t) := by
    intro t
    have states : (regStates (withPort sel port s) = regStates (withPort sel port t)) = (regStates s = regStates t) := rfl
    unfold reconsiderStates
    simp only [states]
    split
    · rfl
    · exact consider_port_comm t sel port
  unfold commandRegulators
  rw [actAll_withPort, judged]
  rfl

theorem clearCauses_withPort (target causeSet : Byte) (s : State) :
    clearCauses target causeSet (withPort sel port s) =
      (withPort sel port (clearCauses target causeSet s).1, (clearCauses target causeSet s).2) := by
  unfold clearCauses
  split
  · split <;> rfl
  · split
    · split <;> rfl
    · rfl

theorem takeDenial_withPort (s : State) :
    takeDenial (withPort sel port s) = (withPort sel port (takeDenial s).1, (takeDenial s).2) := by
  have queue : (withPort sel port s).denials = s.denials := rfl
  unfold takeDenial
  rw [queue]
  split <;> rfl

end

/-- What a command does, and its reply, are the same whatever SEL and the port hold. -/
theorem performReply_withPort (c : FrameCommand) (sel : Bool) (port : Port) (s : State) :
    performReply c (withPort sel port s) = performReply c s := by
  suffices frame : ∃ sel' port', perform c (withPort sel port s) =
      (withPort sel' port' (perform c s).1, (perform c s).2) by
    obtain ⟨sel', port', frame⟩ := frame
    unfold performReply
    rw [frame]
    rfl
  cases c with
  | fullReset =>
    have empty : pathEmpty (withPort sel port s) = pathEmpty s := rfl
    have reset : blocksReset (withPort sel port s) = withPort sel (blocksReset s).port (blocksReset s) := rfl
    by_cases isEmpty : pathEmpty s = true
    · refine ⟨sel, (blocksReset s).port, ?_⟩
      change fullReset _ = (withPort _ _ (fullReset s).1, (fullReset s).2)
      unfold fullReset
      rw [empty, if_pos isEmpty, if_pos isEmpty, reset]
      exact congrArg (fun t => (t, Status.done, [])) (resume_port_comm (blocksReset s) sel (blocksReset s).port)
    · refine ⟨sel, port, ?_⟩
      change fullReset _ = (withPort _ _ (fullReset s).1, (fullReset s).2)
      unfold fullReset
      rw [empty, if_neg isEmpty, if_neg isEmpty]
  | identify => exact ⟨sel, port, rfl⟩
  | readField space index word => exact ⟨sel, port, rfl⟩
  | writeField space index word value =>
    refine ⟨sel, port, ?_⟩
    exact congrArg (fun w : Status × State => (w.2, w.1, ([] : List Byte)))
      (writeWord_withPort sel port s space.toNat index.toNat word.toNat value.toNat)
  | regulatorCommand kind mask =>
    refine ⟨sel, port, ?_⟩
    unfold perform
    dsimp only
    split
    · exact commandRegulators_withPort sel port _ mask s
    · rfl
  | clearCauses target causeSet => exact ⟨sel, port, clearCauses_withPort sel port target causeSet s⟩
  | takeDenial => exact ⟨sel, port, takeDenial_withPort sel port s⟩
  | summary => exact ⟨sel, port, rfl⟩

/-! ## A frame byte by byte (R182, R185) -/

section
variable {s : State} (quiet : Quiet s) (por : s.por = false)
include quiet por

/-- The parameter bytes of a frame are stored one after another. -/
theorem execAll_params {code : Byte} {n : Nat} (known : commandPartLength code = some n) (last : Byte) (params : List Byte) :
    ∀ stored : List Byte, stored.length + params.length + 1 < n →
      execAll ((params ++ [last]).map Instr.byteSlot) (withPort true (.command (code :: stored)) s) =
        execAll [.byteSlot last] (withPort true (.command (code :: (stored ++ params))) s) := by
  induction params with
  | nil =>
    intro stored _
    rw [List.append_nil]
    rfl
  | cons b params ih =>
    intro stored short
    have next : exec (.byteSlot b) (withPort true (.command (code :: stored)) s) =
        .next (withPort true (.command (code :: (stored ++ [b]))) s) := by
      rw [exec_byteSlot (s := withPort true (.command (code :: stored)) s) quiet por, slotDone_of_command rfl,
        receiveByte_of_short (received := code :: stored) known (by simp at short ⊢; omega)]
      rfl
    rw [List.cons_append, List.map_cons, execAll, next]
    refine (ih (stored ++ [b]) (by simp at short ⊢; omega)).trans ?_
    rw [List.append_assoc]
    rfl

/-- The CRC byte of a complete command part has the command performed. -/
theorem exec_crcByte {code : Byte} {params : List Byte} {c : FrameCommand} (parsed : parseCommand code params = some c)
    (known : commandPartLength code = some (params.length + 2)) :
    exec (.byteSlot (crc8 (code :: params))) (withPort true (.command (code :: params)) s) = .next (performReply c s) := by
  rw [exec_byteSlot (s := withPort true (.command (code :: params)) s) quiet por, slotDone_of_command rfl,
    ← performReply_withPort c true (.command (code :: params)) s]
  simp only [receiveByte, List.headD_cons, known, List.length_cons, lt_irrefl, if_false, if_true, List.tail_cons, parsed]

/-- A frame sent byte by byte from IDLE: its code byte, its parameters, its CRC byte. -/
theorem execAll_frame (idle : s.port = .idle) {code : Byte} {params : List Byte} {c : FrameCommand}
    (parsed : parseCommand code params = some c) (known : commandPartLength code = some (params.length + 2)) :
    execAll (.selAsserted :: (code :: params ++ [crc8 (code :: params)]).map Instr.byteSlot) s =
      .next (performReply c s) := by
  have begun : exec .selAsserted s = .next (withPort true (.command []) s) := by
    rw [exec_selAsserted quiet, selAssert, if_neg (by rw [por]; decide), idle]
    rfl
  have coded : exec (.byteSlot code) (withPort true (.command []) s) = .next (withPort true (.command [code]) s) := by
    rw [exec_byteSlot (s := withPort true (.command []) s) quiet por, slotDone_of_command rfl,
      receiveByte_of_short (received := []) known (length_commandPart known)]
    rfl
  rw [execAll, begun, List.cons_append, List.map_cons]
  dsimp only
  rw [execAll, coded]
  dsimp only
  rw [execAll_params quiet por known (crc8 (code :: params)) params [] (by simp)]
  rw [execAll, List.nil_append, exec_crcByte quiet por parsed known]
  rfl

end

/-- Settles O31. -/
theorem frameBytesPerformTheRow : Obligations.FrameBytesPerformTheRow := by
  intro s c quiet por idle
  obtain ⟨code, params, body, parsed, known⟩ := commandPartsDecodeBack c
  have ready : PortReady s := ⟨quiet, por, by rw [idle]; decide⟩
  rw [exec_rowOf_of_portReady ready c, encodeCommand, body]
  exact execAll_frame quiet por idle parsed known

end Sys2Proof.Machine
end

