-- ==== Sys2Proof/Proofs/WordLayouts.lean ====
section
/-! The fields and codes of the words of the management port (R199 to R203): which field values a decoder takes and which it
refuses, and a word's fields as the bits under its mask. -/

namespace Sys2Proof.Machine

/-! ## Fields (R199) -/

theorem field_lt (v lo n : Nat) : field v lo n < 2 ^ n := Nat.mod_lt _ (Nat.two_pow_pos n)

/-- A field is its low bits and the field of the bits above them. -/
theorem field_add (v lo a b : Nat) : field v lo (a + b) = field v lo a + field v (lo + a) b * 2 ^ a := by
  rw [field, field, field, Nat.pow_add, Nat.mod_mul, Nat.div_div_eq_div_mul, ← Nat.pow_add, Nat.mul_comm (2 ^ a)]

theorem flag_iff (v bit : Nat) : flag v bit = true ↔ v / 2 ^ bit % 2 = 1 := by
  simp [flag, field]

theorem flagBit_eq_iff (b : Bool) (v bit : Nat) : flagBit b = v / 2 ^ bit % 2 ↔ b = flag v bit := by
  rw [Bool.eq_iff_iff, flag_iff]
  cases b <;> simp [flagBit, eq_comm]
  omega

/-! ## Codes -/

theorem decodeTarget_eq_some_iff {n : Nat} {t : Target} : decodeTarget n = some t ↔ n = targetCode t := by
  cases t with
  | bypass =>
    unfold decodeTarget
    split
    · simp [targetCode]; omega
    · split <;> simp_all [targetCode]
  | regulator r =>
    unfold decodeTarget
    split
    · simp [targetCode, Fin.ext_iff]
    · have := r.isLt
      split <;> simp [targetCode] <;> omega

theorem decodeTarget_eq_none_iff {n : Nat} : decodeTarget n = none ↔ 17 ≤ n := by
  unfold decodeTarget
  split
  · simp; omega
  · split <;> simp <;> omega

theorem decodeInitiator_eq_some_iff {n : Nat} {i : Option (Fin 16)} :
    decodeInitiator n = some i ↔ n = initiatorCode i := by
  cases i with
  | none =>
    unfold decodeInitiator
    split
    · simp [initiatorCode]; omega
    · split <;> simp_all [initiatorCode]
  | some i =>
    unfold decodeInitiator
    split
    · simp [initiatorCode, Fin.ext_iff]
    · have := i.isLt
      split <;> simp [initiatorCode] <;> omega

theorem decodeInitiator_eq_none_iff {n : Nat} : decodeInitiator n = none ↔ 17 ≤ n := by
  unfold decodeInitiator
  split
  · simp; omega
  · split <;> simp <;> omega

theorem decodeDirectionMatch_eq_some_iff {n : Nat} {d : DirectionMatch} :
    decodeDirectionMatch n = some d ↔ n = directionMatchCode d := by
  unfold decodeDirectionMatch
  split <;> cases d <;> simp_all [directionMatchCode]

theorem decodeDirectionMatch_eq_none_iff {n : Nat} : decodeDirectionMatch n = none ↔ 3 ≤ n := by
  match n with
  | 0 | 1 | 2 => simp [decodeDirectionMatch]
  | _ + 3 => simp [decodeDirectionMatch]

theorem decodeMode_eq_some_iff {n : Nat} {m : Mode} : decodeMode n = some m ↔ n = modeCode m := by
  unfold decodeMode
  split <;> cases m <;> simp_all [modeCode]

theorem decodeMode_eq_none_iff {n : Nat} : decodeMode n = none ↔ 3 ≤ n := by
  match n with
  | 0 | 1 | 2 => simp [decodeMode]
  | _ + 3 => simp [decodeMode]

theorem decodePolicy_eq_some_iff {n : Nat} {p : OverflowPolicy} : decodePolicy n = some p ↔ n = policyCode p := by
  unfold decodePolicy
  split <;> cases p <;> simp_all [policyCode]

theorem decodePolicy_eq_none_iff {n : Nat} : decodePolicy n = none ↔ 2 ≤ n := by
  match n with
  | 0 | 1 => simp [decodePolicy]
  | _ + 2 => simp [decodePolicy]

theorem decodeSwitch_eq_some_iff {n : Nat} {b : Bool} : decodeSwitch n = some b ↔ n = flagBit b := by
  unfold decodeSwitch
  split <;> cases b <;> simp_all [flagBit]

theorem decodeSwitch_eq_none_iff {n : Nat} : decodeSwitch n = none ↔ 2 ≤ n := by
  match n with
  | 0 | 1 => simp [decodeSwitch]
  | _ + 2 => simp [decodeSwitch]

theorem decodeLine_eq_some_iff {n : Nat} {l : Option (Fin 4)} : decodeLine n = some l ↔ n = lineCode l := by
  match n with
  | 0 | 1 | 2 | 3 | 4 => revert l; decide
  | n + 5 =>
    have above : decodeLine (n + 5) = none := rfl
    have small : lineCode l < 5 := by revert l; decide
    rw [above]
    simp
    omega

theorem decodeLine_eq_none_iff {n : Nat} : decodeLine n = none ↔ 5 ≤ n := by
  match n with
  | 0 | 1 | 2 | 3 | 4 => simp [decodeLine]
  | _ + 5 => simp [decodeLine]

theorem decodeEdge_eq_some_iff {n : Nat} {e : EdgeSelect} : decodeEdge n = some e ↔ n = edgeCode e := by
  unfold decodeEdge
  split <;> cases e <;> simp_all [edgeCode]

theorem decodeEdge_eq_none_iff {n : Nat} : decodeEdge n = none ↔ 3 ≤ n := by
  match n with
  | 0 | 1 | 2 => simp [decodeEdge]
  | _ + 3 => simp [decodeEdge]

theorem decodeMarkerKind_eq_some_iff {n : Nat} {k : MarkerKind} : decodeMarkerKind n = some k ↔ n = markerKindCode k := by
  unfold decodeMarkerKind
  split <;> cases k <;> simp_all [markerKindCode]

theorem decodeMarkerKind_eq_none_iff {n : Nat} : decodeMarkerKind n = none ↔ 7 ≤ n := by
  match n with
  | 0 | 1 | 2 | 3 | 4 | 5 | 6 => simp [decodeMarkerKind]
  | _ + 7 => simp [decodeMarkerKind]

/-! ## The bits of a word that belong to fields (R199) -/

/-- The bits of a layout: fields from the lowest up, each with the gap below it and its width. -/
def layoutMask : List (Nat × Nat) → Nat
  | [] => 0
  | (gap, width) :: l => (2 ^ width - 1 + layoutMask l * 2 ^ width) * 2 ^ gap

/-- What a word holds in the fields of a layout that begins at a bit. -/
def layoutFields (v : Nat) : Nat → List (Nat × Nat) → Nat
  | _, [] => 0
  | lo, (gap, width) :: l =>
    field v (lo + gap) width * 2 ^ (lo + gap) + layoutFields v (lo + gap + width) l

/-- The low bits of a conjunction and the bits above them. -/
theorem and_eq_low_add_high (v m k : Nat) :
    v &&& m = (v % 2 ^ k &&& m % 2 ^ k) + (v / 2 ^ k &&& m / 2 ^ k) * 2 ^ k := by
  rw [← Nat.and_mod_two_pow, ← Nat.and_div_two_pow, Nat.mul_comm, Nat.mod_add_div]

theorem and_mul_two_pow (v m k : Nat) : v &&& m * 2 ^ k = (v / 2 ^ k &&& m) * 2 ^ k := by
  rw [and_eq_low_add_high v _ k, Nat.mul_mod_left, Nat.and_zero, Nat.mul_div_cancel _ (Nat.two_pow_pos k), Nat.zero_add]

theorem and_low_add_mul_two_pow (v m k : Nat) :
    v &&& (2 ^ k - 1 + m * 2 ^ k) = v % 2 ^ k + (v / 2 ^ k &&& m) * 2 ^ k := by
  have positive := Nat.two_pow_pos k
  have small : 2 ^ k - 1 < 2 ^ k := by omega
  rw [and_eq_low_add_high v _ k, Nat.add_mul_mod_self_right, Nat.mod_eq_of_lt small, Nat.and_two_pow_sub_one_eq_mod,
    Nat.mod_mod, Nat.add_mul_div_right _ _ positive, Nat.div_eq_of_lt small, Nat.zero_add]

/-- A word under the mask of a layout holds its fields. -/
theorem and_layoutMask (v : Nat) (l : List (Nat × Nat)) :
    ∀ lo : Nat, (v / 2 ^ lo &&& layoutMask l) * 2 ^ lo = layoutFields v lo l := by
  induction l with
  | nil => simp [layoutMask, layoutFields]
  | cons f l ih =>
    obtain ⟨gap, width⟩ := f
    intro lo
    have above := ih (lo + gap + width)
    rw [layoutMask, and_mul_two_pow, and_low_add_mul_two_pow, layoutFields, ← above, field, Nat.div_div_eq_div_mul,
      Nat.div_div_eq_div_mul, ← Nat.pow_add, ← Nat.pow_add]
    ring

theorem toNat_and_layout {v m : Word} (l : List (Nat × Nat)) (mask : m.toNat = layoutMask l) :
    (v &&& m).toNat = layoutFields v.toNat 0 l := by
  rw [BitVec.toNat_and, mask, ← and_layoutMask, Nat.pow_zero, Nat.div_one, Nat.mul_one]

/-! ## DEVICE words as written (R200) -/

theorem decodePrescale_eq_some_iff {v p : Nat} : decodePrescale v = some p ↔ v = p ∧ 1 ≤ v ∧ v ≤ 65536 := by
  unfold decodePrescale
  split <;> simp <;> omega

theorem decodePrescale_eq_none_iff {v : Nat} : decodePrescale v = none ↔ v = 0 ∨ 65536 < v := by
  unfold decodePrescale
  split <;> simp <;> omega

theorem decodeTimeout_eq_some_iff {v t : Nat} : decodeTimeout v = some t ↔ v = t ∧ v ≤ 65535 := by
  unfold decodeTimeout
  split <;> simp <;> omega

theorem decodeTimeout_eq_none_iff {v : Nat} : decodeTimeout v = none ↔ 65535 < v := by
  unfold decodeTimeout
  split <;> simp <;> omega

theorem decodeDefaultTarget_eq_some_iff {v : Nat} {p : Target × Nat} :
    decodeDefaultTarget v = some p ↔ field v 0 5 = targetCode p.1 ∧ field v 8 3 = p.2 ∧ field v 8 3 ≤ 3 := by
  obtain ⟨t, priority⟩ := p
  unfold decodeDefaultTarget
  rw [← decodeTarget_eq_some_iff]
  split
  case h_1 u named =>
    rw [named]
    split <;> simp <;> omega
  case h_2 unnamed => simp [unnamed]

theorem decodeDefaultTarget_eq_none_iff {v : Nat} :
    decodeDefaultTarget v = none ↔ 17 ≤ field v 0 5 ∨ 4 ≤ field v 8 3 := by
  unfold decodeDefaultTarget
  rw [← decodeTarget_eq_none_iff]
  split
  case h_1 u named =>
    rw [named]
    split <;> simp <;> omega
  case h_2 unnamed => simp [unnamed]

theorem decodeMarker_eq_some_iff {v lo : Nat} {c : RegNo × MarkerKind} :
    decodeMarker v lo = some c ↔ field v lo 4 = c.1.val ∧ field v (lo + 4) 3 = markerKindCode c.2 := by
  obtain ⟨r, k⟩ := c
  have small : field v lo 4 % 16 = field v lo 4 := Nat.mod_eq_of_lt (field_lt v lo 4)
  unfold decodeMarker
  rw [← decodeMarkerKind_eq_some_iff]
  split
  case h_1 u named => simp [named, Fin.ext_iff, small]
  case h_2 unnamed => simp [unnamed]

theorem decodeMarker_eq_none_iff {v lo : Nat} : decodeMarker v lo = none ↔ field v (lo + 4) 3 = 7 := by
  have small := field_lt v (lo + 4) 3
  have kind := decodeMarkerKind_eq_none_iff (n := field v (lo + 4) 3)
  unfold decodeMarker
  split
  case h_1 u named => simp [named] at kind ⊢; omega
  case h_2 unnamed => simp [unnamed] at kind ⊢; omega

theorem writeMarkers_eq_some {v : Nat} {lines : Vector Marker 4} {c : Fin 4 → RegNo × MarkerKind}
    (decoded : ∀ l : Fin 4, decodeMarker v (8 * l.val) = some (c l)) :
    writeMarkers v lines = some (Vector.ofFn fun l => configureLine lines[l] (c l)) := by
  have c0 := decoded 0
  have c1 := decoded 1
  have c2 := decoded 2
  have c3 := decoded 3
  simp only [Fin.isValue, Fin.val_zero, Fin.val_one, Fin.val_two, Nat.reduceMul] at c0 c1 c2 c3
  change decodeMarker v 24 = _ at c3
  unfold writeMarkers
  rw [c0, c1, c2, c3]
  rfl

theorem writeMarkers_eq_none_iff {v : Nat} {lines : Vector Marker 4} :
    writeMarkers v lines = none ↔ ∃ l : Fin 4, field v (8 * l.val + 4) 3 = 7 := by
  constructor
  · intro refused
    by_contra named
    push Not at named
    have decoded : ∀ l : Fin 4, ∃ c, decodeMarker v (8 * l.val) = some c := fun l =>
      Option.ne_none_iff_exists'.mp fun h => named l (decodeMarker_eq_none_iff.mp h)
    choose c decoded using decoded
    rw [writeMarkers_eq_some decoded] at refused
    cases refused
  · rintro ⟨l, seven⟩
    have refused : decodeMarker v (8 * l.val) = none := decodeMarker_eq_none_iff.mpr seven
    unfold writeMarkers
    fin_cases l <;> split <;> simp_all

/-! ## REGULATOR words as written (R201) -/

theorem decodeSetup_eq_some_iff {r : RegNo} {v : Nat} {u : Setup} :
    decodeSetup r v = some u ↔ SetupOk r u ∧ field v 0 2 = modeCode u.mode ∧ field v 4 3 = u.priority
      ∧ field v 8 2 = policyCode u.policy ∧ field v 12 2 = flagBit u.autoSample ∧ field v 16 6 = u.holdQuota
      ∧ field v 24 7 = u.outstandingLimit := by
  obtain ⟨mode, priority, policy, quota, limit, auto⟩ := u
  unfold decodeSetup
  rw [← decodeMode_eq_some_iff, ← decodePolicy_eq_some_iff, ← decodeSwitch_eq_some_iff]
  split
  case h_1 m p a isMode isPolicy isAuto =>
    rw [isMode, isPolicy, isAuto]
    constructor
    · intro h
      split at h
      · rename_i ok
        cases h
        tauto
      · cases h
    · rintro ⟨ok, hm, rfl, hp, ha, rfl, rfl⟩
      cases hm; cases hp; cases ha
      obtain ⟨p3, q1, q48, l64, shape⟩ := ok
      exact if_pos ⟨shape, p3, q1, q48, l64⟩
  case h_2 unnamed =>
    constructor
    · intro h; cases h
    · rintro ⟨-, hm, -, hp, ha, -⟩
      exact absurd ha (unnamed _ _ _ hm hp)

theorem decodeSetup_eq_none_iff {r : RegNo} {v : Nat} :
    decodeSetup r v = none ↔ field v 0 2 = 3 ∨ field v 0 2 = 2 ∧ r.val < 12 ∨ 4 ≤ field v 4 3 ∨ 2 ≤ field v 8 2
      ∨ 2 ≤ field v 12 2 ∨ field v 16 6 = 0 ∨ 49 ≤ field v 16 6 ∨ 65 ≤ field v 24 7 := by
  have modeBits := field_lt v 0 2
  unfold decodeSetup
  cases mode : decodeMode (field v 0 2) with
  | none =>
    have := decodeMode_eq_none_iff.mp mode
    simp
    omega
  | some m =>
    cases policy : decodePolicy (field v 8 2) with
    | none =>
      have := decodePolicy_eq_none_iff.mp policy
      simp
      omega
    | some p =>
      cases auto : decodeSwitch (field v 12 2) with
      | none =>
        have := decodeSwitch_eq_none_iff.mp auto
        simp
        omega
      | some a =>
        have modeIs := decodeMode_eq_some_iff.mp mode
        have policyIs := decodePolicy_eq_some_iff.mp policy
        have autoIs := decodeSwitch_eq_some_iff.mp auto
        have policySmall : policyCode p < 2 := by cases p <;> decide
        have autoSmall : flagBit a < 2 := by cases a <;> decide
        dsimp only
        cases m <;> split <;> simp_all [modeCode, Config.firstShaping] <;> omega

/-- A selection's five bits. -/
theorem decodeSelection_eq_some_iff {v lo : Nat} {t : Selection} :
    decodeSelection v lo = some t ↔ field v lo 5 = selectionBits t := by
  obtain ⟨l, e⟩ := t
  have bits : field v lo 5 = field v lo 3 + field v (lo + 3) 2 * 2 ^ 3 := field_add v lo 3 2
  have low := field_lt v lo 3
  have line : lineCode l < 5 := by revert l; decide
  have split_bits : field v lo 5 = selectionBits ⟨l, e⟩ ↔ field v lo 3 = lineCode l ∧ field v (lo + 3) 2 = edgeCode e := by
    rw [bits]
    simp only [selectionBits]
    omega
  rw [split_bits, ← decodeLine_eq_some_iff, ← decodeEdge_eq_some_iff]
  unfold decodeSelection
  split
  case h_1 a b isLine isEdge => simp [isLine, isEdge]
  case h_2 unnamed =>
    simp
    exact unnamed l e

theorem decodeSelection_eq_none_iff {v lo : Nat} :
    decodeSelection v lo = none ↔ 5 ≤ field v lo 3 ∨ field v (lo + 3) 2 = 3 := by
  have edgeBits := field_lt v (lo + 3) 2
  have edgeIff : field v (lo + 3) 2 = 3 ↔ decodeEdge (field v (lo + 3) 2) = none := by
    rw [decodeEdge_eq_none_iff]
    omega
  rw [edgeIff, ← decodeLine_eq_none_iff]
  unfold decodeSelection
  cases decodeLine (field v lo 3) <;> cases decodeEdge (field v (lo + 3) 2) <;> simp

theorem decodeTriggers_eq_some_iff {v : Nat} {t : Triggers} :
    decodeTriggers v = some t ↔ field v 0 5 = selectionBits t.start ∧ field v 6 5 = selectionBits t.halt
      ∧ field v 12 5 = selectionBits t.restart ∧ field v 18 5 = selectionBits t.sample
      ∧ field v 24 5 = selectionBits t.exchange := by
  obtain ⟨a, b, c, d, e⟩ := t
  simp only [← decodeSelection_eq_some_iff]
  unfold decodeTriggers
  split
  case h_1 isA isB isC isD isE => simp [isA, isB, isC, isD, isE]
  case h_2 unnamed =>
    simp
    exact fun ha hb hc hd => unnamed a b c d e ha hb hc hd

theorem decodeTriggers_eq_none_iff {v : Nat} :
    decodeTriggers v = none ↔ ∃ k : Fin 5, 5 ≤ field v (6 * k.val) 3 ∨ field v (6 * k.val + 3) 2 = 3 := by
  simp only [← decodeSelection_eq_none_iff]
  constructor
  · intro refused
    by_contra named
    push Not at named
    have decoded : ∀ k : Fin 5, ∃ c, decodeSelection v (6 * k.val) = some c := fun k =>
      Option.ne_none_iff_exists'.mp (named k)
    choose c decoded using decoded
    have taken : decodeTriggers v =
        some { start := c 0, halt := c 1, restart := c 2, sample := c 3, exchange := c 4 } := by
      simp only [decodeTriggers_eq_some_iff, ← decodeSelection_eq_some_iff]
      exact ⟨decoded 0, decoded 1, decoded 2, decoded 3, decoded 4⟩
    rw [taken] at refused
    cases refused
  · rintro ⟨k, refused⟩
    unfold decodeTriggers
    fin_cases k <;> split <;> simp_all

theorem writeProfile_timing_eq_some_iff {p q : Profile} {v : Nat} :
    writeProfile p .timing v = some q ↔ q = { p with period := field v 0 16, openLength := field v 16 16 }
      ∧ 1 ≤ field v 0 16 ∧ 1 ≤ field v 16 16 ∧ field v 16 16 ≤ field v 0 16 := by
  unfold writeProfile
  dsimp only
  split
  case isTrue ok => simp [ok, eq_comm]
  case isFalse bad => simp [bad]

theorem writeProfile_timing_eq_none_iff {p : Profile} {v : Nat} :
    writeProfile p .timing v = none ↔ field v 0 16 = 0 ∨ field v 16 16 = 0 ∨ field v 0 16 < field v 16 16 := by
  unfold writeProfile
  dsimp only
  split <;> simp <;> omega

theorem writeProfile_budget_eq_some_iff {p q : Profile} {v : Nat} :
    writeProfile p .budget v = some q ↔ q = { p with budget := v } ∧ v ≤ 16777215 := by
  unfold writeProfile
  dsimp only
  split
  case isTrue ok => simp [ok, eq_comm]
  case isFalse bad => simp [bad]

theorem writeProfile_budget_eq_none_iff {p : Profile} {v : Nat} : writeProfile p .budget v = none ↔ 16777215 < v := by
  unfold writeProfile
  dsimp only
  split <;> simp <;> omega

/-! ## MAP words as written (R202) -/

theorem decodeMapWord_eq_some_iff {e f : MapEntry} {v : Nat} :
    decodeMapWord e v = some f ↔ f.valid = flag v 0 ∧ f.base = e.base ∧ f.limit = e.limit
      ∧ field v 4 2 = directionMatchCode f.direction ∧ field v 8 5 = initiatorCode f.initiator
      ∧ field v 16 5 = targetCode f.target := by
  obtain ⟨valid, d, i, t, base, limit⟩ := f
  rw [← decodeDirectionMatch_eq_some_iff, ← decodeInitiator_eq_some_iff, ← decodeTarget_eq_some_iff]
  unfold decodeMapWord
  split
  case h_1 a b c isA isB isC =>
    simp [isA, isB, isC]
    grind
  case h_2 unnamed =>
    simp
    exact fun _ _ _ hd hi => unnamed d i t hd hi

theorem decodeMapWord_eq_none_iff {e : MapEntry} {v : Nat} :
    decodeMapWord e v = none ↔ field v 4 2 = 3 ∨ 17 ≤ field v 8 5 ∨ 17 ≤ field v 16 5 := by
  have directionBits := field_lt v 4 2
  have directionIff : field v 4 2 = 3 ↔ decodeDirectionMatch (field v 4 2) = none := by
    rw [decodeDirectionMatch_eq_none_iff]
    omega
  rw [directionIff, ← decodeInitiator_eq_none_iff, ← decodeTarget_eq_none_iff]
  unfold decodeMapWord
  cases decodeDirectionMatch (field v 4 2) <;> cases decodeInitiator (field v 8 5) <;>
    cases decodeTarget (field v 16 5) <;> simp

theorem writeBound_base_eq_some_iff {e f : MapEntry} {v : Nat} :
    writeBound e .base v = some f ↔ f = { e with base := v } ∧ v ≤ 268435455 := by
  unfold writeBound
  dsimp only
  split
  case isTrue ok => simp [ok, eq_comm]
  case isFalse bad => simp [bad]

theorem writeBound_limit_eq_some_iff {e f : MapEntry} {v : Nat} :
    writeBound e .limit v = some f ↔ f = { e with limit := v } ∧ v ≤ 268435455 := by
  unfold writeBound
  dsimp only
  split
  case isTrue ok => simp [ok, eq_comm]
  case isFalse bad => simp [bad]

theorem writeBound_eq_none_iff {e : MapEntry} {which : BoundWord} {v : Nat} :
    writeBound e which v = none ↔ 268435455 < v := by
  unfold writeBound
  split
  case isTrue ok => cases which <;> simp [ok]
  case isFalse bad => simp at bad; simp [bad]

end Sys2Proof.Machine
end

