-- ==== Sys2Proof/Proofs/WriteField.lean ====
section
/-! WRITE FIELD (R192): when it is refused, what it stores, what the stored word reads as, for O38 to O43 and O60. -/

namespace Sys2Proof.Machine

/-! ## Which words may be written (R191) -/

theorem byte_eq_ofNat {b : Byte} {n : Nat} (value : b.toNat = n) : b = BitVec.ofNat 8 n := by
  rw [← value, BitVec.ofNat_toNat, BitVec.setWidth_eq]

/-- The answer to a write of a word that may be written: LOCKED, else RANGE or the word stored. -/
def guardedWrite (locked : Bool) (s : State) (stored : Option State) : Status × State :=
  if locked then (.locked, s) else storeOrRange s stored

theorem guardedWrite_of_stored {locked : Bool} {s t : State} {stored : Option State} (free : locked = false)
    (some : stored = some t) : guardedWrite locked s stored = (.done, t) := by
  rw [guardedWrite, free, some]
  rfl

theorem stored_of_done {locked : Bool} {s : State} {stored : Option State} {answer : Status × State}
    (guarded : answer = guardedWrite locked s stored) (done : answer.1 = .done) : stored = some answer.2 := by
  subst guarded
  unfold guardedWrite at done ⊢
  cases locked <;> cases stored <;> simp_all [storeOrRange]

/-- A status and a state that answer a write from s as R192 says. -/
structure Answers (s : State) (writable locked outOfRange : Prop) (answer : Status × State) : Prop where
  isIndex : answer.1 = .index ↔ ¬ writable
  isLocked : answer.1 = .locked ↔ writable ∧ locked
  isRange : answer.1 = .range ↔ writable ∧ ¬ locked ∧ outOfRange
  known : answer.1 = .done ∨ answer.1 = .index ∨ answer.1 = .locked ∨ answer.1 = .range
  kept : answer.1 ≠ .done → answer.2 = s

theorem answers_index {s : State} {writable locked outOfRange : Prop} (no : ¬ writable) :
    Answers s writable locked outOfRange (.index, s) := by
  constructor <;> simp [no]

theorem answers_of_guardedWrite {s : State} {writable isLocked outOfRange : Prop} {locked : Bool}
    {stored : Option State} {answer : Status × State} (guarded : answer = guardedWrite locked s stored) (yes : writable)
    (lock : locked = true ↔ isLocked) (range : stored = none ↔ outOfRange) :
    Answers s writable isLocked outOfRange answer := by
  unfold guardedWrite at guarded
  rw [guarded, ← propext lock, ← propext range]
  cases locked <;> cases stored <;> constructor <;> simp [storeOrRange, yes]

/-! ## The words one by one -/

section
variable (s : State) (v : Nat)

theorem writeWord_prescale : writeWord s 0 0 0 v =
    guardedWrite (anyInUse s) s ((decodePrescale v).map fun p => { s with prescale := p }) := rfl

theorem writeWord_responseTimeout : writeWord s 0 0 1 v =
    guardedWrite false s ((decodeTimeout v).map fun t => { s with responseTimeout := t }) := rfl

theorem writeWord_defaultTarget : writeWord s 0 0 2 v =
    guardedWrite false s
      ((decodeDefaultTarget v).map fun p => consider { s with defaultTarget := p.1, bypassPriority := p.2 }) := rfl

theorem writeWord_markers : writeWord s 0 0 3 v =
    guardedWrite false s ((writeMarkers v s.markers).map fun m => { s with markers := m }) := rfl

theorem writeWord_deviceMask : writeWord s 0 0 5 v =
    guardedWrite false s (some { s with deviceMask := BitVec.ofNat 6 v }) := rfl

variable (r : RegNo)

theorem writeWord_regulator (word : Nat) : writeWord s 1 r.val word v = writeRegulator s r word v :=
  dif_pos r.isLt

theorem writeWord_setup : writeWord s 1 r.val 0 v =
    guardedWrite ((reg s r).state != .off) s
      ((decodeSetup r v).map fun u => consider (setReg s r { reg s r with setup := u })) := by
  rw [writeWord_regulator]
  unfold writeRegulator guardedWrite
  cases (reg s r).state <;> rfl

theorem writeWord_triggers : writeWord s 1 r.val 1 v =
    guardedWrite ((reg s r).state != .off) s
      ((decodeTriggers v).map fun t => setReg s r { reg s r with triggers := t }) := by
  rw [writeWord_regulator]
  unfold writeRegulator guardedWrite
  cases (reg s r).state <;> rfl

theorem writeActive_eq (which : ProfileWord) : writeActive s r which v =
    guardedWrite (laneInUse (reg s r).state) s
      ((writeProfile (reg s r).active which v).map fun p => setReg s r { reg s r with active := p }) := by
  unfold writeActive activeWritable guardedWrite
  cases laneInUse (reg s r).state <;> rfl

theorem writeWord_activeTiming : writeWord s 1 r.val 2 v =
    guardedWrite (laneInUse (reg s r).state) s
      ((writeProfile (reg s r).active .timing v).map fun p => setReg s r { reg s r with active := p }) := by
  rw [writeWord_regulator]
  exact writeActive_eq s v r .timing

theorem writeWord_activeBudget : writeWord s 1 r.val 3 v =
    guardedWrite (laneInUse (reg s r).state) s
      ((writeProfile (reg s r).active .budget v).map fun p => setReg s r { reg s r with active := p }) := by
  rw [writeWord_regulator]
  exact writeActive_eq s v r .budget

theorem writeWord_standbyTiming : writeWord s 1 r.val 4 v =
    guardedWrite false s
      ((writeProfile (reg s r).standby .timing v).map fun p => setReg s r { reg s r with standby := p }) := by
  rw [writeWord_regulator]
  rfl

theorem writeWord_standbyBudget : writeWord s 1 r.val 5 v =
    guardedWrite false s
      ((writeProfile (reg s r).standby .budget v).map fun p => setReg s r { reg s r with standby := p }) := by
  rw [writeWord_regulator]
  rfl

theorem writeWord_causeMask : writeWord s 1 r.val 13 v =
    guardedWrite false s (some (setReg s r { reg s r with mask := BitVec.ofNat 7 v })) := by
  rw [writeWord_regulator]
  rfl

variable (i : Fin 32)

theorem writeWord_map (word : Nat) : writeWord s 2 i.val word v = writeMap s i word v :=
  dif_pos i.isLt

/-- MAP word 0 as written, where an entry that becomes valid has BASE no greater than LIMIT (R34). -/
def soundMapWord (e : MapEntry) (v : Nat) : Option MapEntry :=
  (decodeMapWord e v).filter fun f => !(f.valid && decide (f.limit < f.base))

theorem writeWord_mapWord0 : writeWord s 2 i.val 0 v =
    guardedWrite ((s.map[i]).valid && flag v 0) s ((soundMapWord s.map[i] v).map (storeEntry s i)) := by
  rw [writeWord_map]
  change writeMapWord0 s i v = _
  unfold writeMapWord0 guardedWrite soundMapWord
  cases decodeMapWord s.map[i] v with
  | none => rfl
  | some f =>
    cases unsound : f.valid && decide (f.limit < f.base) <;> simp [Option.filter, unsound, storeOrRange]

theorem writeWord_base : writeWord s 2 i.val 1 v =
    guardedWrite (s.map[i]).valid s ((writeBound s.map[i] .base v).map (storeEntry s i)) := by
  rw [writeWord_map]
  rfl

theorem writeWord_limit : writeWord s 2 i.val 2 v =
    guardedWrite (s.map[i]).valid s ((writeBound s.map[i] .limit v).map (storeEntry s i)) := by
  rw [writeWord_map]
  rfl

end

/-- A word that may not be written answers INDEX. -/
theorem writeWord_of_not_writable {space index word : Byte} (no : ¬ Writable space index word) (s : State) (v : Nat) :
    writeWord s space.toNat index.toNat word.toNat v = (.index, s) := by
  unfold writeWord
  split
  case h_1 isSpace =>
    split
    case isTrue isIndex =>
      unfold writeDevice
      split
      case h_6 => rfl
      all_goals exact absurd (.inl ⟨byte_eq_ofNat isSpace, byte_eq_ofNat isIndex, by simp [byte_eq_ofNat ‹word.toNat = _›]⟩) no
    case isFalse => rfl
  case h_2 isSpace =>
    split
    case isTrue small =>
      unfold writeRegulator
      split
      case h_8 => rfl
      all_goals exact absurd (.inr (.inl ⟨byte_eq_ofNat isSpace, small, by simp [byte_eq_ofNat ‹word.toNat = _›]⟩)) no
    case isFalse => rfl
  case h_3 isSpace =>
    split
    case isTrue small =>
      unfold writeMap
      split
      case h_4 => rfl
      all_goals exact absurd (.inr (.inr ⟨byte_eq_ofNat isSpace, small, by simp [byte_eq_ofNat ‹word.toNat = _›]⟩)) no
    case isFalse => rfl
  case h_4 => rfl

/-! ## Refusals (R192) -/

theorem anyInUse_iff (s : State) :
    anyInUse s = true ↔ ∃ r : RegNo, (reg s r).state = .running ∨ (reg s r).state = .halted := by
  simp only [anyInUse, List.any_eq_true, Vector.mem_toList_iff, Vector.mem_iff_getElem, laneInUse_iff]
  constructor
  · rintro ⟨g, ⟨i, small, rfl⟩, used⟩
    exact ⟨⟨i, small⟩, used⟩
  · rintro ⟨r, used⟩
    exact ⟨reg s r, ⟨r.val, r.isLt, rfl⟩, used⟩

theorem soundMapWord_eq_none_iff {e : MapEntry} {v : Nat} :
    soundMapWord e v = none ↔ decodeMapWord e v = none ∨ flag v 0 = true ∧ e.limit < e.base := by
  unfold soundMapWord
  cases decoded : decodeMapWord e v with
  | none => simp
  | some f =>
    obtain ⟨valid, base, limit, -⟩ := decodeMapWord_eq_some_iff.mp decoded
    simp [valid, base, limit]

/-- A write of any word answers as R192 says. -/
theorem answers_writeWord (s : State) (space index word : Byte) (v : Word) :
    Answers s (Writable space index word) (LockedWord s space index word v) (OutOfRange s space index word v.toNat)
      (writeWord s space.toNat index.toNat word.toNat v.toNat) := by
  by_cases writable : Writable space index word
  case neg =>
    rw [writeWord_of_not_writable writable]
    exact answers_index writable
  have small := v.isLt
  obtain ⟨rfl, rfl, known⟩ | ⟨rfl, isRegulator, known⟩ | ⟨rfl, isEntry, known⟩ := id writable
  · simp only [List.mem_cons, List.not_mem_nil, or_false] at known
    obtain rfl | rfl | rfl | rfl | rfl := known
    · refine answers_of_guardedWrite (writeWord_prescale s v.toNat) writable ?_ ?_
      · simp [LockedWord, anyInUse_iff]
      · simp [OutOfRange, decodePrescale_eq_none_iff]
    · refine answers_of_guardedWrite (writeWord_responseTimeout s v.toNat) writable ?_ ?_
      · simp [LockedWord]
      · simp [OutOfRange, decodeTimeout_eq_none_iff]
    · refine answers_of_guardedWrite (writeWord_defaultTarget s v.toNat) writable ?_ ?_
      · simp [LockedWord]
      · simp [OutOfRange, decodeDefaultTarget_eq_none_iff, field]
    · refine answers_of_guardedWrite (writeWord_markers s v.toNat) writable ?_ ?_
      · simp [LockedWord]
      · simp [OutOfRange, writeMarkers_eq_none_iff, field]
    · refine answers_of_guardedWrite (writeWord_deviceMask s v.toNat) writable ?_ ?_
      · simp [LockedWord]
      · simp [OutOfRange]
  · obtain ⟨r, here⟩ : ∃ r : RegNo, index.toNat = r.val := ⟨⟨index.toNat, isRegulator⟩, rfl⟩
    have lock : ∀ {P : RegNo → Prop}, (∃ q : RegNo, index.toNat = q.val ∧ P q) ↔ P r := by
      intro P
      simp [here, ← Fin.ext_iff]
    simp only [List.mem_cons, List.not_mem_nil, or_false] at known
    rw [here]
    obtain rfl | rfl | rfl | rfl | rfl | rfl | rfl := known
    · refine answers_of_guardedWrite (writeWord_setup s v.toNat r) writable ?_ ?_
      · simp [LockedWord, lock]
      · simp [OutOfRange, decodeSetup_eq_none_iff, field, here]
    · refine answers_of_guardedWrite (writeWord_triggers s v.toNat r) writable ?_ ?_
      · simp [LockedWord, lock]
      · simp [OutOfRange, decodeTriggers_eq_none_iff, field]
    · refine answers_of_guardedWrite (writeWord_activeTiming s v.toNat r) writable ?_ ?_
      · simp [LockedWord, lock, laneInUse_iff]
      · simp [OutOfRange, writeProfile_timing_eq_none_iff, field]
        omega
    · refine answers_of_guardedWrite (writeWord_activeBudget s v.toNat r) writable ?_ ?_
      · simp [LockedWord, lock, laneInUse_iff]
      · simp [OutOfRange, writeProfile_budget_eq_none_iff]
    · refine answers_of_guardedWrite (writeWord_standbyTiming s v.toNat r) writable ?_ ?_
      · simp [LockedWord]
      · simp [OutOfRange, writeProfile_timing_eq_none_iff, field]
        omega
    · refine answers_of_guardedWrite (writeWord_standbyBudget s v.toNat r) writable ?_ ?_
      · simp [LockedWord]
      · simp [OutOfRange, writeProfile_budget_eq_none_iff]
    · refine answers_of_guardedWrite (writeWord_causeMask s v.toNat r) writable ?_ ?_
      · simp [LockedWord]
      · simp [OutOfRange]
  · obtain ⟨i, here⟩ : ∃ i : Fin 32, index.toNat = i.val := ⟨⟨index.toNat, isEntry⟩, rfl⟩
    have lock : ∀ {P : Fin 32 → Prop}, (∃ j : Fin 32, index.toNat = j.val ∧ P j) ↔ P i := by
      intro P
      simp [here, ← Fin.ext_iff]
    have bit : flag v.toNat 0 = v[0] := by
      rw [Bool.eq_iff_iff, flag_iff, ← BitVec.getLsbD_eq_getElem, ← BitVec.testBit_toNat, Nat.testBit_zero]
      simp
    simp only [List.mem_cons, List.not_mem_nil, or_false] at known
    rw [here]
    obtain rfl | rfl | rfl := known
    · refine answers_of_guardedWrite (writeWord_mapWord0 s v.toNat i) writable ?_ ?_
      · simp [LockedWord, lock, bit]
      · simp [OutOfRange, lock, soundMapWord_eq_none_iff, decodeMapWord_eq_none_iff, field, flag_iff]
        tauto
    · refine answers_of_guardedWrite (writeWord_base s v.toNat i) writable ?_ ?_
      · simp [LockedWord, lock]
      · simp [OutOfRange, writeBound_eq_none_iff]
    · refine answers_of_guardedWrite (writeWord_limit s v.toNat i) writable ?_ ?_
      · simp [LockedWord, lock]
      · simp [OutOfRange, writeBound_eq_none_iff]

/-- Settles O39. -/
theorem refusedWritesChangeNothing : Obligations.RefusedWritesChangeNothing := by
  intro s space index word v ready status
  obtain ⟨isIndex, isLocked, isRange, known, kept⟩ := answers_writeWord s space index word v
  refine ⟨isIndex, isLocked, isRange, known, fun refused => ?_⟩
  have run : exec (.writeField space index word v) s = .next (performReply (.writeField space index word v) s) :=
    exec_rowOf_of_portReady ready (.writeField space index word v)
  rw [run]
  unfold performReply perform
  dsimp only
  rw [kept refused]
  rfl

/-! ## What a stored word reads as, and the other words (R192) -/

section
variable (s : State) (index : Byte) (word : Nat)

theorem readWord_device : readWord s (0x00#8).toNat (0x00#8).toNat word = deviceWord s word := rfl

theorem readWord_regulator (small : index.toNat < 16) : readWord s (0x01#8).toNat index.toNat word =
    regulatorWord (reg s ⟨index.toNat, small⟩) (laneLength s (.regulator ⟨index.toNat, small⟩)) word :=
  dif_pos small

theorem readWord_map (small : index.toNat < 32) :
    readWord s (0x02#8).toNat index.toNat word = mapEntryWord s.map[index.toNat] word :=
  dif_pos small

end

/-- From s to t the word reads as n and every other writable word as before. -/
structure Stores (s t : State) (space index word : Byte) (n : Nat) : Prop where
  here : readWord t space.toNat index.toNat word.toNat = some n
  others : ∀ space' index' word' : Byte, Writable space' index' word' →
    ¬ (space' = space ∧ index' = index ∧ word' = word) →
    readWord t space'.toNat index'.toNat word'.toNat = readWord s space'.toNat index'.toNat word'.toNat

theorem markerByte_consider (s : State) (l : Fin 4) :
    markerByte (consider s).markers[l] = markerByte s.markers[l] := by
  obtain absent | ⟨o, offered⟩ := Option.eq_none_or_eq_some s.offer
  · rw [consider_none absent]
  by_cases flows : flowing s = true
  · rw [consider_eq offered flows, fullCause_frame]
    change markerByte (quotaCause (judge s o.request) o s).markers[l] = _
    rw [markers_quotaCause]
    split <;> rfl
  · rw [consider_of_held (Bool.eq_false_iff.mpr flows)]

theorem markersWord_consider (s : State) : markersWord (consider s).markers = markersWord s.markers := by
  have line0 : markerByte (consider s).markers[0] = markerByte s.markers[0] := markerByte_consider s 0
  have line1 : markerByte (consider s).markers[1] = markerByte s.markers[1] := markerByte_consider s 1
  have line2 : markerByte (consider s).markers[2] = markerByte s.markers[2] := markerByte_consider s 2
  have line3 : markerByte (consider s).markers[3] = markerByte s.markers[3] := markerByte_consider s 3
  rw [markersWord, line0, line1, line2, line3, markersWord]

theorem readWord_consider {space index word : Byte} (writable : Writable space index word) (s : State) :
    readWord (consider s) space.toNat index.toNat word.toNat = readWord s space.toNat index.toNat word.toNat := by
  obtain ⟨rfl, rfl, known⟩ | ⟨rfl, isRegulator, known⟩ | ⟨rfl, isEntry, known⟩ := writable
  · have lines := markersWord_consider s
    simp only [List.mem_cons, List.not_mem_nil, or_false] at known
    obtain rfl | rfl | rfl | rfl | rfl := known <;> simp [readWord, deviceWord, lines]
  · have context : ∃ causes, (consider s).regs[index.toNat] = { s.regs[index.toNat] with causes := causes } := by
      have here := reg_consider s ⟨index.toNat, isRegulator⟩
      split at here
      · exact ⟨_, here⟩
      · exact ⟨_, here⟩
    obtain ⟨causes, context⟩ := context
    simp only [List.mem_cons, List.not_mem_nil, or_false] at known
    obtain rfl | rfl | rfl | rfl | rfl | rfl | rfl := known <;>
      simp [readWord, regulatorWord, isRegulator, context]
  · simp [readWord, isEntry]

theorem Stores.consider {s t : State} {space index word : Byte} {n : Nat} (stores : Stores s t space index word n)
    (writable : Writable space index word) : Stores s (consider t) space index word n where
  here := (readWord_consider writable t).trans stores.here
  others := fun space' index' word' writable' apart =>
    (readWord_consider writable' t).trans (stores.others space' index' word' writable' apart)

theorem toNat_ne_of_ne {b c : Byte} (apart : b ≠ c) : b.toNat ≠ c.toNat :=
  fun same => apart (BitVec.eq_of_toNat_eq same)

/-- A write of a DEVICE word. -/
theorem stores_device {s t : State} {word : Byte} {n : Nat} (here : deviceWord t word.toNat = some n)
    (others : ∀ w ∈ [0, 1, 2, 3, 5], w ≠ word.toNat → deviceWord t w = deviceWord s w)
    (frame : t.regs = s.regs ∧ t.pool = s.pool ∧ t.map = s.map) : Stores s t 0x00#8 0x00#8 word n := by
  obtain ⟨regs, pool, map⟩ := frame
  refine ⟨here, fun space' index' word' writable apart => ?_⟩
  obtain ⟨rfl, rfl, known⟩ | ⟨rfl, isRegulator, known⟩ | ⟨rfl, isEntry, known⟩ := writable
  · refine others word'.toNat ?_ (toNat_ne_of_ne fun same => apart ⟨rfl, rfl, same⟩)
    simp only [List.mem_cons, List.not_mem_nil, or_false] at known
    obtain rfl | rfl | rfl | rfl | rfl := known <;> decide
  · simp [readWord, isRegulator, regs, laneLength, pool]
  · simp [readWord, isEntry, map]

/-- A write of a REGULATOR word. -/
theorem stores_regulator {s : State} {r : RegNo} {g : Regulator} {index word : Byte} {n : Nat}
    (isRegulator : index.toNat = r.val) (here : ∀ length, regulatorWord g length word.toNat = some n)
    (others : ∀ length, ∀ w ∈ [0, 1, 2, 3, 4, 5, 13], w ≠ word.toNat →
      regulatorWord g length w = regulatorWord (reg s r) length w) :
    Stores s (setReg s r g) 0x01#8 index word n := by
  have context : ∀ index' : Byte, ∀ small : index'.toNat < 16, reg (setReg s r g) ⟨index'.toNat, small⟩ =
      if index' = index then g else reg s ⟨index'.toNat, small⟩ := by
    intro index' small
    rw [reg_setReg]
    refine if_congr ?_ rfl rfl
    rw [Fin.ext_iff, ← isRegulator, BitVec.toNat_inj]
  have device : ∀ w ∈ [0, 1, 2, 3, 5], deviceWord (setReg s r g) w = deviceWord s w := by simp [deviceWord, setReg]
  refine ⟨?_, fun space' index' word' writable apart => ?_⟩
  · have small : index.toNat < 16 := isRegulator ▸ r.isLt
    rw [readWord_regulator _ _ _ small, context index small, if_pos rfl]
    exact here _
  obtain ⟨rfl, rfl, known⟩ | ⟨rfl, small, known⟩ | ⟨rfl, small, known⟩ := writable
  · rw [readWord_device, readWord_device]
    refine device word'.toNat ?_
    simp only [List.mem_cons, List.not_mem_nil, or_false] at known
    obtain rfl | rfl | rfl | rfl | rfl := known <;> decide
  · rw [readWord_regulator _ _ _ small, readWord_regulator _ _ _ small, context index' small]
    split
    case isTrue same =>
      subst same
      have was : (⟨index'.toNat, small⟩ : RegNo) = r := Fin.ext isRegulator
      rw [was]
      refine others _ word'.toNat ?_ (toNat_ne_of_ne fun same => apart ⟨rfl, rfl, same⟩)
      simp only [List.mem_cons, List.not_mem_nil, or_false] at known
      obtain rfl | rfl | rfl | rfl | rfl | rfl | rfl := known <;> decide
    case isFalse => rfl
  · rw [readWord_map _ _ _ small, readWord_map _ _ _ small]
    rfl

/-- A write of a MAP word. -/
theorem stores_map {s : State} {i : Fin 32} {e : MapEntry} {index word : Byte} {n : Nat}
    (isEntry : index.toNat = i.val) (here : mapEntryWord e word.toNat = some n)
    (others : ∀ w ∈ [0, 1, 2], w ≠ word.toNat → mapEntryWord e w = mapEntryWord s.map[i] w) :
    Stores s { s with map := s.map.set i e } 0x02#8 index word n := by
  have entry : ∀ index' : Byte, ∀ small : index'.toNat < 32, (s.map.set i e)[index'.toNat] =
      if index' = index then e else s.map[index'.toNat] := by
    intro index' small
    rw [Vector.getElem_set]
    refine if_congr ?_ rfl rfl
    rw [← isEntry, BitVec.toNat_inj, eq_comm]
  have device : ∀ w ∈ [0, 1, 2, 3, 5], deviceWord { s with map := s.map.set i e } w = deviceWord s w := by
    simp [deviceWord]
  refine ⟨?_, fun space' index' word' writable apart => ?_⟩
  · have small : index.toNat < 32 := isEntry ▸ i.isLt
    rw [readWord_map _ _ _ small]
    dsimp only
    rw [entry index small, if_pos rfl]
    exact here
  obtain ⟨rfl, rfl, known⟩ | ⟨rfl, small, known⟩ | ⟨rfl, small, known⟩ := writable
  · rw [readWord_device, readWord_device]
    refine device word'.toNat ?_
    simp only [List.mem_cons, List.not_mem_nil, or_false] at known
    obtain rfl | rfl | rfl | rfl | rfl := known <;> decide
  · rw [readWord_regulator _ _ _ small, readWord_regulator _ _ _ small]
    rfl
  · rw [readWord_map _ _ _ small, readWord_map _ _ _ small]
    dsimp only
    rw [entry index' small]
    split
    case isTrue same =>
      subst same
      have was : s.map[index'.toNat] = s.map[i] := by simp [isEntry]
      rw [was]
      refine others word'.toNat ?_ (toNat_ne_of_ne fun same => apart ⟨rfl, rfl, same⟩)
      simp only [List.mem_cons, List.not_mem_nil, or_false] at known
      obtain rfl | rfl | rfl := known <;> decide
    case isFalse => rfl

/-! ## The stored word as a number (R199) -/

section
variable {v : Word}

theorem toNat_and_all (v : Word) : (v &&& 0xFFFFFFFF#32).toNat = v.toNat := by
  have all : (0xFFFFFFFF#32 : Word) = BitVec.allOnes 32 := by decide
  rw [all, BitVec.and_allOnes]

theorem defaultTargetWord_of_decoded {p : Target × Nat} (decoded : decodeDefaultTarget v.toNat = some p) :
    defaultTargetWord p.1 p.2 = (v &&& fieldBits 0x00#8 0x02#8).toNat := by
  obtain ⟨target, priority, -⟩ := decodeDefaultTarget_eq_some_iff.mp decoded
  have bits := toNat_and_layout (v := v) (m := fieldBits 0x00#8 0x02#8) [(0, 5), (3, 3)] rfl
  rw [bits, defaultTargetWord, ← target, ← priority]
  simp only [layoutFields, Nat.reduceAdd]
  omega

theorem markersWord_of_written {lines written : Vector Marker 4} (stored : writeMarkers v.toNat lines = some written) :
    markersWord written = (v &&& fieldBits 0x00#8 0x03#8).toNat := by
  have decoded : ∀ l : Fin 4, ∃ c, decodeMarker v.toNat (8 * l.val) = some c := fun l =>
    Option.ne_none_iff_exists'.mp fun refused => by
      have seven := writeMarkers_eq_none_iff (lines := lines).mpr ⟨l, decodeMarker_eq_none_iff.mp refused⟩
      rw [stored] at seven
      cases seven
  choose c decoded using decoded
  rw [writeMarkers_eq_some decoded] at stored
  have byte : ∀ l : Fin 4, markerByte written[l] = field v.toNat (8 * l.val) 4 + field v.toNat (8 * l.val + 4) 3 * 2 ^ 4 := by
    intro l
    obtain ⟨source, kind⟩ := decodeMarker_eq_some_iff.mp (decoded l)
    have same : written[l] = configureLine lines[l] (c l) := by
      rw [← Option.some.inj stored]
      simp
    rw [same, source, kind, configureLine, markerByte]
    split
    case isTrue same => rw [same.1, same.2]
    case isFalse => rfl
  have line0 : markerByte written[0] = field v.toNat 0 4 + field v.toNat 4 3 * 2 ^ 4 := byte 0
  have line1 : markerByte written[1] = field v.toNat 8 4 + field v.toNat 12 3 * 2 ^ 4 := byte 1
  have line2 : markerByte written[2] = field v.toNat 16 4 + field v.toNat 20 3 * 2 ^ 4 := byte 2
  have line3 : markerByte written[3] = field v.toNat 24 4 + field v.toNat 28 3 * 2 ^ 4 := byte 3
  have bits := toNat_and_layout (v := v) (m := fieldBits 0x00#8 0x03#8)
    [(0, 4), (0, 3), (1, 4), (0, 3), (1, 4), (0, 3), (1, 4), (0, 3)] rfl
  rw [bits, markersWord, line0, line1, line2, line3]
  simp only [layoutFields, Nat.reduceAdd]
  omega

theorem setupWord_of_decoded {r : RegNo} {u : Setup} (decoded : decodeSetup r v.toNat = some u) :
    setupWord u = (v &&& fieldBits 0x01#8 0x00#8).toNat := by
  obtain ⟨-, mode, priority, policy, auto, quota, limit⟩ := decodeSetup_eq_some_iff.mp decoded
  have bits := toNat_and_layout (v := v) (m := fieldBits 0x01#8 0x00#8)
    [(0, 2), (2, 3), (1, 2), (2, 2), (2, 6), (2, 7)] rfl
  rw [bits, setupWord, ← mode, ← priority, ← policy, ← auto, ← quota, ← limit]
  simp only [layoutFields, Nat.reduceAdd]
  omega

theorem triggersWord_of_decoded {t : Triggers} (decoded : decodeTriggers v.toNat = some t) :
    triggersWord t = (v &&& fieldBits 0x01#8 0x01#8).toNat := by
  obtain ⟨start, halt, restart, sample, exchange⟩ := decodeTriggers_eq_some_iff.mp decoded
  have bits := toNat_and_layout (v := v) (m := fieldBits 0x01#8 0x01#8) [(0, 5), (1, 5), (1, 5), (1, 5), (1, 5)] rfl
  rw [bits, triggersWord, ← start, ← halt, ← restart, ← sample, ← exchange]
  simp only [layoutFields, Nat.reduceAdd]
  omega

theorem mapWord_of_decoded {e f : MapEntry} (decoded : decodeMapWord e v.toNat = some f) :
    mapWord f = (v &&& fieldBits 0x02#8 0x00#8).toNat := by
  obtain ⟨valid, -, -, direction, initiator, target⟩ := decodeMapWord_eq_some_iff.mp decoded
  have bits := toNat_and_layout (v := v) (m := fieldBits 0x02#8 0x00#8) [(0, 1), (3, 2), (2, 5), (3, 5)] rfl
  have bit := (flagBit_eq_iff f.valid v.toNat 0).mpr valid
  change _ = field v.toNat 0 1 at bit
  rw [bits, mapWord, bit, ← direction, ← initiator, ← target]
  simp only [layoutFields, Nat.reduceAdd]
  omega

theorem timingWord_of_written {p q : Profile} (written : writeProfile p .timing v.toNat = some q) :
    timingWord q = v.toNat := by
  obtain ⟨rfl, -⟩ := writeProfile_timing_eq_some_iff.mp written
  have small := v.isLt
  simp only [timingWord, field]
  omega

end
/-! ## Every stored write (R192) -/

/-- The bits of a word all of whose bits belong to fields. -/
theorem toNat_and_fieldBits {space word : Byte} (v : Word) (whole : fieldBits space word = 0xFFFFFFFF#32) :
    (v &&& fieldBits space word).toNat = v.toNat := by
  rw [whole, toNat_and_all]

section
variable (s : State) (v : Word)

/-- Stored DEVICE words. -/
theorem stores_writeDevice {word : Byte} (known : word ∈ [0x00#8, 0x01#8, 0x02#8, 0x03#8, 0x05#8])
    {answer : Status × State} (write : writeWord s (0x00#8).toNat (0x00#8).toNat word.toNat v.toNat = answer)
    (done : answer.1 = .done) :
    Stores s answer.2 0x00#8 0x00#8 word
      (v &&& fieldBits 0x00#8 word).toNat := by
  have writable : Writable 0x00#8 0x00#8 word := .inl ⟨rfl, rfl, known⟩
  simp only [List.mem_cons, List.not_mem_nil, or_false] at known
  obtain rfl | rfl | rfl | rfl | rfl := known
  · obtain ⟨p, decoded, result⟩ :=
      Option.map_eq_some_iff.mp (stored_of_done (write.symm.trans (writeWord_prescale s v.toNat)) done)
    obtain ⟨value, -⟩ := decodePrescale_eq_some_iff.mp decoded
    rw [← result, toNat_and_fieldBits v rfl, value]
    exact stores_device rfl (by simp [deviceWord]) ⟨rfl, rfl, rfl⟩
  · obtain ⟨p, decoded, result⟩ :=
      Option.map_eq_some_iff.mp (stored_of_done (write.symm.trans (writeWord_responseTimeout s v.toNat)) done)
    obtain ⟨value, -⟩ := decodeTimeout_eq_some_iff.mp decoded
    rw [← result, toNat_and_fieldBits v rfl, value]
    exact stores_device rfl (by simp [deviceWord]) ⟨rfl, rfl, rfl⟩
  · obtain ⟨p, decoded, result⟩ :=
      Option.map_eq_some_iff.mp (stored_of_done (write.symm.trans (writeWord_defaultTarget s v.toNat)) done)
    rw [← result]
    refine Stores.consider ?_ writable
    exact stores_device (congrArg some (defaultTargetWord_of_decoded decoded)) (by simp [deviceWord]) ⟨rfl, rfl, rfl⟩
  · obtain ⟨m, written, result⟩ :=
      Option.map_eq_some_iff.mp (stored_of_done (write.symm.trans (writeWord_markers s v.toNat)) done)
    rw [← result]
    exact stores_device (congrArg some (markersWord_of_written written)) (by simp [deviceWord]) ⟨rfl, rfl, rfl⟩
  · have result := Option.some.inj (stored_of_done (write.symm.trans (writeWord_deviceMask s v.toNat)) done)
    have bits : (v &&& fieldBits 0x00#8 0x05#8).toNat = (BitVec.ofNat 6 v.toNat).toNat := by
      rw [toNat_and_layout [(0, 6)] rfl, BitVec.toNat_ofNat]
      simp [layoutFields, field]
    rw [← result, bits]
    exact stores_device rfl (by simp [deviceWord]) ⟨rfl, rfl, rfl⟩

/-- Stored REGULATOR words. -/
theorem stores_writeRegulator {r : RegNo} {index word : Byte} (isRegulator : index.toNat = r.val)
    (known : word ∈ [0x00#8, 0x01#8, 0x02#8, 0x03#8, 0x04#8, 0x05#8, 0x0D#8])
    {answer : Status × State} (write : writeWord s (0x01#8).toNat r.val word.toNat v.toNat = answer)
    (done : answer.1 = .done) :
    Stores s answer.2 0x01#8 index word
      (v &&& fieldBits 0x01#8 word).toNat := by
  have writable : Writable 0x01#8 index word := .inr (.inl ⟨rfl, isRegulator ▸ r.isLt, known⟩)
  simp only [List.mem_cons, List.not_mem_nil, or_false] at known
  obtain rfl | rfl | rfl | rfl | rfl | rfl | rfl := known
  · obtain ⟨u, decoded, result⟩ :=
      Option.map_eq_some_iff.mp (stored_of_done (write.symm.trans (writeWord_setup s v.toNat r)) done)
    rw [← result]
    refine Stores.consider ?_ writable
    exact stores_regulator isRegulator (fun _ => congrArg some (setupWord_of_decoded decoded)) (by simp [regulatorWord])
  · obtain ⟨t, decoded, result⟩ :=
      Option.map_eq_some_iff.mp (stored_of_done (write.symm.trans (writeWord_triggers s v.toNat r)) done)
    rw [← result]
    exact stores_regulator isRegulator (fun _ => congrArg some (triggersWord_of_decoded decoded)) (by simp [regulatorWord])
  · obtain ⟨p, written, result⟩ :=
      Option.map_eq_some_iff.mp (stored_of_done (write.symm.trans (writeWord_activeTiming s v.toNat r)) done)
    have value := timingWord_of_written written
    obtain ⟨rfl, -⟩ := writeProfile_timing_eq_some_iff.mp written
    rw [← result, toNat_and_fieldBits v rfl]
    exact stores_regulator isRegulator (fun _ => congrArg some value) (by simp [regulatorWord])
  · obtain ⟨p, written, result⟩ :=
      Option.map_eq_some_iff.mp (stored_of_done (write.symm.trans (writeWord_activeBudget s v.toNat r)) done)
    obtain ⟨rfl, -⟩ := writeProfile_budget_eq_some_iff.mp written
    rw [← result, toNat_and_fieldBits v rfl]
    exact stores_regulator isRegulator (fun _ => rfl) (by simp [regulatorWord, timingWord])
  · obtain ⟨p, written, result⟩ :=
      Option.map_eq_some_iff.mp (stored_of_done (write.symm.trans (writeWord_standbyTiming s v.toNat r)) done)
    have value := timingWord_of_written written
    obtain ⟨rfl, -⟩ := writeProfile_timing_eq_some_iff.mp written
    rw [← result, toNat_and_fieldBits v rfl]
    exact stores_regulator isRegulator (fun _ => congrArg some value) (by simp [regulatorWord])
  · obtain ⟨p, written, result⟩ :=
      Option.map_eq_some_iff.mp (stored_of_done (write.symm.trans (writeWord_standbyBudget s v.toNat r)) done)
    obtain ⟨rfl, -⟩ := writeProfile_budget_eq_some_iff.mp written
    rw [← result, toNat_and_fieldBits v rfl]
    exact stores_regulator isRegulator (fun _ => rfl) (by simp [regulatorWord, timingWord])
  · have result := Option.some.inj (stored_of_done (write.symm.trans (writeWord_causeMask s v.toNat r)) done)
    have bits : (v &&& fieldBits 0x01#8 0x0D#8).toNat = (BitVec.ofNat 7 v.toNat).toNat := by
      rw [toNat_and_layout [(0, 7)] rfl, BitVec.toNat_ofNat]
      simp [layoutFields, field]
    rw [← result, bits]
    exact stores_regulator isRegulator (fun _ => rfl) (by simp [regulatorWord])

theorem decoded_of_soundMapWord {e f : MapEntry} {v : Nat} (sound : soundMapWord e v = some f) :
    decodeMapWord e v = some f :=
  (Option.filter_eq_some_iff.mp sound).1

/-- Stored MAP words. -/
theorem stores_writeMap {i : Fin 32} {index word : Byte} (isEntry : index.toNat = i.val)
    (known : word ∈ [0x00#8, 0x01#8, 0x02#8])
    {answer : Status × State} (write : writeWord s (0x02#8).toNat i.val word.toNat v.toNat = answer)
    (done : answer.1 = .done) :
    Stores s answer.2 0x02#8 index word
      (v &&& fieldBits 0x02#8 word).toNat := by
  have writable : Writable 0x02#8 index word := .inr (.inr ⟨rfl, isEntry ▸ i.isLt, known⟩)
  simp only [List.mem_cons, List.not_mem_nil, or_false] at known
  obtain rfl | rfl | rfl := known
  · obtain ⟨f, sound, result⟩ :=
      Option.map_eq_some_iff.mp (stored_of_done (write.symm.trans (writeWord_mapWord0 s v.toNat i)) done)
    have decoded := decoded_of_soundMapWord sound
    obtain ⟨-, base, limit, -⟩ := decodeMapWord_eq_some_iff.mp decoded
    rw [← result]
    refine Stores.consider ?_ writable
    exact stores_map isEntry (congrArg some (mapWord_of_decoded decoded)) (by simp [mapEntryWord, base, limit])
  · obtain ⟨f, written, result⟩ :=
      Option.map_eq_some_iff.mp (stored_of_done (write.symm.trans (writeWord_base s v.toNat i)) done)
    obtain ⟨rfl, -⟩ := writeBound_base_eq_some_iff.mp written
    rw [← result, toNat_and_fieldBits v rfl]
    refine Stores.consider ?_ writable
    exact stores_map isEntry rfl (by simp [mapEntryWord, mapWord])
  · obtain ⟨f, written, result⟩ :=
      Option.map_eq_some_iff.mp (stored_of_done (write.symm.trans (writeWord_limit s v.toNat i)) done)
    obtain ⟨rfl, -⟩ := writeBound_limit_eq_some_iff.mp written
    rw [← result, toNat_and_fieldBits v rfl]
    refine Stores.consider ?_ writable
    exact stores_map isEntry rfl (by simp [mapEntryWord, mapWord])

end

theorem stores_writeWord {s : State} {space index word : Byte} {v : Word}
    (done : (writeWord s space.toNat index.toNat word.toNat v.toNat).1 = .done) :
    Stores s (writeWord s space.toNat index.toNat word.toNat v.toNat).2 space index word
      (v &&& fieldBits space word).toNat := by
  by_cases writable : Writable space index word
  case neg =>
    rw [writeWord_of_not_writable writable] at done
    cases done
  obtain ⟨rfl, rfl, known⟩ | ⟨rfl, isRegulator, known⟩ | ⟨rfl, isEntry, known⟩ := writable
  · exact stores_writeDevice s v known rfl done
  · exact stores_writeRegulator s v (r := ⟨index.toNat, isRegulator⟩) rfl known rfl done
  · exact stores_writeMap s v (i := ⟨index.toNat, isEntry⟩) rfl known rfl done

theorem replyPart_done : replyPart .done [] = [0x00#8, 0x00#8] := by decide

/-- The frame of a write that is stored. -/
theorem exec_writeField_of_done {s : State} (ready : PortReady s) {space index word : Byte} {v : Word}
    (done : (writeWord s space.toNat index.toNat word.toNat v.toNat).1 = .done) :
    exec (.writeField space index word v) s =
      .next { (writeWord s space.toNat index.toNat word.toNat v.toNat).2 with
              sel := true, port := .reply [0x00#8, 0x00#8] } := by
  have run : exec (.writeField space index word v) s = .next (performReply (.writeField space index word v) s) :=
    exec_rowOf_of_portReady ready (.writeField space index word v)
  rw [run, ← replyPart_done, ← done]
  rfl

/-- Settles O40. -/
theorem storedWritesReadBack : Obligations.StoredWritesReadBack := by
  intro s space index word v ready done
  have stores := stores_writeWord done
  exact ⟨_, exec_writeField_of_done ready done, stores.here, stores.others⟩

/-- Settles O60: the row and WRITE FIELD are one event. -/
theorem writeRowsAreWritesOfTheirWords : Obligations.WriteRowsAreWritesOfTheirWords := by
  intro s index v write
  exact ⟨rfl, rfl, rfl, rfl, rfl, rfl, rfl, rfl, rfl, rfl, rfl, rfl, rfl, rfl, rfl⟩

/-- Settles O38. -/
theorem wordsReadTheirResetValues : Obligations.WordsReadTheirResetValues := by
  refine ⟨?device, ?regulators, ?map, ?lanes, ?outstanding⟩
  case device => decide
  case regulators => decide
  case map => decide
  case lanes => decide
  case outstanding => decide

end Sys2Proof.Machine
end

