-- ==== Sys2Proof/Proofs/StoredWords.lean ====
section
/-! The rows that write a word and the frame READ FIELD, for O37, O41, O42 and O43. -/

namespace Sys2Proof.Machine

/-! ## Rows that store a word -/

/-- The frame of a write whose word is free and whose value is taken. -/
theorem exec_writeField_of_stored {s t : State} (ready : PortReady s) {space index word : Byte} {v : Word} {locked : Bool}
    {stored : Option State}
    (guarded : writeWord s space.toNat index.toNat word.toNat v.toNat = guardedWrite locked s stored)
    (free : locked = false) (result : stored = some t) :
    exec (.writeField space index word v) s = .next { t with sel := true, port := .reply [0x00#8, 0x00#8] } := by
  have write := guarded.trans (guardedWrite_of_stored free result)
  rw [exec_writeField_of_done ready (congrArg Prod.fst write), write]

theorem anyInUse_eq_false {s : State} (rest : ∀ r : RegNo, (reg s r).state = .off ∨ (reg s r).state = .armed) :
    anyInUse s = false := by
  rw [← Bool.not_eq_true, anyInUse_iff]
  rintro ⟨r, used | used⟩ <;> rcases rest r with h | h <;> rw [used] at h <;> cases h

theorem laneInUse_eq_false {x : RegState} (rest : x = .off ∨ x = .armed) : laneInUse x = false := by
  rcases rest with rfl | rfl <;> rfl

/-- The markers under a written configuration (R160). -/
theorem writeMarkers_of_kinds {v : Nat} {lines : Vector Marker 4}
    (kinds : ∀ l : Fin 4, field v (8 * l.val + 4) 3 ≠ 7) :
    ∃ m, writeMarkers v lines = some m
      ∧ ∀ l : Fin 4, (m[l]).source.val = field v (8 * l.val) 4 ∧ markerKindCode (m[l]).kind = field v (8 * l.val + 4) 3
        ∧ (m[l]).pulseLeft =
            if (m[l]).source = (lines[l]).source ∧ (m[l]).kind = (lines[l]).kind then (lines[l]).pulseLeft else 0 := by
  have decoded : ∀ l : Fin 4, ∃ c, decodeMarker v (8 * l.val) = some c := fun l =>
    Option.ne_none_iff_exists'.mp fun refused => kinds l (decodeMarker_eq_none_iff.mp refused)
  choose c decoded using decoded
  refine ⟨_, writeMarkers_eq_some decoded, fun l => ?_⟩
  obtain ⟨source, kind⟩ := decodeMarker_eq_some_iff.mp (decoded l)
  have line : (Vector.ofFn fun l : Fin 4 => configureLine lines[l] (c l))[l] = configureLine lines[l] (c l) := by simp
  rw [line, source, kind, configureLine]
  split
  case isTrue same => exact ⟨congrArg Fin.val same.1, congrArg markerKindCode same.2, (if_pos ⟨rfl, rfl⟩).symm⟩
  case isFalse changed =>
    refine ⟨rfl, rfl, (if_neg fun same => changed ⟨same.1.symm, same.2.symm⟩).symm⟩

/-- Settles O41. -/
theorem deviceWordsAreStored : Obligations.DeviceWordsAreStored := by
  intro s v ready done
  refine ⟨fun rest atLeast atMost => ?_, fun atMost => ?_, fun target isTarget priority => ?_, fun kinds => ?_, ?_⟩
  · refine exec_writeField_of_stored ready (writeWord_prescale s v.toNat) (anyInUse_eq_false rest) ?_
    rw [decodePrescale_eq_some_iff.mpr ⟨rfl, atLeast, atMost⟩]
    rfl
  · refine exec_writeField_of_stored ready (writeWord_responseTimeout s v.toNat) rfl ?_
    rw [decodeTimeout_eq_some_iff.mpr ⟨rfl, atMost⟩]
    rfl
  · refine exec_writeField_of_stored ready (writeWord_defaultTarget s v.toNat) rfl ?_
    have decoded : decodeDefaultTarget v.toNat = some (target, v.toNat / 256 % 8) := by
      refine decodeDefaultTarget_eq_some_iff.mpr ⟨?_, rfl, priority⟩
      simpa [field] using isTarget
    rw [decoded]
    rfl
  · obtain ⟨m, written, line⟩ := writeMarkers_of_kinds (lines := s.markers) kinds
    refine ⟨m, exec_writeField_of_stored ready (writeWord_markers s v.toNat) rfl ?_, line⟩
    rw [written]
    rfl
  · refine exec_writeField_of_stored ready (writeWord_deviceMask s v.toNat) rfl ?_
    rw [BitVec.ofNat_toNat]

section
variable {s t : State} (ready : PortReady s) {r : RegNo} {v : Word} {locked : Bool} {stored : Option State}
include ready

/-- The frame of a write at regulator r. -/
theorem exec_writeRegulator_of_stored {word : Byte} (free : locked = false) (result : stored = some t)
    (guarded : writeWord s 1 r.val word.toNat v.toNat = guardedWrite locked s stored) :
    exec (.writeField 0x01#8 (BitVec.ofNat 8 r.val) word v) s =
      .next { t with sel := true, port := .reply [0x00#8, 0x00#8] } := by
  have index : (BitVec.ofNat 8 r.val).toNat = r.val := by
    rw [BitVec.toNat_ofNat]
    omega
  refine exec_writeField_of_stored ready ?_ free result
  rw [index]
  exact guarded

/-- The frame of a write at map entry i. -/
theorem exec_writeMap_of_stored {i : Fin 32} {word : Byte} (free : locked = false) (result : stored = some t)
    (guarded : writeWord s 2 i.val word.toNat v.toNat = guardedWrite locked s stored) :
    exec (.writeField 0x02#8 (BitVec.ofNat 8 i.val) word v) s =
      .next { t with sel := true, port := .reply [0x00#8, 0x00#8] } := by
  have index : (BitVec.ofNat 8 i.val).toNat = i.val := by
    rw [BitVec.toNat_ofNat]
    omega
  refine exec_writeField_of_stored ready ?_ free result
  rw [index]
  exact guarded

end

/-- Settles O42. -/
theorem regulatorWordsAreStored : Obligations.RegulatorWordsAreStored := by
  intro s r v ready done index g
  refine ⟨fun u off ok mode priority policy auto quota limit => ?_, fun t off start halt restart sample exchange => ?_,
    fun period openLength value atMost atLeast within => ?_, fun atMost => ?_, ?_⟩
  · refine exec_writeRegulator_of_stored ready ?_ ?_ (writeWord_setup s v.toNat r)
    · rw [off]; rfl
    · have decoded : decodeSetup r v.toNat = some u :=
        decodeSetup_eq_some_iff.mpr ⟨ok, by simpa [field] using mode, priority, policy, auto, quota, limit⟩
      rw [decoded]
      rfl
  · refine exec_writeRegulator_of_stored ready ?_ ?_ (writeWord_triggers s v.toNat r)
    · rw [off]; rfl
    · have decoded : decodeTriggers v.toNat = some t :=
        decodeTriggers_eq_some_iff.mpr ⟨by simpa [field] using start, halt, restart, sample, exchange⟩
      rw [decoded]
      rfl
  · have low : field v.toNat 0 16 = period := by
      simp only [field]
      omega
    have high : field v.toNat 16 16 = openLength := by
      simp only [field]
      omega
    have written : ∀ p : Profile, writeProfile p .timing v.toNat =
        some { p with period := period, openLength := openLength } := fun p =>
      writeProfile_timing_eq_some_iff.mpr (by rw [low, high]; exact ⟨rfl, by omega, atLeast, within⟩)
    refine ⟨fun rest => ?_, ?_⟩
    · refine exec_writeRegulator_of_stored ready (laneInUse_eq_false rest) ?_ (writeWord_activeTiming s v.toNat r)
      rw [written]
      rfl
    · refine exec_writeRegulator_of_stored ready rfl ?_ (writeWord_standbyTiming s v.toNat r)
      rw [written]
      rfl
  · have written : ∀ p : Profile, writeProfile p .budget v.toNat = some { p with budget := v.toNat } := fun p =>
      writeProfile_budget_eq_some_iff.mpr ⟨rfl, atMost⟩
    refine ⟨fun rest => ?_, ?_⟩
    · refine exec_writeRegulator_of_stored ready (laneInUse_eq_false rest) ?_ (writeWord_activeBudget s v.toNat r)
      rw [written]
      rfl
    · refine exec_writeRegulator_of_stored ready rfl ?_ (writeWord_standbyBudget s v.toNat r)
      rw [written]
      rfl
  · refine exec_writeRegulator_of_stored ready rfl ?_ (writeWord_causeMask s v.toNat r)
    rw [BitVec.ofNat_toNat]

/-- Settles O43. -/
theorem mapWordsAreStored : Obligations.MapWordsAreStored := by
  intro s i v ready done index e store
  refine ⟨fun invalid atMost => ⟨?_, ?_⟩, fun valid d initiator target bit direction initiators targets sound => ?_⟩
  · refine exec_writeMap_of_stored ready invalid ?_ (writeWord_base s v.toNat i)
    rw [writeBound_base_eq_some_iff.mpr ⟨rfl, atMost⟩]
    rfl
  · refine exec_writeMap_of_stored ready invalid ?_ (writeWord_limit s v.toNat i)
    rw [writeBound_limit_eq_some_iff.mpr ⟨rfl, atMost⟩]
    rfl
  · have validIs : valid = flag v.toNat 0 := (flagBit_eq_iff valid v.toNat 0).mp (by simpa using bit.symm)
    have decoded : decodeMapWord e v.toNat =
        some { e with valid := valid, direction := d, initiator := initiator, target := target } :=
      decodeMapWord_eq_some_iff.mpr ⟨validIs, rfl, rfl, direction, initiators, targets⟩
    have sound' : soundMapWord e v.toNat =
        some { e with valid := valid, direction := d, initiator := initiator, target := target } := by
      refine Option.filter_eq_some_iff.mpr ⟨decoded, ?_⟩
      cases valid with
      | false => rfl
      | true => simpa using (sound rfl).2
    refine exec_writeMap_of_stored ready ?_ ?_ (writeWord_mapWord0 s v.toNat i)
    · rw [← validIs]
      cases valid with
      | false => simp
      | true =>
        have invalid : (s.map[i]).valid = false := (sound rfl).1
        rw [invalid]
        rfl
    · rw [sound']
      rfl

end Sys2Proof.Machine
end

