-- ==== Sys2Proof/Proofs/ReadField.lean ====
section
/-! READ FIELD (R191): which words exist and what they read as, for O37. -/

namespace Sys2Proof.Machine

/-! ## Which words exist (R191) -/

theorem deviceWord_exists_iff (s : State) (word : Nat) : (∃ v, deviceWord s word = some v) ↔ word < 8 := by
  match word with
  | 0 | 1 | 2 | 3 | 4 | 5 | 6 | 7 => simp [deviceWord]
  | _ + 8 => simp [deviceWord]

theorem regulatorWord_exists_iff (g : Regulator) (length word : Nat) :
    (∃ v, regulatorWord g length word = some v) ↔ word < 14 := by
  match word with
  | 0 | 1 | 2 | 3 | 4 | 5 | 6 | 7 | 8 | 9 | 10 | 11 | 12 | 13 => simp [regulatorWord]
  | _ + 14 => simp [regulatorWord]

theorem mapEntryWord_exists_iff (e : MapEntry) (word : Nat) : (∃ v, mapEntryWord e word = some v) ↔ word < 3 := by
  match word with
  | 0 | 1 | 2 => simp [mapEntryWord]
  | _ + 3 => simp [mapEntryWord]

theorem laneOfIndex_exists_iff (index : Nat) : (∃ l, laneOfIndex index = some l) ↔ index < 17 := by
  unfold laneOfIndex
  split
  · simp; omega
  · split <;> simp <;> omega

/-- The word of a lane (R203). -/
theorem readWord_lane {index : Nat} {l : Lane} (lane : laneOfIndex index = some l) (s : State) :
    readWord s 3 index 0 = some (laneWord (laneLength s l) (laneHead s l)) := by
  simp [readWord, lane]

/-- The word of a place of the outstanding table (R203). -/
theorem readWord_outstanding (s : State) (i : Fin 64) : readWord s 4 i.val 0 = some (outstandingWord s.outstanding[i]) :=
  dif_pos i.isLt

/-- A word reads as a value exactly when it exists. -/
theorem readWord_exists_iff_numbers (s : State) (space index word : Nat) :
    (∃ v, readWord s space index word = some v) ↔
      (space = 0 ∧ index = 0 ∧ word < 8) ∨ (space = 1 ∧ index < 16 ∧ word < 14) ∨ (space = 2 ∧ index < 32 ∧ word < 3)
        ∨ (space = 3 ∧ index < 17 ∧ word = 0) ∨ (space = 4 ∧ index < 64 ∧ word = 0) := by
  match space with
  | 0 => by_cases h : index = 0 <;> simp [readWord, h, deviceWord_exists_iff]
  | 1 => by_cases h : index < 16 <;> simp [readWord, h, regulatorWord_exists_iff]
  | 2 => by_cases h : index < 32 <;> simp [readWord, h, mapEntryWord_exists_iff]
  | 3 =>
    have lane := laneOfIndex_exists_iff index
    cases found : laneOfIndex index with
    | none =>
      rw [found] at lane
      simp [readWord, found] at lane ⊢
      omega
    | some l =>
      rw [found] at lane
      have small : index < 17 := lane.mp ⟨l, rfl⟩
      by_cases h : word = 0 <;> simp [readWord, found, small, h]
  | 4 => by_cases h : index < 64 <;> by_cases h' : word = 0 <;> simp [readWord, h, h']
  | _ + 5 => simp [readWord]

theorem readWord_exists_iff (s : State) (space index word : Byte) :
    (∃ v, readWord s space.toNat index.toNat word.toNat = some v) ↔ Existing space index word := by
  rw [readWord_exists_iff_numbers]
  simp only [Existing, ← BitVec.toNat_inj]
  rfl

/-! ## The frame READ FIELD -/

section
variable {s : State} (ready : PortReady s)
include ready

theorem exec_readField (space index word : Byte) :
    exec (.readField space index word) s =
      .next (enterReply (readField s space.toNat index.toNat word.toNat).1
        (readField s space.toNat index.toNat word.toNat).2 s) :=
  exec_rowOf_of_portReady ready (.readField space index word)

/-- The frame of a word that reads as a value. -/
theorem exec_readField_of_word {space index word : Byte} {v : Nat}
    (value : readWord s space.toNat index.toNat word.toNat = some v) :
    exec (.readField space index word) s =
      .next { s with sel := true, port := .reply ([0x00#8] ++ bytesOfNat 4 v ++ [crc8 ([0x00#8] ++ bytesOfNat 4 v)]) } := by
  have reply : readField s space.toNat index.toNat word.toNat = (.done, bytesOfNat 4 v) := by
    rw [readField, value]
  rw [exec_readField ready, reply]
  rfl

/-- The frame of a word that does not exist. -/
theorem exec_readField_of_no_word {space index word : Byte} (missing : ¬ Existing space index word) :
    exec (.readField space index word) s =
      .next { s with sel := true, port := .reply (replyPart .index [0x00#8, 0x00#8, 0x00#8, 0x00#8]) } := by
  have absent : readWord s space.toNat index.toNat word.toNat = none :=
    Option.eq_none_iff_forall_ne_some.mpr fun v value => missing ((readWord_exists_iff s space index word).mp ⟨v, value⟩)
  have reply : readField s space.toNat index.toNat word.toNat = (.index, bytesOfNat 4 0) := by
    rw [readField, absent]
  rw [exec_readField ready, reply]
  rfl

end

theorem toNat_ofNat_byte {n : Nat} (small : n < 256) : (BitVec.ofNat 8 n).toNat = n := by
  rw [BitVec.toNat_ofNat]
  omega

/-- The word of a regulator at its index byte. -/
theorem readWord_regulatorByte (s : State) (r : RegNo) (word : Byte) :
    readWord s (0x01#8).toNat (BitVec.ofNat 8 r.val).toNat word.toNat =
      regulatorWord (reg s r) (laneLength s (.regulator r)) word.toNat := by
  have index : (BitVec.ofNat 8 r.val).toNat = r.val := toNat_ofNat_byte (by omega)
  rw [index]
  exact dif_pos r.isLt

/-- STATE and EXCHANGE PENDING of the status word as R201 spells them. -/
theorem flagBit_mul (b : Bool) (n : Nat) : flagBit b * n = if b then n else 0 := by
  cases b <;> simp [flagBit]

theorem laneOfIndex_of_lane {l : Fin 17} {lane : Lane} (isLane : ∀ r : RegNo, lane = .regulator r ↔ l.val = r.val) :
    laneOfIndex l.val = some lane := by
  unfold laneOfIndex
  split
  case isTrue small => exact congrArg some ((isLane ⟨l.val, small⟩).mpr rfl).symm
  case isFalse large =>
    have last : l.val = 16 := by omega
    rw [if_pos last]
    cases lane with
    | bypass => rfl
    | regulator r =>
      have same := (isLane r).mp rfl
      omega

/-- Settles O37. -/
theorem readFieldAnswersExistingWords : Obligations.ReadFieldAnswersExistingWords := by
  intro s ready reads
  have answers : ∀ {space index word : Byte} {v : Nat}, readWord s space.toNat index.toNat word.toNat = some v →
      reads space index word v := fun value => ⟨value, exec_readField_of_word ready value⟩
  refine ⟨fun space index word => ⟨fun exists' => ?_, exec_readField_of_no_word ready⟩, ?_, ?_, ?_, fun r => ?_,
    fun l lane isLane => ?_, fun i => ?_⟩
  · obtain ⟨v, value⟩ := (readWord_exists_iff s space index word).mpr exists'
    exact ⟨v, answers value⟩
  · exact answers (readWord_device s 4)
  · exact answers (readWord_device s 6)
  · exact answers (readWord_device s 7)
  · intro g readsReg state
    have word := readWord_regulatorByte s r
    refine ⟨answers (word 0x02#8), answers (word 0x03#8), answers (word 0x04#8), answers (word 0x05#8), answers ?_,
      answers (word 0x07#8), answers (word 0x08#8), answers (word 0x09#8), answers (word 0x0A#8), answers (word 0x0B#8),
      answers (word 0x0C#8)⟩
    have stateIs : stateCode g.state = state := by
      simp only [state]
      cases g.state <;> rfl
    rw [word 0x06#8, ← stateIs, ← flagBit_mul]
    rfl
  · intro length
    have index : (BitVec.ofNat 8 l.val).toNat = l.val := toNat_ofNat_byte (by omega)
    refine answers ?_
    rw [index]
    refine (readWord_lane (laneOfIndex_of_lane isLane) s).trans (congrArg some ?_)
    simp only [laneWord, laneHead, laneLength, length]
    cases s.pool.find? fun e => e.lane == lane with
    | none => rfl
    | some e => cases kind : e.kind <;> simp [headBits, kind, Nat.add_assoc]
  · have index : (BitVec.ofNat 8 i.val).toNat = i.val := toNat_ofNat_byte (by omega)
    refine answers ?_
    rw [index]
    refine (readWord_outstanding s i).trans (congrArg some ?_)
    cases s.outstanding[i] with
    | none => rfl
    | some e =>
      obtain ⟨state, key, direction, length, charged, age, place⟩ := e
      cases direction <;> cases state <;> cases charged <;> rfl

end Sys2Proof.Machine
end
